-- ==== Sys2Proof/Word.lean ====
section
/-! DEFINITION. The word types of the module (R2, R3, R377) and nothing else. -/
namespace Sys2Proof

/-- An aligned 64-bit word: a register, or one single-copy-atomic word of memory (R377). -/
abbrev Word := BitVec 64

/-- One byte; every multi-byte value is little-endian (R3). -/
abbrev Byte := BitVec 8

end Sys2Proof
end

