-- ==== Sys2Proof/Syntax.lean ====
section
/-! DEFINITION. The commands of the block: one constructor per row of the table of operations and events,
with the units each names and the values its environment measures or sends. -/
namespace Sys2Proof

/-- A firmware processor (R687). -/
inductive FwProc where
  | sec | pwr | sched | ctl (n : Fin 32)
  deriving DecidableEq, Repr

/-- A unit as event records name it: class and index of R654. -/
structure UnitId where
  cls : Nat
  idx : Nat
  deriving DecidableEq, Repr

/-- What stack and Damger training settle on (R261, R562): a speed bin for each stack or none where it
failed; the fibre pairs and half rate of the Damger link or none where it failed. -/
structure TrainResult where
  bins : List (Option (Fin 3))
  damger : Option (Nat × Bool)
  deriving DecidableEq, Repr

/-- A failed checker of R650: its unit, the pattern and the syndrome seen. -/
structure CheckerFail where
  unit : UnitId
  pattern : Nat
  syndrome : Nat
  deriving DecidableEq, Repr

/-- What self-test finds (R186 to R194, R650): failed checkers, failing columns of a core, faults (3 to 5 of
MXA_SELFTEST) and failing classes of a core, unusable spare lines of banks and scratchpads, failed engines. -/
structure SelfTest where
  checkers : List CheckerFail
  columns : List (Fin 256 × Word)
  faults : List (Fin 256 × Nat)
  classes : List (Fin 256 × BitVec 8)
  bankSpares : List (Fin 12 × Fin 16 × Fin 64 × Fin 16)
  spadSpares : List (Fin 256 × Fin 4)
  engines : List (Fin 8)
  deriving DecidableEq, Repr

/-- What the environment makes of a boot: whether the helper data gives the endorsed identity (R694), whether
the flash device answers, and whether the Damger link trains where BOOT ends in HOLD (R720). -/
structure BootInput where
  pufOk : Bool
  flashOk : Bool
  damger : Option (Nat × Bool)
  deriving DecidableEq, Repr

/-- What the monitors of R619 report with a measurement: supply voltages of the cluster in mV from its top level
to 7; stacks (SPAR voltage in mV, retention in tenths of the normal refresh interval, failing at the highest
voltage); lasers (number, bias current, percent of the maximum). -/
structure PlanReport where
  mv : List Nat
  memStacks : List (Fin 12 × Nat × Nat × Bool)
  lasers : List (Nat × Nat × Nat)
  deriving DecidableEq, Repr

/-- Who makes a memory request (R660). -/
inductive Requester where
  | mastSlot | mover | afu | spar | turner | damger | fabric | firmware | scraper | commitLog
  deriving DecidableEq, Repr

/-- Stored bits of a cluster that an error upsets (R627): a word of an instruction-memory bank (B for true), of the window of a
resident slot, or of a core's scratchpad or accumulator memory; a g register, a p register, a word of a v or an m register of a core;
a word of a context's line in the cluster cache, by its address. -/
inductive ClSite where
  | imem (bank : Bool) (w : Nat) | window (slot : Fin 8) (w : Nat) | spad (core : Fin 8) (w : Nat)
  | g (i : Fin 32) | p (i : Fin 16) | v (core : Fin 8) (i w : Fin 32) | m (core i : Fin 8) (w : Fin 2)
  | acc (core : Fin 8) (w : Fin 32768) | cache (ctx : Fin 4096) (w : Nat)
  deriving DecidableEq, Repr

/-- Stored bits of a spar core that an error upsets (R627): a word of its instruction or data memory, a k register, a word of a latch
of one of its banks (0 or 1), or an entry of its step queue. -/
inductive SpSite where
  | code (w : Nat) | dmem (w : Nat) | k (i : Fin 16) | latch (bank : Fin 2) (i : Fin 4) (w : Fin 128) | step (i : Nat)
  deriving DecidableEq, Repr

/-- An item of bookkeeping memory (R643): an entry of an allocation's page list, of a KV region's table, a region's generation record, a frame's
reference count, a port's credit counts, a group of meters of a context or of the overhead account, or the recorder's counters. -/
inductive BookItem where
  | page (ctx : Fin 4096) (alloc page : Nat) | kv (dep : BitVec 16) (slot page : Nat) | gen (dep : BitVec 16) (slot : Nat) | refs (frame : Nat)
  | credits (port : Fin 16) | meters (ctx : Option (Fin 4096)) (group : Fin 7) | recorder
  deriving DecidableEq, Repr

/-- Errors that have struck stored bits beside the word that a request names (log entry 9): the bits of a word of a cluster or of a
spar core, or an item of bookkeeping memory of which a word has become uncorrectable. -/
inductive Strike where
  | cluster (c : Fin 32) (site : ClSite) (bits : BitVec 72) | spar (s : Fin 12) (k : Fin 512) (site : SpSite) (bits : BitVec 72)
  | book (item : BookItem)
  deriving DecidableEq, Repr

/-- A request that reaches a stack controller (R247, R248): requester, context, cluster or stack, whether on
behalf of an LC command, the device physical address, a word to write or none for a read, the command's
dispatch sequence, the bits of the word upset since it was last written, and what errors have struck elsewhere (log entry 9), and
the path, as TRANSPORT_POISON numbers it, on which the transfer of the word has failed 8 times in a row (R629). -/
structure MemReq where
  who : Requester
  ctx : Fin 4096
  unit : Nat
  lc : Bool
  dpa : BitVec 44
  data : Option Word
  seq : Nat
  upset : BitVec 72
  strikes : List Strike := []
  lost : Option (Fin 5) := none
  deriving DecidableEq, Repr

/-- A flit (R535, R536), its link-layer fields included. -/
structure Flit where
  dst : BitVec 16
  src : BitVec 16
  seq : BitVec 16
  op : BitVec 8
  vc : Fin 4
  dstCtx : Fin 4096
  va : BitVec 52
  coll : BitVec 16
  srcCtx : Fin 4096
  aux : BitVec 32
  payload : List Word
  ack : BitVec 16
  credVc : BitVec 4
  credShared : BitVec 12
  parity : BitVec 32 := 0
  crc : BitVec 32 := 0
  deriving DecidableEq, Repr

/-- What the steps of R530 measure on a port: wavelengths lit in both directions, the best rate that passes
(0: 200, 1: 100, 2: 50 Gb/s), FEC in use, 128 B flits, the largest round trip in ns, the partner's node. -/
structure PortTraining where
  waves : Nat
  rate : Fin 3
  fec : Bool
  small : Bool
  rttNs : Nat
  partner : BitVec 16
  deriving DecidableEq, Repr

/-- The master of a control-window write (R569, SEQ_IMEM_LOAD, SPAR_IMEM_LOAD). -/
inductive Master where
  | companion | firmware | control (n : Fin 32)
  deriving DecidableEq, Repr

/-- The commands, in the order of the table. -/
inductive Instr where
  -- power, start-up, sideband
  | inputPowerApplied | inputPowerLost | inputFault (mv : Nat) | modEnDeassert | resetLAssert | standbyExit
  | bootSequence (b : BootInput) | trainComplete (r : TrainResult) | selftestComplete (t : SelfTest)
  | fwHang (p : FwProc) | sidebandWrite (pecOk : Bool) (data : List Byte) | entdaa | rstdaa | thmTripClear
  -- governor, thermal model, trip, margin plan
  | powerSample (watts mv energyUj : Nat) | powerFloorEval | powerClamp | clampRelease | pwrCapWrite (v : Word)
  | estimatorScaling (zones : List Nat) (claims : List (Fin 4 × Option (Fin 4096) × Nat))
  | reefSlewDone (c : Fin 32) | thermalModelUpdate (tempsQ4 : List Int) (coolant : Nat)
  | tripModelUpdate (coarseQ4 : List Int) (dram : List Nat) | regulatorOvertemp (zone : Fin 4)
  | coolingEntry | coolingExit (modEn : Bool) | planRequest | planRebuildStart
  | planMeasurement (c : Fin 32) (top : Fin 8) (abandoned : Bool) (r : PlanReport) | planOverdue | marginWarning (c : Fin 32)
  -- stack controllers
  | memoryRequest (r : MemReq) | bankSlot (s : Fin 12) (d : Fin 16) (b : Fin 64)
  | refreshDue (s : Fin 12) (d : Fin 16) (b : Fin 64) | beRequestAged (s : Fin 12) (d : Fin 16) (b : Fin 64)
  | mcSensorRead (s : Fin 12) (temp : Nat) | scraperVisit (s : Fin 12) (d : Fin 16) (b : Fin 64)
  | scraperOverdue (s : Fin 12) | turnerBlock (s : Fin 12) | blankFillDone (dpa : BitVec 44) | mcCeClear (s : Fin 12)
  -- clusters
  | seqImemLoad (c : Fin 32) (m : Master) (v : Word) | imemLoadDone (c : Fin 32) | commandBoundary (c : Fin 32)
  | commandFirstBundle (c : Fin 32) | issueCycle (c : Fin 32) | waitRepoll (c : Fin 32) | cacheMissFill (c : Fin 32)
  | unfurlEnd (c : Fin 32) | arrayFurl (c : Fin 32)
  | scratchpadBankArbitration (c : Fin 32) (parityErr : BitVec 8) | feederUnderflow (c : Fin 32)
  -- spar cores
  | sparIssue (s : Fin 12) (k : Fin 512) | rowStepEnd (s : Fin 12) (k : Fin 512) | cntResult (s : Fin 12) (k : Fin 512)
  | edgeBitsArrive (s : Fin 12) (k : Fin 512) | chainWordArrive (s : Fin 12) (k : Fin 512) (up : Bool)
  | atomicBlockStart (s : Fin 12) (k : Fin 512) | sparCoreRelease (s : Fin 12) (k : Fin 512)
  | sparImemLoad (s : Fin 12) (m : Master) (v : Word) | sparImemLoadDone (s : Fin 12)
  -- movers and AFU
  | moverTransfer (c : Fin 32) (n : Fin 8) | afuBlockStaged (c : Fin 32)
  -- dispatch, scheduling, commit
  | mastDispatch (ctx : Fin 4096) (q : Fin 16) | sparDispatch (ctx : Fin 4096) (q : Fin 16)
  | moveDispatch (ctx : Fin 4096) (q : Fin 16) | draftCopyDone (seq page : Nat)
  | draftWaitEvent (ctx : Fin 4096) (q : Fin 16) | pageLimitEvent (ctx : Fin 4096) (q : Fin 16)
  | admissionWindow | killComplete (seq : Nat) | slotEviction (c : Fin 32) (ctx : Fin 4096)
  | swapComplete (c : Fin 32) (slot : Fin 8) | commit (seq : Nat) | waitBudgetExpire (seq : Nat) (unit : Nat)
  | preemptOverdue (seq : Nat) | deadlockSearch | wcetOverrun (seq : Nat)
  | hyvalWaitRelease (ctx : Fin 4096) (q : Fin 16) | drainComplete (ctx : Fin 4096) | ctxDestroyComplete (ctx : Fin 4096)
  -- Hyval rings and registers
  | sqTailDoorbell (ctx : Fin 4096) (q : Fin 16) (tail : BitVec 32) | hyvQRestart (ctx : Fin 4096) (q : Fin 16)
  | hyvServeCtlRestart (ctx : Fin 4096) (deploy : BitVec 16) | hyvVersionWrite (v : BitVec 8)
  -- submission entries, each the entry at the head of its queue
  | launchMast (ctx : Fin 4096) (q : Fin 16) | launchSpar (ctx : Fin 4096) (q : Fin 16) | move (ctx : Fin 4096) (q : Fin 16)
  | fence (ctx : Fin 4096) (q : Fin 16) | signal (ctx : Fin 4096) (q : Fin 16) | hyvalWait (ctx : Fin 4096) (q : Fin 16)
  | alloc (ctx : Fin 4096) (q : Fin 16) | free (ctx : Fin 4096) (q : Fin 16) | map (ctx : Fin 4096) (q : Fin 16)
  | unmap (ctx : Fin 4096) (q : Fin 16) | descCreate (ctx : Fin 4096) (q : Fin 16) | descDestroy (ctx : Fin 4096) (q : Fin 16)
  | deploy (ctx : Fin 4096) (q : Fin 16) | admitEntry (ctx : Fin 4096) (q : Fin 16) | cancel (ctx : Fin 4096) (q : Fin 16)
  | pause (ctx : Fin 4096) (q : Fin 16) | resume (ctx : Fin 4096) (q : Fin 16)
  | undeployFinish (ctx : Fin 4096) (q : Fin 16) | undeployCancel (ctx : Fin 4096) (q : Fin 16)
  | collective (ctx : Fin 4096) (q : Fin 16) | abortCollective (ctx : Fin 4096) (q : Fin 16)
  -- admin commands, each the command latched by HYV_ADMIN_GO
  | ctxCreate | ctxEnable | ctxDisableFinish | ctxDisableKill | ctxDestroy
  | grantCounters | grantRevoke | grantComplete (ctx : Fin 4096)
  | inlayArm | inlayDisarm | inlayArmComplete
  | stayOpen | stayOpenTimeout (pos : Fin 8) | stayClose | stayCloseDrainEnd (pos : Fin 8) | stayClosed (pos : Fin 8)
  | updateStage (kind : Byte) | updateStageComplete (package : List Byte) (flashOk : Bool) | updateSelect | updateConfirm
  | attest | attestComplete | timeProbe (tA tB : Nat) | ackHold
  -- serving
  | stepBoundary (dep : BitVec 16) | fillWaitEnd (dep : BitVec 16)
  | serveStageDone (dep : BitVec 16) (logits : List (List (BitVec 32))) (drafts : List (List (Nat × BitVec 32 × List (BitVec 32))))
  | tokenRecordPost (dep : BitVec 16) | hostTierCopyDone (dep : BitVec 16) (slot page : Nat)
  | resumePageReturn (dep : BitVec 16) (slot page : Nat)
  -- shroud fabric
  | flitSend (p : Fin 16) | linkIdleTimer (p : Fin 16) | badFlit (p : Fin 17)
  | remoteWrite (p : Fin 16) (f : Flit) | remoteAccum (p : Fin 16) (f : Flit) | remoteSignal (p : Fin 16) (f : Flit)
  | ready (p : Fin 16) (f : Flit) | endFlit (p : Fin 16) (f : Flit) | e2eAck (p : Fin 16) (f : Flit) | nack (p : Fin 16) (f : Flit)
  | replayReq (p : Fin 17) (f : Flit) | idle (p : Fin 16) (f : Flit) | train (p : Fin 16)
  | portTrainingComplete (p : Fin 16) (r : Option PortTraining) | linkLoss (p : Fin 16) (reason : Fin 8)
  | collectivePartSend (seq : Nat) | collectiveBudgetExpire (seq : Nat) | shrNodeIdWrite (v : Word)
  -- Damger link
  | damgerTraining (r : Option (Nat × Bool)) | damgerLinkLoss (inFlight : Nat)
  | damgerInboundRead (tag : Fin 4096) (va : BitVec 52) (len : Nat) (keep : Bool) | damgerInboundWrite (tag : Fin 4096) (va : BitVec 52) (data : List Byte)
  -- recorder, counters, accounting, registers
  | eventPersist (flashOk : Bool) | evrLatch | evrWindowCopy | evrCodeLimitWrite (v : Word)
  | ctrFreeze | freezeDone | sampleRecord (ctx : Fin 4096) (slot : Fin 4) (where_ : Nat) (unit : Nat) | ctrUserValueRead (ctx : Fin 4096)
  | frameMsTick | accountingInterval | registerWrite (m : Master) (offset : BitVec 26) (size : Nat) (v : Word)
  | lineRecallComplete (dpa : BitVec 44) (dirty : Option (List Byte))
  deriving DecidableEq, Repr

end Sys2Proof
end

