-- ==== Sys2Proof/Config.lean ====
section
/-! DEFINITION. What an implementation fixes and the manual leaves open (free values: constants without a
body, so that nothing can be proved from a value of theirs), and the fixed geometry of the part. -/
namespace Sys2Proof.Config

/-- A free value of `w` bits for the `k`-th time one is drawn (log entry 1): results the manual leaves
unspecified (R140, R172, R210, R384). -/
opaque freeBits : (w k : Nat) → BitVec w

/-- A free choice for the `k`-th time one is made (log entry 2): which free frame, grain page, spare line,
stored element or cluster is taken (R240, R244, R357, R411). -/
opaque freeChoice : (k : Nat) → Nat

/-- What a transcendental approximation answers, before the error bound of R223 is applied (log entry 3):
the opcode, the lane width and the operand bits. -/
opaque approx : (op width : Nat) → (x : Nat) → Nat

/-- The event numbers that the manual does not give, by a name's index (log entry 4, R660). -/
opaque eventNumber : Nat → BitVec 12

/-- The severities, 0 to 6, that the manual does not give, by a name's index (log entry 4, R654). -/
opaque eventSeverity : Nat → Fin 7

/-- The snapshot lengths, 0 to 14, that the manual does not give, by a name's index (log entry 4, R660). -/
opaque eventWords : Nat → Fin 15

/-- SHA-256 of a byte string, an external standard (log entry 5, R72, R693). -/
opaque sha256 : List Byte → BitVec 256

/-- Whether an ECDSA P-256 signature over a message verifies under a key (log entry 5, R693). -/
opaque ecdsaOk : (key sig : List Byte) → (msg : List Byte) → Bool

/-- The ROM digests of the four signing keys (log entry 5, R695). -/
opaque romDigest : Nat → BitVec 256

/-- The identity public key that the silicon's response gives at this power-on (log entry 5, R691). -/
opaque identityKey : List Byte

/-- ECDSA P-256 signature of a message by the identity key (log entry 5, R713). -/
opaque identitySign : List Byte → List Byte

/-- AES-256-GCM decryption of an update package under its wrapped content key: none where the key does not
unwrap or the tag fails (log entry 5, R704). -/
opaque openPackage : (header payload : List Byte) → Option (List Byte)

/-- Plichaell's delta format applied to a base image (log entry 5, R704). -/
opaque applyDelta : (base delta : List Byte) → List Byte

/-- The margin plan as bytes, from its entries of clusters (top level; supply voltages), stacks and lasers; its format is not
given (log entry 5, R619, R713). -/
opaque planBytes : (tops : List (Nat × Nat)) → (mv : List (Nat × List Nat)) → (memStacks lasers : List (Nat × Nat × Nat)) → List Byte

/-- The top level of a cluster in the plan that a seed gives; its format is not given (log entry 5, R619, R700). -/
opaque seedTop : (seed : List Byte) → (cluster : Nat) → Fin 8

/-- The value u that the stochastic rounding generator of a core supplies, from the seed of its command (context, dispatch sequence,
global core number) and how many it has supplied since (log entry 1, R209, R210). -/
opaque stochastic : (ctx seq core drawn : Nat) → BitVec 16

/-- The column of the check matrix for stored bit `i`, data bits 0 to 63 and check bits 64 to 71; the matrix is
not published (log entry 6, R628, R739). -/
opaque column : Nat → BitVec 8

/-- The counter-based generator of a sampling draw, keyed by seed and position, as a fraction of 2^32
(log entry 7, R466). -/
opaque samplingDraw : (seed : Word) → (position : Nat) → BitVec 32

/-- The request seed that the module derives when the ADMIT record gives 0 (log entry 7, R466). -/
opaque derivedSeed : (reqId arrival : Nat) → Word

/-- Clusters, cores of a cluster, stacks, dies, banks of a die, spar cores of a die (R12 to R18). -/
def clusters : Nat := 32
def coresPerCluster : Nat := 8
def memStacks : Nat := 12
def dies : Nat := 16
def banksPerDie : Nat := 64
def sparPerDie : Nat := 32
def ports : Nat := 16
def positions : Nat := 8
def contexts : Nat := 4096

/-- ARITH clock in MHz at a reef level (R40). -/
def clockMHz : Nat → Nat
  | 0 => 3600 | 1 => 3400 | 2 => 3200 | 3 => 2800 | 4 => 2400 | 5 => 2000 | 6 => 1400 | _ => 800

/-- How long the supply voltage of a cluster takes to settle for a change to a faster clock that begins at `now`, before the
bound of R604 is applied (log entry 8). -/
opaque settleTime : (c now : Nat) → Nat

/-- Quota tokens at a reef level: q × 1,024 (R40, R332). -/
def quotaPool : Nat → Nat
  | 0 => 1024 | 1 => 1024 | 2 => 896 | 3 => 768 | 4 => 640 | 5 => 512 | 6 => 384 | _ => 256

/-- The stack edge, 0 to 3, of a cluster and of a stack (R17). -/
def edgeOfCluster (c : Nat) : Nat := c / 8
def edgeOfStack (s : Nat) : Nat := s / 3

/-- The near, far and remote stacks of a cluster (R17). -/
def nearStacks (c : Nat) : List Nat := (List.range 3).map (· + 3 * (c / 8))
def farStacks (c : Nat) : List Nat := (List.range 3).map (· + 3 * (c / 16 * 2 + (1 - c / 8 % 2)))
def remoteStacks (c : Nat) : List Nat := (List.range 6).map (· + 6 * (1 - c / 16))

end Sys2Proof.Config
end

