-- ==== Sys2Proof/Machine/Tab.lean ====
section
/-! DEFINITION. Finite maps by number: a list of (key, value) pairs in one canonical form (keys strictly
rising, no value equal to the default), with read, write, and the byte and word helpers built on lists. -/
namespace Sys2Proof.Machine

/-- A finite map from numbers: what is not listed reads as a default that the reader names. -/
abbrev Tab (α : Type) := List (Nat × α)

/-- The value at `i`, or `d` where nothing is listed. -/
def Tab.get {α : Type} (d : α) : Tab α → Nat → α
  | [], _ => d
  | (k, v) :: r, i => if i = k then v else Tab.get d r i

/-- Everything listed at `i` taken out. -/
def Tab.erase {α : Type} : Tab α → Nat → Tab α
  | [], _ => []
  | (k, v) :: r, i => if i = k then Tab.erase r i else (k, v) :: Tab.erase r i

/-- A pair put before the first larger key. -/
def Tab.ins {α : Type} : Tab α → Nat → α → Tab α
  | [], i, v => [(i, v)]
  | (k, w) :: r, i, v => if i < k then (i, v) :: (k, w) :: r else (k, w) :: Tab.ins r i v

/-- `t` with `v` at `i`; a value equal to the default is not listed, so equal maps are equal lists. -/
def Tab.put {α : Type} [DecidableEq α] (d : α) (t : Tab α) (i : Nat) (v : α) : Tab α :=
  if v = d then Tab.erase t i else Tab.ins (Tab.erase t i) i v

/-- The value at `i` rewritten by `f`. -/
def Tab.upd {α : Type} [DecidableEq α] (d : α) (t : Tab α) (i : Nat) (f : α → α) : Tab α :=
  Tab.put d t i (f (Tab.get d t i))

/-- The canonical form: keys strictly rising and above `lo`, and no value equal to the default. -/
def Tab.wfFrom {α : Type} [DecidableEq α] (d : α) : Option Nat → Tab α → Bool
  | _, [] => true
  | lo, (k, v) :: r =>
    (match lo with | none => true | some l => decide (l < k)) && decide (v ≠ d) && Tab.wfFrom d (some k) r

/-- The canonical form of a whole map. -/
def Tab.wf {α : Type} [DecidableEq α] (d : α) (t : Tab α) : Bool := Tab.wfFrom d none t

/-- Bytes, lowest address first, read as one little-endian number (R3). -/
def leNat : List Byte → Nat
  | [] => 0
  | b :: r => b.toNat + 256 * leNat r

/-- The `n` bytes of a number, lowest address first (R3). -/
def leBytes : Nat → Nat → List Byte
  | 0, _ => []
  | n + 1, v => BitVec.ofNat 8 v :: leBytes n (v / 256)

/-- `n` bytes of a block from offset `o`; bytes beyond its end read 0. -/
def slice (l : List Byte) (o n : Nat) : List Byte :=
  let r := (l.drop o).take n
  r ++ List.replicate (n - r.length) 0#8

/-- The `n`-byte little-endian field at offset `o` of a block. -/
def fld (l : List Byte) (o n : Nat) : Nat := leNat (slice l o n)

/-- True where the `n` bytes at offset `o` are all 0 (a reserved field, R8). -/
def zeros (l : List Byte) (o n : Nat) : Bool := (slice l o n).all (· == 0#8)

/-- Bits [hi:lo] of a number. -/
def bits (v hi lo : Nat) : Nat := (v / 2 ^ lo) % 2 ^ (hi + 1 - lo)

/-- Bit `i` of a number. -/
def bitAt (v i : Nat) : Bool := v / 2 ^ i % 2 == 1

/-- A number of `w` bits read as two's complement. -/
def sext (w v : Nat) : Int := if v % 2 ^ w < 2 ^ (w - 1) then (v % 2 ^ w : Nat) else (v % 2 ^ w : Nat) - (2 ^ w : Nat)

/-- An integer as a 64-bit two's-complement word. -/
def ofInt64 (i : Int) : Word := BitVec.ofInt 64 i

/-- A saturating count: never above `2 ^ w - 1`. -/
def satAdd (w a b : Nat) : Nat := min (a + b) (2 ^ w - 1)

/-- The quotient rounded up. -/
def ceilDiv (a b : Nat) : Nat := (a + b - 1) / b

/-- The entry at index `i` of a list rewritten. -/
def modAt {α : Type} (l : List α) (i : Nat) (f : α → α) : List α :=
  match l, i with
  | [], _ => []
  | a :: r, 0 => f a :: r
  | a :: r, i + 1 => a :: modAt r i f

/-- The first index from `i` at which `p` holds, looking at `fuel` numbers. -/
def findFrom (p : Nat → Bool) : Nat → Nat → Option Nat
  | 0, _ => none
  | fuel + 1, i => if p i then some i else findFrom p fuel (i + 1)

end Sys2Proof.Machine
end

