-- ==== Sys2Proof/Machine/State.lean ====
section
/-! DEFINITION. The state of the module: every register, buffer, memory, queue, mode and pin that the manual gives
it, as plain data, with the reasons a command can stop and the state right after reset. -/
namespace Sys2Proof.Machine

/-! ## Memories and words -/

/-- A protected memory: its bytes in canonical form, the words held as poison (R637) by word number, and the
bits of a stored word that an error has flipped, data bits low and the 8 check bits above (R627). -/
structure Ram where
  bytes : List Host.Cell := []
  poison : Tab Bool := []
  flips : Tab (BitVec 72) := []
  deriving DecidableEq, Repr

/-- A 64-bit register with its poison bit (R637). -/
structure PWord where
  val : Word := 0
  poison : Bool := false
  deriving DecidableEq, Repr

/-- A vector register (R94) with one poison bit per 64-bit word. -/
structure VReg where
  val : BitVec 2048 := 0
  poison : BitVec 32 := 0
  deriving DecidableEq, Repr

/-- A mask register: its bits and the lane width that its last compare left (R96, R742). -/
structure MReg where
  val : BitVec 128 := 0
  width : Nat := 32
  poison : Bool := false
  deriving DecidableEq, Repr

/-! ## Outcomes and names -/

/-- Status values (R587) and those of the chapters that own a command (R649, R669, R709). -/
inductive Status where
  | ok | pending | skipped
  | badOpcode | badParam | badImage | loopBound | predFault | staleDesc | badBinding | shape | notAnchored
  | wcetExceedsReserve | moduleState | version | busy
  | badDesc | badHandle | viewMismatch | align | footprint | padOnWrite | badAcc | zeroStride | nonInjective
  | badGrain | badOwner | noSpace | noMemory | pageLimit
  | ctxState | lcOvercommit
  | trapped | halted | poisoned | killed | queueStopped | afuFault
  | deployState | tableFull | reqState | reqUnknown | hostTierFull | reqExpired
  | noNodeId | trainFailed | linkDown | collectiveFailed | aborted
  | grantConflict | grantLcConflict | grantNone
  | inlayInUse | inlayDuplicate | inlayNoSpare | inlayNotArmed | inlayUnitExcluded | holdNotExcludable
  | updBadPackage | updWrongModule | updAuth | updRollback | updBaseMissing | updDigest | updFlash | updSlotInvalid | updTrial
  deriving DecidableEq, Repr

/-- The events of the recorder: those of R660 and R715 and the ones the chapters name without a number. -/
inductive Ev where
  | selftestFail | mastFault | sparFault | dramCe | dramUe | sramCe | sramUe | scraperLap | scraperOverdue
  | inlayChanged | transportPoison | commitLogPoison | bookkeepingUe | moverHalt | commandPoisoned
  | deployStopped | acctRingFull | updateStaged | updateFallback | configRejected | fwHang | rollbackRaised | bootMeasured
  | draftWait | pageLimit | swapBlocked | starvation | preemptOverdue | waitOverdue | deadlock | wcetOverrun
  | widthLowered | spareUnusable | inputFault | powerClamp | reef | reefExhausted | modelDivergence | thermalTrip
  | marginPlan | planOverdue | marginWarning | marginError | pauseExpired | cacheExhausted | linkLost | collectiveOverdue
  | damgerLoss | doorbellInvalid | inboundSuperseded | inboundRefused | afuFault | firmwareFault
  deriving DecidableEq, Repr

/-- Numbers of the events without one in the manual. -/
def Ev.index : Ev → Nat
  | .draftWait => 1 | .pageLimit => 2 | .swapBlocked => 3 | .starvation => 4 | .preemptOverdue => 5 | .waitOverdue => 6
  | .deadlock => 7 | .wcetOverrun => 8 | .spareUnusable => 9 | .inputFault => 11 | .powerClamp => 12
  | .reef => 13 | .reefExhausted => 14 | .modelDivergence => 15 | .thermalTrip => 16 | .marginPlan => 17 | .planOverdue => 18
  | .marginWarning => 19 | .marginError => 20 | .pauseExpired => 21 | .cacheExhausted => 22 | .linkLost => 23
  | .collectiveOverdue => 24 | .damgerLoss => 25 | .doorbellInvalid => 26 | .inboundSuperseded => 27 | .inboundRefused => 28
  | .afuFault => 29 | .firmwareFault => 30 | .deployStopped => 31 | .widthLowered => 32 | .acctRingFull => 33
  | _ => 0

/-! ## The always-on domain (aon) -/

/-- Module states (R718). -/
inductive Mode where
  | off | standby | boot | train | selftest | hold | ready | run | tripped | cooling
  deriving DecidableEq, Repr

/-- The always-on domain: module state, pins, sideband registers and trip history (R726 to R729, R617). -/
structure Aon where
  mode : Mode := .standby
  modEn : Bool := false
  resetLow : Bool := false
  pgood : Bool := false
  tripLow : Bool := false
  i3c : Bool := false
  ibi : Option Byte := none          -- last in-band interrupt raised (R727)
  sbOffset : BitVec 16 := 0
  alert : BitVec 7 := 0
  alertMask : BitVec 7 := 0x7F
  idLo : Word := 0
  idHi : Word := 0
  holdReason : BitVec 32 := 0
  failed : List (Nat × UnitId) := [] -- reasons and units that failed training or self-test, in test order (R651, R719)
  excluded : List UnitId := []       -- units that ACK_HOLD has excluded this power cycle (R652)
  tripTimes : List Nat := []         -- the latest three trips, latest first (R617)
  locked : Bool := false
  lastCause : Nat := 0
  lastNode : Nat := 0
  trippedAt : Nat := 0
  coarse : List (List Int) := []     -- histories of the 12 coarse nodes, latest first, °C × 16 (R614)
  deriving DecidableEq, Repr

/-! ## Firmware, identity, flash (sec) -/

/-- One firmware slot in flash (R689, R697): the decrypted image, or none where empty; the complete marker;
whether it decrypts under the storage key; and the slot's state (SEC_SLOT_STATE). -/
structure FwSlot where
  image : List Byte := []
  complete : Bool := false
  sealed : Bool := false
  state : Nat := 0
  deriving DecidableEq, Repr

/-- The boot selector (R690); `lastGood` none stands for 0xFF. -/
structure Selector where
  next : Nat := 0
  trial : Nat := 0
  lastGood : Option Nat := none
  deriving DecidableEq, Repr

/-- A stage in progress (R706, R707). -/
structure Stage where
  tag : Word
  addr : Word
  size : Nat
  deriving DecidableEq, Repr

/-- SEC, the flash device and the heartbeat of the firmware processors. -/
structure Sec where
  sel : Selector := {}
  slotA : FwSlot := {}
  slotB : FwSlot := {}
  record : List Byte := []           -- current configuration record and seed (R700)
  staged : List Byte := []           -- staged record and seed; empty: none
  fwMin : Nat := 0
  cfgMin : Nat := 0
  revoked : BitVec 4 := 0
  raWrites : Nat := 0                -- write count of the replay-protected area (R698)
  bootSlot : Nat := 3                -- 3: none
  trialBoot : Bool := false
  fallback : Bool := false
  recovery : Bool := false
  bootCount : Nat := 0
  booted : Bool := false             -- this boot has entered READY (R690)
  identity : List Byte := []         -- identity public key once derived (R691)
  endorsement : List Byte := []
  endorseIndex : Nat := 0
  romVersion : Nat := 0
  stage : Option Stage := none
  stageState : Nat := 0
  stagePct : Nat := 0
  quotes : List (Word × Word × List Byte) := []   -- pending ATTEST: tag, buffer address, nonce
  hung : List FwProc := []
  running : Bool := false            -- SEC runs, from ROM or from its image (R718)
  procsUp : Bool := false            -- PWR, SCHED and the control cores have been started (R696)
  flashFault : Bool := false
  deriving DecidableEq, Repr

/-! ## Power and temperature (pwr) -/

/-- A node of the thermal model (R607, R609): temperature × 16, its values of the last 2 ms, latest first, its
floor, the updates for which rules A, B and C still rest, and the uninterrupted quiet updates. -/
structure Node where
  temp : Int := 0
  hist : List Int := []
  floor : Nat := 0
  restA : Nat := 0
  restB : Nat := 0
  restC : Nat := 0
  quiet : Nat := 0
  deriving DecidableEq, Repr

/-- A change of a cluster's clock in progress (R604): when it began, the frequency in kHz reached then, how long the voltage settles
before the clock moves (none for a slower clock), and the frequency it ends at. -/
structure Slew where
  since : Nat
  start : Nat
  settle : Nat
  target : Nat
  deriving DecidableEq, Repr

/-- The governor, telemetry, thermal model and margin plan (R593 to R623). -/
structure Pwr where
  inputMv : Nat := 0
  goodSince : Option Nat := none     -- since when every sample has lain between 40 V and 48 V (R594)
  sumW : Nat := 0                    -- sum and count of the samples of the running 1 ms window
  samples : Nat := 0
  lastW : Nat := 0
  hotSamples : Nat := 0              -- consecutive samples above 1,760 W
  overSamples : Nat := 0             -- consecutive samples above 1,800 W
  calmWindows : Nat := 0             -- consecutive windows at or below 95 % of the cap
  floor : Nat := 0
  clamp : Bool := false
  clampSince : Nat := 0
  clampSeen : Bool := false
  faultSeen : Bool := false
  capW : Nat := 1600
  hostFloor : Nat := 0
  capNow : Nat := 1600               -- cap and host floor in force since the latest evaluation (R602)
  hostNow : Nat := 0
  levelC : Tab Nat := []             -- level of each cluster and stack
  levelS : Tab Nat := []
  topC : Tab Nat := []               -- top level of each cluster (R619)
  slewing : Tab (Option Slew) := []  -- clusters whose clock or voltage is still changing (R604)
  energyUj : Nat := 0
  energyHeld : Nat := 0              -- energy sampled while PWR does not run (R598)
  zoneScale : Tab (Nat × Nat) := []  -- estimator scaling of each zone as measured over activity (R597)
  nodes : Tab Node := []
  coolant : Nat := 0
  energyCharged : Nat := 0           -- input energy divided among the accounts so far (R678)
  diverging : Tab Nat := []          -- updates for which a stack sensor has led its node by more than 5 °C (R608)
  exhaustedSeen : Bool := false
  divergenceSeen : Bool := false
  marginSeen : Bool := false
  hottestHeld : Nat × Int := (0, 0)  -- hottest node as AON holds it until the model has run (THM_STATUS)
  running : Bool := false            -- PWR runs and updates the model
  planState : Nat := 0
  planDone : List Nat := []          -- clusters measured in the current rebuild
  planDueAt : Nat := 0
  planMadeAt : Nat := 0
  planCarry : Nat := 0               -- powered ns of the plan in use from earlier power-ups
  planSeeded : Bool := false         -- the plan in use is not the seed but a rebuilt one
  topRaised : Tab Nat := []          -- top levels raised under R622 for the rest of the power cycle
  newTop : Tab Nat := []             -- measured top levels of the current rebuild
  newMv : Tab (List Nat) := []       -- what the current rebuild has measured besides, kept beside the plan in use until it is whole
  newStack : Tab (Nat × Nat) := []
  newLaser : Tab (Nat × Nat) := []
  planMv : Tab (List Nat) := []      -- supply voltages of each cluster from its top level to 7
  planStack : Tab (Nat × Nat) := []  -- SPAR voltage and retention of each stack
  planLaser : Tab (Nat × Nat) := []  -- bias and percent of its maximum of each laser
  deriving DecidableEq, Repr

/-! ## Event recorder (evr) -/

/-- A record (R654), with its slot and the order in which it was stored. -/
structure Rec where
  ev : Ev
  ctx : Option Nat
  sev : Nat
  unit : UnitId
  time : Nat
  seq : Nat
  snap : List Word
  persisted : Bool := false
  deriving DecidableEq, Repr

/-- A code's token bucket (R655): tokens in units of 10^-9 since `last`, burst, rate, and its suppressed count. -/
structure Bucket where
  level : Nat
  last : Nat
  burst : Nat
  rate : Nat
  suppressed : Nat := 0
  deriving DecidableEq, Repr

/-- The recorder (R653 to R660). -/
structure Evr where
  slots : Tab (Option Rec) := []
  seq : Nat := 0
  buckets : List (Ev × Bucket) := []
  produced : Nat := 0
  overwritten : Nat := 0
  droppedFull : Nat := 0
  droppedRate : Nat := 0
  critStored : Nat := 0              -- records of severity critical and fatal stored so far
  fatalStored : Nat := 0
  latched : List Nat := []           -- produced, overwritten, dropped full, dropped rate, stored at the latest latch
  flash : List Rec := []             -- flash ring, latest first
  flashWritten : Nat := 0
  flashOver : Nat := 0
  flashFault : Bool := false
  window : BitVec 7 := 0             -- source and base of EVR_WINDOW
  windowBusy : Bool := false
  aperture : List (Option Rec) := [] -- flash records shown after a copy
  codeSel : BitVec 16 := 0
  suspended : Bool := false
  deriving DecidableEq, Repr

/-! ## Command side: images, descriptors, commands -/

/-- A descriptor dimension and a window (R342). -/
structure Dim where
  stride : Int := 0
  extent : Nat := 0
  padLo : Nat := 0
  padHi : Nat := 0
  deriving DecidableEq, Repr
structure Window where
  stride : Int := 0
  extent : Nat := 0
  outDim : Nat := 0
  kernDim : Nat := 0
  step : Nat := 0
  dilation : Nat := 0
  padLo : Nat := 0
  deriving DecidableEq, Repr

/-- A global dimension of a distributed tensor (R361). -/
structure GDim where
  extent : Nat
  block : Nat
  mode : Nat
  axis : Nat
  deriving DecidableEq, Repr

/-- A descriptor (R342); `grid` holds the extents, owner table address and global dimensions of a distributed
one, whose local descriptor is `local_` (R361). -/
structure Desc where
  space : Nat := 0
  view : Nat := 0
  use : Nat := 1
  accOp : Nat := 0
  fmt : Nat := 0
  turn : Nat := 0
  perCore : Bool := false
  oobSkip : Bool := false
  alloc : Nat := 0
  index : Nat := 0
  base : Nat := 0
  coreStep : Int := 0
  pad : Nat := 0
  indexDim : Nat := 0
  dims : List Dim := []
  windows : List Window := []
  local_ : Nat := 0
  grid : Option (List Nat × Nat × List GDim) := none
  dying : Bool := false              -- destroyed for new dispatches (R342)
  deriving DecidableEq, Repr

/-- An allocation (R586, R744): the frame number of each 64 KiB page in order, the page size, its view, grain naming. -/
structure Alloc where
  pages : List Nat := []
  pageSize : Nat := 65536
  grain : Bool := false
  turn : Nat := 0
  banks : List Nat := []             -- named banks of a grain allocation as stack × 1024 + die × 64 + bank
  perBank : Nat := 0
  dying : Bool := false              -- freed while in use (R342)
  lostPages : List Nat := []         -- pages whose entry in the page list cannot be read (R643)
  deriving DecidableEq, Repr

/-- A mapping of an allocation at a range of addresses (R744). -/
structure Mapping where
  va : Nat
  alloc : Nat
  page : Nat                         -- page of the allocation mapped at va
  pages : Nat
  writable : Bool
  deriving DecidableEq, Repr

/-- What a command is. -/
inductive Kind where
  | mast | spar | move | fence | signal | wait | coll | serve
  deriving DecidableEq, Repr

/-- Where a command stands between its ring and its commit; `flipped` has committed, and its log is still to be performed (R387, R432). -/
inductive Phase where
  | queued | copying | running | ended | killing | waitHeld | flipped
  deriving DecidableEq, Repr

/-- Why a command is being killed (R437). -/
inductive Cause where
  | preempt | evict | writerKilled | fail (st : Status) (detail : Nat) | disable | stop
  deriving DecidableEq, Repr

/-- A draft (R240, R425): the allocation page it replaces (or a KV region page), its frame, the frame it replaces,
and whether its in-bank copy is still running. -/
structure Draft where
  alloc : Nat
  page : Nat
  old : Nat
  new : Nat
  copying : Bool
  overlap : Bool := false            -- its output carries the overlap bit (R72)
  readBy : List Nat := []            -- commands that may have read it under R385
  deriving DecidableEq, Repr

/-- An entry of the input and output table, or a spar binding (R72, R311). -/
structure Io where
  desc : Nat
  mode : Nat
  overlap : Bool
  side : Nat := 0
  deriving DecidableEq, Repr

/-- A commit-log entry (R72). -/
structure LogE where
  op : Nat
  va : Nat
  val : PWord
  deriving DecidableEq, Repr

/-- A command image as dispatch reads it (R72, R309). -/
structure Img where
  va : Nat := 0
  size : Nat := 0                    -- bytes of the whole image
  cls : Nat := 0
  width : Nat := 0
  cores : Nat := 8
  clusters : Nat := 1
  anchored : Bool := false
  paired : Bool := false
  args : Nat := 0
  wcet : Nat := 0
  stallNs : Nat := 0
  budgetUs : Nat := 0
  predVa : Nat := 0
  predVal : Word := 0
  predOp : Nat := 0
  doneVa : Nat := 0
  doneAdd : Word := 0
  loops : List (Bool × Nat × Nat) := []      -- from_arg, arg_index, count_or_max
  io : List Io := []
  log : List LogE := []
  code : List Byte := []
  codeDpa : Nat := 0
  argBytes : List Byte := []                 -- argument block laid out in the window (R56, R450)
  pieces : List (Nat × Nat) := []            -- where the code section lies: address and bytes of each piece
  digest : Nat := 0
  stackMask : Nat := 0
  dieMask : Nat := 0
  coreFirst : Nat := 0
  coreLast : Nat := 0
  entry : Nat := 0                           -- step-table entry of a serve launch, its groups, and its AFU walk (R510)
  groups : List Nat := []
  walk : Nat := 0
  logBase : Nat := 0                         -- where its log begins in its command's (R314)
  rows : Tab (List Nat) := []                -- grain pages of each binding in each bank as step 4 of R316 resolved them
  deriving DecidableEq, Repr

/-- A spar image that runs for a serve step (R449): with the cores that have released. -/
structure SparRun where
  img : Img
  resolved : Bool := false
  released : List Nat := []
  deriving DecidableEq, Repr

/-- Accounting meters (R676). -/
structure Meters where
  occupancy : Nat := 0
  macs : Tab Nat := []
  spar : Nat := 0
  bytes : Tab Nat := []
  frameMs : Nat := 0
  energy : Nat := 0
  tokens : Nat := 0
  late : Nat := 0
  deriving DecidableEq, Repr

/-- An element, or a bit of a grain element, on its way to another module: 0 or the aux field of its ACCUM, the participant's rank, the
address of its word, its lowest bit and its bits there, and its value (R365, R536). -/
structure RemElem where
  aux : Nat
  rank : Nat
  va : Nat
  lo : Nat
  width : Nat
  val : Nat
  deriving DecidableEq, Repr

/-- A command between its ring and its commit. -/
structure Cmd where
  seq : Nat                          -- dispatch sequence number (R210, R438); changes at a re-run
  ctx : Nat
  q : Nat                            -- queue; 16 + deploy_id for serve steps
  pos : Nat                          -- position in its queue
  kind : Kind
  phase : Phase := .queued
  tag : Word := 0                    -- user_tag
  opcode : Nat := 0
  flags : Nat := 0
  entry : List Byte := []
  cls : Nat := 1
  anchored : Bool := false
  coll : Nat := 0
  pred : Option Bool := none         -- predicate result kept for re-runs (R438)
  resolved : Bool := false           -- a spar command's bindings have been resolved (R316)
  placed : List (Nat × Nat × Img) := []      -- cluster, rank, image of each cluster that it occupies
  more : List (Nat × Nat × Img) := []        -- launches of a serve step's stage that wait for their cluster (R449)
  img : Img := {}                    -- spar image, or the image of rank 0
  argBlk : List Byte := []
  moves : List (Nat × Nat) := []     -- attached moves: source and destination handle
  srcH : Nat := 0
  dstH : Nat := 0
  movers : Nat := 0
  drafts : List Draft := []
  oldFrames : List Nat := []         -- frames that its flips have replaced, of which the companion gives up its lines (R387)
  reads : List Nat := []             -- descriptor handles it uses
  log : List LogE := []
  dones : List (Nat × Word) := []    -- completion flags and what they receive (one; a serve step's images may give more)
  poisoned : Bool := false
  cause : Option Cause := none
  held : List (Cause × Nat × Bool) := []     -- requests held under R440: since when, and whether reported
  boundary : List Nat := []          -- clusters that have reached their boundary
  captured : Bool := false
  begun : Bool := false              -- its first bundle has issued on some cluster (R77)
  released : List Nat := []          -- spar cores that have released
  preempts : Nat := 0                -- consecutive pre-emptions (R439)
  starving : Bool := false
  overdue : List (Nat × Nat) := []   -- overdue waits: unit, flag address (R443)
  waitVa : Nat := 0
  waitVal : Word := 0
  waitCmp : Nat := 0
  budgetUs : Nat := 0
  waitSince : Option Nat := none
  startedAt : Nat := 0
  claimUs : Nat := 0
  meters : Meters := {}              -- what it has used and is not charged yet (R676, R677)
  admitted : Bool := false
  costTried : Bool := false
  waitDraftSince : Option Nat := none
  waitLimitSince : Option Nat := none
  draftSeen : Bool := false          -- whether each of these waits has been reported, and the frame and the pages they are for
  limitSeen : Bool := false
  waitFrame : Nat := 0
  waitNeed : Nat := 0
  wcetReported : Bool := false
  endSent : Bool := false            -- collective conditions (R552)
  acks : List Nat := []
  endsIn : List Nat := []
  dispatchAt : Nat := 0              -- when a bound command was dispatched (R549, R554)
  peers : List (Nat × Nat) := []     -- node and ctx of each rank of its collective
  rank : Nat := 0
  collUs : Nat := 0                  -- collective budget (R554), and whether its expiry has been reported
  collSeen : Bool := false
  sparQ : List Img := []             -- spar images of a serve step's stage that have not been bound yet, and those that hold
  spars : List SparRun := []         -- cores (R449)
  ownersL : List (Nat × List Nat) := []      -- owner table of each distributed destination, read at dispatch (R365)
  stored : List (Nat × Nat × Nat) := []      -- destination, place and offset of the elements stored where stores may collide (R357)
  gather : List RemElem := []        -- remote elements whose words are not full yet (R365)
  deriving DecidableEq, Repr

/-- A submission queue of a context (R576 to R582). -/
structure Queue where
  sqTail : Nat := 0
  sqHead : Nat := 0
  cqTail : Nat := 0
  cqHead : Nat := 0
  stopped : Option Status := none
  stopAt : Nat := 0                  -- position of the command that has stopped it (R434)
  nextPos : Nat := 0
  unposted : Nat := 0                -- entries read whose completions are unposted (R579)
  deriving DecidableEq, Repr

/-- A context's registers of sampling and counters (R671, R673). -/
structure UserCtr where
  sel : BitVec 20 := 0
  denied : Bool := false
  drops : Nat := 0
  samples : Tab Word := []
  sampled : Tab Nat := []            -- multiples of its period that each slot has sampled (R674)
  deriving DecidableEq, Repr

/-- Context states (R402). -/
inductive CtxSt where
  | absent | created | enabled | draining | disabled
  deriving DecidableEq, Repr

/-- A context (R401, R402). -/
structure Ctx where
  st : CtxSt := .absent
  locality : Bool := false
  home : Nat := 0
  clusterMask : BitVec 32 := 0
  stackMask : BitVec 12 := 0
  queues : Nat := 0
  reserve : Nat := 0
  weight : Nat := 0
  beNs : Nat := 0                    -- cluster time that its BE commands have had (R422)
  budgetUs : Nat := 0
  pageLimit : Nat := 0
  frames : Nat := 0                  -- frames held against page_limit
  allocs : Tab (Option Alloc) := []
  descs : Tab (Option Desc) := []
  maps : List Mapping := []
  nextAlloc : Nat := 1
  nextDesc : Nat := 1
  qs : Tab Queue := []
  disables : List Word := []         -- tags of disables to be completed with the drain (R408, R409)
  enable : Option Word := none       -- tag of a queued enable (R410)
  destroying : Option Word := none
  session : Nat := 0
  sessionAt : Nat := 0               -- end of the last interval of the open session
  meters : Meters := {}              -- since the last record posted
  active : Bool := false             -- enabled or draining since the last interval end (R681)
  suspended : BitVec 7 := 0
  user : UserCtr := {}
  serveSel : BitVec 16 := 0
  frees : List (Nat × Nat × Nat × Nat × Word × Nat) := []  -- FREE 0, DESC_DESTROY 1, UNMAP 2 to complete: kind, handle or va, bytes, queue, tag, flags
  colls : List (Nat × List Byte × Bool) := []      -- registered collectives: coll_id, record and peer list, aborted
  readySeen : List (Nat × Nat × Nat) := []         -- READY received: coll_id, node, context (R549)
  rings : Tab Byte := []             -- SQ and CQ bytes, by offset from 0xF_FFFF_0000_0000
  deriving DecidableEq, Repr

/-! ## Clusters -/

/-- Instruction-memory bank states (R63). -/
inductive Bank3 where
  | empty | loading | ready | armed | active
  deriving DecidableEq, Repr

/-- An instruction-memory bank: its code as stored, the digest that identifies it, the bits of its words that errors have flipped
(R69, R627), and the length and source of the load that writes it. -/
structure Imem where
  st : Bank3 := .empty
  code : List Byte := []
  digest : Option Nat := none
  flips : Tab (BitVec 72) := []
  lines : Nat := 0
  src : Nat := 0
  deriving DecidableEq, Repr

/-- A location that a slot writes: registers, accumulator rows, scratchpad bytes, bytes of the window, words of a draft
in memory, and the cache lines that an INV removes. -/
inductive Loc where
  | g (i : Nat) | p (i : Nat) | v (core i : Nat) | m (core i : Nat)
  | acc (core row : Nat) | spad (core addr bytes : Nat)
  | window (addr bytes : Nat) | mem (dpa : Nat) | inv (dpa bytes : Nat)
  deriving DecidableEq, Repr

/-- A result on its way (R134): the issue cycle at whose end it lands, the issue cycle and slot that order it
(R144), where it lands, the value, the bits it writes, its poison, and the lane width that a mask takes. -/
structure Pend where
  due : Nat
  issue : Nat
  slot : Nat
  loc : Loc
  val : Nat
  mask : Nat
  poison : Nat
  width : Nat := 0
  deriving DecidableEq, Repr

/-- A tile register (R151): rows, MX scales of each group and column, format class, poisoned rows. -/
structure Tile where
  rows : Tab Nat := []
  scales : Tab Nat := []
  cls : Option Nat := none
  mx : Bool := false
  poison : Tab Bool := []
  deriving DecidableEq, Repr

/-- A pass in the array (R137, R150): its issue cycle, formats and operands, row interval, the width W of its image, the
stationary tile of each core at its issue (R152), and the scratchpads as they stood then (R140). -/
structure Pass where
  at_ : Nat
  fmtA : Nat
  fmtB : Nat
  mx : Bool
  count : Nat
  accRow : Nat
  accumulate : Bool
  addr : Nat
  r : Nat
  width : Nat
  tiles : Tab Tile
  old : Tab Ram
  bad : Bool := false                -- its address comes from a poisoned register (R640)
  deriving DecidableEq, Repr

/-- A read of an A row or of a tile row that waits for its scratchpad banks (R163 to R165): core, the issue cycle of its
MPASS or MLDB, row, address, bytes, and the issue cycle it is due in. -/
structure Feed where
  core : Nat
  tile : Bool
  pass : Nat
  row : Nat
  addr : Nat
  bytes : Nat
  due : Nat
  also : List Nat := []              -- banks of its scale bytes (R159, R160)
  deriving DecidableEq, Repr

/-- A row that a read has brought: of a feeder queue (with its scales), or of a tile. -/
structure FRow where
  pass : Nat
  row : Nat
  val : Nat
  scales : Nat := 0
  poison : Bool := false
  deriving DecidableEq, Repr

/-- An MLDB in progress (R136, R160): its issue cycle, format, address, the scratchpads as they stood at its issue, and the
tile rows and scale groups of each core that have been read and not written yet. -/
structure Mldb where
  at_ : Nat
  fmt : Nat
  mx : Bool
  addr : Nat
  old : Tab Ram
  got : List (Nat × FRow) := []
  scales : List (Nat × FRow) := []
  bad : Bool := false                -- its address comes from a poisoned register (R640)
  deriving DecidableEq, Repr

/-- An MOUT in progress, or an MZACC (R139, R740). -/
structure Mout where
  at_ : Nat
  fmt : Nat
  count : Nat
  accRow : Nat
  zero : Bool
  addr : Nat
  clear : Bool
  bad : Bool := false
  deriving DecidableEq, Repr

/-- One core (R48, R94). -/
structure Core where
  v : Tab VReg := []
  m : Tab MReg := []
  acc : Tab Nat := []                -- FP32 row → 2,048 bits
  accPoison : Tab Bool := []
  accFlips : Tab (BitVec 72) := []   -- bits of its words that errors have flipped, 32 words to an FP32 row (R627)
  spad : Ram := {}                   -- 2 MiB, and above them the 4 spare lines (R646)
  stat : Tile := {}
  shadow : Tile := {}
  queue : List FRow := []            -- feeder queues
  usable : Nat := 64
  bypass : Word := 0
  poisonSeen : Bool := false
  selfResult : Nat := 0
  selfFailed : Nat := 0
  selfClass : Nat := 0
  selfDone : Bool := false
  inlay : Tab (Option (Nat × Nat)) := []    -- armed scratchpad entries: line index and spare line (R646)
  spareBad : Tab Bool := []
  seed : Nat × Nat := (0, 0)         -- context and dispatch sequence that seed the stochastic rounding generator, and the
  supplied : Nat := 0                -- values that it has supplied since (R210)
  deriving DecidableEq, Repr

/-- An open counted loop: first byte of its body, first byte after it, remaining and completed iterations. -/
structure LoopSt where
  body : Nat
  last : Nat
  count : Nat
  iter : Nat
  deriving DecidableEq, Repr

/-- A mover channel (R366 to R374). -/
structure Chan where
  st : Nat := 0
  cmd : Nat := 0                     -- dispatch sequence of its command
  src : Nat := 0
  dst : Nat := 0
  attached : Bool := false
  turner : Bool := false
  ctxSlot : Nat := 0
  first : Nat := 0                   -- next and last element
  limit : Nat := 0
  core : Nat := 0
  oob : Nat := 0
  done : Nat := 0
  haltCause : Nat := 0
  haltValid : Bool := false
  haltElem : Nat := 0
  sub : Nat := 0                     -- 128 B pieces done of the block of a grain to grain move, or cores of a turned block
  waiting : Bool := false            -- a block of it is in a turner
  late : List (Nat × Nat × Nat × Nat) := []  -- accumulates not yet applied, whose order is free: element, core, offset, value (R358)
  deriving DecidableEq, Repr

/-- A resident slot (R411 to R416): 4 while a context is swapped in, 5 while one is evicted. -/
structure Slot where
  st : Nat := 0
  ctx : Option Nat := none
  lastUs : Nat := 0
  incoming : Option Nat := none
  deriving DecidableEq, Repr

/-- The attention fetch unit (R510 to R518). -/
structure Afu where
  st : Nat := 0
  next : Nat := 0
  total : Nat := 0
  touched : Option Nat := none       -- highest block that a VLDG has addressed
  staged : Tab (Option Ram) := []    -- staged blocks by number
  dep : Nat := 0
  entry : Nat := 0
  faultSeen : Bool := false
  faultCause : Nat := 0
  faultValid : Bool := false
  faultReq : Nat := 0
  faultPage : Nat := 0
  bytes : Nat := 0
  deriving DecidableEq, Repr

/-- A wait of a WAIT slot that froze the cluster (R131). -/
structure WaitSt where
  va : Nat
  val : Word
  cmp : Nat
  since : Nat
  overdue : Bool := false
  deriving DecidableEq, Repr

/-- A cluster: sequencer, cores, cache, AFU, movers and control core. -/
structure Cluster where
  enabled : Bool := true
  coreMask : BitVec 8 := 0xFF
  width : Nat := 64
  runState : Nat := 0
  cmd : Option Nat := none           -- dispatch sequence of the running command
  next : Option Nat := none          -- the next command, its code armed or reused
  rank : Nat := 0
  ctxSlot : Nat := 0
  boundAt : Nat := 0                 -- when the running command was bound to it (R676)
  g : Tab PWord := []
  p : Tab Bool := []
  pPoison : Tab Bool := []
  windows : Tab Ram := []
  imemA : Imem := {}
  imemB : Imem := {}
  reuse : Bool := false
  codeBound : Option Bool := none    -- the boundary is complete and the active bank serves the next command: swapped in, or reused (R65, R67)
  loadStatus : Nat := 0
  loadLatest : Option Bool := none   -- bank of the most recent load request, where it was accepted (R71)
  loadReg : BitVec 59 := 0           -- fields of SEQ_IMEM_LOAD as last written: bank at bit 58, length, source
  pc : Nat := 0                      -- byte offset of the next bundle
  idle : Nat := 0                    -- idle issue cycles still to pass (R102)
  lastSeen : Bool := false           -- the last bundle has issued (R104)
  loops : List LoopSt := []
  counts : List Nat := []            -- resolved loop counts (R60)
  issueAc : Nat := 0
  freezeAc : Nat := 0
  stallAc : Nat := 0                 -- frozen ac of the command outside sync waits (R93)
  frozen : BitVec 4 := 0             -- sources freezing now: 0 sync, 1 feeder, 2 cache, 3 unfurl
  cleared : BitVec 4 := 0            -- sources cleared for the bundle held at issue (R90)
  seen : BitVec 4 := 0
  wait : Option WaitSt := none
  miss : List (Nat × Nat) := []      -- awaited: 0 a line to fill, 1 a volatile read (line DPA), 2 an AFU block
  loadAt : List (Nat × Nat) := []    -- where the load held at issue translated to: logical core, DPA (R378); and the lines that its
  volatile : List (Nat × List Byte × List Bool) := []  -- volatile reads have brought
  rampAc : Nat := 0                  -- ac spent in an unfurl or furl
  ramp : Nat := 0                    -- ramp_state
  arrayIdle : Nat := 0
  idleFull : Bool := true            -- the idle count stands at 256 at the next boundary: after reset and after a kill (R181)
  pend : List Pend := []
  passes : List Pass := []
  mldbs : List Mldb := []
  mouts : List Mout := []
  feeds : List Feed := []
  slotBanks : List (Nat × Nat) := [] -- core and bank of each read granted in this ac (R162, R163)
  wroteBanks : List (Nat × Nat) := [] -- core and bank of each write made in this ac
  granted : Bool := false            -- the reads of this ac have been granted
  cores : Tab Core := []
  cache : List (Nat × Nat × List Byte × List Bool) := []  -- context, line DPA, bytes, poison of words
  cacheFlips : Tab (BitVec 72) := [] -- bits that errors have flipped in words of the lines, by `cacheWord` (R627)
  trapValid : Bool := false
  trapCode : Nat := 0
  trapSlot : Nat := 0
  trapMask : Nat := 0
  trapUser : Nat := 0
  trapOff : Nat := 0
  chans : Tab Chan := []
  slots : Tab Slot := []
  swaps : Nat := 0
  evictions : Nat := 0
  swapBlocked : Bool := false
  admittedUs : Tab Nat := []         -- admission cost claimed in the window, by context
  afu : Afu := {}
  traces : Nat := 0                  -- trace records in flight (R592)
  ctlHung : Bool := false            -- its control core has missed its heartbeat (R688)
  idleSince : Nat := 0               -- since when no command has been in flight (R620)
  deriving DecidableEq, Repr

/-! ## Stacks -/

/-- A queued controller request (R247 to R254). -/
structure Req where
  r : MemReq
  at_ : Nat
  aged : Bool := false
  deriving DecidableEq, Repr

/-- A row-step instruction with its registers read (R292, R296): opcode, banks it runs in, first cells of its rows in each
bank, latch fields and operations still to run, word and register of PUTW and GETW, and its atomic-block mark. -/
structure Step where
  op : Nat
  tgt : Nat
  rowA : Nat
  rowB : Nat
  row2A : Nat := 0
  row2B : Nat := 0
  lx : Nat := 0
  lm : Nat := 0
  ops : List Nat := []
  k : Nat := 0
  w : Nat := 0
  kval : PWord := {}
  atomic : Bool := false
  blk : Nat := 0                     -- length of the atomic block that it begins
  waited : Bool := false             -- it has waited for a quota token
  ahead : Bool := false              -- its second edge exchange has been sent with its first (R306)
  bad : Bool := false                -- its entry was read with a parity error (R630)
  pc : Nat := 0
  deriving DecidableEq, Repr

/-- A latch: its bits and the poison of its 128 words (R272, R331). -/
structure Latch where
  val : Nat := 0
  poison : BitVec 128 := 0
  deriving DecidableEq, Repr

/-- A bank: latches, refresh state, slot boundary. -/
structure DBank where
  latches : Tab Latch := []
  postponed : Nat := 0
  due : Bool := false
  busy : Option Nat := none          -- spar core of the step that runs in it
  sinceCtl : Nat := 3                -- slots since the last controller slot: at most 3, and those of the running block (R252, R337)
  owed : Nat := 0                    -- controller slots owed after a block (R337)
  hold : Bool := false               -- held for a step that waits for the other bank (R273)
  nextVisit : Nat := 0               -- earliest time of the scraper's next visit (R634)
  reqs : List Req := []
  scraped : Nat := 0                 -- next row of the scraper's lap
  freeAt : Nat := 0                  -- end of the refresh, controller access or scraper visit that occupies it
  slotAt : Nat := 0                  -- start of the latest slot that it left empty
  dueAt : Option Nat := none         -- start of the refresh interval in which its latest refresh fell due (R257)
  deriving DecidableEq, Repr

/-- Spar core states (R315). -/
inductive SparSt where
  | idle | loading | bound | running | ending
  deriving DecidableEq, Repr

/-- A spar core (R289). -/
structure Spar where
  st : SparSt := .idle
  cmd : Nat := 0
  k : Tab PWord := []
  busy : Tab Bool := []              -- registers whose producing step has not finished (R291)
  pc : Nat := 0
  code : List Word := []
  flips : Tab (BitVec 72) := []      -- bits of its code words that errors have flipped (R327, R627)
  digest : Option Nat := none
  dmem : Ram := {}
  steps : List Step := []            -- step queue, oldest first
  cur : List Step := []              -- steps running in the banks, oldest first
  edgeWait : Bool := false
  cnt : List (Nat × Nat × Bool) := []       -- CNT results on their way: register, count, poison
  block : Nat := 0                   -- steps of the atomic block not yet issued
  blockLen : Nat := 0
  blockRun : Nat := 0                -- steps of the started block not yet ended
  blockBanks : Nat := 0              -- banks that the started block uses: bit 0 bank A, bit 1 bank B
  outLo : List PWord := []           -- send queues towards the lower and the higher neighbour
  outHi : List PWord := []
  inLo : List PWord := []            -- arrived words from each
  inHi : List PWord := []
  edgeLo : List (Nat × Nat × Nat) := []     -- edge exchanges sent by the neighbours and not yet met: distance, bits, poisoned
  edgeHi : List (Nat × Nat × Nat) := []
  sentLo : List Nat := []            -- distances of the edge exchanges sent on each link and not met yet (R304)
  sentHi : List Nat := []
  waitSince : Option Nat := none     -- since when a SEND or RECV has waited, and since when a step has waited for edge bits (R308)
  edgeSince : Option Nat := none
  deriving DecidableEq, Repr

/-- A turn block that waits in a turner's rotation (R262 to R268): the cluster and channel that move it, the number of
the block within the move, and its core. -/
structure Turn where
  cluster : Nat
  chan : Nat
  block : Nat
  core : Nat := 0                    -- logical core that it is turned for (R368)
  deriving DecidableEq, Repr

/-- An inlay entry of a stack (R644). -/
structure Inlay where
  die : Nat
  bank : Nat
  row : Nat
  line : Nat
  spare : Nat
  deriving DecidableEq, Repr

/-- An entry of the correctable-address table (R632). -/
structure CeLoc where
  loc : Word
  count : Nat
  lastUs : Nat
  deriving DecidableEq, Repr

/-- A stack: controller, turner and spar registers, banks and cores. -/
structure Stack where
  ok : Bool := true                  -- trained and not excluded
  bin : Nat := 0
  channelOk : BitVec 32 := 0
  rate : Nat := 0                    -- refresh rate: 0 normal, 1 twice, 2 four times; and the rate of the next interval (R258)
  rateNext : Nat := 0
  intervalAt : Nat := 0              -- start of the refresh interval (R257)
  temp : Nat := 0
  sensorAt : Option Nat := none      -- when the sensors were last read
  coolA : Option Nat := none         -- since when they have read 3 °C below 85 °C, and below 95 °C (R258)
  coolB : Option Nat := none
  forced : Nat := 0
  reachedFour : Bool := false
  backpressure : Bool := false
  waits : List MemReq := []          -- requests that wait at their requesters for an entry, oldest first (R249)
  ces : Tab (Option CeLoc) := []
  ceReplaced : Nat := 0
  ceCount : Nat := 0
  ueCount : Nat := 0
  poisonReads : Nat := 0
  lapMs : Nat := 0
  laps : Nat := 0
  lapAt : Nat := 0
  lapSkipped : Nat := 0
  overdueLap : Bool := false
  reported : List Nat := []          -- words reported in this lap (R635)
  inlay : Tab (Option Inlay) := []
  spareBad : Tab Bool := []          -- unusable spare lines: (die × 64 + bank) × 16 + line
  turns : List Turn := []
  turnPoison : Bool := false
  pool : Nat := 1024
  held : Nat := 0
  rot : Nat := 0                     -- bank that has waited for tokens and was served last (R332)
  holdSeen : Bool := false
  overdueSeen : Bool := false
  loadLen : Nat := 0
  loadSrc : Nat := 0
  loadNow : Nat × Nat := (0, 0)      -- words and source of the load that runs
  loadSet : List Nat := []           -- cores being loaded
  loadFor : Bool := false            -- whether the load that runs is for bound cores
  loadBound : Bool := false          -- for_bound, die_mask and the cores of SPAR_IMEM_LOAD as last written
  loadMask : Nat := 0
  loadFirst : Nat := 0
  loadLast : Nat := 0
  loadStatus : Nat := 0
  loadLatest : Bool := false         -- the load that runs is the most recent request
  trapValid : Bool := false
  trapCode : Nat := 0
  trapCore : Nat := 0
  trapUser : Nat := 0
  trapPc : Nat := 0
  banks : Tab DBank := []
  spar : Tab Spar := []
  admittedUs : Tab Nat := []
  deriving DecidableEq, Repr

/-! ## Serving -/

/-- Request states (R457). -/
inductive ReqSt where
  | queued | prefill | decode | paused | resuming | swapped | done
  deriving DecidableEq, Repr

/-- A request (R457). -/
structure SReq where
  id : Nat
  st : ReqSt := .queued
  before : ReqSt := .queued          -- state held before a pause or a swap
  cancelOnMiss : Bool := false
  ignoreStop : Bool := false
  ttftMissed : Bool := false
  byDeadline : Bool := false
  variant : Nat := 0
  promptLen : Nat := 0
  prompt : List Nat := []
  promptVa : Nat := 0
  prefixLen : Nat := 0               -- L of its variant
  node : Nat := 0                    -- tree node of the latest block matched or inserted, and the next block of the chain (R508)
  nextBlk : Nat := 0
  chain : Bool := true
  prefilled : Nat := 0
  generated : Nat := 0
  maxNew : Nat := 0
  arrival : Nat := 0
  firstPost : Nat := 0
  lastPost : Nat := 0
  missedAt : Nat := 0                -- deadline last counted as missed
  ttft : Nat := 0
  tbt : Nat := 0
  lateRecords : Nat := 0
  accepted : Nat := 0
  ttlEnd : Nat := 0
  seed : Word := 0
  tag : Word := 0
  temperature : BitVec 32 := 0
  topP : BitVec 32 := 0
  topK : Nat := 0
  bucket : Nat := 0xFF
  kvLen : Nat := 0
  lastTok : Nat := 0
  cancelDue : Bool := false          -- its deadline action is to cancel it, and a deadline has been missed (R475)
  toHost : List (Nat × Nat) := []    -- region pages still being copied to the host tier, with their frames
  fromHost : List Nat := []          -- region pages still to come back
  tags : List (Nat × Word × Nat × Nat) := []           -- queue, user_tag, flags and opcode of PAUSE and RESUME entries to complete
  kv : Tab (Nat × Nat) := []         -- published generation: region page → kind, frame or host page (R492)
  kvNext : Option (Tab (Nat × Nat)) := none
  gen : Nat := 0
  lostKv : List Nat := []            -- pages whose entry in the table cannot be read, and whether the generation record cannot (R643)
  lostGen : Bool := false
  deriving DecidableEq, Repr

/-- A node of the prefix tree (R505). -/
structure TNode where
  hash : Nat
  parent : Nat
  variant : Nat
  block : Nat
  holder : Nat
  matches_ : Nat
  toks : List Nat
  frames : List Nat                  -- the frames of its pages, in the order of the planes
  deriving DecidableEq, Repr

/-- A group of a batch (R462, R464). -/
structure Group where
  prefill : Bool
  bucket : Nat
  cluster : Nat
  members : List (Option Nat)        -- request slot of each core, none where empty
  loops : Nat
  perCore : Nat
  rows : Nat
  deriving DecidableEq, Repr

/-- A deployment (R447). -/
structure Deployment where
  ctx : Nat
  clusterMask : Nat
  mode : Nat
  spec : Nat
  rule : Nat
  table : List (Nat × Nat × Nat × Nat) := []   -- kind, scope, stage, image_va of each step-table entry
  attnBlock : Nat
  maxReq : Nat
  maxBatch : Nat
  maxSeq : Nat
  chunk : Nat
  vocab : Nat
  wcetUs : Nat
  fillUs : Nat
  minRows : Nat
  variants : List (Nat × Nat) := []  -- per variant: list address and entry count or prefix length
  ringVa : Nat
  ringLen : Nat
  mirrorVa : Nat
  tierBase : Nat
  tierPages : Nat
  stops : List Nat
  edges : List Nat
  kvLimit : Nat
  fmt : Nat
  layers : Nat
  heads : Nat
  qPerKv : Nat
  headDim : Nat
  arena : Nat
  treeVa : Nat
  treeCap : Nat
  attn : List (Nat × Nat) := []      -- layer_first, layer_count per step-table entry
  batchVa : Nat
  prefixFrames : List (List Nat) := []
  reqs : Tab (Option SReq) := []
  gens : Tab Nat := []               -- generation of each slot's identifier
  admits : List (Nat × Word × Nat × SReq) := []        -- accepted and not applied: queue, tag, flags, request
  cancels : List (Nat × Word × Nat × Nat) := []        -- queue, tag, flags, req_id
  pauses : List (Nat × Word × Nat × Nat × Nat) := []   -- and the time to live in ms
  resumes : List (Nat × Word × Nat × Nat) := []
  closing : Option (Nat × Word × Nat) := none          -- UNDEPLOY to complete: queue, tag, flags
  cancelAll : Bool := false
  step : Nat := 0
  stepCmd : Option Nat := none       -- dispatch sequence of the running serve step
  stage : Nat := 0
  stageOn : Bool := false            -- the stage's launches have been made
  batch : List Group := []
  tokens : List (Nat × Nat × Nat × Nat × Nat) := []   -- sampled: slot, token, position, index, count
  boundaryAt : Nat := 0
  filling : Bool := false
  postsDue : Bool := false
  stopped : Option Status := none
  tree : Tab (Option TNode) := []
  treeMatches : Nat := 0
  treeCollisions : Nat := 0
  treeMisses : Nat := 0
  tierUsed : Tab (Option (Nat × Nat)) := []            -- host-tier page → request slot, region page
  exhausted : Bool := false          -- cache memory has run out at this boundary (R485)
  grown : List (Nat × Nat) := []     -- request slot and the positions by which the committed step has extended it (R502)
  mirrored : Tab (List Byte) := []   -- request entries as last copied to the mirror array (R457)
  wait : Option Cmd := none          -- the step whose launch waits for a draft frame or page_limit, as the events name it (R241, R428)
  tried : Bool := false              -- a launch did not fit the reserve of this window (R420)
  deriving DecidableEq, Repr

/-! ## Fabric and links -/

/-- Port states (R527). -/
inductive PortSt where
  | dark | down | training | up | closing
  deriving DecidableEq, Repr

/-- A shroud port (R520 to R559). -/
structure Port where
  st : PortSt := .dark
  partner : BitVec 16 := 0xFFFF
  reason : Nat := 0
  lossSeen : Bool := false
  rate : Nat := 0
  waves : Nat := 0
  fec : Bool := false
  small : Bool := false
  ackSeqLoss : BitVec 16 := 0
  rxSeqLoss : BitVec 16 := 0
  rtt : Nat := 0
  stopBytes : Nat := 0
  granted : Nat := 0
  shared : Nat := 0                  -- credits held by this sender: shared, and reserve of each channel
  reserve : Tab Nat := []
  retShared : Nat := 0               -- credits this receiver has to return
  retVc : Tab Nat := []              -- of each channel's reserve
  outSeq : BitVec 16 := 0
  inSeq : BitVec 16 := 0             -- next link_seq expected
  lastAck : BitVec 16 := 0
  ackAt : Nat := 0                   -- since when unacknowledged flits have seen no advance of ack_seq (R542)
  retry : List Flit := []            -- unacknowledged flits, oldest first
  outQ : List Flit := []             -- link control flits to send
  rxQ : List (Flit × Bool) := []     -- flits held in the receive buffer for forwarding; whether of a reserve credit
  lent : Tab Nat := []               -- reserve credits of each channel in use, as this receiver counts them
  lostCredits : Bool := false        -- its credit counts cannot be read (R643)
  discarding : Bool := false         -- after a bad flit, until the resent one (R540)
  trainDue : Bool := false           -- training waits until the receive buffer is empty (R533)
  wasUp : Bool := false              -- it has been up since its stay opened
  replayFrom : Option (BitVec 16) := none
  replayTries : Nat := 0
  txBytes : Nat := 0
  txAcked : Nat := 0
  dropBytes : Nat := 0
  rxBytes : Nat := 0
  rxApplied : Nat := 0
  rxForwarded : Nat := 0
  rxRefused : Nat := 0
  replays : Nat := 0
  discarded : Nat := 0
  deriving DecidableEq, Repr

/-- The fabric side: node, stays, routes, ports (R520 to R561). -/
structure Shr where
  node : BitVec 16 := 0xFFFF
  stays : Tab Nat := []              -- 0 closed, 1 opening, 2 open, 3 closing
  stayTags : Tab (Option (Word × Nat)) := []   -- pending STAY_OPEN or STAY_CLOSE: tag and opcode
  openMask : Tab Nat := []           -- ports that a STAY_OPEN trains; 1 once a STAY_CLOSE has drained
  openedAt : Tab Nat := []           -- when the latest STAY_OPEN or STAY_CLOSE of a position was accepted
  routes : Tab (BitVec 8) := []
  ports : Tab Port := []
  tx : List Flit := []               -- data and response flits of this module that wait to be sent
  deadEngines : BitVec 8 := 0        -- excluded or disabled engines
  limits : Tab Nat := []             -- port limits of the configuration record
  deriving DecidableEq, Repr

/-- A running hardware collective (R556): its command, kind, participants, rank and root, operation and format, source and
destination, for each half the step and the part that it sends next, and the words received by WRITE (1) and ACCUM (2). -/
structure Engine where
  cmd : Nat
  kind : Nat
  n : Nat
  rank : Nat
  root : Nat
  accOp : Nat
  fmt : Nat
  dirs : Nat
  src : Nat
  dst : Nat
  elems : Nat
  at_ : List (Nat × Nat)
  rcv : Tab Nat := []                -- words that have come, for each half, in the order of its steps
  started : Bool := false            -- the drafts hold their initial contents
  deriving DecidableEq, Repr

/-- A reply to a companion-side read or write: performed, refused with an error response, the bytes read with the poison of
their words, or the value of a register. -/
inductive Reply where
  | done | error | data (bytes : List Byte) (poison : List Bool) | value (v : Word)
  deriving DecidableEq, Repr

/-- A tagged inbound request (R565): its tag, address, the bytes to write or none for a read, its length, and whether the
companion keeps the lines read. -/
structure Inbound where
  tag : Nat
  va : Nat
  data : Option (List Byte)
  len : Nat
  keep : Bool
  deriving DecidableEq, Repr

/-- The Damger link (R562 to R567). -/
structure Dmg where
  up : Bool := false
  version : Nat := 0
  pairs : Nat := 0
  half : Bool := false
  lossSeen : Bool := false
  replays : Nat := 0
  dropped : Nat := 0
  dir : List Nat := []               -- lines the companion holds, latest granted first (R566)
  recalls : List Nat := []           -- lines being recalled
  replies : List (Nat × Reply) := [] -- the latest replies, by tag; 4,096 for the control window
  heldAcc : List Inbound := []       -- requests held by ownership or by a recall (R400, R566)
  deriving DecidableEq, Repr

/-- A log-ring record (R590). -/
structure LogRec where
  seq : Nat
  time : Nat
  source : Nat
  kind : Nat
  code : Nat
  ctx : Nat
  cluster : Nat
  payload : List Word
  deriving DecidableEq, Repr

/-- A pending-queue entry (R574). -/
structure PendE where
  tag : Word
  result : Word
  doneNs : Nat
  st : Status
  op : Nat
  deriving DecidableEq, Repr

/-- The command latched by HYV_ADMIN_GO (R572). -/
structure Admin where
  op : Nat
  rsv : Bool                         -- the 7 reserved bytes are 0
  tag : Word
  args : List Byte
  payload : List Byte
  deriving DecidableEq, Repr

/-- Hyval: mailbox, version, log ring and trace points. -/
structure Hyv where
  area : Tab Byte := []
  latched : Option Admin := none     -- busy while some
  status : Status := .ok
  statusOp : Nat := 0
  result : Word := 0
  version : BitVec 8 := 0
  pqTail : Nat := 0
  pqHead : Nat := 0
  pqMem : Tab (Option PendE) := []
  outstanding : Nat := 0             -- outcomes still to come
  timeA : Word := 0
  timeB : Word := 0
  traceMask : BitVec 128 := 0
  fwTrace : Word := 0
  logs : Tab (Option LogRec) := []
  logProd : Nat := 0
  traceDrops : Nat := 0
  deriving DecidableEq, Repr

/-- A grant of counters to a context (R668 to R670): complete once its first sampling has begun. -/
structure Grant where
  ctx : Nat
  clusters : Nat
  memStacks : Nat
  ring : Nat
  entries : Nat
  complete : Bool
  tag : Word
  deriving DecidableEq, Repr

/-- Counters and accounting (R661 to R685). -/
structure Ctr where
  live : Tab Nat := []               -- (class × 256 + unit) × 256 + event
  snap : Tab Nat := []
  sel : BitVec 20 := 0
  freezes : Nat := 0
  done : Bool := true
  freezeTime : Nat := 0
  grants : List Grant := []
  ringBase : BitVec 48 := 0
  ringSize : Nat := 0
  prod : Nat := 0
  head : Nat := 0
  enable : Bool := false
  fullSeen : Bool := false
  suspended : BitVec 7 := 0
  reported : BitVec 7 := 0           -- counts reported suspended without a meter of their own (R643)
  intervalAt : Nat := 0              -- end of the interval of the latest records posted
  endedAt : Nat := 0                 -- end of the latest interval
  overhead : Meters := {}
  closes : List (Nat × Nat × Nat × Nat × Meters) := []   -- close records waiting: ctx, session, start, end, meters
  closedSum : Meters := {}           -- close records posted since the latest module total (R682)
  seq : Nat := 0
  framesA : Word := 0
  framesB : Word := 0
  hostTier : Word := 0
  deriving DecidableEq, Repr

/-- What a word frame or grain page is used for. -/
inductive FrameUse where
  | free | blank | ctx (n : Nat) | draft (seq : Nat) | kv (ctx : Nat) | transit | lost
  deriving DecidableEq, Repr

/-! ## The machine -/

/-- Everything but the always-on, security and power domains and the queue of waiting commands. -/
structure Mach where
  now : Nat := 0                     -- module time in ns (R6)
  drawn : Nat := 0                   -- free values and choices drawn so far (the model's own, log entry 1)
  mem : Ram := {}                    -- stack DRAM, by cell number
  comp : List Host.Cell := []        -- what the module has written to companion memory
  evr : Evr := {}
  ctr : Ctr := {}
  shr : Shr := {}
  dmg : Dmg := {}
  hyv : Hyv := {}
  ctxs : Tab Ctx := []
  cmds : List Cmd := []              -- in order of entry
  nextSeq : Nat := 1
  reported : List (List Nat) := []   -- deadlock cycles reported and still standing (R445)
  clusters : Tab Cluster := []
  memStacks : Tab Stack := []
  frames : Tab FrameUse := []        -- word frames by number; grain pages from 2^24 on
  refs : Tab Nat := []               -- reference counts of frames that hold KV data (R497)
  owned : Tab (List Nat) := []       -- owners of a grain page, by its number (R317)
  ownedX : Tab Bool := []            -- pages owned exclusively
  engines : List Engine := []
  deps : Tab (Option Deployment) := []
  addrFaults : Tab (Option MemReq) := []     -- the latest request of each kind of requester that an address fault answered (R234)
  lostRefs : List Nat := []          -- frames whose reference count cannot be read (R643)
  inlayWait : List Admin := []       -- INLAY_ARM commands waiting for their page or boundary
  windowAt : Nat := 0                -- start of the admission window (R418)
  fwHeld : Bool := false             -- an access of firmware in the command being performed meets a page that a spar command owns (R318)
  running : Bool := false            -- SCHED and the control cores run
  deriving DecidableEq, Repr

/-- The module: the commands that wait, and its domains. -/
structure State where
  pending : List Instr := []
  aon : Aon := {}
  sec : Sec := {}
  pwr : Pwr := {}
  m : Mach := {}
  deriving DecidableEq, Repr

/-- Why the machine stops. -/
inductive Fault where
  /-- Raised by no command: no state of the block is without a successor (log entry 10). Safe. -/
  | impossible
  deriving DecidableEq, Repr

/-- Why a command is refused. -/
inductive Refusal where
  /-- Raised by an arm of `exec` whose meaning is not written. Safe. -/
  | notModelled (mnemonic : String)
  deriving DecidableEq, Repr

/-- Right after reset: input power has been applied and the module stands in `STANDBY` (R718, R729). -/
def State.reset : State := {}

end Sys2Proof.Machine
end

