-- ==== Sys2Proof/Machine/Ops.lean ====
section
/-! DEFINITION. The named operations over the state that the commands share: protected memories, device physical
addresses and cells, the event recorder, free values, counters, and lifting an effect on the core domains. -/
namespace Sys2Proof.Machine

/-! ## Lists and numbers -/

/-- The list without the entries at which `p` holds. -/
def dropWhere {α : Type} (p : α → Bool) (l : List α) : List α := l.filter (fun x => !p x)

/-- A list with `x` appended where it does not hold `x` already. -/
def addNew {α : Type} [DecidableEq α] (l : List α) (x : α) : List α := if x ∈ l then l else l ++ [x]

/-- The sum of a list. -/
def sumNat (l : List Nat) : Nat := l.foldl (· + ·) 0

/-- The largest entry of a list, 0 of the empty list. -/
def maxNat (l : List Nat) : Nat := l.foldl max 0

/-- How many bits of a number below 2^w are set. -/
def popcount (w v : Nat) : Nat := ((List.range w).filter (bitAt v)).length

/-- The indices of the set bits of a number below 2^w, rising. -/
def setBits (w v : Nat) : List Nat := (List.range w).filter (bitAt v)

/-- A 64-bit word from fields: pairs of a low bit and a value already within its field. -/
def packWord (fs : List (Nat × Nat)) : Word := BitVec.ofNat 64 (sumNat (fs.map fun f => f.2 * 2 ^ f.1))

/-- 1 for true, 0 for false. -/
def b2n (b : Bool) : Nat := if b then 1 else 0

/-- A digest or key as bytes. -/
def digestBytes (d : BitVec 256) : List Byte := (List.range 32).map fun i => BitVec.ofNat 8 (d.toNat / 2 ^ (8 * (31 - i)))

/-- SHA-256 as the bytes that the standard orders (R693). -/
def shaBytes (l : List Byte) : List Byte := digestBytes (Config.sha256 l)

/-- The digest that identifies code which no image's header names: the SHA-256 that a header would give (R72, R309). -/
def codeDigest (code : List Byte) : Nat := fld (shaBytes code) 0 32

/-! ## Free values and choices -/

/-- A free value of `w` bits, and the machine with the draw counted (log entry 1). -/
def Mach.free (m : Mach) (w : Nat) : BitVec w × Mach := (Config.freeBits w m.drawn, { m with drawn := m.drawn + 1 })

/-- One of the entries of a list at a free choice, none of the empty list (log entry 2). -/
def Mach.pick {α : Type} (m : Mach) (l : List α) : Option α × Mach :=
  (match l with | [] => none | [a] => some a | a :: r => (a :: r)[Config.freeChoice m.drawn % (r.length + 1)]?, { m with drawn := m.drawn + 1 })

/-! ## Protected memories (R627, R628, R637) -/

/-- The raw byte stored at an address; what is not listed is 0 (log entry 13). -/
def Ram.byte (r : Ram) (a : Nat) : Byte := Tab.get 0 r.bytes a

/-- `n` raw bytes from an address. -/
def Ram.get (r : Ram) (a n : Nat) : List Byte := (List.range n).map fun i => r.byte (a + i)

/-- The raw 64-bit word number `w`. -/
def Ram.word (r : Ram) (w : Nat) : Word := BitVec.ofNat 64 (leNat (r.get (8 * w) 8))

/-- One byte stored. -/
def Ram.putByte (r : Ram) (a : Nat) (b : Byte) : Ram := { r with bytes := Tab.put 0 r.bytes a b }

/-- Bytes stored from an address on. -/
def Ram.putBytes (r : Ram) : Nat → List Byte → Ram
  | _, [] => r
  | a, b :: t => Ram.putBytes (r.putByte a b) (a + 1) t

/-- Word number `w` written whole, with fresh check bits or as poison. -/
def Ram.putWord (r : Ram) (w : Nat) (v : PWord) : Ram :=
  let r := r.putBytes (8 * w) (leBytes 8 v.val.toNat)
  { r with poison := Tab.put false r.poison w v.poison, flips := Tab.put 0 r.flips w 0 }

/-- Stored bits of word `w` flipped by an error: data bits low, the 8 check bits above (R627). -/
def Ram.flip (r : Ram) (w : Nat) (e : BitVec 72) : Ram := { r with flips := Tab.upd 0 r.flips w (· ^^^ e) }

/-- The canonical form of a protected memory: each map canonical. -/
def Ram.wf (r : Ram) : Bool := Tab.wf 0 r.bytes && Tab.wf false r.poison && Tab.wf 0 r.flips

/-- What a decoder makes of a stored word (R628, R631, R638, R739). -/
inductive Ecc where
  | clean | corrected | uncorrectable | poisoned
  deriving DecidableEq, Repr

/-- The decode of a word: what is delivered, how, and the syndrome seen. -/
structure EccRead where
  word : PWord
  kind : Ecc
  syn : BitVec 8
  deriving DecidableEq, Repr

/-- The syndrome of a stored word: 0xFE where it is stored as poison, and the columns of its flipped bits. -/
def syndromeOf (poison : Bool) (e : BitVec 72) : BitVec 8 :=
  (if poison then 0xFE else 0) ^^^
    (List.range 72).foldl (fun s i => if e.getLsbD i then s ^^^ Config.column i else s) 0

/-- Decoding of one stored word. One flip is corrected and two are detected, as the code promises; for three or
more, and for a poisoned word with flips, the syndrome decides (R628, R739). -/
def eccDecode (d : Word) (poison : Bool) (e : BitVec 72) : EccRead :=
  let bad := d ^^^ e.setWidth 64
  let syn := syndromeOf poison e
  if e = 0 then
    if poison then ⟨⟨d, true⟩, .poisoned, 0xFE⟩ else ⟨⟨d, false⟩, .clean, 0⟩
  else if poison = false ∧ popcount 72 e.toNat = 1 then ⟨⟨d, false⟩, .corrected, syn⟩
  else if poison = false ∧ popcount 72 e.toNat = 2 then ⟨⟨bad, true⟩, .uncorrectable, syn⟩
  else if syn = 0 then ⟨⟨bad, false⟩, .clean, 0⟩
  else if syn = 0xFE then ⟨⟨bad, true⟩, .poisoned, syn⟩
  else
    match (List.range 72).find? (fun i => Config.column i == syn) with
    | some i => ⟨⟨bad ^^^ (if i < 64 then BitVec.ofNat 64 (2 ^ i) else 0), false⟩, .corrected, syn⟩
    | none => ⟨⟨bad, true⟩, .uncorrectable, syn⟩

/-- The decode of word number `w` of a memory. -/
def Ram.decode (r : Ram) (w : Nat) : EccRead :=
  eccDecode (r.word w) (Tab.get false r.poison w) (Tab.get 0 r.flips w)

/-- The decoded bytes from an address, and whether any of their words is poisoned or uncorrectable. -/
def Ram.read (r : Ram) (a n : Nat) : List Byte × Bool :=
  let w0 := a / 8
  let ws := (List.range ((a + n + 7) / 8 - w0)).map fun i => (r.decode (w0 + i)).word
  (slice (ws.flatMap fun w => leBytes 8 w.val.toNat) (a % 8) n, n != 0 && ws.any (·.poison))

/-- Bytes written: a word that they cover whole is stored clean or as poison, as `p` says; a word covered in part
keeps its corrected other bytes, and is poison where it was or where `p` (R640, log entry 14). -/
def Ram.write (r : Ram) (a : Nat) (data : List Byte) (p : Bool) : Ram :=
  let w0 := a / 8
  (List.range ((a + data.length + 7) / 8 - w0)).foldl (fun r i =>
    let w := w0 + i
    let old := (r.decode w).word
    let ob := leBytes 8 old.val.toNat
    let inside := fun j => a ≤ 8 * w + j ∧ 8 * w + j < a + data.length
    let nb := (List.range 8).map fun j => if inside j then data.getD (8 * w + j - a) 0 else ob.getD j 0
    let whole := (List.range 8).all fun j => decide (inside j)
    r.putWord w ⟨BitVec.ofNat 64 (leNat nb), p || (!whole && old.poison)⟩) r

/-! ## Device physical addresses (R228 to R237) -/

/-- The bank a cell lies in, as stack × 1024 + die × 64 + bank. -/
def bankOfCell (cell : Nat) : Nat := cell / 2 ^ 26
def stackOfCell (cell : Nat) : Nat := cell / 2 ^ 36
def dieOfCell (cell : Nat) : Nat := cell / 2 ^ 32 % 16
def bankInDie (cell : Nat) : Nat := cell / 2 ^ 26 % 64
def rowOfCell (cell : Nat) : Nat := cell / 2 ^ 10 % 65536
def colOfCell (cell : Nat) : Nat := cell % 1024

/-- A cell number: the address of the byte in the grain view without its top digit (R233). -/
def cellAt (stack die bank row col : Nat) : Nat := stack * 2 ^ 36 + die * 2 ^ 32 + bank * 2 ^ 26 + row * 2 ^ 10 + col

/-- The cell of a word-view address (R232). -/
def decodeWordView (dpa : Nat) : Nat :=
  let colour := bits dpa 21 16
  let g := bits dpa 15 8
  let ch := (bits g 4 0 + 8 * bits colour 5 4) % 32
  cellAt (bits dpa 39 36) (ch / 2) (32 * (ch % 2) + 2 * bits dpa 19 16 + bits g 5 5) (bits dpa 35 20)
    (256 * bits g 7 6 + bits dpa 7 0)

/-- First address of the grain view and of companion memory. -/
def grainBase : Nat := 0x80000000000
def companionBase : Nat := 0xF0000000000

/-- The cell of a device physical address of either view; none where the address lies in neither (R234). -/
def cellOf (dpa : Nat) : Option Nat :=
  if dpa < 12 * 2 ^ 36 then some (decodeWordView dpa)
  else if grainBase ≤ dpa ∧ dpa < grainBase + 12 * 2 ^ 36 then some (dpa - grainBase)
  else none

/-- The frame that an address lies in: a word frame's number, or 2^24 and the number of a grain page (R235). -/
def frameOf (dpa : Nat) : Nat := if dpa < grainBase then dpa / 65536 else 2 ^ 24 + (dpa - grainBase) / 65536

/-- The first address of a frame. -/
def frameDpa (f : Nat) : Nat := if f < 2 ^ 24 then f * 65536 else grainBase + (f - 2 ^ 24) * 65536

/-- The stack of a frame. -/
def frameStack (f : Nat) : Nat := f % 2 ^ 24 / 2 ^ 20

/-- The colour of a word frame (R239). -/
def frameColour (f : Nat) : Nat := f % 64

/-- The bank of a grain page, as stack × 1024 + die × 64 + bank. -/
def pageBank (f : Nat) : Nat := (f - 2 ^ 24) / 1024

/-- The block that a frame lies in (R236): stack, group and t. -/
def frameBlock (f : Nat) : Nat × Nat × Nat :=
  if f < 2 ^ 24 then (f / 2 ^ 20, f % 16, f / 16 % 65536 / 64)
  else (frameStack f, pageBank f % 32 / 2, (f - 2 ^ 24) % 1024)

/-- The frames of a block: 64 word frames, or its 64 grain pages (R236). -/
def blockWordFrames (b : Nat × Nat × Nat) : List Nat :=
  (List.range 64).map fun i => b.1 * 2 ^ 20 + (b.2.2 * 64 + i) * 16 + b.2.1
def blockGrainPages (b : Nat × Nat × Nat) : List Nat :=
  (List.range 64).map fun i =>
    2 ^ 24 + (b.1 * 1024 + i / 4 * 64 + 32 * (i / 2 % 2) + 2 * b.2.1 + i % 2) * 1024 + b.2.2

/-- The cells of the 64 rows of a frame, row by row, as the cell of each row's first byte. -/
def frameRows (f : Nat) : List Nat :=
  if f < 2 ^ 24 then
    (List.range 64).map fun i => cellAt (f / 2 ^ 20) (i / 4) (32 * (i / 2 % 2) + 2 * (f % 16) + i % 2) (f / 16 % 65536) 0
  else (List.range 64).map fun i => (f - 2 ^ 24) * 65536 + i * 1024

/-! ## Inlay substitution (R644, R645) -/

/-- First key of the spare lines of the stacks' banks in the memory of cells. -/
def spareBase : Nat := 2 ^ 60

/-- The key of a byte of a spare line. -/
def spareKey (stack die bank line off : Nat) : Nat :=
  spareBase + ((stack * 16 + die) * 64 + bank) * 1024 + line * 64 + off

/-- Where a cell is stored: in its row, or in the spare line that an armed entry remaps its line to. -/
def Mach.cellKey (m : Mach) (cell : Nat) : Nat :=
  let st := Tab.get ({} : Stack) m.memStacks (stackOfCell cell)
  let hit := st.inlay.find? fun e => match e.2 with
    | some i => i.die == dieOfCell cell && i.bank == bankInDie cell && i.row == rowOfCell cell && i.line == colOfCell cell / 64
    | none => false
  match hit with
  | some (_, some i) => spareKey (stackOfCell cell) i.die i.bank i.spare (cell % 64)
  | _ => cell

/-- A whole row of a bank (first cell `c`) as it is stored, with the poison of its 128 words. -/
def Mach.peekRow (m : Mach) (c : Nat) : List EccRead :=
  (List.range 128).map fun i => m.mem.decode (m.cellKey (c + 8 * i) / 8)

/-! ## The event recorder (R653 to R660) -/

/-- The code of an event: of R660 and R715 where they list it, else a number that the manual does not give
(log entry 4). -/
def Ev.code : Ev → Nat
  | .selftestFail => 0x0001 | .mastFault => 0x1001 | .sparFault => 0x2001 | .dramCe => 0x3001 | .dramUe => 0x3002
  | .sramCe => 0x3003 | .sramUe => 0x3004 | .scraperLap => 0x3005 | .scraperOverdue => 0x3006 | .inlayChanged => 0x3007
  | .transportPoison => 0x3008 | .commitLogPoison => 0x3009 | .bookkeepingUe => 0x300A | .moverHalt => 0x4001
  | .commandPoisoned => 0x5001 | .updateStaged => 0xC001 | .updateFallback => 0xC002 | .configRejected => 0xC003
  | .fwHang => 0xC004 | .rollbackRaised => 0xC005 | .bootMeasured => 0xC006
  | .deployStopped => 0x6001 | .acctRingFull => 0xD001
  | .spareUnusable => (Config.eventNumber 9).toNat
  | .draftWait => 0x5000 + (Config.eventNumber 1).toNat | .pageLimit => 0x5000 + (Config.eventNumber 2).toNat
  | .swapBlocked => 0x5000 + (Config.eventNumber 3).toNat | .starvation => 0x5000 + (Config.eventNumber 4).toNat
  | .preemptOverdue => 0x5000 + (Config.eventNumber 5).toNat | .waitOverdue => 0x5000 + (Config.eventNumber 6).toNat
  | .deadlock => 0x5000 + (Config.eventNumber 7).toNat | .wcetOverrun => 0x5000 + (Config.eventNumber 8).toNat
  | .pauseExpired => 0x6000 + (Config.eventNumber 21).toNat | .cacheExhausted => 0x6000 + (Config.eventNumber 22).toNat
  | .afuFault => 0x6000 + (Config.eventNumber 29).toNat
  | .linkLost => 0x7000 + (Config.eventNumber 23).toNat | .collectiveOverdue => 0x7000 + (Config.eventNumber 24).toNat
  | .damgerLoss => 0x8000 + (Config.eventNumber 25).toNat | .doorbellInvalid => 0x8000 + (Config.eventNumber 26).toNat
  | .inboundSuperseded => 0x8000 + (Config.eventNumber 27).toNat | .inboundRefused => 0x8000 + (Config.eventNumber 28).toNat
  | .inputFault => 0x9000 + (Config.eventNumber 11).toNat | .powerClamp => 0x9000 + (Config.eventNumber 12).toNat
  | .reef => 0x9000 + (Config.eventNumber 13).toNat | .reefExhausted => 0x9000 + (Config.eventNumber 14).toNat
  | .modelDivergence => 0xA000 + (Config.eventNumber 15).toNat | .thermalTrip => 0xA000 + (Config.eventNumber 16).toNat
  | .marginPlan => 0xB000 + (Config.eventNumber 17).toNat | .planOverdue => 0xB000 + (Config.eventNumber 18).toNat
  | .marginWarning => 0xB000 + (Config.eventNumber 19).toNat | .marginError => 0xB000 + (Config.eventNumber 20).toNat
  | .firmwareFault => 0xC000 + (Config.eventNumber 30).toNat | .widthLowered => 0x1000 + (Config.eventNumber 32).toNat

/-- The severity of an event: of R660 and R715 or of its own rule where one gives it (log entry 4). -/
def Ev.sev : Ev → Nat
  | .selftestFail | .bookkeepingUe => 5
  | .mastFault | .sparFault | .dramUe | .sramUe | .transportPoison | .commitLogPoison | .moverHalt | .commandPoisoned
  | .updateFallback | .configRejected | .deployStopped | .marginError => 4
  | .reef => 0
  | .scraperOverdue | .acctRingFull => 3
  | .dramCe | .sramCe | .inlayChanged | .rollbackRaised => 2
  | .scraperLap | .updateStaged | .bootMeasured => 1
  | .fwHang | .thermalTrip => 6
  | e => (Config.eventSeverity e.index).val

/-- The default burst and rate of a severity (R655). -/
def bucketDefault : Nat → Nat × Nat
  | 0 => (16, 1000) | 1 => (32, 100) | 2 => (64, 100) | 3 => (64, 50) | 4 => (256, 100) | _ => (1024, 1000)

/-- A token in the units of a bucket. -/
def token : Nat := 1000000000

/-- The bucket of an event as it stands: full with the defaults where the code has not been used. -/
def Evr.bucket (r : Evr) (e : Ev) : Bucket :=
  match r.buckets.find? (fun b => b.1 = e) with
  | some b => b.2
  | none => { level := (bucketDefault e.sev).1 * token, last := 0, burst := (bucketDefault e.sev).1, rate := (bucketDefault e.sev).2 }

/-- A bucket refilled up to `now` (R655). -/
def Bucket.refill (b : Bucket) (now : Nat) : Bucket :=
  { b with level := min (b.burst * token) (b.level + (now - b.last) * b.rate), last := now }

/-- The bucket of an event replaced. -/
def Evr.setBucket (r : Evr) (e : Ev) (b : Bucket) : Evr :=
  { r with buckets := if r.buckets.any (fun x => x.1 = e) then r.buckets.map (fun x => if x.1 = e then (e, b) else x) else r.buckets ++ [(e, b)] }

/-- How many slots of the recorder there are (R653). -/
def evrSlots : Nat := 4096

/-- The records held, with their slots. -/
def Evr.held (r : Evr) : List (Nat × Rec) := r.slots.filterMap fun e => e.2.map fun x => (e.1, x)

/-- The slot a record of severity `sev` takes: a free one, else the oldest of severity at most its own that is
below error or persisted (R656); with it, whether it overwrites. -/
def Evr.slotFor (r : Evr) (sev : Nat) : Option (Nat × Bool) :=
  match findFrom (fun i => Tab.get none r.slots i == none) evrSlots 0 with
  | some i => some (i, false)
  | none =>
    let ok := r.held.filter fun x => x.2.sev ≤ sev && (x.2.sev < 4 || x.2.persisted)
    (ok.foldl (fun (best : Option (Nat × Rec)) x => match best with
      | none => some x
      | some b => if x.2.seq < b.2.seq then some x else some b) none).map fun x => (x.1, true)

/-- A record stored or dropped, after its bucket (R656, R658). -/
def Evr.store (r : Evr) (x : Rec) : Evr :=
  match r.slotFor x.sev with
  | none => { r with droppedFull := r.droppedFull + 1 }
  | some (i, overran) =>
    { r with slots := Tab.put none r.slots i (some { x with seq := r.seq }), seq := r.seq + 1,
             overwritten := r.overwritten + b2n overran, critStored := r.critStored + b2n (x.sev == 5),
             fatalStored := r.fatalStored + b2n (x.sev == 6) }

/-- A record arrives at the recorder (R655, R656): it takes a token of its code unless it is fatal, and is
dropped where none is left; counts change by one for every record (R658). -/
def Evr.arrive (r : Evr) (x : Rec) : Evr :=
  let r := { r with produced := r.produced + 1 }
  if x.sev ≥ 6 then r.store x else
    let b := (r.bucket x.ev).refill x.time
    if b.level < token then
      { r.setBucket x.ev { b with suppressed := satAdd 32 b.suppressed 1 } with droppedRate := r.droppedRate + 1 }
    else (r.setBucket x.ev { b with level := b.level - token }).store x

/-- The recorder after its state has gone from `r` to `n`: suspended counts do not change (R643). -/
def Evr.keepCounts (r n : Evr) : Evr :=
  if r.suspended then { n with produced := r.produced, overwritten := r.overwritten, droppedFull := r.droppedFull, droppedRate := r.droppedRate } else n

/-- An event posted at the present module time; words 2 onward of the record are `snap`. -/
def Mach.post (m : Mach) (e : Ev) (ctx : Option Nat) (u : UnitId) (snap : List Word) : Mach :=
  { m with evr := m.evr.keepCounts (m.evr.arrive { ev := e, ctx := ctx, sev := e.sev, unit := u, time := m.now, seq := 0, snap := snap }) }

/-- Unit names of R654. -/
def uModule : UnitId := ⟨0, 0⟩
def uCluster (c : Nat) : UnitId := ⟨1, c⟩
def uCore (c : Nat) : UnitId := ⟨2, c⟩
def uStack (s : Nat) : UnitId := ⟨3, s⟩
def uSpar (s : Nat) : UnitId := ⟨4, s⟩
def uPort (p : Nat) : UnitId := ⟨5, p⟩
def uDamger : UnitId := ⟨6, 0⟩
def uZone (z : Nat) : UnitId := ⟨8, z⟩

/-! ## Lifting an effect to the whole state -/

/-- The queue replaced. -/
def State.withPending (s : State) (q : List Instr) : State := { s with pending := q }

/-- Bits of PWR_SB_ALERT set; in I3C mode each newly set unmasked one raises an in-band interrupt (R727). -/
def Aon.raise (a : Aon) (b : BitVec 7) : Aon :=
  let n := a.alert ||| b
  { a with alert := n,
           ibi := if a.i3c && (n &&& ~~~a.alert &&& a.alertMask) != 0 then some (n.setWidth 8) else a.ibi }

/-- The always-on domain after the recorder has gone from `o` to `n`: a stored critical or fatal record sets its
alert bit (PWR_SB_ALERT). -/
def Aon.noteStores (a : Aon) (o n : Evr) : Aon :=
  a.raise ((if n.critStored ≠ o.critStored then 2 else 0) ||| (if n.fatalStored ≠ o.fatalStored then 4 else 0))

/-- The core domains replaced, with the alerts of the records stored on the way. -/
def State.withMach (s : State) (m : Mach) : State := { s with m := m, aon := s.aon.noteStores s.m.evr m.evr }

/-- The effect of a command in which firmware reaches context memory: where one of its accesses is held for a page that a spar command
owns, all of it waits (R318, log entry 74). -/
def State.firmware (s : State) (m : Mach) : State := if m.fwHeld && !s.m.fwHeld then s else s.withMach m

/-- Modes in which the rails are on. -/
def Mode.powered : Mode → Bool
  | .boot | .train | .selftest | .hold | .ready | .run => true
  | _ => false

/-- The control window is served: the link is up in `TRAIN` to `RUN` (R718); without its processors, in the `HOLD`
that follows `BOOT`, only the identity block, the mailbox and the SEC block are (R720). -/
def State.served (s : State) : Bool := s.m.dmg.up && s.aon.mode.powered && s.aon.mode != .boot
def State.servedFull (s : State) : Bool := s.served && s.sec.procsUp

/-- The companion's writes to the control window are performed after every memory write that the link delivered before them: none while
such a write is held (R570). -/
def State.servedWrite (s : State) : Bool := s.served && !s.m.dmg.heldAcc.any fun x => x.data.isSome
def State.servedFullWrite (s : State) : Bool := s.servedWrite && s.sec.procsUp

/-- One idle cycle of the 100 MHz clock: module time advances by 10 ns while the module has input power
(log entry 12). -/
def idleTick (s : State) : State :=
  if s.aon.mode = .off then s else { s with m := { s.m with now := s.m.now + 10 } }

/-! ## Units -/

/-- Cluster `c`, stack `k` and context `x` as they stand. -/
def Mach.cl (m : Mach) (c : Nat) : Cluster := Tab.get {} m.clusters c
def Mach.st (m : Mach) (k : Nat) : Stack := Tab.get {} m.memStacks k
def Mach.cx (m : Mach) (x : Nat) : Ctx := Tab.get {} m.ctxs x

/-- Cluster `c`, stack `k` and context `x` replaced. -/
def Mach.setCl (m : Mach) (c : Nat) (x : Cluster) : Mach := { m with clusters := Tab.put {} m.clusters c x }
def Mach.setSt (m : Mach) (k : Nat) (x : Stack) : Mach := { m with memStacks := Tab.put {} m.memStacks k x }
def Mach.setCx (m : Mach) (i : Nat) (x : Ctx) : Mach := { m with ctxs := Tab.put {} m.ctxs i x }

/-- Cluster `c`, stack `k` and context `x` changed by a function. -/
def Mach.modCl (m : Mach) (c : Nat) (f : Cluster → Cluster) : Mach := m.setCl c (f (m.cl c))
def Mach.modSt (m : Mach) (k : Nat) (f : Stack → Stack) : Mach := m.setSt k (f (m.st k))
def Mach.modCx (m : Mach) (i : Nat) (f : Ctx → Ctx) : Mach := m.setCx i (f (m.cx i))

/-- The bank, spar core of a stack, and core of a cluster as they stand. -/
def Stack.bank (s : Stack) (b : Nat) : DBank := Tab.get {} s.banks b
def Stack.core (s : Stack) (k : Nat) : Spar := Tab.get {} s.spar k
def Cluster.core (c : Cluster) (k : Nat) : Core := Tab.get {} c.cores k
def Cluster.chan (c : Cluster) (k : Nat) : Chan := Tab.get {} c.chans k
def Cluster.slot (c : Cluster) (k : Nat) : Slot := Tab.get {} c.slots k
def Stack.modBank (s : Stack) (b : Nat) (f : DBank → DBank) : Stack := { s with banks := Tab.upd {} s.banks b f }
def Stack.modCore (s : Stack) (k : Nat) (f : Spar → Spar) : Stack := { s with spar := Tab.upd {} s.spar k f }
def Cluster.modCore (c : Cluster) (k : Nat) (f : Core → Core) : Cluster := { c with cores := Tab.upd {} c.cores k f }
def Cluster.modChan (c : Cluster) (k : Nat) (f : Chan → Chan) : Cluster := { c with chans := Tab.upd {} c.chans k f }
def Cluster.modSlot (c : Cluster) (k : Nat) (f : Slot → Slot) : Cluster := { c with slots := Tab.upd {} c.slots k f }

/-! ## Damger link (R562) -/

/-- The Damger link after training: up on the fibre pairs and rate that it settled on, or not trained. -/
def Mach.damgerTrained (m : Mach) (r : Option (Nat × Bool)) : Mach :=
  match r with
  | some (p, h) => { m with dmg := { m.dmg with up := true, version := 1, pairs := p, half := h } }
  | none => { m with dmg := { m.dmg with up := false } }

/-! ## Event counts (R661, R662) -/

/-- The key of a counter: class, unit and event. -/
def ctrKey (cls unit event : Nat) : Nat := (cls * 256 + unit) * 256 + event

/-- A counter raised; counters are 64 bits wide and wrap (R661). -/
def Mach.count (m : Mach) (cls unit event n : Nat) : Mach :=
  { m with ctr := { m.ctr with live := Tab.upd 0 m.ctr.live (ctrKey cls unit event) fun v => (v + n) % 2 ^ 64 } }

end Sys2Proof.Machine
end

