-- ==== Sys2Proof/Machine/Mailbox.lean ====
section
/-! DEFINITION. The admin mailbox (R572 to R575): status codes, the checks every admin command meets, its answer,
and the pending queue. -/
namespace Sys2Proof.Machine

/-- The codes of R587, R649, R669 and R709. -/
def Status.code : Status → Nat
  | .ok => 0x0000 | .pending => 0x0001 | .skipped => 0x0002
  | .badOpcode => 0x0010 | .badParam => 0x0011 | .badImage => 0x0012 | .loopBound => 0x0013 | .predFault => 0x0014
  | .staleDesc => 0x0015 | .badBinding => 0x0016 | .shape => 0x0017 | .notAnchored => 0x0018
  | .wcetExceedsReserve => 0x0019 | .moduleState => 0x001A | .version => 0x001B | .busy => 0x001C
  | .badDesc => 0x0020 | .badHandle => 0x0021 | .viewMismatch => 0x0022 | .align => 0x0023 | .footprint => 0x0024
  | .padOnWrite => 0x0025 | .badAcc => 0x0026 | .zeroStride => 0x0027 | .nonInjective => 0x0028 | .badGrain => 0x0029
  | .badOwner => 0x002A | .noSpace => 0x002B | .noMemory => 0x002C | .pageLimit => 0x002D
  | .ctxState => 0x0030 | .lcOvercommit => 0x0031
  | .trapped => 0x0040 | .halted => 0x0041 | .poisoned => 0x0042 | .killed => 0x0043 | .queueStopped => 0x0044
  | .afuFault => 0x0045
  | .deployState => 0x0050 | .tableFull => 0x0051 | .reqState => 0x0052 | .reqUnknown => 0x0053
  | .hostTierFull => 0x0054 | .reqExpired => 0x0055
  | .noNodeId => 0x0060 | .trainFailed => 0x0061 | .linkDown => 0x0062 | .collectiveFailed => 0x0063 | .aborted => 0x0064
  | .grantConflict => 0x0070 | .grantLcConflict => 0x0071 | .grantNone => 0x0072
  | .inlayInUse => 0x0080 | .inlayDuplicate => 0x0081 | .inlayNoSpare => 0x0082 | .inlayNotArmed => 0x0083
  | .inlayUnitExcluded => 0x0084 | .holdNotExcludable => 0x0085
  | .updBadPackage => 0x0090 | .updWrongModule => 0x0091 | .updAuth => 0x0092 | .updRollback => 0x0093
  | .updBaseMissing => 0x0094 | .updDigest => 0x0095 | .updFlash => 0x0096 | .updSlotInvalid => 0x0097 | .updTrial => 0x0098

/-- How many outcomes the pending queue holds (R574). -/
def pendSlots : Nat := 32

/-- Outcomes in the pending queue that the host has not read. -/
def Hyv.unread (h : Hyv) : Nat := (h.pqTail + 64 - h.pqHead) % 64

/-- True where one more outcome would leave more than 32 pending and unread (R574). -/
def Hyv.pendFull (h : Hyv) : Bool := h.outstanding + h.unread ≥ pendSlots

/-- The mailbox command finishes: status, opcode and result are set and busy clears (R573). -/
def Hyv.answer (h : Hyv) (op : Nat) (st : Status) (res : Word) : Hyv :=
  { h with latched := none, status := st, statusOp := op, result := res, outstanding := h.outstanding + b2n (st = .pending) }

/-- The final outcome of a command answered PENDING is posted with its tag (R573, R574). -/
def Hyv.postOutcome (h : Hyv) (now : Nat) (tag : Word) (op : Nat) (st : Status) (res : Word) : Hyv :=
  { h with pqMem := Tab.put none h.pqMem (h.pqTail % pendSlots) (some ⟨tag, res, now, st, op⟩),
           pqTail := (h.pqTail + 1) % 64, outstanding := h.outstanding - 1 }

/-- The mailbox command answered on the whole state. -/
def State.answer (s : State) (a : Admin) (st : Status) (res : Word) : State :=
  { s with m := { s.m with hyv := s.m.hyv.answer a.op st res } }

/-- The mailbox command answered, and a pending outcome posted, on the core domains. -/
def Mach.answer (m : Mach) (a : Admin) (st : Status) (res : Word) : Mach := { m with hyv := m.hyv.answer a.op st res }
def Mach.postOutcome (m : Mach) (tag : Word) (op : Nat) (st : Status) (res : Word) : Mach :=
  { m with hyv := m.hyv.postOutcome m.now tag op st res }

/-- Opcodes of the admin commands (R575). -/
def adminOps : List Nat := [0x01, 0x02, 0x03, 0x04, 0x10, 0x11, 0x20, 0x21, 0x30, 0x31, 0x40, 0x41]

/-- Opcodes that `HOLD` accepts (R575). -/
def holdOps : List Nat := [0x30, 0x31, 0x40, 0x41]

/-- True where the processor that owns the command runs (R687, R688, R711). -/
def adminOwnerUp (s : State) (op : Nat) : Bool :=
  if s.m.hyv.version = 0 ∨ op = 0x30 ∨ op = 0x31 ∨ s.sec.procsUp = false then s.sec.running else s.m.running

/-- What refuses a mailbox command before its own checks (R575, R718; log entry 16 on their order). -/
def adminRefusal (s : State) (a : Admin) : Option Status :=
  if a.rsv = false then some .badParam
  else if (s.aon.mode = .train ∨ s.aon.mode = .selftest) ∧ a.op ≠ 0x40 then some .moduleState
  else if s.m.hyv.version = 0 ∧ a.op ≠ 0x40 ∧ a.op ≠ 0x41 then some .version
  else if s.aon.mode = .hold ∧ holdOps.contains a.op = false then some .moduleState
  else if a.op = 0x41 ∧ s.aon.mode ≠ .hold then some .moduleState
  else none

/-- The row of an admin command: where the latched command is this one (`op`, and `sub` where rows share an
opcode) and its processor runs, it is refused under `adminRefusal` or performed by `run`. -/
def adminRow (s : State) (op : Nat) (sub : Admin → Bool) (run : Admin → State → State) : State :=
  match s.m.hyv.latched with
  | none => s
  | some a =>
    if a.op = op ∧ sub a = true ∧ adminOwnerUp s op = true then
      match adminRefusal s a with
      | some st => s.answer a st 0
      | none => run a s
    else s

end Sys2Proof.Machine
end

