-- ==== Sys2Proof/Machine/Startup.lean ====
section
/-! DEFINITION. Module states, pins, power and the start up to READY (R594, R651, R652, R718 to R722). -/
namespace Sys2Proof.Machine

/-! ## Leaving every powered state -/

/-- The core domains after the rails but AON go off: the recorder, counters, module time and the count of draws
stay, and everything else is lost (R653, R661, R721). -/
def Mach.powerDown (m : Mach) : Mach :=
  { now := m.now, drawn := m.drawn, evr := { m.evr with window := 0, windowBusy := false, aperture := [] },
    ctr := { live := m.ctr.live, freezes := 0 } }

/-- The hottest node, the lowest number of those as hot; until the model has run, the one that AON holds (THM_STATUS). -/
def Pwr.hottest (p : Pwr) : Nat × Int :=
  if p.nodes.isEmpty then p.hottestHeld else
  (List.range 57).foldl (fun (b : Nat × Int) n => let t := (Tab.get ({} : Node) p.nodes n).temp; if b.2 < t then (n, t) else b)
    (0, (Tab.get ({} : Node) p.nodes 0).temp)

/-- Power and temperature after the rails go off: what AON holds, THM_STATUS with it, and what flash holds stays
(R598, R619). -/
def Pwr.powerDown (p : Pwr) : Pwr :=
  { inputMv := p.inputMv, goodSince := p.goodSince, energyUj := p.energyUj, energyHeld := p.energyHeld, energyCharged := p.energyCharged, clampSeen := p.clampSeen, faultSeen := p.faultSeen,
    topC := p.topC, topRaised := p.topRaised, planState := if p.planState = 2 then 2 else 0, planDueAt := p.planDueAt,
    planMadeAt := p.planMadeAt, planCarry := p.planCarry, planSeeded := p.planSeeded, planMv := p.planMv,
    planStack := p.planStack, planLaser := p.planLaser,
    coolant := p.coolant, hottestHeld := p.hottest, exhaustedSeen := p.exhaustedSeen, divergenceSeen := p.divergenceSeen, marginSeen := p.marginSeen }

/-- A slot that flash keeps: one whose complete marker a lost stage had taken is empty (R698, R710). -/
def FwSlot.kept (f : FwSlot) : FwSlot := if f.complete || f.state == 3 then f else {}

/-- SEC after the rails go off: flash and the replay-protected values stay, and a stage or quote is lost
(R692, R710). -/
def Sec.powerDown (x : Sec) : Sec :=
  { sel := x.sel, slotA := x.slotA.kept, slotB := x.slotB.kept, record := x.record, staged := x.staged, fwMin := x.fwMin,
    cfgMin := x.cfgMin, revoked := x.revoked, raWrites := x.raWrites, bootCount := x.bootCount,
    endorsement := x.endorsement, endorseIndex := x.endorseIndex, romVersion := x.romVersion }

/-- Every port in use loses its link with reason MODULE_STATE (R542). -/
def Mach.linksDown (m : Mach) : Mach :=
  (List.range 16).foldl (fun (m : Mach) p =>
    let k := Tab.get ({} : Port) m.shr.ports p
    if k.st = .up ∨ k.st = .closing then
      m.post .linkLost none (uPort p) [BitVec.ofNat 64 p, 7, BitVec.ofNat 64 k.lastAck.toNat, BitVec.ofNat 64 (k.inSeq - 1).toNat]
    else m) m

/-- The rails but AON go off, the stays close, and the module enters a state without rails (R523, R615, R721). -/
def State.railsOff (s : State) (mode : Mode) : State :=
  let s := s.withMach s.m.linksDown
  { s with aon := { s.aon with mode := mode, pgood := false, holdReason := 0, failed := [] },
           sec := s.sec.powerDown, pwr := s.pwr.powerDown, m := s.m.powerDown }

/-- What MOD_EN deassertion and RESET_L do in every state but `OFF`, `TRIPPED` and `COOLING` (R721). -/
def State.toStandby (s : State) : State :=
  if s.aon.mode = .off ∨ s.aon.mode = .tripped ∨ s.aon.mode = .cooling then s else s.railsOff .standby

/-- INPUT_POWER_APPLIED: in `OFF`, AON powers up, its registers and counters take their reset values, and the module
enters `STANDBY` (R718). -/
def execInputPowerApplied (s : State) : Host.Outcome State Fault Refusal :=
  .next (if s.aon.mode = .off then
    { s with aon := { s.aon with mode := .standby, locked := false, sbOffset := 0, alert := 0, alertMask := 0x7F, idLo := 0, idHi := 0 } }
    else s)

/-- INPUT_POWER_LOST: every rail, AON, the recorder's slots and the trip history are lost; what flash holds stays
(R653, R617, R718). -/
def execInputPowerLost (s : State) : Host.Outcome State Fault Refusal :=
  let p := s.pwr.powerDown
  .next { s with
    aon := { mode := .off, modEn := s.aon.modEn, resetLow := s.aon.resetLow },
    sec := s.sec.powerDown,
    pwr := { p with inputMv := 0, goodSince := none, energyUj := 0, energyHeld := 0, energyCharged := 0, clampSeen := false, faultSeen := false, topRaised := [],
                    coolant := 0, hottestHeld := (0, 0), exhaustedSeen := false, divergenceSeen := false, marginSeen := false,
                    planCarry := p.planCarry + (s.m.now - p.planMadeAt), planMadeAt := 0, planDueAt := 0 },
    m := { drawn := s.m.drawn, evr := { flash := s.m.evr.flash } } }

/-- INPUT_FAULT: outside 36 V to 52 V for its time, the rails but AON stop as on MOD_EN deassertion, and an
input-fault event is posted (R594). -/
def execInputFault (mv : Nat) (s : State) : Host.Outcome State Fault Refusal :=
  .next (if s.aon.mode ≠ .off ∧ (mv < 36000 ∨ 52000 < mv) then
    let t := s.toStandby
    let t := { t with aon := t.aon.raise 16, pwr := { t.pwr with inputMv := mv, goodSince := none, faultSeen := true } }
    t.withMach (t.m.post .inputFault none uModule [BitVec.ofNat 64 mv])
  else s)

/-- MOD_EN_DEASSERT (R721). -/
def execModEnDeassert (s : State) : Host.Outcome State Fault Refusal :=
  .next ({ s with aon := { s.aon with modEn := false } } : State).toStandby

/-- RESET_L_ASSERT (R721). -/
def execResetLAssert (s : State) : Host.Outcome State Fault Refusal :=
  .next ({ s with aon := { s.aon with resetLow := true } } : State).toStandby

/-- The module enters `BOOT`: SEC starts from ROM, and the boot is counted (R696, R713). -/
def State.toBoot (s : State) : State :=
  { s with aon := { s.aon with mode := .boot, modEn := true, resetLow := false },
           sec := { s.sec with running := true, bootCount := s.sec.bootCount + 1 } }

/-- STANDBY_EXIT: the pins allow it, the input has been good for 100 ms and the module is not locked, so it enters `BOOT` (R594, R617,
R718, R722). -/
def execStandbyExit (s : State) : Host.Outcome State Fault Refusal :=
  .next (if s.aon.mode = .standby ∧ s.aon.locked = false ∧ s.pwr.goodSince.any (fun t => decide (t + 100000000 ≤ s.m.now)) = true then s.toBoot else s)

/-! ## The configuration record as it bounds the units (R700, R702) -/

/-- Cluster entry `c` of a record: enabled, core mask, width. -/
def recCluster (r : List Byte) (c : Nat) : Bool × Nat × Nat :=
  let e := fld r (0x020 + 4 * c) 4
  (bitAt e 31, bits e 23 16, bits e 7 0)
/-- The stacks and optical engines that a record enables, the Damger limit, and the limits of a port. -/
def recStackMask (r : List Byte) : Nat := fld r 0x0A0 2
def recEngineMask (r : List Byte) : Nat := fld r 0x0A2 1
def recDamger (r : List Byte) : Nat := fld r 0x0A3 1
def recPort (r : List Byte) (p : Nat) : Nat := fld r (0x0A4 + p) 1

/-- A Damger mode within the record's limit: no more pairs, and half rate where it says so (R702). -/
def damgerWithin (r : List Byte) (d : Option (Nat × Bool)) : Option (Nat × Bool) :=
  match d with
  | some (p, h) => if p ≤ bits (recDamger r) 3 0 ∧ (bitAt (recDamger r) 4 = true → h = true) ∧ (p = 1 ∨ p = 2 ∨ p = 4) then some (p, h) else none
  | none => none

/-! ## HOLD and READY -/

/-- hold_reason as R651 lays it out. -/
def holdWord (reason : Nat) (u : UnitId) : BitVec 32 := BitVec.ofNat 32 (reason * 65536 + u.cls % 16 * 4096 + u.idx % 4096)

/-- The module enters `HOLD` with a reason (R651, PWR_SB_ALERT.hold). -/
def State.toHold (s : State) (reason : Nat) (u : UnitId) : State :=
  { s with aon := ({ s.aon with mode := .hold, holdReason := holdWord reason u } : Aon).raise 64 }

/-- boot_complete: the boot slot becomes last_good and its trial ends (R690, R699). -/
def Sec.bootComplete (x : Sec) : Sec :=
  if x.booted then x else
    let x := { x with booted := true, sel := { x.sel with lastGood := some x.bootSlot, trial := 0 } }
    if x.bootSlot = 0 then { x with slotA := { x.slotA with state := 2 } }
    else if x.bootSlot = 1 then { x with slotB := { x.slotB with state := 2 } } else x

/-- The module enters `READY`: the boot completes, and SCHED and the control cores serve (R699, R718). -/
def State.toReady (s : State) : State :=
  { s with aon := { s.aon with mode := .ready, holdReason := 0 }, sec := s.sec.bootComplete,
           m := (List.range 12).foldl (fun (m : Mach) k => m.modSt k fun x => { x with lapAt := s.m.now })
             { s.m with running := !(s.sec.hung.contains .sched), windowAt := s.m.now } }

/-! ## Self-test -/

/-- Names of R651's reasons. -/
def whyChecker : Nat := 1
def whyColumns : Nat := 2
def whyArray : Nat := 3
def whyCluster : Nat := 4
def whyStack : Nat := 5
def whyDamger : Nat := 6

/-- Whether the record enables a core (R700), and whether it takes part: ACK_HOLD has not excluded it or its cluster (R186, R652). -/
def coreListed (s : State) (g : Nat) : Bool :=
  let e := recCluster s.sec.record (g / 8)
  e.1 && bitAt e.2.1 (g % 8)
def coreOn (s : State) (g : Nat) : Bool :=
  coreListed s g && !(s.aon.excluded.contains (uCore g)) && !(s.aon.excluded.contains (uCluster (g / 8)))

/-- Failing columns of a core in a self-test. -/
def colsOf (t : SelfTest) (g : Nat) : Word :=
  match t.columns.find? (fun e => e.1.val == g) with | some e => e.2 | none => 0

/-- MXA_SELFTEST.result of a core (R194): an array unit fault, more than 4 columns, columns bypassed, or pass. -/
def resultOf (t : SelfTest) (g : Nat) : Nat :=
  match t.faults.find? (fun e => e.1.val == g) with
  | some e => if 3 ≤ e.2 ∧ e.2 ≤ 5 then e.2 else 3
  | none => let n := popcount 64 (colsOf t g).toNat; if 4 < n then 2 else if 0 < n then 1 else 0

/-- A core after its self-test (R186, R187, R194, MXA registers). -/
def coreTested (t : SelfTest) (g : Nat) (c : Core) : Core :=
  let n := popcount 64 (colsOf t g).toNat
  { c with usable := 64 - n, bypass := colsOf t g, selfResult := resultOf t g, selfFailed := n, selfDone := true,
           selfClass := match t.classes.find? (fun e => e.1.val == g) with | some e => e.2.toNat % 32 | none => 0,
           spareBad := (t.spadSpares.filter fun e => e.1.val == g).foldl (fun b e => Tab.put false b e.2.val true) c.spareBad }

/-- A cluster as self-test leaves it: cores that pass, its width (R186), and its presence (R188, R702). -/
def clusterTested (s : State) (t : SelfTest) (c : Nat) (x : Cluster) : Cluster :=
  let e := recCluster s.sec.record c
  let on := (List.range 8).filter fun i => coreOn s (8 * c + i) && decide (resultOf t (8 * c + i) < 2)
  let w := on.foldl (fun w i => min w (64 - popcount 64 (colsOf t (8 * c + i)).toNat)) e.2.2
  let x := (List.range 8).foldl (fun x i => x.modCore i (coreTested t (8 * c + i))) x
  { x with coreMask := BitVec.ofNat 8 (sumNat (on.map fun i => 2 ^ i)), width := w,
           enabled := e.1 && decide (7 ≤ on.length) && !(s.aon.excluded.contains (uCluster c)) }

/-- The failures of a self-test that call for `HOLD`, in test order: checkers and engines, columns, array units,
clusters (R651). A core that an earlier boot of the power cycle excluded fails again while the record enables it (R187, R194); one
that passes now is listed as it was first, with its columns (log entry 78). -/
def selfTestFailures (s : State) (t : SelfTest) : List (Nat × UnitId) :=
  let cores := (List.range 256).filter (coreListed s)
  t.checkers.map (fun c => (whyChecker, c.unit))
    ++ (t.engines.filter (fun e => bitAt (recEngineMask s.sec.record) e.val)).map (fun e => (whyChecker, ⟨9, e.val⟩))
    ++ (cores.filter fun g => resultOf t g == 2 || (resultOf t g < 2 && s.aon.excluded.contains (uCore g))).map (fun g => (whyColumns, uCore g))
    ++ (cores.filter fun g => decide (3 ≤ resultOf t g)).map (fun g => (whyArray, uCore g))
    ++ ((List.range 32).filter fun c => (recCluster s.sec.record c).1
          && decide (((List.range 8).filter fun i => coreOn s (8 * c + i) && decide (resultOf t (8 * c + i) < 2)).length < 7)).map
        (fun c => (whyCluster, uCluster c))

/-- The events of a self-test: its failures, spare lines found unusable, and widths lowered (R189, R650, R651). -/
def selfTestEvents (s : State) (t : SelfTest) (m : Mach) : Mach :=
  let m := (selfTestFailures s t).foldl (fun m f =>
    let c := t.checkers.find? (fun c => c.unit = f.2)
    m.post .selftestFail none f.2
      [BitVec.ofNat 64 (f.2.cls * 65536 + f.2.idx), BitVec.ofNat 64 f.1, BitVec.ofNat 64 ((c.map (·.pattern)).getD 0),
       BitVec.ofNat 64 ((c.map (·.syndrome)).getD 0)]) m
  let m := t.bankSpares.foldl (fun m e => m.post .spareUnusable none (uStack e.1.val)
    [BitVec.ofNat 64 e.2.1.val, BitVec.ofNat 64 e.2.2.1.val, BitVec.ofNat 64 e.2.2.2.val]) m
  let m := t.spadSpares.foldl (fun m e => m.post .spareUnusable none (uCore e.1.val) [BitVec.ofNat 64 e.2.val]) m
  (List.range 32).foldl (fun m c =>
    if (m.cl c).enabled && decide ((m.cl c).width < (recCluster s.sec.record c).2.2) then
      m.post .widthLowered none (uCluster c) ((List.range 8).map fun i => colsOf t (8 * c + i))
    else m) m

/-- TRAIN_COMPLETE: each enabled stack takes the speed bin on which it settled, the Damger link trains within the
record's limit, failures are recorded, and the module enters `SELFTEST` (R261, R562, R702, R719). -/
def execTrainComplete (r : TrainResult) (s : State) : Host.Outcome State Fault Refusal :=
  .next (if s.aon.mode = .train then
    let listed := (List.range 12).filter fun k => bitAt (recStackMask s.sec.record) k
    let on := listed.filter fun k => !(s.aon.excluded.contains (uStack k))
    let binOf := fun k => (r.bins[k]?).getD none
    let m := on.foldl (fun m k => match binOf k with
      | some b => m.modSt k fun x => { x with ok := true, bin := b.val, channelOk := 0xFFFFFFFF }
      | none => m.modSt k fun x => { x with ok := false }) s.m
    let m := ((List.range 12).filter fun k => !(on.contains k)).foldl (fun m k => m.modSt k fun x => { x with ok := false }) m
    let d := damgerWithin s.sec.record r.damger
    let bad := (listed.filter fun k => (binOf k).isNone).map (fun k => (whyStack, uStack k)) ++ (if d.isNone then [(whyDamger, uDamger)] else [])
    { s with aon := { s.aon with mode := .selftest, failed := bad }, m := m.damgerTrained d }
  else s)

/-- SELFTEST_COMPLETE: every unit takes what its test found, failures post SELFTEST_FAIL, and the module enters `HOLD`
with the first failure of training or test, or `READY` (R650, R651, R719). -/
def execSelftestComplete (t : SelfTest) (s : State) : Host.Outcome State Fault Refusal :=
  .next (if s.aon.mode = .selftest then
    let m := (List.range 32).foldl (fun m c => m.modCl c (clusterTested s t c)) s.m
    let m := t.bankSpares.foldl (fun m e => m.modSt e.1.val fun x =>
      { x with spareBad := Tab.put false x.spareBad ((e.2.1.val * 64 + e.2.2.1.val) * 16 + e.2.2.2.val) true }) m
    let dead := (List.range 8).filter fun i => !(bitAt (recEngineMask s.sec.record) i) || s.aon.excluded.contains ⟨9, i⟩
    let m := { m with shr := { m.shr with deadEngines := BitVec.ofNat 8 (sumNat (dead.map fun i => 2 ^ i)),
                                          limits := (List.range 16).foldl (fun l p => Tab.put 0 l p (recPort s.sec.record p)) [] } }
    let m := s.aon.failed.foldl (fun m f => m.post .selftestFail none f.2
      [BitVec.ofNat 64 (f.2.cls * 65536 + f.2.idx), BitVec.ofNat 64 f.1]) m
    let m := selfTestEvents s t m
    let bad := s.aon.failed ++ selfTestFailures s t
    let s := s.withMach m
    let s := { s with aon := { s.aon with failed := bad } }
    match bad with
    | [] => s.toReady
    | f :: _ => s.toHold f.1 f.2
  else s)

/-- The unit that ACK_HOLD excludes for a failed one, none where it cannot be excluded (R652, log entry 17). -/
def excludable (u : UnitId) : Option UnitId :=
  if u.cls = 1 ∨ u.cls = 2 ∨ u.cls = 3 ∨ u.cls = 9 then some u
  else if u.cls = 4 then some (uStack u.idx)
  else if u.cls = 5 then some ⟨9, u.idx / 2⟩
  else none

/-- A unit taken out of service for the rest of the power cycle (R187, R188, R652). -/
def Mach.excludeUnit (m : Mach) (u : UnitId) : Mach :=
  if u.cls = 1 then m.modCl u.idx fun x => { x with enabled := false }
  else if u.cls = 2 then m.modCl (u.idx / 8) fun x =>
    let mask := x.coreMask &&& ~~~(BitVec.ofNat 8 (2 ^ (u.idx % 8)))
    { x with coreMask := mask, enabled := x.enabled && decide (7 ≤ popcount 8 mask.toNat) }
  else if u.cls = 3 then m.modSt u.idx fun x => { x with ok := false, bin := 0xF, channelOk := 0 }
  else if u.cls = 9 then { m with shr := { m.shr with deadEngines := m.shr.deadEngines ||| BitVec.ofNat 8 (2 ^ (u.idx % 8)) } }
  else m

/-- ACK_HOLD: every failed unit is excluded and the module proceeds to `READY`, or HOLD_NOT_EXCLUDABLE (R652, R712). -/
def execAckHold (s : State) : Host.Outcome State Fault Refusal :=
  .next (adminRow s 0x41 (fun _ => true) fun a s =>
    let us := s.aon.failed.map fun f => excludable f.2
    if s.aon.failed = [] ∨ us.any (·.isNone) = true then s.answer a .holdNotExcludable 0
    else
      let us := us.filterMap id
      let s := s.answer a .ok 0
      ({ s with m := us.foldl Mach.excludeUnit s.m, aon := { s.aon with excluded := us.foldl addNew s.aon.excluded, failed := [] } } : State).toReady)

/-! ## Sideband (R726 to R729) -/

/-- THM_TRIP.trip_count: trips within the last 24 h (R617). -/
def Aon.tripCount (a : Aon) (now : Nat) : Nat := (a.tripTimes.filter fun t => decide (now - t < 86400 * 10 ^ 9)).length

/-- ENTDAA: the first I3C broadcast ENTDAA or SETDASA in a powered AON domain makes the sideband an I3C target (R727). -/
def execEntdaa (s : State) : Host.Outcome State Fault Refusal :=
  .next (if s.aon.mode = .off then s else { s with aon := { s.aon with i3c := true } })

/-- RSTDAA: the sideband returns to SMBus operation (R727). -/
def execRstdaa (s : State) : Host.Outcome State Fault Refusal :=
  .next (if s.aon.mode = .off then s else { s with aon := { s.aon with i3c := false } })

/-- Writing 1 to THM_TRIP.clear clears the trip history and the lock (R617). -/
def Aon.clearTrip (a : Aon) : Aon := { a with tripTimes := [], locked := false }

/-- THM_TRIP_CLEAR (R617). -/
def execThmTripClear (s : State) : Host.Outcome State Fault Refusal :=
  .next (if s.aon.mode = .off then s else { s with aon := s.aon.clearTrip })

/-- A write of a sideband register (R728, R729): W1C alerts and the mask, THM_STATUS, THM_TRIP and PWR_STATUS; an
offset not listed ignores it. -/
def sidebandReg (s : State) (off : Nat) (v : Word) : State :=
  if off = 0x0008 then { s with aon := { s.aon with alert := s.aon.alert &&& ~~~(v.setWidth 7) } }
  else if off = 0x0010 then { s with aon := { s.aon with alertMask := v.setWidth 7 } }
  else if off = 0x0040 then
    { s with pwr := { s.pwr with exhaustedSeen := s.pwr.exhaustedSeen && !v.getLsbD 3,
                                 divergenceSeen := s.pwr.divergenceSeen && !v.getLsbD 2, marginSeen := s.pwr.marginSeen && !v.getLsbD 1 } }
  else if off = 0x0048 then (if v.getLsbD 0 then { s with aon := s.aon.clearTrip } else s)
  else if off = 0x0050 then
    { s with pwr := { s.pwr with clampSeen := s.pwr.clampSeen && !v.getLsbD 10, faultSeen := s.pwr.faultSeen && !v.getLsbD 9 } }
  else s

/-- SIDEBAND_WRITE: 2 bytes set the offset, 8 more write the register there; a wrong packet error code on SMBus or
another length is ignored (R727, R728). -/
def execSidebandWrite (pecOk : Bool) (data : List Byte) (s : State) : Host.Outcome State Fault Refusal :=
  .next (if s.aon.mode = .off ∨ (pecOk = false ∧ s.aon.i3c = false) ∨ (data.length ≠ 2 ∧ data.length ≠ 10) then s
    else
      let off := fld data 0 2
      let s := { s with aon := { s.aon with sbOffset := BitVec.ofNat 16 off } }
      if data.length = 10 then sidebandReg s off (BitVec.ofNat 64 (fld data 2 8)) else s)

/-! ## Heartbeats (R688) -/

/-- The number of a firmware processor (R590). -/
def fwProcNum : FwProc → Nat
  | .sec => 0 | .pwr => 1 | .sched => 2 | .ctl n => 0x10 + n.val

/-- FW_HANG: a running processor misses its heartbeat for 100 ms; a fatal record is stored, ALERT_L is asserted, and
the processor runs no more until the next `BOOT` (R688). -/
def execFwHang (p : FwProc) (s : State) : Host.Outcome State Fault Refusal :=
  .next (if (if p = .sec then s.sec.running else s.sec.procsUp) = true ∧ p ∉ s.sec.hung then
    let s := { s with sec := { s.sec with hung := s.sec.hung ++ [p] }, aon := s.aon.raise 8 }
    let s := match p with
      | .sec => { s with sec := { s.sec with running := false } }
      | .pwr => { s with pwr := { s.pwr with running := false } }
      | .sched => { s with m := { s.m with running := false } }
      | .ctl n => { s with m := s.m.modCl n.val fun x => { x with ctlHung := true } }
    s.withMach (s.m.post .fwHang none ⟨7, (fwProcNum p)⟩ [BitVec.ofNat 64 (fwProcNum p)])
  else s)

end Sys2Proof.Machine
end

