-- ==== Sys2Proof/Machine/Firmware.lean ====
section
/-! DEFINITION. Identity, boot, the configuration record, updates and attestation (R687 to R715). -/
namespace Sys2Proof.Machine

/-! ## Keys and images -/

/-- A signing key of a Plichaell index that ROM knows and that is not revoked (R695, R698). -/
def keyOk (x : Sec) (idx : Nat) (key : List Byte) : Bool :=
  decide (idx < 4) && decide (Config.sha256 key = Config.romDigest idx) && !(x.revoked.getLsbD idx)

/-- Fields of a slot image's header (R697). -/
def imgVersion (i : List Byte) : Nat := fld i 0x08 4
def imgSecurity (i : List Byte) : Nat := fld i 0x0C 4

/-- The size limit of an image (R697) and of a payload (R703). -/
def imageMax : Nat := 112 * 2 ^ 20 - 32
def payloadMax : Nat := 112 * 2 ^ 20

/-- verify(slot): none where every check of R698 passes, else the number of the first that fails. A slot marked
invalid is never tried again (R699). -/
def verifySlot (x : Sec) (f : FwSlot) : Option Nat :=
  let i := f.image
  let size := fld i 0x10 4
  if f.state = 3 ∨ f.complete = false then some 1
  else if f.sealed = false then some 2
  else if ¬(fld i 0 4 = 0x4C504657 ∧ fld i 4 2 = 1 ∧ fld i 6 1 < 4 ∧ zeros i 7 1 = true ∧ zeros i 0x98 104 = true ∧
      256 ≤ size ∧ size ≤ imageMax ∧ size ≤ i.length) then some 3
  else if keyOk x (fld i 6 1) (slice i 0x18 64) = false then some 4
  else if Config.ecdsaOk (slice i 0x18 64) (slice i 0x58 64) (slice i 0 0x58 ++ slice i 0x98 (size - 0x98)) = false then some 5
  else if imgSecurity i < x.fwMin then some 6
  else none

/-- Slot `n`: 0 A, 1 B. -/
def Sec.slot (x : Sec) (n : Nat) : FwSlot := if n = 0 then x.slotA else x.slotB

/-- Slot `n` replaced. -/
def Sec.setSlot (x : Sec) (n : Nat) (f : FwSlot) : Sec := if n = 0 then { x with slotA := f } else { x with slotB := f }

/-- SEC_SLOT_STATE of a slot: invalid where a boot or a confirm has marked it so (R699, R710), else empty without its complete
marker. -/
def FwSlot.shown (f : FwSlot) : Nat := if f.complete || f.state == 3 then f.state else 0

/-- module_id (R571, R693): the first 16 bytes of SHA-256 of the identity public key. -/
def moduleId (key : List Byte) : List Byte := (shaBytes key).take 16

/-! ## The configuration record (R700, R701) -/

/-- The margin-plan seed behind a record. -/
def recSeed (r : List Byte) : List Byte := slice r 1024 (fld r 0x0B4 4)
def recVersion (r : List Byte) : Nat := fld r 0x008 4

/-- The checks of a record but that of its version. -/
def recordSound (x : Sec) (r : List Byte) : Bool :=
  decide (1024 ≤ r.length) && decide (fld r 0 4 = 0x4C504346) && decide (fld r 4 2 = 1) && zeros r 7 1 && zeros r 0x0C 4
    && zeros r 0x0D8 232 && zeros r 0x240 448 && decide (fld r 0x0B4 4 ≤ 63 * 1024)
    && ((List.range 32).all fun c => !(recCluster r c).1 || (decide (60 ≤ (recCluster r c).2.2) && decide ((recCluster r c).2.2 ≤ 64)))
    && keyOk x (fld r 6 1) (slice r 0x1C0 64) && Config.ecdsaOk (slice r 0x1C0 64) (slice r 0x200 64) (slice r 0 0x1C0)
    && decide (slice r 0x10 16 = moduleId x.identity) && decide (slice r 0x0B8 32 = shaBytes (recSeed r))

/-- A record passes (R701). -/
def recordOk (x : Sec) (r : List Byte) : Bool := recordSound x r && decide (x.cfgMin ≤ recVersion r)

/-! ## Boot (R696 to R699) -/

/-- The result of boot_select: SEC, the boot slot, and the UPDATE_FALLBACK records (slot, failed check; 0 for an
incomplete trial). -/
structure BootSel where
  sec : Sec
  slot : Option Nat
  fallbacks : List (Nat × Nat)

/-- boot_select's first part: a last attempt that never completed falls back to last_good (R699). -/
def bootFirst (x : Sec) : Sec × Nat × List (Nat × Nat) :=
  match x.sel.lastGood with
  | some g => if x.sel.trial = 2 then ({ x with sel := { x.sel with next := g, trial := 0 } }, g, [(x.sel.next, 0)]) else (x, x.sel.next, [])
  | none => (x, x.sel.next, [])

/-- A slot that verifies is taken: the selector follows it, and a trial is recorded as attempted (R699). -/
def takeSlot (x : Sec) (first slot : Nat) : Sec :=
  let x := if slot = first then x else { x with sel := { x.sel with next := slot, trial := if x.sel.lastGood = some slot then 0 else 1 } }
  if x.sel.trial = 1 then { x with sel := { x.sel with trial := 2 } } else x

/-- boot_select (R699): the selector is written only with a slot that verifies. -/
def bootSelect (x : Sec) : BootSel :=
  let sel := x.sel
  let (x, first, fb) := bootFirst x
  let other := 1 - first
  match verifySlot x (x.slot first) with
  | none => ⟨takeSlot x first first, some first, fb⟩
  | some why =>
    let x := x.setSlot first { x.slot first with state := 3 }
    match verifySlot x (x.slot other) with
    | none => ⟨takeSlot x first other, some other, fb ++ [(first, why)]⟩
    | some _ => ⟨{ x.setSlot other { x.slot other with state := 3 } with sel := sel }, none, fb⟩

/-- SEC checks the configuration record, a staged one first (R701): SEC, whether a staged one was rejected, and the
hold reason where the current record fails. -/
def bootRecord (x : Sec) : Sec × Bool × Option Nat :=
  let staged := !x.staged.isEmpty
  let pass := staged && recordOk x x.staged
  let y := if pass then { x with record := x.staged, staged := [], cfgMin := max x.cfgMin (recVersion x.staged), raWrites := x.raWrites + 1 }
           else { x with staged := [] }
  (y, staged && !pass,
    if recordOk y y.record then none else if recordSound y y.record then some 0x12 else some 0x11)

/-- How many records the flash ring holds (R657). -/
def flashRing : Nat := 16384

/-- Each unpersisted record of severity error or above goes to the flash ring in seq order (R657). -/
def Evr.persist (r : Evr) : Evr :=
  let due := (r.held.filter fun e => decide (4 ≤ e.2.sev) && !e.2.persisted).map (·.2)
  let due := due.foldl (fun l x => (l.filter fun y => decide (y.seq ≤ x.seq)) ++ [x] ++ l.filter fun y => decide (x.seq < y.seq)) []
  let flash := due.reverse ++ r.flash
  { r with slots := r.slots.map fun e => (e.1, e.2.map fun x => { x with persisted := x.persisted || decide (4 ≤ x.sev) }),
           flash := flash.take flashRing, flashWritten := satAdd 32 r.flashWritten due.length,
           flashOver := satAdd 32 r.flashOver (flash.length - flashRing) }

/-- EVENT_PERSIST: SEC writes unpersisted records of severity error and above to the flash ring (R657). -/
def execEventPersist (flashOk : Bool) (s : State) : Host.Outcome State Fault Refusal :=
  .next (if s.sec.running then
    { s with m := { s.m with evr := if flashOk then s.m.evr.persist else { s.m.evr with flashFault := true } } }
  else s)

/-- A `BOOT` that fails enters `HOLD`; SEC trains the Damger link before it (R720). -/
def State.bootHold (s : State) (why : Nat) (d : Option (Nat × Bool)) : State :=
  ({ s with m := s.m.damgerTrained d } : State).toHold why uModule

/-- The four measurements of R713 as record words: the digests of image, record and plan. -/
def digestWords (l : List Byte) : List Word := (List.range 4).map fun i => BitVec.ofNat 64 (fld l (8 * i) 8)

/-- SHA-256 of the margin plan in use (R713). -/
def planDigest (p : Pwr) : List Byte := shaBytes (Config.planBytes p.topC p.planMv p.planStack p.planLaser)

/-- The digests of the boot image and of the current record, 0 where no slot was taken or no record passed: the processors start
only from a record that passed (R696, R713). -/
def imageDigest (x : Sec) : List Byte := if x.bootSlot < 2 then shaBytes (x.slot x.bootSlot).image else List.replicate 32 0
def configDigest (x : Sec) : List Byte := if x.procsUp then shaBytes x.record else List.replicate 32 0

/-- The plan in use at a start: the rebuilt one, or the one that the record's seed supplies (R619). -/
def Pwr.startPlan (p : Pwr) (x : Sec) : Pwr :=
  if p.planSeeded then p
  else { p with topC := (List.range 32).foldl (fun t c => Tab.put 0 t c (Config.seedTop (recSeed x.record) c).val) [] }

/-- The processors start, and the units that the record enables are known (R696, R702). -/
def State.startProcs (s : State) : State :=
  { s with
    sec := { s.sec with procsUp := true },
    pwr := let p := s.pwr.startPlan s.sec
           { p with running := true, energyUj := p.energyUj + p.energyHeld, energyHeld := 0,
                    levelC := (List.range 32).foldl (fun t c => Tab.put 0 t c (max (Tab.get 0 p.topC c) (Tab.get 0 p.topRaised c))) [] },
    m := (List.range 32).foldl (fun m c => m.modCl c fun x =>
      let e := recCluster s.sec.record c
      { x with enabled := e.1, coreMask := BitVec.ofNat 8 e.2.1, width := e.2.2 }) s.m }

/-- BOOT_SEQUENCE (R696): flash must answer (FLASH_FAIL) and the silicon give the endorsed identity (PUF_FAIL); a slot
must verify (NO_VALID_IMAGE, with ROM recovery) and a record pass; records not yet persisted are persisted; the
processors start, BOOT_MEASURED is posted and the module enters `TRAIN`. -/
def execBootSequence (b : BootInput) (s : State) : Host.Outcome State Fault Refusal :=
  .next (if s.aon.mode ≠ .boot then s else
    let s := { s with aon := { s.aon with pgood := true } }
    if b.flashOk = false then { s with m := { s.m with evr := { s.m.evr with flashFault := true } } }.bootHold 0x14 b.damger
    else if b.pufOk = false then { s with m := { s.m with evr := s.m.evr.persist } }.bootHold 0x13 b.damger
    else
      let key := Config.identityKey
      let id := moduleId key
      let s := { s with aon := { s.aon with idLo := BitVec.ofNat 64 (fld id 0 8), idHi := BitVec.ofNat 64 (fld id 8 8) } }
      let r := bootSelect { s.sec with identity := key, booted := false }
      let m := r.fallbacks.foldl (fun m f => m.post .updateFallback none ⟨7, 0⟩ [BitVec.ofNat 64 f.1, BitVec.ofNat 64 f.2]) s.m
      match r.slot with
      | none => ({ s with sec := { r.sec with recovery := true, bootSlot := 3 } }.withMach { m with evr := m.evr.persist }).bootHold 0x10 b.damger
      | some slot =>
        let sec := { r.sec with bootSlot := slot, trialBoot := decide (r.sec.sel.trial = 2), fallback := !r.fallbacks.isEmpty }
        let (sec, rejected, why) := bootRecord sec
        let m := if rejected then m.post .configRejected none ⟨7, 0⟩ [BitVec.ofNat 64 (recVersion s.sec.staged)] else m
        match why with
        | some w => ({ s with sec := sec }.withMach { m with evr := m.evr.persist }).bootHold w b.damger
        | none =>
          let s := { s with sec := sec }.withMach m
          let s := s.startProcs
          let m := s.m.post .bootMeasured none ⟨7, 0⟩
            (digestWords (imageDigest s.sec) ++ digestWords (configDigest s.sec) ++ digestWords (planDigest s.pwr))
          let s := s.withMach { m with evr := m.evr.persist }
          { s with aon := { s.aon with mode := .train } })

/-! ## UPDATE_STAGE (R703 to R711) -/

/-- The slot that a stage writes: not the boot slot; in recovery A unless last_good is A (R707, R711). -/
def stageTarget (x : Sec) : Nat :=
  if x.recovery then (if x.sel.lastGood = some 0 then 1 else 0) else 1 - x.bootSlot % 2

/-- UPDATE_STAGE action 0, or a listed action's bad fields: starts a stage (R706, R707). A stage of an image, as the
package's kind tells, first sets next_slot to the boot slot with trial 0 and takes the target's complete marker. -/
def execUpdateStage (kind : Byte) (s : State) : Host.Outcome State Fault Refusal :=
  .next (adminRow s 0x30 (fun a => fld a.args 0 1 ≠ 1 && fld a.args 0 1 ≠ 2) fun a s =>
    if s.sec.stage.isSome then s.answer a .busy 0
    else if ¬(fld a.args 0 1 = 0 ∧ fld a.args 1 1 = 0 ∧ zeros a.args 2 6 = true ∧ zeros a.args 0x18 24 = true ∧ fld a.args 8 8 % 64 = 0) then
      s.answer a .badParam 0
    else if s.m.hyv.pendFull then s.answer a .busy 0
    else
      let x := { s.sec with stage := some ⟨a.tag, BitVec.ofNat 64 (fld a.args 8 8), fld a.args 0x10 8⟩, stageState := 1, stagePct := 0 }
      let x := if kind.toNat < 2 then
          let x := { x with sel := { x.sel with next := if x.bootSlot < 2 then x.bootSlot else x.sel.next, trial := 0 } }
          x.setSlot (stageTarget x) { x.slot (stageTarget x) with complete := false }
        else x
      ({ s with sec := x } : State).answer a .pending 0)

/-- The image that a kind 1 package applies to: of a slot that verified at this boot, which is the boot slot, or of one that holds
a staged image (R707, R710). -/
def baseImage (x : Sec) (digest : List Byte) : Option (List Byte) :=
  (([0, 1].filter fun n => decide (n = x.bootSlot) || decide ((x.slot n).state = 1)).map fun n => (x.slot n).image).find? fun i =>
    decide (shaBytes i = digest)

/-- A package checked and applied (R703, R704, R707, R709): the image or record, its kind, or why the stage fails. -/
def openStage (x : Sec) (size : Nat) (p : List Byte) : Except Status (Nat × List Byte) :=
  let h := p.take 256
  let kind := fld h 6 1
  let pay := fld h 0x94 4
  if ¬(256 ≤ p.length ∧ fld h 0 4 = 0x4C505550 ∧ fld h 4 2 = 1 ∧ kind < 3 ∧ zeros h 7 1 = true ∧ zeros h 0xEC 20 = true ∧
      pay ≤ payloadMax ∧ size = 256 + pay ∧ (kind = 1 ∨ zeros h 0x98 32 = true) ∧ (x.recovery = true → kind ≠ 1)) then .error .updBadPackage
  else if slice h 8 16 ≠ moduleId x.identity then .error .updWrongModule
  else match Config.openPackage h (p.drop 256) with
    | none => .error .updAuth
    | some plain =>
      if kind < 2 ∧ fld h 0xD8 4 < x.fwMin ∨ kind = 2 ∧ fld h 0xD8 4 < x.cfgMin then .error .updRollback
      else
        let res := if kind = 1 then (baseImage x (slice h 0x98 32)).map fun b => Config.applyDelta b plain else some plain
        match res with
        | none => .error .updBaseMissing
        | some r => if shaBytes r = slice h 0xB8 32 then .ok (kind, r) else .error .updDigest

/-- UPDATE_STAGE_COMPLETE: the stage's checks run on the package as read; an image goes to the target slot, sealed
and with its complete marker, and is selected with trial 1; a record goes to the staged-record area (R705 to R709). -/
def execUpdateStageComplete (package : List Byte) (flashOk : Bool) (s : State) : Host.Outcome State Fault Refusal :=
  .next (match s.sec.stage with
  | none => s
  | some st =>
    if s.sec.running = false then s else
    let x := { s.sec with stage := none, stagePct := 100 }
    let t := stageTarget x
    let r : Except Status (Nat × List Byte) := match openStage x st.size package with
      | .error e => .error e
      | .ok v => if flashOk then .ok v else .error .updFlash
    match r with
    | .error e =>
      let x := { x with stageState := 5 }
      let x := if (x.slot t).complete then x else x.setSlot t {}
      { s with sec := x, m := s.m.postOutcome st.tag 0x30 e 0 }
    | .ok (kind, img) =>
      if kind = 2 then
        { s with sec := { x with staged := img, stageState := 4 }, m := s.m.postOutcome st.tag 0x30 .ok 0 }
      else
        let x := x.setSlot t { image := img, complete := true, sealed := true, state := 1 }
        let x := { x with stageState := 4, sel := { x.sel with next := t, trial := 1 } }
        let m := s.m.post .updateStaged none ⟨7, 0⟩ [BitVec.ofNat 64 t, BitVec.ofNat 64 (imgVersion img), BitVec.ofNat 64 (imgSecurity img)]
        ({ s with sec := x } : State).withMach (m.postOutcome st.tag 0x30 .ok (BitVec.ofNat 64 t)))

/-- UPDATE_SELECT: next_slot and trial (R706, R709, R710). -/
def execUpdateSelect (s : State) : Host.Outcome State Fault Refusal :=
  .next (adminRow s 0x30 (fun a => fld a.args 0 1 = 1) fun a s =>
    let n := fld a.args 1 1
    if s.sec.stage.isSome then s.answer a .busy 0
    else if ¬(n < 2 ∧ zeros a.args 2 6 = true ∧ zeros a.args 0x18 24 = true) then s.answer a .badParam 0
    else
      let f := s.sec.slot n
      if f.shown = 0 ∨ f.shown = 3 ∨ imgSecurity f.image < s.sec.fwMin then s.answer a .updSlotInvalid 0
      else
        ({ s with sec := { s.sec with sel := { s.sec.sel with next := n, trial := if s.sec.sel.lastGood = some n then 0 else 1 } } } : State).answer a .ok 0)

/-- UPDATE_CONFIRM: fw_min_version rises to the boot slot's level, and the other slot is invalid if it is now lower
(R706, R709, R710, R711). -/
def execUpdateConfirm (s : State) : Host.Outcome State Fault Refusal :=
  .next (adminRow s 0x30 (fun a => fld a.args 0 1 = 2) fun a s =>
    if s.sec.stage.isSome then s.answer a .busy 0
    else if ¬(fld a.args 1 1 = 0 ∧ zeros a.args 2 6 = true ∧ zeros a.args 0x18 24 = true) then s.answer a .badParam 0
    else if s.sec.recovery then s.answer a .moduleState 0
    else if s.sec.booted = false then s.answer a .updTrial 0
    else
      let v := imgSecurity (s.sec.slot s.sec.bootSlot).image
      let o := 1 - s.sec.bootSlot
      let x : Sec := { s.sec with fwMin := max s.sec.fwMin v, raWrites := s.sec.raWrites + 1 }
      let x := if (x.slot o).shown ≠ 0 ∧ imgSecurity (x.slot o).image < x.fwMin then x.setSlot o { x.slot o with state := 3 } else x
      let s := { s with sec := x }
      (s.withMach (s.m.post .rollbackRaised none ⟨7, 0⟩ [BitVec.ofNat 64 x.bootSlot, BitVec.ofNat 64 x.fwMin])).answer a .ok 0)

/-! ## ATTEST (R713) -/

/-- The quote but its signature (R713). -/
def quoteBody (s : State) (nonce : List Byte) : List Byte :=
  let x := s.sec
  let img := (x.slot x.bootSlot).image
  let n4 := fun v => leBytes 4 v
  leBytes 4 0x4C504154 ++ leBytes 2 1 ++ leBytes 1 (if x.recovery then 0xFF else x.bootSlot)
    ++ leBytes 1 (b2n x.trialBoot + 2 * b2n x.fallback + 4 * b2n x.recovery) ++ moduleId x.identity ++ leBytes 8 s.m.now
    ++ leBytes 8 x.bootCount ++ n4 (if x.recovery then 0 else imgVersion img) ++ n4 (if x.recovery then 0 else imgSecurity img)
    ++ n4 x.fwMin ++ n4 x.cfgMin ++ n4 x.romVersion ++ leBytes 1 x.revoked.toNat ++ leBytes 3 0
    ++ imageDigest x ++ configDigest x ++ planDigest s.pwr ++ slice nonce 0 32 ++ slice x.identity 0 64
    ++ leBytes 1 x.endorseIndex ++ leBytes 63 0 ++ slice x.endorsement 0 64

/-- The whole quote of 512 bytes. -/
def quoteOf (s : State) (nonce : List Byte) : List Byte :=
  let b := quoteBody s nonce
  b ++ slice (Config.identitySign b) 0 64 ++ leBytes 64 0

/-- What firmware movers write to companion memory (R568, R680). -/
def Mach.writeComp (m : Mach) (addr : Nat) (data : List Byte) : Mach :=
  { m with comp := (({ bytes := m.comp } : Ram).putBytes addr data).bytes }

/-- ATTEST: starts building a quote for the nonce of the payload (R713). Without an identity it is refused (log entry 18). -/
def execAttest (s : State) : Host.Outcome State Fault Refusal :=
  .next (adminRow s 0x31 (fun _ => true) fun a s =>
    if s.sec.identity.isEmpty then s.answer a .moduleState 0
    else if fld a.args 0 8 % 64 ≠ 0 then s.answer a .badParam 0
    else if s.m.hyv.pendFull then s.answer a .busy 0
    else ({ s with sec := { s.sec with quotes := s.sec.quotes ++ [(a.tag, BitVec.ofNat 64 (fld a.args 0 8), slice a.payload 0 32)] } } : State).answer a .pending 0)

/-- ATTEST_COMPLETE: the oldest quote is signed, written to the host's buffer, and its outcome posted (R713). -/
def execAttestComplete (s : State) : Host.Outcome State Fault Refusal :=
  .next (match s.sec.quotes with
  | [] => s
  | (tag, addr, nonce) :: rest =>
    if s.sec.running = false then s else
    { s with sec := { s.sec with quotes := rest }, m := (s.m.writeComp addr.toNat (quoteOf s nonce)).postOutcome tag 0x31 .ok 0 })

end Sys2Proof.Machine
end

