-- ==== Sys2Proof/Machine/Float.lean ====
section
/-! DEFINITION. Number formats, exact values and rounding (R197 to R222). -/
namespace Sys2Proof.Machine

/-- A binary floating-point format (R213): exponent bits, mantissa bits, bias, whether it has infinities, and its
largest finite pattern without the sign. -/
structure FFmt where
  e : Nat
  m : Nat
  bias : Nat
  hasInf : Bool
  maxFin : Nat
  deriving DecidableEq, Repr

/-- The formats of R213. -/
def fp64 : FFmt := ⟨11, 52, 1023, true, 0x7FEFFFFFFFFFFFFF⟩
def fp32 : FFmt := ⟨8, 23, 127, true, 0x7F7FFFFF⟩
def bf16 : FFmt := ⟨8, 7, 127, true, 0x7F7F⟩
def fp16 : FFmt := ⟨5, 10, 15, true, 0x7BFF⟩
def e4m3 : FFmt := ⟨4, 3, 7, false, 0x7E⟩
def e5m2 : FFmt := ⟨5, 2, 15, true, 0x7B⟩
def e3m2 : FFmt := ⟨3, 2, 3, false, 0x1F⟩
def e2m3 : FFmt := ⟨2, 3, 1, false, 0x1F⟩
def e2m1 : FFmt := ⟨2, 1, 1, false, 0x7⟩

/-- Bits of a format. -/
def FFmt.width (f : FFmt) : Nat := 1 + f.e + f.m

/-- An element format by its code (R112): floating point, or an integer of a width, signed or not. -/
inductive EFmt where
  | fl (f : FFmt) | int (w : Nat) (signed : Bool)
  deriving DecidableEq, Repr

/-- The element formats 0x0 to 0xC (R112); none for any other code. -/
def elemFmt : Nat → Option EFmt
  | 0x0 => some (.fl fp32) | 0x1 => some (.fl fp64) | 0x2 => some (.fl bf16) | 0x3 => some (.fl fp16)
  | 0x4 => some (.int 32 true) | 0x5 => some (.int 32 false) | 0x6 => some (.int 16 true) | 0x7 => some (.int 8 true)
  | 0x8 => some (.fl e4m3) | 0x9 => some (.fl e5m2) | 0xA => some (.fl e3m2) | 0xB => some (.fl e2m3) | 0xC => some (.fl e2m1)
  | _ => none

def EFmt.width : EFmt → Nat
  | .fl f => f.width
  | .int w _ => w

/-- An exact value: a signed dyadic number mant × 2^exp, an infinity, or NaN. -/
inductive FVal where
  | fin (neg : Bool) (mant : Nat) (exp : Int)
  | inf (neg : Bool)
  | nan
  deriving DecidableEq, Repr

/-- How a result is rounded (R208): nearest even, towards zero, or stochastically with u (R209). -/
inductive Rnd where
  | rne | rtz | stoch (u : Nat)
  deriving DecidableEq, Repr

/-- The sign bit of a pattern. -/
def FFmt.neg (f : FFmt) (v : Nat) : Bool := bitAt v (f.e + f.m)

/-- The value of a pattern (R213). -/
def FFmt.decode (f : FFmt) (v : Nat) : FVal :=
  let s := f.neg v
  let a := v % 2 ^ (f.e + f.m)
  let ex := a / 2 ^ f.m
  let man := a % 2 ^ f.m
  if f.hasInf ∧ ex = 2 ^ f.e - 1 then (if man = 0 then .inf s else .nan)
  else if f = e4m3 ∧ a = 0x7F then .nan
  else if ex = 0 then .fin s man (1 - (f.bias : Int) - f.m)
  else .fin s (2 ^ f.m + man) ((ex : Int) - f.bias - f.m)

/-- A sign put before a pattern. -/
def FFmt.signed (f : FFmt) (s : Bool) (a : Nat) : Nat := a + b2n s * 2 ^ (f.e + f.m)

/-- The NaN that results and conversions produce (R200, R218). -/
def FFmt.nanBits (f : FFmt) : Nat :=
  if f.hasInf then (2 ^ f.e - 1) * 2 ^ f.m + 2 ^ (f.m - 1) else if f = e4m3 then 0x7F else 0

/-- An infinity as a result or conversion gives it (R218). -/
def FFmt.infBits (f : FFmt) (s : Bool) : Nat := f.signed s (if f.hasInf then (2 ^ f.e - 1) * 2 ^ f.m else f.maxFin)

/-- Quotient of `mant` by 2^`sh`, rounded by a mode (R208, R209). -/
def roundShift (r : Rnd) (mant sh : Nat) : Nat :=
  let n := mant / 2 ^ sh
  let rem := mant % 2 ^ sh
  match r with
  | .rtz => n
  | .rne => if rem * 2 > 2 ^ sh ∨ (rem * 2 = 2 ^ sh ∧ n % 2 = 1) then n + 1 else n
  | .stoch u => if rem * 65536 / 2 ^ sh + u % 65536 ≥ 65536 then n + 1 else n

/-- A finite value rounded into a format; beyond its largest finite value it becomes that value, or an infinity
under rounding to nearest in a format that has one (R212, R218). -/
def FFmt.roundFin (f : FFmt) (r : Rnd) (s : Bool) (mant : Nat) (exp : Int) : Nat :=
  if mant = 0 then f.signed s 0 else
    let qmin : Int := 1 - (f.bias : Int) - f.m
    let q := max ((Nat.log2 mant : Int) + exp - f.m) qmin
    let sh := q - exp
    let n := if sh ≤ 0 then mant * 2 ^ (-sh).toNat else roundShift r mant sh.toNat
    let a := (q - qmin).toNat * 2 ^ f.m + n
    if f.maxFin < a then (if f.hasInf ∧ r = .rne then f.infBits s else f.signed s f.maxFin) else f.signed s a

/-- A value rounded into a format. -/
def FFmt.encode (f : FFmt) (r : Rnd) : FVal → Nat
  | .fin s m e => f.roundFin r s m e
  | .inf s => f.infBits s
  | .nan => f.nanBits

/-- A finite value rounded to an integer: towards zero, else to nearest even (R219). -/
def roundInt (r : Rnd) (s : Bool) (mant : Nat) (exp : Int) : Int :=
  let n := if 0 ≤ exp then mant * 2 ^ exp.toNat else roundShift (if r = .rtz then .rtz else .rne) mant (-exp).toNat
  if s then -(n : Int) else n

/-- The range of an integer format. -/
def intMin (w : Nat) (sg : Bool) : Int := if sg then -(2 ^ (w - 1) : Nat) else 0
def intMax (w : Nat) (sg : Bool) : Int := if sg then (2 ^ (w - 1) - 1 : Nat) else (2 ^ w - 1 : Nat)

/-- An integer as a pattern of `w` bits. -/
def intBits (w : Nat) (i : Int) : Nat := (i % (2 ^ w : Nat)).toNat

/-- A pattern of an element format as a value (R213, R219). -/
def EFmt.decode (f : EFmt) (v : Nat) : FVal :=
  match f with
  | .fl g => g.decode v
  | .int w sg => let i := if sg then sext w v else ((v % 2 ^ w : Nat) : Int); .fin (decide (i < 0)) i.natAbs 0

/-- A value rounded into an element format, saturating in the integer formats, NaN giving 0 there (R218, R219). -/
def EFmt.encode (f : EFmt) (r : Rnd) (v : FVal) : Nat :=
  match f with
  | .fl g => g.encode r v
  | .int w sg =>
    match v with
    | .fin s m e => intBits w (max (intMin w sg) (min (intMax w sg) (roundInt r s m e)))
    | .inf s => intBits w (if s then intMin w sg else intMax w sg)
    | .nan => 0

/-- The signed integer of a finite value at an exponent not above its own. -/
def atExp (s : Bool) (mant : Nat) (exp base : Int) : Int :=
  let n : Int := (mant * 2 ^ (exp - base).toNat : Nat)
  if s then -n else n

/-- The exact sum of two values; a sum of zero is +0 unless both are −0 (R199). -/
def FVal.add : FVal → FVal → FVal
  | .nan, _ => .nan
  | _, .nan => .nan
  | .inf a, .inf b => if a = b then .inf a else .nan
  | .inf a, _ => .inf a
  | _, .inf b => .inf b
  | .fin s m e, .fin t n f =>
    let b := min e f
    let r := atExp s m e b + atExp t n f b
    if r = 0 then .fin (s && t && m == 0 && n == 0) 0 0 else .fin (decide (r < 0)) r.natAbs b

/-- The exact product of two values (R199). -/
def FVal.mul : FVal → FVal → FVal
  | .nan, _ => .nan
  | _, .nan => .nan
  | .inf a, .inf b => .inf (a != b)
  | .inf a, .fin t n _ => if n = 0 then .nan else .inf (a != t)
  | .fin s m _, .inf b => if m = 0 then .nan else .inf (s != b)
  | .fin s m e, .fin t n f => .fin (s != t) (m * n) (e + f)

/-- The sign changed. -/
def FVal.neg : FVal → FVal
  | .fin s m e => .fin (!s) m e
  | .inf s => .inf (!s)
  | .nan => .nan

/-- A value times 2^k. -/
def FVal.scale (k : Int) : FVal → FVal
  | .fin s m e => .fin s m (e + k)
  | v => v

/-- a < b and a = b for values that are not NaN; −0 equals +0 (R202). -/
def FVal.lt : FVal → FVal → Bool
  | .nan, _ => false
  | _, .nan => false
  | .inf a, .inf b => a && !b
  | .inf a, _ => a
  | _, .inf b => !b
  | .fin s m e, .fin t n f => decide (atExp s m e (min e f) < atExp t n f (min e f))

def FVal.eq : FVal → FVal → Bool
  | .nan, _ => false
  | _, .nan => false
  | .inf a, .inf b => a == b
  | .fin s m e, .fin t n f => decide (atExp s m e (min e f) = atExp t n f (min e f))
  | _, _ => false

/-- maximumNumber and minimumNumber of two patterns (R201). -/
def FFmt.maxNum (f : FFmt) (wantMax : Bool) (a b : Nat) : Nat :=
  match f.decode a, f.decode b with
  | .nan, .nan => f.nanBits
  | .nan, _ => b
  | _, .nan => a
  | x, y =>
    let less := x.lt y || (x.eq y && f.neg a && !f.neg b)
    if wantMax then (if less then b else a) else (if less then a else b)

/-- A subnormal input treated as zero with its sign (R222). -/
def FFmt.flushIn (f : FFmt) (v : Nat) : Nat := if v % 2 ^ (f.e + f.m) < 2 ^ f.m then f.signed (f.neg v) 0 else v

/-- FP64 and FP32 addition as commit logs, remote accumulates and movers do it: nearest even, canonical NaN (R226). -/
def fadd (f : FFmt) (a b : Nat) : Nat := f.encode .rne ((f.decode a).add (f.decode b))

/-- ⌊log2 |x|⌋ of a non-zero finite value. -/
def ilog2 (mant : Nat) (exp : Int) : Int := (Nat.log2 mant : Int) + exp

end Sys2Proof.Machine
end

