-- ==== Sys2Proof/Machine/Approx.lean ====
section
/-! DEFINITION. The transcendental approximations (R222 to R224): an unstated result within the error bounds that
the manual gives, and the special cases that it fixes (log entry 3). -/
namespace Sys2Proof.Machine

/-! ## Enclosures of e^x in fixed point -/

/-- Fraction bits of the fixed-point enclosures. -/
def fxBits : Nat := 256

/-- 1 in fixed point. -/
def fxOne : Nat := 2 ^ fxBits

/-- Σ r^k / k! for k from `k` on, rounded down at each term: `n` terms, `t` the current term. -/
def expTerms (r : Nat) : Nat → Nat → Nat → Nat
  | 0, _, _ => 0
  | n + 1, k, t => t + expTerms r n (k + 1) (t * r / fxOne / (k + 1))

/-- A fixed-point number squared `n` times, rounded down, or up. -/
def sqDown : Nat → Nat → Nat
  | 0, v => v
  | n + 1, v => sqDown n (v * v / fxOne)
def sqUp : Nat → Nat → Nat
  | 0, v => v
  | n + 1, v => sqUp n (v * v / fxOne + 1)

/-- Below and above e^x for a fixed-point x from 0 to 256: the series at x / 2^16, squared 16 times. -/
def expLo (x : Nat) : Nat := sqDown 16 (expTerms (x / 2 ^ 16) 20 0 fxOne)
def expHi (x : Nat) : Nat := sqUp 16 (expTerms (x / 2 ^ 16 + 1) 20 0 fxOne + 2 ^ 32)

/-- Below and above e^x for a signed fixed-point x. -/
def expLoI (x : Int) : Nat := if 0 ≤ x then expLo x.toNat else fxOne * fxOne / expHi (-x).toNat
def expHiI (x : Int) : Nat := if 0 ≤ x then expHi x.toNat else fxOne * fxOne / expLo (-x).toNat + 1

/-- A finite value in fixed point, rounded down. -/
def toFx (s : Bool) (m : Nat) (e : Int) : Int :=
  let k := e + fxBits
  let n : Int := if 0 ≤ k then ((m * 2 ^ k.toNat : Nat) : Int) else ((m / 2 ^ (-k).toNat : Nat) : Int)
  if s then -n else n

/-! ## Bounds (R223) -/

/-- Whether FP32 pattern `y` approximates e^x within relative 2^−22. -/
def expOk (x : Int) (y : Nat) : Bool :=
  match fp32.decode y with
  | .fin false m e =>
    let v := (toFx false m e).toNat
    decide (expLoI x * (2 ^ 22 - 1) ≤ (v + 1) * 2 ^ 22) && decide (v * 2 ^ 22 ≤ expHiI x * (2 ^ 22 + 1))
  | _ => false

/-- The values of ln x from which y, in fixed point `v`, lies within relative 2^−22 of ln x: from |y| × 2^22 / (2^22 + 1) to
|y| × 2^22 / (2^22 − 1) with the sign of y. -/
def relBand (v : Int) : Int × Int :=
  let lo : Int := ((v.natAbs * 2 ^ 22 / (2 ^ 22 + 1) : Nat) : Int)
  let hi : Int := ((v.natAbs * 2 ^ 22 / (2 ^ 22 - 1) + 1 : Nat) : Int)
  if 0 ≤ v then (lo, hi) else (-hi, -lo)

/-- Whether y approximates ln x: absolute 2^−22 for x in [0.5, 2], relative 2^−22 elsewhere, x in fixed point. -/
def logOk (x : Nat) (y : Nat) : Bool :=
  match fp32.decode y with
  | .fin s m e =>
    let v := toFx s m e
    let d : Int := ((fxOne / 2 ^ 22 : Nat) : Int)
    let band := if fxOne ≤ 2 * x ∧ x ≤ 2 * fxOne then (v - d, v + d) else relBand v
    decide (expLoI band.1 ≤ x) && decide (x ≤ expHiI band.2)
  | _ => false

/-- Whether y approximates tanh x within relative 2^−21, for x ≥ 0 as mant × 2^exp; below 2^−20, tanh x lies between
x × (1 − 2^−41) and x. -/
def tanhOk (m : Nat) (e : Int) (y : Nat) : Bool :=
  match fp32.decode y with
  | .fin false n f =>
    if ilog2 m e < -20 then
      let v := FVal.fin false n f
      let x := FVal.fin false m e
      !(v.lt (x.mul (.fin false ((2 ^ 21 - 1) * (2 ^ 41 - 1)) (-62)))) && !((x.mul (.fin false (2 ^ 21 + 1) (-21))).lt v)
    else
      let x := (toFx false m (e + 1)).toNat
      let v := (toFx false n f).toNat
      let lo := expLo x
      let hi := expHi x
      decide ((lo - fxOne) * fxOne / (lo + fxOne) * (2 ^ 21 - 1) ≤ (v + 1) * 2 ^ 21)
        && decide (v * 2 ^ 21 ≤ ((hi - fxOne) * fxOne / (hi + fxOne) + 1) * (2 ^ 21 + 1))
  | _ => false

/-- Whether y approximates 1 / (1 + e^−x) within absolute 2^−23. -/
def sigmOk (x : Int) (y : Nat) : Bool :=
  match fp32.decode y with
  | .fin false m e =>
    let v := (toFx false m e).toNat
    let d := fxOne / 2 ^ 23
    decide (fxOne * fxOne / (fxOne + expHiI (-x)) ≤ v + 1 + d) && decide (v ≤ fxOne * fxOne / (fxOne + expLoI (-x)) + 1 + d)
  | _ => false

/-- Whether |y × x − 1| ≤ 2^−k, for positive finite x and y. -/
def rcpOk (k : Nat) (f : FFmt) (m : Nat) (e : Int) (y : Nat) : Bool :=
  match f.decode y with
  | .fin false n g =>
    let p := FVal.fin false (m * n) (e + g)
    !(p.lt (.fin false (2 ^ k - 1) (-(k : Int)))) && !((FVal.fin false (2 ^ k + 1) (-(k : Int))).lt p)
  | _ => false

/-- Whether y approximates 1 / √x within relative 2^−k. -/
def rsqrtOk (k : Nat) (f : FFmt) (m : Nat) (e : Int) (y : Nat) : Bool :=
  match f.decode y with
  | .fin false n g =>
    let p := FVal.fin false (m * n * n) (e + 2 * g)
    !(p.lt (.fin false ((2 ^ k - 1) ^ 2) (-(2 * k : Int)))) && !((FVal.fin false ((2 ^ k + 1) ^ 2) (-(2 * k : Int))).lt p)
  | _ => false

/-- The largest FP32 or FP64 pattern below 2^`n` at which a test that holds for small patterns still holds: a
bisection over patterns. -/
def bisect (p : Nat → Bool) : Nat → Nat → Nat
  | 0, lo => lo
  | n + 1, lo => if p (lo + 2 ^ n) then bisect p n (lo + 2 ^ n) else bisect p n lo

/-- The unstated result of an approximation: what the implementation answers where it meets the bound, else the
pattern that the bisection finds. -/
def within (op width x : Nat) (ok : Nat → Bool) (ref : Nat) : Nat :=
  let y := Config.approx op width x
  if ok y then y else ref

/-! ## The operations on FP32 and FP64 patterns -/

/-- The op numbers of the vector slot that approximate. -/
inductive ApOp where
  | exp | log | tanh | sigm | rcp | rsqrt
  deriving DecidableEq, Repr

def ApOp.num : ApOp → Nat
  | .exp => 0 | .log => 1 | .tanh => 2 | .sigm => 3 | .rcp => 4 | .rsqrt => 5

/-- A result below the smallest normal flushed to zero with its sign (R222). -/
def FFmt.flushOut (f : FFmt) (v : Nat) : Nat := f.flushIn v

/-- 88.722 8 (R224) in fixed point, and where e^x falls below 2^−126. -/
def expTop : Int := ((887228 * fxOne / 10000 : Nat) : Int)

/-- VEXP on FP32 (R223, R224). -/
def exp32 (x : Nat) : Nat :=
  match fp32.decode (fp32.flushIn x) with
  | .nan => fp32.nanBits
  | .inf s => if s then 0 else fp32.infBits false
  | .fin s m e =>
    if ¬s ∧ 0 < m ∧ 8 ≤ ilog2 m e then fp32.infBits false
    else if s ∧ 0 < m ∧ 8 ≤ ilog2 m e then 0
    else
      let v := toFx s m e
      if expTop < v then fp32.infBits false
      else if expHiI v * 2 ^ 126 < fxOne then 0
      else fp32.flushOut (within 0 32 x (expOk v) (bisect (fun y => match fp32.decode y with
        | .fin _ n f => decide ((toFx false n f).toNat ≤ expLoI v) | _ => false) 31 0))

/-- VLOG on FP32. -/
def log32 (x : Nat) : Nat :=
  match fp32.decode (fp32.flushIn x) with
  | .nan => fp32.nanBits
  | .inf s => if s then fp32.nanBits else fp32.infBits false
  | .fin s m e =>
    if m = 0 then fp32.infBits true
    else if s then fp32.nanBits
    else if ilog2 m e = 0 ∧ m = 2 ^ Nat.log2 m then fp32.flushOut (within 1 32 x (logOk fxOne) 0)
    else
      let v := (toFx false m e).toNat
      let up := decide (fxOne ≤ v)
      let mag := bisect (fun y => match fp32.decode y with
        | .fin _ n f => let t := toFx (!up) n f; if up then decide (expHiI t ≤ v) else decide (v ≤ expLoI t)
        | _ => false) 31 0
      fp32.flushOut (within 1 32 x (logOk v) (fp32.signed (!up) mag))

/-- VTANH on FP32. -/
def tanh32 (x : Nat) : Nat :=
  match fp32.decode (fp32.flushIn x) with
  | .nan => fp32.nanBits
  | .inf s => fp32.signed s 0x3F800000
  | .fin s m e =>
    if m = 0 then fp32.signed s 0
    else if 5 ≤ ilog2 m e then fp32.signed s (within 2 32 x (fun y => decide (0x3F7FFFF8 ≤ y) && decide (y ≤ 0x3F800004)) 0x3F800000)
    else
      let a := within 2 32 x (tanhOk m e) (if ilog2 m e < -20 then x % 2 ^ 31 else
        bisect (fun y => match fp32.decode y with
          | .fin _ n f => let h := expLo (toFx false m (e + 1)).toNat; decide ((toFx false n f).toNat ≤ (h - fxOne) * fxOne / (h + fxOne))
          | _ => false) 31 0)
      fp32.flushOut (fp32.signed s (a % 2 ^ 31))

/-- VSIGM on FP32. -/
def sigm32 (x : Nat) : Nat :=
  match fp32.decode (fp32.flushIn x) with
  | .nan => fp32.nanBits
  | .inf s => if s then 0 else 0x3F800000
  | .fin s m e =>
    let v : Int := if 0 < m ∧ 8 ≤ ilog2 m e then (if s then -(256 * fxOne : Nat) else (256 * fxOne : Nat)) else toFx s m e
    fp32.flushOut (within 3 32 x (sigmOk v) (bisect (fun y => match fp32.decode y with
      | .fin _ n f => decide ((toFx false n f).toNat ≤ fxOne * fxOne / (fxOne + expHiI (-v))) | _ => false) 31 0))

/-- VRCP on FP32 or FP64: relative 2^−23 or 2^−28. -/
def rcpF (f : FFmt) (x : Nat) : Nat :=
  let k := if f = fp64 then 28 else 23
  match f.decode (f.flushIn x) with
  | .nan => f.nanBits
  | .inf s => f.signed s 0
  | .fin s m e =>
    if m = 0 then f.infBits s
    else
      let ref := bisect (fun y => match f.decode y with
        | .fin _ n g => !((FVal.fin false 1 0).lt (.fin false (m * n) (e + g))) | _ => false) (f.width - 1) 0
      f.flushOut (f.signed s (within 4 f.width x (rcpOk k f m e) ref % 2 ^ (f.width - 1)))

/-- VRSQRT on FP32 or FP64: relative 2^−22 or 2^−28. -/
def rsqrtF (f : FFmt) (x : Nat) : Nat :=
  let k := if f = fp64 then 28 else 22
  match f.decode (f.flushIn x) with
  | .nan => f.nanBits
  | .inf s => if s then f.nanBits else 0
  | .fin s m e =>
    if m = 0 then f.infBits s
    else if s then f.nanBits
    else
      let ref := bisect (fun y => match f.decode y with
        | .fin _ n g => !((FVal.fin false 1 0).lt (.fin false (m * n * n) (e + 2 * g))) | _ => false) (f.width - 1) 0
      within 5 f.width x (rsqrtOk k f m e) ref

/-- An approximation on a lane of a format: on BF16 and FP16 the FP32 result rounded once to nearest even, and flushed
below the smallest normal (R224). -/
def approxLane (op : ApOp) (f : FFmt) (x : Nat) : Nat :=
  let on32 := fun v => match op with
    | .exp => exp32 v | .log => log32 v | .tanh => tanh32 v | .sigm => sigm32 v | .rcp => rcpF fp32 v | .rsqrt => rsqrtF fp32 v
  if f = fp64 then (match op with | .rsqrt => rsqrtF fp64 x | _ => rcpF fp64 x)
  else if f = fp32 then on32 x
  else f.flushOut (f.encode .rne (fp32.decode (on32 (fp32.encode .rne (f.decode (f.flushIn x))))))

end Sys2Proof.Machine
end

