-- ==== Sys2Proof/Machine/Operands.lean ====
section
/-! DEFINITION. The operand forms of the programs that the module's own engines run: Zihal bundles and their slots
(R98 to R133), and the words of spar programs (R294 to R300), with the checks on their encodings. -/
namespace Sys2Proof.Machine

/-! ## Bundles (R98 to R101) -/

/-- A bundle: offset and size in bytes, header fields, and its six slots in the order scalar, vector, matrix, load, store,
sync. -/
structure Bundle where
  off : Nat
  size : Nat
  kind : Nat
  idle : Nat
  rsv : Nat
  slots : List (Option Nat)
  deriving DecidableEq, Repr

/-- The size of a bundle by its header. -/
def bundleSize (h : Nat) : Nat := 4 + 8 * popcount 5 (bits h 30 26) + 4 * bits h 31 31

/-- The bundle at an offset of a code section; none where it extends past the end (R105). -/
def bundleAt (code : List Byte) (off : Nat) : Option Bundle :=
  let rest := code.drop off
  if rest.length < 4 then none else
    let h := fld rest 0 4
    let n := bundleSize h
    if rest.length < n then none else
      let body := slice rest 0 n
      let slots := (List.range 6).foldl (fun (acc : List (Option Nat) × Nat) i =>
        if bitAt h (26 + i) then
          (acc.1 ++ [some (fld body acc.2 (if i = 5 then 4 else 8))], acc.2 + (if i = 5 then 4 else 8))
        else (acc.1 ++ [none], acc.2)) ([], 4)
      some ⟨off, n, bits h 25 24, bits h 23 16, bits h 15 0, slots.1⟩

/-- Slot `i` of a bundle. -/
def Bundle.slot (b : Bundle) (i : Nat) : Option Nat := (b.slots[i]?).join

/-- A predicate field (R109): none where the slot is unconditional. -/
def predOf (v : Nat) : Option Nat := if bitAt v 4 then some (v % 16) else none

/-! ## Slots -/

/-- A scalar slot (R113). -/
structure SSlot where
  pred : Nat
  op : Nat
  rd : Nat
  rs1 : Nat
  rs2 : Nat
  imm : Nat
  deriving DecidableEq, Repr

def sslot (w : Nat) : SSlot := ⟨bits w 63 59, bits w 58 52, bits w 51 47, bits w 46 42, bits w 41 37, bits w 36 0⟩

/-- The sign-extended immediate. -/
def SSlot.simm (s : SSlot) : Int := sext 37 s.imm

/-- A vector slot (R116). -/
structure VSlot where
  pred : Nat
  op : Nat
  fmt : Nat
  masked : Bool
  mask : Nat
  vd : Nat
  va : Nat
  vb : Nat
  vc : Nat
  rnd : Nat
  aux : Nat
  deriving DecidableEq, Repr

def vslot (w : Nat) : VSlot :=
  ⟨bits w 63 59, bits w 58 52, bits w 51 49, bitAt w 48, bits w 47 45, bits w 44 39, bits w 38 33, bits w 32 27, bits w 26 21,
    bits w 20 19, bits w 18 0⟩

/-- A matrix slot (R119). -/
structure XSlot where
  pred : Nat
  op : Nat
  fmtA : Nat
  fmtB : Nat
  mx : Bool
  count : Nat
  accRow : Nat
  accumulate : Bool
  swap : Bool
  base : Nat
  imm : Nat
  deriving DecidableEq, Repr

def xslot (w : Nat) : XSlot :=
  ⟨bits w 63 59, bits w 58 52, bits w 51 48, bits w 47 44, bitAt w 43, bits w 42 32, bits w 31 22, bitAt w 21, bitAt w 20,
    bits w 19 15, bits w 14 0⟩

/-- A load or store slot (R124). -/
structure MSlot where
  pred : Nat
  op : Nat
  vreg : Nat
  indexed : Bool
  masked : Bool
  mask : Nat
  base : Nat
  step : Nat
  io : Nat
  imm : Nat
  deriving DecidableEq, Repr

def mslot (w : Nat) : MSlot :=
  ⟨bits w 63 59, bits w 58 52, bits w 51 46, bitAt w 45, bitAt w 44, bits w 43 41, bits w 40 36, bits w 35 31, bits w 30 25, bits w 24 0⟩

/-- A sync slot (R130). -/
structure YSlot where
  pred : Nat
  op : Nat
  ga : Nat
  gb : Nat
  cmp : Nat
  aux : Nat
  deriving DecidableEq, Repr

def yslot (w : Nat) : YSlot := ⟨bits w 31 27, bits w 26 20, bits w 19 15, bits w 14 10, bits w 9 7, bits w 6 0⟩

/-! ## Encoding checks (R111, R113, R197, R208, R216, R221): true where the slot is illegal -/

/-- The scalar opcodes of R114. -/
def scalarOps : List Nat :=
  [0x01, 0x02, 0x03, 0x04, 0x05, 0x06, 0x07, 0x08, 0x09, 0x0A, 0x0B, 0x0C, 0x0D, 0x0E, 0x11, 0x15, 0x16, 0x17, 0x18, 0x19, 0x1A,
   0x20, 0x21, 0x28, 0x29, 0x2A, 0x2B, 0x2C, 0x2D, 0x30, 0x31, 0x32, 0x33, 0x34, 0x38, 0x40, 0x41, 0x44, 0x45, 0x50, 0x51, 0x5C]

/-- Scalar opcodes whose rd names a predicate. -/
def predDest (op : Nat) : Bool := (decide (0x28 ≤ op) && decide (op ≤ 0x2D)) || (decide (0x30 ≤ op) && decide (op ≤ 0x34))

def SSlot.illegal (s : SSlot) : Bool :=
  !scalarOps.contains s.op || (predDest s.op && decide (16 ≤ s.rd)) || (s.op == 0x50 && (s.pred != 0 || s.imm % 2 ^ 15 != 0))

/-- A lane format is a floating-point one; it is one of FP32, BF16, FP16. -/
def isFloat (fmt : Nat) : Bool := decide (fmt ≤ 3)
def isShortFloat (fmt : Nat) : Bool := fmt == 0 || fmt == 2 || fmt == 3

/-- Lane width of a lane format. -/
def laneWidth (fmt : Nat) : Nat := if fmt = 1 then 64 else if fmt = 0 ∨ fmt = 4 ∨ fmt = 5 then 32 else 16
def laneCount (fmt : Nat) : Nat := 2048 / laneWidth fmt

/-- Element codes of the MX formats that VMXQ and VMXD take (R216 table). -/
def mxCode (c : Nat) : Bool := decide (7 ≤ c) && decide (c ≤ 12)

/-- Operand bits of aux that an opcode uses, as a mask; none for an unlisted opcode. -/
def auxMask (op : Nat) : Option Nat :=
  if op ∈ [0x01, 0x02, 0x03, 0x04, 0x05, 0x06, 0x07, 0x08, 0x09, 0x0A, 0x0B, 0x18, 0x28, 0x29, 0x2A, 0x30, 0x31, 0x32, 0x33, 0x34, 0x35, 0x3A] then some 0
  else if op = 0x0C ∨ op = 0x0D then some 0x3F
  else if op ∈ [0x10, 0x11, 0x12] then some 0x7
  else if op = 0x20 then some 0x7B000
  else if op = 0x21 then some 0x78000
  else if op = 0x22 then some 0x7F000
  else if op = 0x38 then some 0x1F
  else none

/-- Target code, unscaled bit and part of a conversion's aux. -/
def VSlot.target (v : VSlot) : Nat := bits v.aux 18 15
def VSlot.unscaled (v : VSlot) : Bool := bitAt v.aux 14
def VSlot.part (v : VSlot) : Nat := bits v.aux 13 12

/-- A part that selects lanes or elements beyond the register (R216, R217, R221). -/
def VSlot.badPart (v : VSlot) : Bool :=
  if v.op = 0x20 then
    if v.target ≤ 6 then
      let ns := laneCount v.fmt
      let nd := laneCount v.target
      if nd < ns then decide (ns < (v.part + 1) * nd) else decide (nd < (v.part + 1) * ns)
    else v.part != 0
  else if v.op = 0x22 then decide (128 < (v.part + 1) * laneCount v.fmt)
  else false

def VSlot.illegal (v : VSlot) : Bool :=
  match auxMask v.op with
  | none => true
  | some k =>
    v.fmt == 7 || v.rnd == 3 || (v.aux &&& (0x7FFFF - k)) != 0
      || (decide (0x30 ≤ v.op) && decide (v.op ≤ 0x33) && !isShortFloat v.fmt)
      || ((v.op == 0x34 || v.op == 0x35) && !isFloat v.fmt)
      || (v.op == 0x20 && decide (12 < v.target))
      || ((v.op == 0x21 || v.op == 0x22) && (!isFloat v.fmt || !mxCode v.target))
      || v.badPart

/-- The rate class of a matrix format: 0 4-bit, 1 8-bit, 2 16-bit, 3 FP32, 4 FP64 (R121). -/
def fmtClass (f : Nat) : Option Nat :=
  if f = 12 then some 0 else if 7 ≤ f ∧ f ≤ 11 then some 1 else if f = 2 ∨ f = 3 then some 2 else if f = 0 then some 3
  else if f = 1 then some 4 else none

/-- A format with an mx bit that R121 lists. -/
def fmtMxOk (f : Nat) (mx : Bool) : Bool :=
  if f = 10 ∨ f = 11 then mx else if f = 12 ∨ f = 7 ∨ f = 8 ∨ f = 9 then true else !mx

/-- Tile depth, row interval, A row bytes, tile row bytes and MLDB latency of a class (R121, R135, R157). -/
def classDepth (c : Nat) : Nat := if c = 0 then 128 else 64
def classInterval (c : Nat) : Nat := match c with | 0 => 1 | 1 => 1 | 2 => 2 | 3 => 8 | _ => 32
def classRow (c : Nat) : Nat := match c with | 0 => 64 | 1 => 64 | 2 => 128 | 3 => 256 | _ => 512
def classTileRow (c : Nat) : Nat := match c with | 0 => 32 | 1 => 64 | 2 => 128 | 3 => 256 | _ => 512
def classLatency (c : Nat) : Nat := match c with | 0 => 64 | 1 => 64 | 2 => 128 | 3 => 256 | _ => 512

/-- The class of the formats of a matrix slot, none where there is none. -/
def XSlot.cls (x : XSlot) : Nat := (fmtClass (if x.op = 3 then 0 else x.fmtB)).getD 0

/-- The encoding checks of a matrix slot (R111, R120 to R122, R740). MLDB does not use its count field, which must be 0 (R120), though R740 speaks of every matrix slot
(DESIGN CHOICE, log entry 69). -/
def XSlot.illegal (x : XSlot) : Bool :=
  if x.op = 1 then
    (fmtClass x.fmtB).isNone || !fmtMxOk x.fmtB x.mx || x.fmtA != 0 || x.count != 0 || x.accRow != 0 || x.accumulate || x.swap
  else if x.op = 2 then
    (fmtClass x.fmtA).isNone || (fmtClass x.fmtA != fmtClass x.fmtB) || !fmtMxOk x.fmtA x.mx || ((x.fmtA == 7) != (x.fmtB == 7))
      || x.count == 0 || decide (1024 < x.count)
  else if x.op = 3 then
    !([0, 1, 2, 3, 4, 8, 9].contains x.fmtA) || x.fmtB != 0 || x.mx || x.swap || x.count == 0 || decide (1024 < x.count)
  else if x.op = 4 then
    x.fmtA != 0 || x.fmtB != 0 || x.mx || x.accumulate || x.swap || x.base != 0 || x.imm != 0 || x.count == 0 || decide (1024 < x.count)
  else true

def MSlot.illegalLoad (s : MSlot) : Bool :=
  !(s.op == 1 || s.op == 2 || s.op == 3) || s.masked || s.mask != 0 || (s.op == 1 && s.io != 0)
def MSlot.illegalStore (s : MSlot) : Bool := !(s.op == 1 || s.op == 2) || (s.op == 1 && s.io != 0)

/-- The encoding checks of a sync slot. cmp is described for WAIT alone; on INV and TRACE it is not checked (DESIGN CHOICE, log entry 69). -/
def YSlot.illegal (y : YSlot) : Bool :=
  if y.op = 1 then decide (4 < y.cmp) || y.aux != 0
  else if y.op = 2 then y.aux != 0
  else if y.op = 3 then y.ga != 0
  else true

/-- The encoding check of slot `i` of a bundle. -/
def slotIllegal (i w : Nat) : Bool :=
  match i with
  | 0 => (sslot w).illegal
  | 1 => (vslot w).illegal
  | 2 => (xslot w).illegal
  | 3 => (mslot w).illegalLoad
  | 4 => (mslot w).illegalStore
  | _ => (yslot w).illegal

/-- The header checks: reserved bits and kind, and a last bundle with idle cycles (R98, R104, R111). -/
def Bundle.illegal (b : Bundle) : Bool := b.rsv != 0 || decide (2 ≤ b.kind) || (b.kind == 1 && b.idle != 0)

/-! ## Spar program words (R294 to R300) -/

/-- A scalar, control or chain word (R295). -/
structure KWord where
  op : Nat
  rd : Nat
  rs1 : Nat
  rs2 : Nat
  rsv : Nat
  imm : Nat
  deriving DecidableEq, Repr

def kword (w : Nat) : KWord := ⟨bits w 63 58, bits w 57 54, bits w 53 50, bits w 49 46, bits w 45 32, bits w 31 0⟩
def KWord.simm (k : KWord) : Int := sext 32 k.imm

/-- A row step word with its second word (R296). -/
structure RWord where
  op : Nat
  tgt : Nat
  bind : Nat
  ri : Nat
  offset : Nat
  lx : Nat
  lm : Nat
  nops : Nat
  rsv : Nat
  low : Nat
  second : Nat
  deriving DecidableEq, Repr

def rword (w second : Nat) : RWord :=
  ⟨bits w 63 58, bits w 57 56, bits w 55 52, bits w 51 48, bits w 47 36, bits w 35 34, bits w 33 32, bits w 31 29, bits w 28 28, bits w 27 0, second⟩

/-- Words that a step takes: two with three or four latch operations. -/
def RWord.words (r : RWord) : Nat := if r.nops = 3 ∨ r.nops = 4 then 2 else 1

/-- The latch operations of a step, in order. -/
def RWord.ops (r : RWord) : List Nat :=
  ([bits r.low 27 14, bits r.low 13 0, bits r.second 27 14, bits r.second 13 0].take r.nops)

/-- Second binding, register and offset of a CPY; register and word of PUTW and GETW. -/
def RWord.bind2 (r : RWord) : Nat := bits r.low 27 24
def RWord.ri2 (r : RWord) : Nat := bits r.low 23 20
def RWord.offset2 (r : RWord) : Nat := bits r.low 19 8
def RWord.k (r : RWord) : Nat := bits r.low 27 24
def RWord.w (r : RWord) : Nat := bits r.low 23 16

/-- Code and fields of a latch operation (R298). -/
def lcode (o : Nat) : Nat := bits o 13 10
def lf (o i : Nat) : Nat := bits o (9 - 2 * i) (8 - 2 * i)

/-- The distance exponent m, the edge and the sign of an LSH. -/
def lshM (o : Nat) : Nat := bits o 5 2
def lshEdge (o : Nat) : Nat := o % 4
def isLsh (o : Nat) : Bool := lcode o == 12 || lcode o == 13
def lshUp (o : Nat) : Bool := lcode o == 12

/-- The encoding check of a latch operation (R294, R298). -/
def latchIllegal (paired : Bool) (o : Nat) : Bool :=
  match lcode o with
  | 0 | 1 => lf o 1 != 0 || lf o 2 != 0 || lf o 3 != 0 || lf o 4 != 0
  | 2 | 3 => lf o 2 != 0 || lf o 3 != 0 || lf o 4 != 0
  | 4 | 5 | 6 | 7 => lf o 3 != 0 || lf o 4 != 0
  | 8 | 9 => lf o 4 != 0
  | 10 | 11 => lf o 0 != 0 || lf o 4 != 0
  | 12 | 13 => decide ((if paired then 13 else 12) < lshM o) || lshEdge o == 3
  | 14 => lf o 0 != 0 || lf o 4 != 0
  | _ => true

/-- A step carries an edge exchange. -/
def RWord.edges (r : RWord) : List Nat := r.ops.filter fun o => isLsh o && lshEdge o == 2

/-- The encoding checks of a row step that end in ILLEGAL (R294, R296, R298, R300). -/
def RWord.illegal (paired : Bool) (binds : Nat) (r : RWord) : Bool :=
  let plain := decide (1 ≤ r.op) && decide (r.op ≤ 6)
  r.rsv != 0 || r.tgt == 3 || decide (4 < r.nops) || decide (binds ≤ r.bind)
    || (r.words == 2 && r.second / 2 ^ 28 != 0) || (r.words == 2 && r.nops == 3 && r.second % 2 ^ 14 != 0)
    || (plain && ((r.nops == 0 && r.low != 0) || (r.nops == 1 && r.low % 2 ^ 14 != 0)))
    || (plain && r.ops.any (latchIllegal paired))
    || (plain && decide (1 < (r.ops.filter fun o => lcode o == 14).length))
    || (!plain && r.nops != 0)
    || (r.op == 7 && (r.low % 2 ^ 8 != 0 || decide (binds ≤ r.bind2)))
    || (r.op == 8 && r.low != 0)
    || ((r.op == 9 || r.op == 10) && r.low % 2 ^ 16 != 0)
    || decide (2 < r.edges.length) || (decide (r.edges.length = 2) && ((r.edges.map lshUp).eraseDups.length == 1))

/-- The rules of R299 that end in PAIRED. -/
def RWord.pairedFault (paired : Bool) (r : RWord) : Bool :=
  if paired then r.tgt != 2 else ((r.op == 9 || r.op == 10) && r.tgt == 2) || !r.edges.isEmpty

/-- A word of PUTW or GETW beyond its bank (R299). -/
def RWord.wordFault (paired : Bool) (r : RWord) : Bool := (r.op == 9 || r.op == 10) && !paired && decide (127 < r.w)

/-- The fields that a scalar, control or chain opcode uses: rd, rs1, rs2, imm. -/
def kUses (op : Nat) : Option (Bool × Bool × Bool × Bool) :=
  if (0x20 ≤ op ∧ op ≤ 0x28) ∨ op = 0x2C ∨ op = 0x2D then some (true, true, true, false)
  else if op = 0x29 ∨ op = 0x30 then some (true, true, false, true)
  else if op = 0x2A ∨ op = 0x2B then some (true, false, false, true)
  else if op = 0x31 then some (false, true, true, true)
  else if 0x34 ≤ op ∧ op ≤ 0x37 then some (false, true, true, true)
  else if op = 0x38 ∨ op = 0x3A ∨ op = 0x3F then some (false, false, false, true)
  else if op = 0x3B ∨ op = 0x3D then some (false, true, false, true)
  else if op = 0x3C then some (true, false, false, true)
  else if op = 0x3E then some (false, false, false, false)
  else none

/-- The encoding check of a scalar, control or chain word (R294, R295): an unlisted opcode, a reserved field, or an atomic
block of no or more than 8 steps. -/
def KWord.illegal (k : KWord) : Bool :=
  (kUses k.op).isNone || k.rsv != 0 || (k.op == 0x3A && (k.imm % 16 == 0 || decide (8 < k.imm % 16)))

end Sys2Proof.Machine
end

