-- ==== Sys2Proof/Machine/Flags.lean ====
section
/-! DEFINITION. Predicates, comparisons, masks and poison of the cores (R96, R114, R202, R204, R205, R640, R741, R742). -/
namespace Sys2Proof.Machine

/-! ## Scalar comparisons and predicate logic (R114) -/

/-- CMPEQ to CMPGEU on 64-bit values. -/
def scalarCompare (op : Nat) (a b : Word) : Bool :=
  match op with
  | 0x28 => a == b
  | 0x29 => a != b
  | 0x2A => a.slt b
  | 0x2B => a.ult b
  | 0x2C => !(a.slt b)
  | _ => !(a.ult b)

/-- PAND, POR, PXOR, PNOT. -/
def predLogic (op : Nat) (a b : Bool) : Bool :=
  match op with
  | 0x30 => a && b
  | 0x31 => a || b
  | 0x32 => a != b
  | _ => !a

/-! ## Lanes (R95, R96) -/

/-- Lane `i` of width `w` of a value. -/
def lane (w v i : Nat) : Nat := v / 2 ^ (w * i) % 2 ^ w

/-- All lanes of width `w` of the low 2,048 bits. -/
def lanes (w v : Nat) : List Nat := (List.range (2048 / w)).map (lane w v)

/-- A value from lanes of width `w`, lane 0 first. -/
def ofLanes (w : Nat) (l : List Nat) : Nat := l.reverse.foldl (fun a x => a * 2 ^ w + x % 2 ^ w) 0

/-- A mask value from bits, bit 0 first. -/
def ofBits (l : List Bool) : Nat := l.reverse.foldl (fun a x => a * 2 + b2n' x) 0
where b2n' (b : Bool) : Nat := if b then 1 else 0

/-! ## Lane comparisons (R198, R202) -/

/-- VCMPEQ, VCMPLT, VCMPLE on two lanes of a format. -/
def laneCompare (f : EFmt) (op a b : Nat) : Bool :=
  let x := f.decode a
  let y := f.decode b
  match op with
  | 0x10 => x.eq y
  | 0x11 => x.lt y
  | _ => x.lt y || x.eq y

/-- The mask that a compare leaves: lane bits, old bits where the governing mask is 0, zeros above (R96, R205). -/
def compareMask (f : EFmt) (op : Nat) (a b : List Nat) (gov : Option Nat) (old : Nat) : Nat :=
  ofBits ((a.zip b).zipIdx.map fun e =>
    match gov with
    | some g => if bitAt g e.2 then laneCompare f op e.1.1 e.1.2 else bitAt old e.2
    | none => laneCompare f op e.1.1 e.1.2)

/-! ## Poison of 64-bit words (R640) -/

/-- The 64-bit words that hold bits [lo, lo + n). -/
def wordsOf (lo n : Nat) : List Nat := (List.range ((lo + n + 63) / 64 - lo / 64)).map (· + lo / 64)

/-- True where any word that holds bits [lo, lo + n) is poison. -/
def poisonAt (p lo n : Nat) : Bool := (wordsOf lo n).any (bitAt p)

/-- The words of a result that depend on poison, from (bit position, width, poisoned) of its elements. -/
def poisonWords (l : List (Nat × Nat × Bool)) : Nat :=
  ((l.filter (·.2.2)).flatMap fun e => wordsOf e.1 e.2.1).foldl (fun a w => a ||| 2 ^ w) 0

/-- Every word of a vector register. -/
def allWords : Nat := 2 ^ 32 - 1

/-! ## Masked stores (R742) -/

/-- The bits of a 256 B vector that a masked store writes: lanes of the width that the mask carries. -/
def storeMask (bitsOf width : Nat) : Nat :=
  (List.range (2048 / width)).foldl (fun a i => if bitAt bitsOf i then a ||| ((2 ^ width - 1) * 2 ^ (width * i)) else a) 0

end Sys2Proof.Machine
end

