-- ==== Sys2Proof/Machine/Vector.lean ====
section
/-! DEFINITION. What each vector operation computes: lane arithmetic, reductions, conversions, MX quantisation and the
poison of its result (R117, R135, R195 to R224, R640, R741). -/
namespace Sys2Proof.Machine

/-- What a vector slot reads at issue (R143): three sources, the old destination and their poisoned words, its mask, the
destination mask of a compare, the scalar of a broadcast, and a random value for each lane (R210). -/
structure VIn where
  a : VReg
  b : VReg
  c : VReg
  old : VReg
  mask : MReg
  dest : MReg
  g : PWord
  u : Nat → Nat

/-- The rounding of a vector slot, with the random value of a lane (R208). -/
def rndOf (r : Nat) (u : Nat) : Rnd := if r = 0 then .rne else if r = 1 then .rtz else .stoch u

/-- The element format of a lane format. -/
def laneFmt (fmt : Nat) : EFmt := (elemFmt fmt).getD (.fl fp32)

/-- Latency of a vector opcode in a lane format (R135). -/
def vectorLatency (op fmt : Nat) : Nat :=
  if op = 0x30 ∨ op = 0x31 ∨ op = 0x32 ∨ op = 0x33 then 12
  else if op = 0x28 ∨ op = 0x29 ∨ op = 0x2A ∨ op = 0x34 ∨ op = 0x35 then 8
  else if op = 0x21 ∨ op = 0x22 then 6
  else if op = 0x20 ∨ op = 0x07 ∨ op = 0x08 then 3
  else if 0x01 ≤ op ∧ op ≤ 0x06 then (if isFloat fmt then (if fmt = 1 then 6 else 4) else 2)
  else 2

/-! ## Lane arithmetic (R198 to R201) -/

/-- VADD to VNEG on lanes of a floating-point format. -/
def floatLane (f : FFmt) (op : Nat) (r : Rnd) (a b c : Nat) : Nat :=
  let x := f.decode a
  let y := f.decode b
  match op with
  | 0x01 => f.encode r (x.add y)
  | 0x02 => f.encode r (x.add y.neg)
  | 0x03 => f.encode r (x.mul y)
  | 0x04 => f.encode r ((x.mul y).add (f.decode c))
  | 0x05 => f.maxNum false a b
  | 0x06 => f.maxNum true a b
  | 0x07 => a % 2 ^ (f.e + f.m)
  | _ => f.signed (!f.neg a) (a % 2 ^ (f.e + f.m))

/-- VADD to VNEG on lanes of an integer format: they wrap. -/
def intLane (w : Nat) (sg : Bool) (op a b c : Nat) : Nat :=
  let v := fun (x : Nat) => if sg then sext w x else ((x % 2 ^ w : Nat) : Int)
  match op with
  | 0x01 => intBits w (v a + v b)
  | 0x02 => intBits w (v a - v b)
  | 0x03 => intBits w (v a * v b)
  | 0x04 => intBits w (v a * v b + v c)
  | 0x05 => intBits w (min (v a) (v b))
  | 0x06 => intBits w (max (v a) (v b))
  | 0x07 => if sg then intBits w ((sext w a).natAbs : Int) else a % 2 ^ w
  | _ => intBits w (-(v a))

/-- VAND, VOR, VXOR, VSHL and VSHR on the bits of a lane. -/
def bitLane (w : Nat) (arith : Bool) (op aux a b : Nat) : Nat :=
  match op with
  | 0x09 => a &&& b
  | 0x0A => a ||| b
  | 0x0B => a ^^^ b
  | 0x0C => a * 2 ^ (aux % 64) % 2 ^ w
  | _ => if arith then intBits w (sext w a / (2 ^ (aux % 64) : Nat)) else a / 2 ^ (aux % 64)

/-- One lane of a lane-by-lane operation. -/
def laneOp (f : EFmt) (op aux : Nat) (r : Rnd) (a b c : Nat) : Nat :=
  if 0x09 ≤ op ∧ op ≤ 0x0D then bitLane f.width (match f with | .int _ s => s | .fl _ => false) op aux a b
  else match f with
    | .fl g => floatLane g op r a b c
    | .int w sg => intLane w sg op a b c

/-- The approximation of an opcode. -/
def apOpOf (op : Nat) : ApOp :=
  match op with
  | 0x30 => .exp | 0x31 => .log | 0x32 => .tanh | 0x33 => .sigm | 0x34 => .rcp | _ => .rsqrt

/-- An approximation on a lane of a floating-point format. -/
def approxOp (f : EFmt) (op a : Nat) : Nat := match f with | .fl g => approxLane (apOpOf op) g a | .int _ _ => 0

/-! ## Reductions (R206, R207) -/

/-- Neighbouring lanes combined: one level of the tree, lane numbers counted from `k` for the random values. -/
def pairUp (op : Nat → Nat → Nat → Nat) : Nat → List Nat → List Nat
  | k, a :: b :: r => op k a b :: pairUp op (k + 1) r
  | _, l => l

/-- The fixed tree: levels until one value is left. -/
def tree (op : Nat → Nat → Nat → Nat) : Nat → Nat → List Nat → Nat
  | 0, _, l => l.headD 0
  | n + 1, k, l => tree op n (k + l.length / 2) (pairUp op k l)

/-- Identity and combination of VRSUM, VRMAX and VRMIN. -/
def reduceId (f : EFmt) (op : Nat) : Nat :=
  match f with
  | .fl g => if op = 0x28 then 0 else g.infBits (op == 0x29)
  | .int w sg => if op = 0x28 then 0 else intBits w (if op = 0x29 then intMin w sg else intMax w sg)
def reduceOp (f : EFmt) (rnd op : Nat) (u : Nat → Nat) (k a b : Nat) : Nat :=
  laneOp f (if op = 0x28 then 0x01 else if op = 0x29 then 0x06 else 0x05) 0 (rndOf rnd (u k)) a b 0

/-! ## Conversions (R216 to R221) -/

/-- Bits of an element as conversions pack it: 4 for FP4, else 8. -/
def packBits (code : Nat) : Nat := if code = 12 then 4 else 8

/-- An element code's format. -/
def codeFmt (code : Nat) : EFmt := (elemFmt code).getD (.fl fp32)

/-- One element converted between formats. -/
def convert (src dst : EFmt) (r : Rnd) (x : Nat) : Nat := dst.encode r (src.decode x)

/-- Exponent of the largest finite value of an MX element format (R220). -/
def mxTop (code : Nat) : Int := if code = 8 then 8 else if code = 9 then 15 else if code = 10 then 4 else if code = 7 then 0 else 2

/-- The value of an MX element before its scale: MXINT8 means i × 2^−6 (R214). -/
def mxDecode (code x : Nat) : FVal :=
  if code = 7 then ((EFmt.int 8 true).decode x).scale (-6) else (codeFmt code).decode (x % 2 ^ (codeFmt code).width)

/-- A scale byte applied to a value: 0xFF makes it NaN (R214). -/
def mxScaled (s : Nat) (v : FVal) : FVal := if s = 255 then .nan else v.scale ((s : Int) - 127)

/-- Scale byte and elements of a block (R220); `k` numbers its first element for the random values. -/
def mxBlock (code rnd : Nat) (u : Nat → Nat) (k : Nat) (vs : List FVal) : Nat × List Nat :=
  let bad := vs.any fun v => match v with | .fin _ _ _ => false | _ => true
  let logs := vs.filterMap fun v => match v with | .fin _ m e => if m = 0 then none else some (ilog2 m e) | _ => none
  if bad then (255, vs.map fun _ => 0) else
    match logs with
    | [] => (127, vs.map fun _ => 0)
    | l :: ls =>
      let e := max (-127) (min 127 (ls.foldl max l - mxTop code))
      ((e + 127).toNat, vs.zipIdx.map fun x =>
        (codeFmt code).encode (rndOf rnd (u (k + x.2))) (x.1.scale ((if code = 7 then 6 else 0) - e)))

/-- A list cut into pieces of 32. -/
def blocks32 : Nat → List FVal → List (List FVal)
  | 0, _ => []
  | n + 1, l => if l.isEmpty then [] else l.take 32 :: blocks32 n (l.drop 32)

/-! ## The result of a vector slot -/

/-- An element of a result: position, width, value and whether it depends on poison. -/
structure VElem where
  pos : Nat
  width : Nat
  val : Nat
  poison : Bool

/-- Elements put together: bits outside every element are 0. -/
def assemble (l : List VElem) : Nat := l.foldl (fun a e => a ||| ((e.val % 2 ^ e.width) * 2 ^ e.pos)) 0

/-- A slot packs 6-bit elements: VCVT or VMXQ to E3M2 or E2M3 (R217). -/
def VSlot.packs6 (v : VSlot) : Bool := (v.op == 0x20 || v.op == 0x21) && (v.target == 10 || v.target == 11)

/-- Elements under a mask: one whose bit is 0 keeps its old bits in vd, of which bits [7:6] of a 6-bit element are none: they are
written 0 whatever the mask (R205, R217, R741). Element `i` of the mask is the one at position `i × its width`. -/
def underMask (v : VSlot) (x : VIn) (l : List VElem) : List VElem :=
  if v.masked then l.map fun e =>
    let i := e.pos / e.width
    let p := e.poison || x.mask.poison
    let old := x.old.val.toNat / 2 ^ e.pos
    if bitAt x.mask.val.toNat i then { e with poison := p }
    else { e with val := if v.packs6 then old % 64 else old, poison := x.mask.poison || poisonAt x.old.poison.toNat e.pos e.width }
  else l

/-- The elements that a slot computes, before its mask. -/
def vectorElems (v : VSlot) (x : VIn) : List VElem :=
  let f := laneFmt v.fmt
  let w := laneWidth v.fmt
  let n := laneCount v.fmt
  let pa := x.a.poison.toNat
  let pb := x.b.poison.toNat
  let pc := x.c.poison.toNat
  let ln := fun (y : VReg) i => lane w y.val.toNat i
  let at1 := fun (p i : Nat) => poisonAt p (w * i) w
  let each := fun (g : Nat → Nat) (q : Nat → Bool) => (List.range n).map fun i => (⟨w * i, w, g i, q i⟩ : VElem)
  if v.op ∈ [0x07, 0x08, 0x0C, 0x0D] then each (fun i => laneOp f v.op v.aux .rne (ln x.a i) 0 0) (at1 pa)
  else if v.op = 0x04 then
    each (fun i => laneOp f v.op v.aux (rndOf v.rnd (x.u i)) (ln x.a i) (ln x.b i) (ln x.c i)) (fun i => at1 pa i || at1 pb i || at1 pc i)
  else if v.op ≤ 0x0B then
    each (fun i => laneOp f v.op v.aux (rndOf v.rnd (x.u i)) (ln x.a i) (ln x.b i) 0) (fun i => at1 pa i || at1 pb i)
  else if v.op = 0x18 then
    each (fun i => if bitAt x.mask.val.toNat i then ln x.a i else ln x.b i)
      (fun i => x.mask.poison || (if bitAt x.mask.val.toNat i then at1 pa i else at1 pb i))
  else if v.op = 0x38 then each (fun _ => x.g.val.toNat % 2 ^ w) (fun _ => x.g.poison)
  else if v.op = 0x3A then each (fun i => f.encode .rne (.fin false i 0)) (fun _ => false)
  else if 0x30 ≤ v.op ∧ v.op ≤ 0x35 then each (fun i => approxOp f v.op (ln x.a i)) (at1 pa)
  else if 0x28 ≤ v.op ∧ v.op ≤ 0x2A then
    let ls := (List.range n).map fun i => if v.masked && !(bitAt x.mask.val.toNat i) then reduceId f v.op else ln x.a i
    let bad := pa != 0 || (v.masked && x.mask.poison)
    each (fun i => if i = 0 then tree (reduceOp f v.rnd v.op x.u) 7 0 ls else 0) (fun _ => bad)
  else if v.op = 0x20 then
    let t := codeFmt v.target
    if v.target ≤ 6 then
      let wt := laneWidth v.target
      let nd := laneCount v.target
      if nd < n then
        (List.range nd).map fun i => let k := v.part * nd + i; ⟨wt * i, wt, convert f t (rndOf v.rnd (x.u i)) (ln x.a k), at1 pa k⟩
      else
        (List.range n).map fun i =>
          ⟨wt * (v.part * n + i), wt, convert f t (rndOf v.rnd (x.u i)) (ln x.a i), if n < nd then pa != 0 else at1 pa i⟩
    else
      let q := packBits v.target
      (List.range n).map fun i => ⟨q * i, q, convert f t (rndOf v.rnd (x.u i)) (ln x.a i), pa != 0⟩
  else if v.op = 0x21 then
    let q := packBits v.target
    let bs := (blocks32 4 ((List.range n).map fun i => f.decode (ln x.a i))).zipIdx.map fun b => mxBlock v.target v.rnd x.u (32 * b.2) b.1
    (bs.flatMap (·.2)).zipIdx.map fun e => ⟨q * e.2, q, e.1, pa != 0⟩
  else
    let q := packBits v.target
    (List.range n).map fun i =>
      let k := v.part * n + i
      let s := if v.unscaled then 127 else lane 8 x.a.val.toNat (224 + k / 32)
      let y := mxScaled s (mxDecode v.target (lane q x.a.val.toNat k))
      ⟨w * i, w, f.encode (rndOf v.rnd (x.u i)) y, poisonAt pa (q * k) q || (!v.unscaled && poisonAt pa (8 * (224 + k / 32)) 8)⟩

/-- The scale bytes of a VMXQ, written whatever the mask (R217, R741). -/
def vectorScales (v : VSlot) (x : VIn) : List VElem :=
  if v.op = 0x21 then
    let f := laneFmt v.fmt
    let w := laneWidth v.fmt
    let bs := (blocks32 4 ((List.range (laneCount v.fmt)).map fun i => f.decode (lane w x.a.val.toNat i))).zipIdx.map fun b =>
      mxBlock v.target v.rnd x.u (32 * b.2) b.1
    bs.zipIdx.map fun b => ⟨8 * (224 + b.2), 8, b.1.1, x.a.poison != 0⟩
  else []

/-- A reduction ignores the mask for what it writes; every other operation keeps masked lanes (R205, R207). -/
def vectorWritten (v : VSlot) (x : VIn) : List VElem :=
  (if 0x28 ≤ v.op ∧ v.op ≤ 0x2A then vectorElems v x else underMask v x (vectorElems v x)) ++ vectorScales v x

/-- Value and poisoned words of vd after a vector slot. A conversion that packs words and an MX quantisation poison every
word that they write (R640). -/
def vectorResult (v : VSlot) (x : VIn) : VReg :=
  let l := vectorWritten v x
  let p := poisonWords (l.map fun e => (e.pos, e.width, e.poison))
  let whole := (v.op == 0x20 || v.op == 0x21) && x.a.poison != 0 &&
    (v.op == 0x21 || decide (6 < v.target) || decide (laneCount v.fmt < laneCount v.target))
  ⟨BitVec.ofNat 2048 (assemble l), BitVec.ofNat 32 (if whole then allWords else p)⟩

/-- The mask that a compare leaves, with its lane width and poison (R205, R742). -/
def vectorMask (v : VSlot) (x : VIn) : MReg :=
  let w := laneWidth v.fmt
  ⟨BitVec.ofNat 128 (compareMask (laneFmt v.fmt) v.op (lanes w x.a.val.toNat) (lanes w x.b.val.toNat)
      (if v.masked then some x.mask.val.toNat else none) x.dest.val.toNat), w,
    x.a.poison != 0 || x.b.poison != 0 || (v.masked && (x.mask.poison || x.dest.poison))⟩

/-- True where a slot is a compare. -/
def VSlot.isCompare (v : VSlot) : Bool := decide (0x10 ≤ v.op) && decide (v.op ≤ 0x12)

end Sys2Proof.Machine
end

