-- ==== Sys2Proof/Machine/Matrix.lean ====
section
/-! DEFINITION. Scratchpads, the matrix array and its feeder queues: tile rows, A rows, column sums, accumulator rows and
MOUT, and the landing of results in a cluster (R97, R134 to R144, R150 to R177, R192, R215, R646). -/
namespace Sys2Proof.Machine

/-- The enabled cores of a cluster, in order of their logical index (R49). -/
def Cluster.phys (c : Cluster) : List Nat := setBits 8 c.coreMask.toNat

/-! ## Scratchpads (R126, R645, R646) -/

/-- Bytes of a scratchpad. -/
def spadBytes : Nat := 2 ^ 21

/-- Where the word with number `w` of a scratchpad is stored: in its line, or in the spare line of an armed entry. -/
def Core.spadWord (c : Core) (w : Nat) : Nat :=
  match c.inlay.find? (fun e => e.2.any fun x => x.1 == w / 8) with
  | some (_, some x) => spadBytes / 8 + x.2 * 8 + w % 8
  | _ => w

/-- A word of a scratchpad read, and written. -/
def Core.getWord (c : Core) (w : Nat) : PWord := (c.spad.decode (c.spadWord w)).word
def Core.putWord (c : Core) (w : Nat) (v : PWord) : Core := { c with spad := c.spad.putWord (c.spadWord w) v }

/-- `n` words from an address on, as a value and the poison of each. -/
def Core.getBits (c : Core) (a n : Nat) : Nat × Nat :=
  (List.range n).reverse.foldl (fun acc i =>
    let w := c.getWord (a / 8 + i)
    (acc.1 * 2 ^ 64 + w.val.toNat, acc.2 * 2 + b2n w.poison)) (0, 0)

/-- Bits of `n` words from an address on written where `mask` has a 1. A word covered whole takes the poison given for it;
a word covered in part keeps its other bits and is poison where it was or where the new one is (R640, log entry 14). -/
def Core.putBits (c : Core) (a n val mask poison : Nat) : Core :=
  (List.range n).foldl (fun c i =>
    let mk := mask / 2 ^ (64 * i) % 2 ^ 64
    if mk = 0 then c else
      let old := c.getWord (a / 8 + i)
      let v := (BitVec.ofNat 64 (val / 2 ^ (64 * i)) &&& BitVec.ofNat 64 mk) ||| (old.val &&& ~~~(BitVec.ofNat 64 mk))
      c.putWord (a / 8 + i) ⟨v, bitAt poison i || (mk != 2 ^ 64 - 1 && old.poison)⟩) c

/-- The bank of a scratchpad address (R162), and the banks of the lines that `n` bytes touch. -/
def spadBank (a : Nat) : Nat := a / 64 % 32
def spadBanks (a n : Nat) : List Nat := (List.range ((a + n + 63) / 64 - a / 64)).map fun i => (a / 64 + i) % 32

/-- A read by the feeder or an MLDB: each word that has changed since the issue of its slot is, at a free choice, the old
or the new one (R140, R377). -/
def readMixed (k : Nat) (old new : Core) (a n : Nat) : Nat × Bool :=
  (List.range n).reverse.foldl (fun (acc : Nat × Bool) i =>
    let o := old.getWord (a / 8 + i)
    let w := new.getWord (a / 8 + i)
    let x := if o = w then w else if Config.freeChoice (k + i) % 2 = 0 then o else w
    (acc.1 * 2 ^ 64 + x.val.toNat, acc.2 || x.poison)) (0, false)

/-- A core with another scratchpad. -/
def Core.withSpad (c : Core) (r : Ram) : Core := { c with spad := r }

/-! ## Sums in the array (R172 to R176) -/

/-- A mantissa without its trailing zeros. -/
def oddPart : Nat → Nat → Int → Nat × Int
  | 0, m, e => (m, e)
  | n + 1, m, e => if m ≠ 0 ∧ m % 2 = 0 then oddPart n (m / 2) (e + 1) else (m, e)

/-- The exact sum of finite values: −0 where every value is −0, +0 where the values cancel (R199). -/
def exactSum (l : List FVal) : FVal :=
  match l with
  | [] => .fin false 0 0
  | v :: r => r.foldl FVal.add v

/-- A finite free value: sign, mantissa and exponent are free. -/
def freeFin (k : Nat) : FVal := .fin ((Config.freeBits 1 k).getLsbD 0) (Config.freeBits 128 k).toNat ((Config.freeBits 12 k).toNat - 2400)

/-- `y` lies as close to the exact sum as any order of additions of `n` terms, each with at least `p` bits of precision, brings it: within
n × 2^(1 − p) of the sum of the magnitudes, and n steps of the smallest subnormal (R172). -/
def nearSum (n p : Nat) (qmin : Int) (exact mags y : FVal) : Bool :=
  let bound := (mags.mul (.fin false n (1 - (p : Int)))).add (.fin false n qmin)
  let d := y.add exact.neg
  !(bound.lt (match d with | .fin _ m e => .fin false m e | v => v))

/-- The sum of products with at least `p` bits of precision (R172). Where the sum of the magnitudes fits in `p` bits above the lowest
set bit of any product, every order gives the exact sum; else it is a free value, numbered `k`, as close to the exact sum as every
order and precision that the manual allows brings it, and quite free where an intermediate sum may overflow (log entry 1). NaN and
infinities propagate as IEEE 754 defines (R176). -/
def openSum (p k : Nat) (l : List FVal) : FVal :=
  let nan := l.any (· == .nan)
  let pos := l.any (· == .inf false)
  let neg := l.any (· == .inf true)
  let fin := l.filterMap fun v => match v with | .fin _ m e => if m = 0 then none else some (oddPart 128 m e) | _ => none
  let q := (fin.map (·.2)).foldl min (fin.headD (0, 0)).2
  let s := sumNat (fin.map fun x => x.1 * 2 ^ (x.2 - q).toNat)
  let qmin : Int := if p = 24 then -149 else -1074
  let top : Int := if p = 24 then 127 else 1023
  let exact := decide (s ≤ 2 ^ p) && (fin.isEmpty || (decide (qmin ≤ q) && decide (q + p ≤ top)))
  let f := if p = 24 then fp32 else fp64
  let overflows := decide (top + 1 ≤ q + (Nat.log2 s : Int))
  let y := freeFin k
  if nan || (pos && neg) then .nan
  else if overflows then f.decode (Config.freeBits f.width k).toNat
  else if pos then .inf false
  else if neg then .inf true
  else if exact then exactSum l
  else if nearSum l.length p qmin (exactSum l) (.fin false s q) y then y
  else exactSum l

/-- Bits of an element of a format as the array takes it from a row (R157, R158). -/
def arrayBits (fmt : Nat) : Nat :=
  match fmtClass fmt with | some 0 => 4 | some 1 => 8 | some 2 => 16 | some 3 => 32 | _ => 64

/-- The value of an array operand: FP6 in bits [5:0], subnormal FP32 taken as zero, INT8 under mx as MXINT8
(R157, R214, R215, R222). -/
def arrayValue (fmt : Nat) (mx : Bool) (x : Nat) : FVal :=
  if fmt = 7 then (if mx then mxDecode 7 x else (EFmt.int 8 true).decode x)
  else if fmt = 0 then fp32.decode (fp32.flushIn x)
  else (codeFmt fmt).decode (x % 2 ^ (codeFmt fmt).width)

/-- Precision of the sums of a class: FP64 or FP32. -/
def classPrec (c : Nat) : Nat := if c = 4 then 53 else 24

/-- The products of an A row and a column of a tile, each scaled by its block (R150, R175). -/
def columnTerms (p : Pass) (t : Tile) (a : FRow) (j : Nat) : List FVal :=
  let c := (fmtClass p.fmtB).getD 1
  let ba := arrayBits p.fmtA
  let bb := arrayBits p.fmtB
  (List.range (classDepth c)).map fun k =>
    let x := arrayValue p.fmtA p.mx (lane ba a.val k)
    let y := arrayValue p.fmtB t.mx (lane bb (Tab.get 0 t.rows k) j)
    let sa := lane 8 a.scales (k / 32)
    let sb := Tab.get 127 t.scales (k / 32 * 64 + j)
    if sa = 255 ∨ sb = 255 then .nan else (x.mul y).scale ((sa : Int) + sb - 254)

/-- INT8 with both operands unscaled accumulates in INT32 (R174, R215). -/
def intPass (p : Pass) (t : Tile) : Bool := p.fmtA == 7 && !p.mx && !t.mx

/-- The new element of an accumulator row: `old` its pattern before, `k` numbers the free value (R138, R173, R174). -/
def accElement (p : Pass) (t : Tile) (a : FRow) (j old k : Nat) : Nat :=
  let l := columnTerms p t a j
  if intPass p t then
    let s := l.foldl (fun (acc : Int) v => match v with | .fin sg m e => acc + (if sg then -1 else 1) * ((m * 2 ^ e.toNat : Nat) : Int) | _ => acc) 0
    intBits 32 ((if p.accumulate then sext 32 old else 0) + s)
  else
    let f := if p.fmtB = 1 then fp64 else fp32
    let s := openSum (classPrec ((fmtClass p.fmtB).getD 1)) k l
    f.encode .rne (if p.accumulate then (f.decode old).add s else s)

/-- Bits of an accumulator row of a pass or an MOUT: 64 columns of the view (R97). -/
def viewBits (fp64v : Bool) : Nat := if fp64v then 64 else 32

/-- Word `i` of an accumulator memory as its decoder reads it, 32 words to an FP32 row (R627, R631, R739). -/
def Core.accDecode (c : Core) (i : Nat) : EccRead :=
  eccDecode (BitVec.ofNat 64 (Tab.get 0 c.acc (i / 32) / 2 ^ (64 * (i % 32)))) (Tab.get false c.accPoison (i / 32)) (Tab.get 0 c.accFlips i)

/-- The words of an FP32 row in which errors have flipped bits. -/
def Core.accUpset (c : Core) (r : Nat) : List Nat := (c.accFlips.map (·.1)).filter fun i => i / 32 == r

/-- An FP32 row read, with its poison. -/
def Core.accOne (c : Core) (r : Nat) : Nat × Bool :=
  (c.accUpset r).foldl (fun (v : Nat × Bool) i =>
    let d := (c.accDecode i).word
    let old := v.1 / 2 ^ (64 * (i % 32)) % 2 ^ 64
    (v.1 ^^^ ((old ^^^ d.val.toNat) * 2 ^ (64 * (i % 32))), v.2 || d.poison)) (Tab.get 0 c.acc r, Tab.get false c.accPoison r)

/-- The FP32 rows of a row of an accumulator view. -/
def viewRows (wide : Bool) (r : Nat) : List Nat := if wide then [2 * r, 2 * r + 1] else [r]

/-- A row of an accumulator view read, with its poison. -/
def Core.accRow (c : Core) (wide : Bool) (r : Nat) : Nat × Bool :=
  if wide then
    let a := c.accOne (2 * r)
    let b := c.accOne (2 * r + 1)
    (a.1 + b.1 * 2 ^ 2048, a.2 || b.2)
  else c.accOne r

/-- A tile row of a class is poisoned; rows that an earlier tile of a deeper class has left count for nothing. -/
def Tile.bad (t : Tile) (cls : Nat) : Bool := t.poison.any fun e => e.2 && decide (e.1 < classDepth cls)

/-- The row that a pass leaves for one A row: its value, the bits written and its poison (R155, R192). -/
def passRow (p : Pass) (t : Tile) (a : FRow) (old : Nat × Bool) (k : Nat) : Nat × Nat × Bool :=
  let w := viewBits (p.fmtB == 1)
  let cols := (List.range 64).map fun j => if j < p.width then accElement p t a j (lane w old.1 j) (k + j) else 0
  let mask := if p.accumulate then 2 ^ (w * min p.width 64) - 1 else 2 ^ (w * 64) - 1
  (ofLanes w cols, mask, a.poison || t.bad ((fmtClass p.fmtB).getD 1) || (p.accumulate && old.2))

/-! ## Tiles (R136, R151, R153, R160, R161) -/

/-- A tile row written, with the scales of its group where it begins one. -/
def Tile.writeRow (t : Tile) (cls : Nat) (mx : Bool) (k : Nat) (row : FRow) (scales : Option FRow) : Tile :=
  let t := { t with rows := Tab.put 0 t.rows k row.val, poison := Tab.put false t.poison k row.poison, cls := some cls, mx := mx }
  if k % 32 ≠ 0 then t else
    match scales with
    | some s => { t with
        scales := (List.range 64).foldl (fun (l : Tab Nat) j => Tab.put 127 l (k / 32 * 64 + j) (lane 8 s.val j)) t.scales
        poison := if s.poison then Tab.put false t.poison k true else t.poison }
    | none => { t with scales := (List.range 64).foldl (fun (l : Tab Nat) j => Tab.erase l (k / 32 * 64 + j)) t.scales }

/-- Class and latency of an MLDB. -/
def Mldb.cls (b : Mldb) : Nat := (fmtClass b.fmt).getD 1
def Mldb.lat (b : Mldb) : Nat := classLatency b.cls

/-- Tile rows whose line is due, and tile rows that are written at the end of, issue cycle `t` (R136, R165). -/
def Mldb.due (b : Mldb) (t : Nat) : List Nat :=
  (List.range (classDepth b.cls)).filter fun k => b.at_ + k * b.lat / classDepth b.cls == t
def Mldb.lands (b : Mldb) (t : Nat) : List Nat :=
  (List.range (classDepth b.cls)).filter fun k => b.at_ + ceilDiv ((k + 1) * b.lat) (classDepth b.cls) == t + 1

/-! ## One issue cycle of the array -/

/-- Output size of an MOUT format in bytes, and its interval (R135, R157). -/
def moutBytes (f : Nat) : Nat := if f = 1 then 8 else if f = 0 ∨ f = 4 then 4 else if f = 2 ∨ f = 3 then 2 else 1
def moutStep (f : Nat) : Nat := if f = 1 then 2 else 1

/-- An output row of an MOUT: copied, or converted to nearest even (R122, R177). -/
def moutRow (f acc : Nat) : Nat :=
  if f = 0 ∨ f = 1 ∨ f = 4 then acc else ofLanes (8 * moutBytes f) ((List.range 64).map fun j => convert (.fl fp32) (codeFmt f) .rne (lane 32 acc j))

/-- The reads that become due in issue cycle `t`: A rows and tile rows, for each enabled core (R164, R165). -/
def Cluster.newFeeds (c : Cluster) (t : Nat) : List Feed :=
  let ps := c.passes.flatMap fun p =>
    if p.at_ ≤ t ∧ (t - p.at_) % p.r = 0 ∧ (t - p.at_) / p.r < p.count then
      let i := (t - p.at_) / p.r
      let n := classRow ((fmtClass p.fmtA).getD 1)
      let nb := classDepth ((fmtClass p.fmtA).getD 1) / 32
      c.phys.map fun k => (⟨k, false, p.at_, i, p.addr + i * n, n, t, if p.mx then spadBanks (p.addr + p.count * 64 + i * nb) nb else []⟩ : Feed)
    else []
  let ls := c.mldbs.flatMap fun b => (b.due t).flatMap fun r =>
    let n := classTileRow b.cls
    c.phys.map fun k => (⟨k, true, b.at_, r, b.addr + r * n, n, t, if b.mx ∧ r % 32 = 0 then spadBanks (b.addr + 4096 + 2 * r) 64 else []⟩ : Feed)
  ls ++ ps

/-- A tile row read for core `k`, from the scratchpads of the MLDB's issue and of now. -/
def Mldb.readRow (b : Mldb) (c : Cluster) (draw k r : Nat) : FRow :=
  let n := classTileRow b.cls
  let core := c.core k
  let v := readMixed draw (core.withSpad (Tab.get {} b.old k)) core (b.addr + r * n) (n / 8)
  { pass := b.at_, row := r, val := v.1, poison := v.2 || b.bad }

/-- An A row read for core `k` with its scales, 127 where mx is 0 (R159, R161). -/
def Pass.readRow (p : Pass) (c : Cluster) (draw k i : Nat) : FRow :=
  let cls := (fmtClass p.fmtA).getD 1
  let n := classRow cls
  let core := c.core k
  let old := core.withSpad (Tab.get {} p.old k)
  let v := readMixed draw old core (p.addr + i * n) (n / 8)
  let nb := classDepth cls / 32
  let sa := p.addr + p.count * 64 + i * nb
  let w := readMixed (draw + 64) old core (sa / 8 * 8) 1
  { pass := p.at_, row := i, val := v.1, scales := if p.mx then w.1 / 2 ^ (8 * (sa % 8)) % 2 ^ (8 * nb) else 0x7F7F7F7F,
    poison := v.2 || (p.mx && w.2) || p.bad }

/-- The scale lines of an MLDB: group `g` is read in issue cycle at + g (R160). -/
def Mldb.takeScales (b : Mldb) (c : Cluster) (draw t : Nat) : Mldb :=
  let g := t - b.at_
  if b.mx ∧ b.at_ ≤ t ∧ g < classDepth b.cls / 32 then
    { b with scales := b.scales ++ c.phys.map fun k =>
        let v := readMixed (draw + 8 * k) ((c.core k).withSpad (Tab.get {} b.old k)) (c.core k) (b.addr + 4096 + 64 * g) 8
        (k, { pass := b.at_, row := g, val := v.1, poison := v.2 }) }
  else b

/-- The row of a pass whose result forms in issue cycle `t`, and the row that an MOUT reads then (R135, R138, R139). -/
def Pass.rowAt (p : Pass) (t : Nat) : Option Nat :=
  if p.at_ + 126 + p.r ≤ t ∧ (t - p.at_ - 126) % p.r = 0 ∧ (t - p.at_ - 126) / p.r ≤ p.count then some ((t - p.at_ - 126) / p.r - 1) else none
def Mout.rowAt (o : Mout) (t : Nat) : Option Nat :=
  let w := moutStep o.fmt
  if o.clear = false ∧ o.at_ ≤ t ∧ (t - o.at_) % w = 0 ∧ (t - o.at_) / w < o.count then some ((t - o.at_) / w) else none

/-- The accumulator words read in issue cycle `t` in which errors have flipped bits, with their cores. -/
def Cluster.accReads (c : Cluster) (t : Nat) : List (Nat × Nat) :=
  let rows := (c.passes.flatMap fun p => ((p.rowAt t).map fun i => viewRows (p.fmtB == 1) (p.accRow + i)).getD [])
    ++ c.mouts.flatMap fun o => ((o.rowAt t).map fun i => viewRows (o.fmt == 1) (o.accRow + i)).getD []
  c.phys.flatMap fun k => rows.flatMap fun r => ((c.core k).accUpset r).map fun i => (k, i)

/-- The rows of passes whose results form in issue cycle `t`: their values read the accumulator as it stands now and land at
the end of the next cycle (R135, R138). The A row leaves its queue. -/
def Cluster.passResults (c : Cluster) (t draw : Nat) : List Pend × Cluster :=
  c.passes.foldl (fun (acc : List Pend × Cluster) p =>
    match p.rowAt t with
    | none => acc
    | some i =>
      acc.2.phys.foldl (fun (acc : List Pend × Cluster) k =>
        let core := acc.2.core k
        match core.queue.find? (fun f => f.pass == p.at_ && f.row == i) with
        | none => acc
        | some f =>
          let wide := p.fmtB == 1
          let row := p.accRow + i
          let (v, mask, bad) := passRow p (Tab.get {} p.tiles k) f (core.accRow wide row) (draw + 64 * k)
          let mk := fun r h => (⟨t + 1, p.at_, 2, .acc k r, v / 2 ^ (2048 * h) % 2 ^ 2048, mask / 2 ^ (2048 * h) % 2 ^ 2048, b2n bad, 0⟩ : Pend)
          (acc.1 ++ (if wide then [mk (2 * row) 0, mk (2 * row + 1) 1] else [mk row 0]),
           acc.2.modCore k fun x => { x with queue := x.queue.filter fun g => !(g.pass == p.at_ && g.row == i) })) acc) ([], c)

/-- The rows that MOUT reads and MZACC clears in issue cycle `t` (R135, R139, R740). -/
def Cluster.moutResults (c : Cluster) (t : Nat) : List Pend :=
  c.mouts.flatMap fun o =>
    if o.clear then
      ((List.range 16).filter fun i => decide (o.at_ ≤ t) && decide (16 * (t - o.at_) + i < o.count)).flatMap fun i =>
        c.phys.map fun k => (⟨t, o.at_, 2, .acc k (o.accRow + 16 * (t - o.at_) + i), 0, 2 ^ 2048 - 1, 0, 0⟩ : Pend)
    else
      let w := moutStep o.fmt
      match o.rowAt t with
      | none => []
      | some i =>
        let n := 64 * moutBytes o.fmt
        c.phys.flatMap fun k =>
          let (v, bad) := (c.core k).accRow (o.fmt == 1) (o.accRow + i)
          let out := (⟨o.at_ + 8 + (i + 1) * w - 1, o.at_, 2, .spad k (o.addr + i * n) n, moutRow o.fmt v, 2 ^ (8 * n) - 1,
            if bad || o.bad then 2 ^ (n / 8) - 1 else 0, 0⟩ : Pend)
          let zero := fun r => (⟨t, o.at_, 2, .acc k r, 0, 2 ^ 2048 - 1, 0, 0⟩ : Pend)
          out :: (if o.zero then (if o.fmt = 1 then [zero (2 * (o.accRow + i)), zero (2 * (o.accRow + i) + 1)] else [zero (o.accRow + i)]) else [])

/-- Tile row `r` of an MLDB as core `k` has it at the end of issue cycle `t`: as its read brought it, or as the scratchpad holds it now
where that read has not been granted. -/
def Cluster.tileRow (c : Cluster) (b : Mldb) (draw k r : Nat) : FRow :=
  match b.got.find? (fun g => g.1 == k && g.2.row == r) with
  | some g => g.2
  | none => b.readRow c (draw + 64 * k) k r

/-- The scales of the group that tile row `r` begins. -/
def Mldb.scaleRow (b : Mldb) (k r : Nat) : Option FRow := if b.mx then (b.scales.find? fun g => g.1 == k && g.2.row == r / 32).map (·.2) else none

/-- Tile rows written at the end of issue cycle `t`. A read that has not been granted by then still takes its banks, up to 15 issue
cycles later, without any effect on the tile (R165). -/
def Cluster.landTiles (c : Cluster) (t draw : Nat) : Cluster :=
  let c := c.mldbs.foldl (fun (c : Cluster) b =>
    (b.lands t).foldl (fun (c : Cluster) r =>
      c.phys.foldl (fun (c : Cluster) k =>
        c.modCore k fun x => { x with shadow := x.shadow.writeRow b.cls b.mx r (c.tileRow b draw k r) (b.scaleRow k r) }) c) c) c
  { c with mldbs := c.mldbs.filter fun b => decide (t + 1 < b.at_ + b.lat) }

/-- The cores in which a poisoned row or scale line reaches a tile at the end of issue cycle `t` (R192). -/
def Cluster.badTiles (c : Cluster) (t draw : Nat) : List Nat :=
  c.phys.filter fun k => c.mldbs.any fun b => (b.lands t).any fun r => (c.tileRow b draw k r).poison || (b.scaleRow k r).any (·.poison)

/-- A swap: the shadow tile becomes the stationary one, and MLDBs in progress write no more (R151, R153). -/
def Cluster.swapTiles (c : Cluster) : Cluster :=
  { c.phys.foldl (fun (c : Cluster) k => c.modCore k fun x => { x with stat := x.shadow, shadow := x.stat }) c with
    mldbs := [], feeds := c.feeds.filter fun f => !f.tile }

/-! ## Landing (R134, R144) -/

/-- A result written in a core or in the sequencer. Draft words and cache lines are not the cluster's alone. -/
def Cluster.land (c : Cluster) (p : Pend) : Cluster :=
  match p.loc with
  | .g i => { c with g := Tab.put {} c.g i ⟨BitVec.ofNat 64 p.val, p.poison != 0⟩ }
  | .p i => { c with p := Tab.put false c.p i (p.val != 0), pPoison := Tab.put false c.pPoison i (p.poison != 0) }
  | .v k i => c.modCore k fun x => { x with v := Tab.put {} x.v i ⟨BitVec.ofNat 2048 p.val, BitVec.ofNat 32 p.poison⟩ }
  | .m k i => c.modCore k fun x => { x with m := Tab.put {} x.m i ⟨BitVec.ofNat 128 p.val, p.width, p.poison != 0⟩ }
  | .acc k r => c.modCore k fun x =>
    let keep := (2 ^ 2048 - 1) ^^^ p.mask
    let old := x.accOne r
    { x with acc := Tab.put 0 x.acc r ((p.val &&& p.mask) ||| (old.1 &&& keep)), accFlips := x.accFlips.filter fun e => e.1 / 32 != r,
             accPoison := Tab.put false x.accPoison r (p.poison != 0 || (p.mask != 2 ^ 2048 - 1 && old.2)),
             poisonSeen := x.poisonSeen || p.poison != 0 }
  | .spad k a n => c.modCore k fun x => x.putBits a (n / 8) p.val p.mask p.poison
  | .window a n =>
    let w := Tab.get {} c.windows c.ctxSlot
    { c with windows := Tab.put {} c.windows c.ctxSlot (w.write a (leBytes n p.val) (p.poison != 0)) }
  | .mem _ => c
  | .inv _ _ => c

/-- Results in the order in which they land: issue cycle, then slot. -/
def insPend (p : Pend) : List Pend → List Pend
  | [] => [p]
  | q :: r => if p.issue < q.issue ∨ (p.issue = q.issue ∧ p.slot < q.slot) then p :: q :: r else q :: insPend p r

/-- The last issue cycle at whose end something outstanding lands, plus 1 (R104, R135). -/
def Cluster.drained (c : Cluster) : Nat :=
  maxNat ((c.pend.map fun p => p.due + 1) ++ (c.passes.map fun p => p.at_ + 128 + p.count * p.r) ++ (c.mldbs.map fun b => b.at_ + b.lat)
    ++ c.mouts.map fun o => if o.clear then o.at_ + 1 + (o.count - 1) / 16 else o.at_ + 8 + o.count * moutStep o.fmt)

end Sys2Proof.Machine
end

