-- ==== Sys2Proof/Machine/Memory.lean ====
section
/-! DEFINITION. Stack memory as the requesters reach it: words with their error decoding and reports, rows,
frames and their use, and translation of virtual addresses (R231 to R246, R377, R378, R425, R497, R631 to R638). -/
namespace Sys2Proof.Machine

/-! ## Reports of errors (R632, R638, R660) -/

/-- A requester as DRAM_CE and DRAM_UE name it: kind, context, cluster or stack, dispatch sequence. -/
structure Acc where
  who : Nat
  ctx : Nat
  unit : Nat
  seq : Nat
  deriving DecidableEq, Repr

/-- Requester kinds of R660. -/
def whoMast : Nat := 0
def whoMover : Nat := 1
def whoAfu : Nat := 2
def whoSpar : Nat := 3
def whoTurner : Nat := 4
def whoDamger : Nat := 5
def whoFabric : Nat := 6
def whoFirmware : Nat := 7
def whoScraper : Nat := 8
def whoCommit : Nat := 9

/-- The firmware as a requester. -/
def firmwareAcc (ctx : Nat) : Acc := ⟨whoFirmware, ctx, 0, 0⟩

/-- The location word L of R660 for the word at a cell. -/
def locWord (cell : Nat) (spare : Bool) (syn : BitVec 8) : Word :=
  packWord [(60, stackOfCell cell), (56, dieOfCell cell), (50, bankInDie cell), (34, rowOfCell cell), (30, colOfCell cell / 64),
    (27, colOfCell cell / 8 % 8), (26, b2n spare), (18, syn.toNat), (17, 1)]

/-- The word-view address of a cell: the inverse of R232. -/
def wordViewOf (cell : Nat) : Nat :=
  let row := rowOfCell cell
  let bank := bankInDie cell
  let ch := 2 * dieOfCell cell + bank / 32
  let k := (ch + 64 - 8 * (row % 4)) % 32
  stackOfCell cell * 2 ^ 36 + row * 2 ^ 20 + bank % 32 / 2 * 2 ^ 16 + (colOfCell cell / 256 * 64 + bank % 2 * 32 + k) * 2 ^ 8 + colOfCell cell % 256

/-- An entry of the correctable-address table names this location: L but its syndrome. -/
def sameLoc (a b : Word) : Bool := a.toNat / 2 ^ 26 == b.toNat / 2 ^ 26

/-- The table entry that a new location replaces when none is free: the lowest count, oldest among equals (R632). -/
def ceVictim (t : Tab (Option CeLoc)) : Nat :=
  ((t.filterMap fun e => e.2.map fun x => (e.1, x)).foldl (fun (best : Option (Nat × CeLoc)) e => match best with
    | none => some e
    | some b => if e.2.count < b.2.count ∨ (e.2.count = b.2.count ∧ e.2.lastUs < b.2.lastUs) then some e else some b) none).elim 0 (·.1)

/-- A correctable error at a location taken into the table of its stack (R632): the stack and the count at L. -/
def Stack.noteCe (k : Stack) (l : Word) (us : Nat) : Stack × Nat :=
  let k := { k with ceCount := satAdd 32 k.ceCount 1 }
  match k.ces.find? (fun e => e.2.any fun x => sameLoc x.loc l) with
  | some (i, some x) =>
    let n := satAdd 16 x.count 1
    ({ k with ces := Tab.put none k.ces i (some { x with count := n, lastUs := us }) }, n)
  | _ =>
    match findFrom (fun i => Tab.get none k.ces i == none) 32 0 with
    | some i => ({ k with ces := Tab.put none k.ces i (some ⟨l, 1, us⟩) }, 1)
    | none => ({ k with ces := Tab.put none k.ces (ceVictim k.ces) (some ⟨l, 1, us⟩), ceReplaced := satAdd 32 k.ceReplaced 1 }, 1)

/-- Words 3 onward of DRAM_CE and DRAM_UE: requester, dispatch sequence, count at L, word-view address (R660). -/
def accWord (a : Acc) : Word := packWord [(60, a.who % 16), (48, a.ctx % 4096), (40, a.unit % 256)]

/-- What a decoded word of DRAM does to its stack's counts and to the recorder (R631 to R633, R638). -/
def Mach.noteRead (m : Mach) (a : Acc) (cell : Nat) (d : EccRead) : Mach :=
  let s := stackOfCell cell
  let l := locWord cell (m.cellKey cell != cell) d.syn
  match d.kind with
  | .clean => m
  | .poisoned => m.modSt s fun k => { k with poisonReads := satAdd 16 k.poisonReads 1 }
  | .corrected =>
    let (k, n) := (m.st s).noteCe l (m.now / 1000)
    (m.setSt s k).post .dramCe (some a.ctx) (uStack s)
      [l, accWord a, BitVec.ofNat 64 a.seq, BitVec.ofNat 64 n, BitVec.ofNat 64 (wordViewOf cell)]
  | .uncorrectable =>
    (m.modSt s fun k => { k with ueCount := satAdd 16 k.ueCount 1 }).post .dramUe (some a.ctx) (uStack s)
      [l, accWord a, BitVec.ofNat 64 a.seq, 0, BitVec.ofNat 64 (wordViewOf cell)]

/-- On-die memories as SRAM_CE and SRAM_UE name them: 0 instruction memory, 1 sequencer data memory, 2 scratchpad, 3 AFU staging,
4 spar instruction memory, 5 spar data memory, 6 accumulator memory, 7 cluster cache (log entry 70). -/
def sramImem : Nat := 0
def sramWindow : Nat := 1
def sramSpad : Nat := 2
def sramAfu : Nat := 3
def sramSparCode : Nat := 4
def sramSparData : Nat := 5
def sramAcc : Nat := 6
def sramCache : Nat := 7

/-- What a decoded word of an on-die memory makes the recorder hold: unit, structure, word, syndrome (R633, R638, R660). -/
def Mach.noteSram (m : Mach) (u : UnitId) (mem w : Nat) (d : EccRead) : Mach :=
  let snap := [packWord [(8, u.cls), (0, u.idx)], BitVec.ofNat 64 mem, BitVec.ofNat 64 w, d.syn.setWidth 64]
  match d.kind with
  | .clean | .poisoned => m
  | .corrected => m.post .sramCe none u snap
  | .uncorrectable => m.post .sramUe none u snap

/-- The words of a memory that a read decodes, reported where errors have flipped their bits. -/
def Mach.noteRam (m : Mach) (u : UnitId) (mem : Nat) (r : Ram) (words : List Nat) : Mach :=
  words.foldl (fun m w => if Tab.get 0 r.flips w = 0 then m else m.noteSram u mem w (r.decode w)) m

/-- The words that `n` bytes from an address lie in. -/
def byteWords (a n : Nat) : List Nat := (List.range ((a + n + 7) / 8 - a / 8)).map fun i => a / 8 + i

/-! ## Words of DRAM -/

/-- The decode of the word at a cell, wherever its line is stored. -/
def Mach.decodeCell (m : Mach) (cell : Nat) : EccRead := m.mem.decode (m.cellKey cell / 8)

/-- A stack that serves: trained and not excluded (R261, R652). -/
def Mach.stackOk (m : Mach) (s : Nat) : Bool := decide (s < 12) && (m.st s).ok

/-- The cell that an access reaches: none for an address in neither view or in a stack out of service (R234, R652). -/
def Mach.reach (m : Mach) (dpa : Nat) : Option Nat :=
  match cellOf dpa with
  | some c => if m.stackOk (stackOfCell c) then some c else none
  | none => none

/-- A requester's number in the records of R660. -/
def Requester.num : Requester → Nat
  | .mastSlot => 0 | .mover => 1 | .afu => 2 | .spar => 3 | .turner => 4 | .damger => 5 | .fabric => 6 | .firmware => 7
  | .scraper => 8 | .commitLog => 9

/-- An access to an address in neither view fails with an address fault to its requester; firmware's is a firmware fault, which the
recorder holds (R234, R373). -/
def Mach.addressFault (m : Mach) (r : MemReq) : Mach :=
  let m := { m with addrFaults := Tab.put none m.addrFaults (Requester.num r.who) (some r) }
  if r.who = .firmware then m.post .firmwareFault (some r.ctx.val) uModule [r.dpa.setWidth 64] else m

/-- An aligned 64-bit word read (R377), with its reports; an address that reaches no cell delivers poison (R234). -/
def Mach.readWord (m : Mach) (a : Acc) (dpa : Nat) : PWord × Mach :=
  match m.reach (dpa / 8 * 8) with
  | none => (⟨0, true⟩, m)
  | some c => let d := m.decodeCell c; (d.word, m.noteRead a c d)

/-- An aligned 64-bit word written whole, clean or as poison. -/
def Mach.writeWord (m : Mach) (dpa : Nat) (v : PWord) : Mach :=
  match m.reach (dpa / 8 * 8) with
  | none => m
  | some c => { m with mem := m.mem.putWord (m.cellKey c / 8) v }

/-- The aligned words that cover `n` bytes from an address, as their addresses. -/
def coverWords (dpa n : Nat) : List Nat := (List.range ((dpa + n + 7) / 8 - dpa / 8)).map fun i => 8 * (dpa / 8 + i)

/-- Words read one after another. -/
def Mach.readWords (m : Mach) (a : Acc) : List Nat → List PWord × Mach
  | [] => ([], m)
  | d :: r => let (w, m) := m.readWord a d; let (ws, m) := m.readWords a r; (w :: ws, m)

/-- `n` bytes read from an address, and the poison of the words that hold them. -/
def Mach.readBytes (m : Mach) (a : Acc) (dpa n : Nat) : (List Byte × List Bool) × Mach :=
  let (ws, m) := m.readWords a (coverWords dpa n)
  ((slice (ws.flatMap fun w => leBytes 8 w.val.toNat) (dpa % 8) n, ws.map (·.poison)), m)

/-- The pieces of a code section read one after another by firmware. -/
def Mach.readPieces (m : Mach) (l : List (Nat × Nat)) : (List Byte × List Bool) × Mach :=
  l.foldl (fun (acc : (List Byte × List Bool) × Mach) p =>
    let ((b, q), m) := acc.2.readBytes ⟨whoFirmware, 0, 0, 0⟩ p.1 p.2
    ((acc.1.1 ++ b, acc.1.2 ++ q), m)) (([], []), m)

/-- Bytes written from an address: words covered in part keep their other bytes (log entry 14). -/
def Mach.writeBytes (m : Mach) (dpa : Nat) (data : List Byte) (p : Bool) : Mach :=
  (coverWords dpa data.length).foldl (fun m w =>
    match m.reach w with
    | none => m
    | some c =>
      let old := (m.decodeCell c).word
      let ob := leBytes 8 old.val.toNat
      let inside := fun j => decide (dpa ≤ w + j) && decide (w + j < dpa + data.length)
      let nb := (List.range 8).map fun j => if inside j then data.getD (w + j - dpa) 0 else ob.getD j 0
      { m with mem := m.mem.putWord (m.cellKey c / 8) ⟨BitVec.ofNat 64 (leNat nb), p || (!((List.range 8).all inside) && old.poison)⟩ }) m

/-- A request of a requester for a line that no bank has served yet. -/
def Mach.requestOpen (m : Mach) (who : Requester) (unit line : Nat) : Bool :=
  m.memStacks.any fun e =>
    let mine := fun (r : MemReq) => r.who == who && r.unit == unit && r.dpa.toNat / 64 == line
    e.2.waits.any mine || e.2.banks.any fun b => b.2.reqs.any fun q => mine q.r

/-! ## Whole rows -/

/-- The word keys of a row: its 128 words, wherever their lines are stored. -/
def Mach.rowKeys (m : Mach) (c : Nat) : List Nat := (List.range 128).map fun i => m.cellKey (c + 8 * i) / 8

/-- The 8,192 bits of a row as a number, and the poison of its 128 words: what a row step's read latches (R328 to
R331). -/
def Mach.rowValue (m : Mach) (c : Nat) : Nat × Nat :=
  (m.rowKeys c).reverse.foldl (fun acc k =>
    let w := (m.mem.decode k).word
    (acc.1 * 2 ^ 64 + w.val.toNat, acc.2 * 2 + b2n w.poison)) (0, 0)

/-- A row written whole from 8,192 bits, word by word with fresh check bits or as poison. -/
def Mach.putRow (m : Mach) (c : Nat) (v poison : Nat) : Mach :=
  { m with mem := ((m.rowKeys c).foldl (fun (acc : Ram × Nat × Nat) k =>
      (acc.1.putWord k ⟨BitVec.ofNat 64 (acc.2.1 % 2 ^ 64), acc.2.2 % 2 == 1⟩, acc.2.1 / 2 ^ 64, acc.2.2 / 2)) (m.mem, v, poison)).1 }

/-- Rows filled with zeros (R242): nothing stays listed in them. -/
def Mach.zeroRows (m : Mach) (rows : List Nat) : Mach :=
  let keys := rows.flatMap m.rowKeys
  { m with mem := { bytes := m.mem.bytes.filter fun b => !(keys.contains (b.1 / 8)), poison := m.mem.poison.filter fun b => !(keys.contains b.1),
                    flips := m.mem.flips.filter fun b => !(keys.contains b.1) } }

/-- A stored word copied as it is: data, poison and errors (R281, R329). -/
def Ram.copyWord (r : Ram) (src dst : Nat) : Ram :=
  let c := r.putWord dst ⟨r.word src, Tab.get false r.poison src⟩
  { c with flips := Tab.put 0 c.flips dst (Tab.get 0 r.flips src) }

/-- A row copied within its bank, check bits included (CPY, R281). -/
def Mach.copyRow (m : Mach) (src dst : Nat) : Mach :=
  { m with mem := ((m.rowKeys src).zip (m.rowKeys dst)).foldl (fun r k => r.copyWord k.1 k.2) m.mem }

/-- A frame copied row by row in place (R427). -/
def Mach.copyFrame (m : Mach) (src dst : Nat) : Mach :=
  ((frameRows src).zip (frameRows dst)).foldl (fun m r => m.copyRow r.1 r.2) m

/-! ## Frames (R235 to R242, R390, R497 to R499) -/

/-- How a frame is used. -/
def Mach.frame (m : Mach) (f : Nat) : FrameUse := Tab.get .free m.frames f
def Mach.setFrame (m : Mach) (f : Nat) (u : FrameUse) : Mach := { m with frames := Tab.put .free m.frames f u }

/-- True where the block of a frame is assigned to the other view, or holds a frame of that view whose rows are not filled yet
(R236, R242). -/
def Mach.blockTaken (m : Mach) (f : Nat) : Bool :=
  m.frames.any fun e => decide ((e.1 < 2 ^ 24) ≠ (f < 2 ^ 24)) && frameBlock e.1 == frameBlock f

/-- A frame that may be handed out: free, filled, in a stack in service and in a block of its view (R236, R242). -/
def Mach.available (m : Mach) (f : Nat) : Bool := m.frame f == .free && m.stackOk (frameStack f) && !m.blockTaken f

/-- The frames of a stack and colour, and the grain pages of a bank. -/
def framesOfColour (s col : Nat) : List Nat := (List.range 16384).map fun r => s * 2 ^ 20 + r * 64 + col
def pagesOfBank (b : Nat) : List Nat := (List.range 1024).map fun t => 2 ^ 24 + b * 1024 + t

/-- A free frame of a list, at a free choice (R240, R244). -/
def Mach.takeOf (m : Mach) (l : List Nat) (use : FrameUse) : Option (Nat × Mach) :=
  match m.pick (l.filter m.available) with
  | (some f, m) => some (f, m.setFrame f use)
  | (none, _) => none

/-- The frames that qualify as a draft of a frame: same stack and colour, or same bank (R240). -/
def draftPool (f : Nat) : List Nat := if f < 2 ^ 24 then framesOfColour (frameStack f) (frameColour f) else pagesOfBank (pageBank f)

/-- Every cluster-cache line of a frame is invalidated (R390). -/
def Mach.dropLines (m : Mach) (f : Nat) : Mach :=
  { m with clusters := m.clusters.map fun e => (e.1, { e.2 with cache := e.2.cache.filter fun l => decide (frameOf l.2.1 ≠ f) }) }


/-! ## Lines held by the companion (R566, R567) -/

/-- A line of the directory as its address. -/
def lineDpa (l : Nat) : Nat := l * 64

/-- The lines that the companion holds of frames, and of words. -/
def Mach.heldLines (m : Mach) (frames words : List Nat) : List Nat :=
  m.dmg.dir.filter fun l => frames.contains (frameOf (lineDpa l)) || words.any fun w => w / 64 == l

/-- Lines that must be given up first are recalled (R567): none held, or the machine with the recalls under way. -/
def Mach.recallFirst (m : Mach) (frames words : List Nat) : Option Mach :=
  match m.heldLines frames words with
  | [] => none
  | l => some { m with dmg := { m.dmg with recalls := l.foldl addNew m.dmg.recalls } }

/-- A frame released: its lines leave the caches, those that the companion holds are recalled, and it is blank until its fill
ends (R242, R390, R567). A frame lost to an uncorrectable reference count stays out of every free list (R643). -/
def Mach.release (m : Mach) (f : Nat) : Mach :=
  if m.frame f = .lost then m else
    let m := (m.dropLines f).setFrame f (if m.lostRefs.contains f then .lost else .blank)
    (m.recallFirst [f] []).getD m

/-! ## Translation (R378, R489 to R492) -/

/-- The frame of page `i` of an allocation: none where its entry cannot be read (R643). -/
def Alloc.page (a : Alloc) (i : Nat) : Option Nat := if a.lostPages.contains i then none else a.pages[i]?

/-- A page as translation finds it: the allocation (or the KV region, numbered from 2^40) and its page, the frame, and
whether the mapping may be written. -/
structure PageRef where
  key : Nat
  page : Nat
  frame : Nat
  writable : Bool
  deriving DecidableEq, Repr

/-- First address of the Hyval rings in every context (R576). -/
def ringBase : Nat := 0xFFFFF0000 * 2 ^ 16

/-- An allocation of a context that lives. -/
def Ctx.alloc (c : Ctx) (h : Nat) : Option Alloc := Tab.get none c.allocs h

/-- The page of a mapping that holds an address. -/
def Ctx.mapped (c : Ctx) (va : Nat) : Option PageRef :=
  match c.maps.find? (fun r => decide (r.va ≤ va) && decide (va < r.va + r.pages * 65536)) with
  | some r =>
    let i := r.page + (va - r.va) / 65536
    match c.alloc r.alloc with
    | some a => (a.page i).map fun f => ⟨r.alloc, i, f, r.writable⟩
    | none => none
  | none => none

/-- Element size in bytes of a KV format: FP32 4, BF16 and FP16 2, FP8 1 (R487). -/
def kvElem (fmt : Nat) : Nat := if fmt = 0 then 4 else if fmt = 2 ∨ fmt = 3 then 2 else 1

/-- Positions per page, pages per plane, pages and bytes of a region (R487). -/
def Deployment.posPerPage (d : Deployment) : Nat := 65536 / (d.headDim * kvElem d.fmt)
def Deployment.planePages (d : Deployment) : Nat := ceilDiv d.maxSeq d.posPerPage
def Deployment.regionPages (d : Deployment) : Nat := d.layers * 2 * d.heads * d.planePages
def Deployment.regionBytes (d : Deployment) : Nat := d.regionPages * 65536

/-- An entry of the table in force of a region: none of it where the entry cannot be read (R643). -/
def SReq.kvEntry (r : SReq) (page : Nat) : Nat × Nat := if r.lostKv.contains page then (0, 0) else Tab.get (0, 0) r.kv page

/-- The number of a KV region as a page key. -/
def regionKey (dep slot : Nat) : Nat := 2 ^ 40 + dep * 65536 + slot

/-- The page of a KV region that holds an address of a context: as the generation in force maps it (R489, R492). -/
def Mach.regionPage (m : Mach) (ctx va : Nat) : Option PageRef :=
  match m.deps.find? (fun e => e.2.any fun d => d.ctx == ctx && decide (d.arena ≤ va) && decide (va < d.arena + d.maxReq * d.regionBytes)) with
  | some (id, some d) =>
    let off := va - d.arena
    let slot := off / d.regionBytes
    let page := off % d.regionBytes / 65536
    match Tab.get none d.reqs slot with
    | some r =>
      let e := r.kvEntry page
      if e.1 = 1 ∨ e.1 = 2 then some ⟨regionKey id slot, page, e.2, true⟩ else none
    | none => none
  | _ => none

/-- The page that holds a virtual address of a context, in its published tables. -/
def Mach.pageOf (m : Mach) (ctx va : Nat) : Option PageRef :=
  match (m.cx ctx).mapped va with
  | some p => some p
  | none => m.regionPage ctx va

/-- The device physical address of a virtual address of a context, as its published tables give it. -/
def Mach.xlate (m : Mach) (ctx va : Nat) : Option Nat := (m.pageOf ctx va).map fun p => frameDpa p.frame + va % 65536

/-- The draft that a command holds for a page. -/
def Cmd.draftOf (c : Cmd) (p : PageRef) : Option Draft := c.drafts.find? fun d => d.alloc == p.key && d.page == p.page

/-- The frame that a command's slots read a page from: its own draft of the page, the draft of an earlier command
of its queue that it reads under the overlap bit, or the published frame (R383, R385). -/
def Mach.readFrame (m : Mach) (c : Cmd) (p : PageRef) : Nat :=
  match c.draftOf p with
  | some d => d.new
  | none =>
    match m.cmds.find? (fun w => w.ctx == c.ctx && w.q == c.q && decide (w.pos < c.pos) && (w.draftOf p).any (fun d => d.readBy.contains c.seq)) with
    | some w => ((w.draftOf p).map (·.new)).getD p.frame
    | none => p.frame

/-- The address that a command's read of a virtual address reaches. -/
def Mach.xlateRead (m : Mach) (c : Cmd) (va : Nat) : Option Nat :=
  (m.pageOf c.ctx va).map fun p => frameDpa (m.readFrame c p) + va % 65536

/-- The address in the command's own draft that a write of a virtual address reaches. -/
def Mach.xlateWrite (m : Mach) (c : Cmd) (va : Nat) : Option Nat :=
  match m.pageOf c.ctx va with
  | some p => (c.draftOf p).map fun d => frameDpa d.new + va % 65536
  | none => none

/-! ## Meters (R676, R677) -/

/-- Two maps of counts added entry by entry. -/
def addTab (a b : Tab Nat) : Tab Nat := b.foldl (fun t e => Tab.upd 0 t e.1 (· + e.2)) a

/-- Meters added. -/
def Meters.add (a b : Meters) : Meters :=
  { occupancy := a.occupancy + b.occupancy, macs := addTab a.macs b.macs, spar := a.spar + b.spar, bytes := addTab a.bytes b.bytes,
    frameMs := a.frameMs + b.frameMs, energy := a.energy + b.energy, tokens := a.tokens + b.tokens, late := a.late + b.late }

/-- The groups of meters that a suspension names (record byte `suspended`): a suspended group keeps its last values
(R643, R684). -/
def Meters.masked (a : Meters) (susp : BitVec 7) : Meters :=
  { occupancy := if susp.getLsbD 0 then 0 else a.occupancy, macs := if susp.getLsbD 1 then [] else a.macs,
    spar := if susp.getLsbD 2 then 0 else a.spar, bytes := if susp.getLsbD 3 then [] else a.bytes,
    frameMs := if susp.getLsbD 4 then 0 else a.frameMs, energy := if susp.getLsbD 5 then 0 else a.energy,
    tokens := if susp.getLsbD 6 then 0 else a.tokens, late := if susp.getLsbD 6 then 0 else a.late }

/-- What a record leaves of an account: suspended groups keep their last values, the others start again (R684). -/
def Meters.kept (a : Meters) (susp : BitVec 7) : Meters := a.masked (~~~susp)

/-- Quantities charged to a context, or to the device-overhead account. -/
def Mach.chargeCtx (m : Mach) (ctx : Nat) (x : Meters) : Mach :=
  m.modCx ctx fun c => { c with meters := c.meters.add (x.masked c.suspended) }
def Mach.chargeOverhead (m : Mach) (x : Meters) : Mach :=
  { m with ctr := { m.ctr with overhead := m.ctr.overhead.add (x.masked m.ctr.suspended) } }

/-- Bytes on one path of R676. -/
def pathBytes (path n : Nat) : Meters := { bytes := Tab.put 0 [] path n }

/-! ## Accesses at virtual addresses -/

/-- `n` bytes at a virtual address, page by page, read with an address function; none where any byte does not
translate; with them whether any word is poison. -/
def Mach.readVa (m : Mach) (a : Acc) (tr : Nat → Option Nat) (va n : Nat) : Option (List Byte × Bool) × Mach :=
  let cuts := (List.range ((va + n + 65535) / 65536 - va / 65536)).map fun i =>
    let lo := max va ((va / 65536 + i) * 65536)
    (lo, min (va + n) ((va / 65536 + i + 1) * 65536) - lo)
  cuts.foldl (fun (acc : Option (List Byte × Bool) × Mach) c =>
    match acc.1, tr c.1 with
    | some (b, p), some d => let ((x, q), m) := acc.2.readBytes a d c.2; (some (b ++ x, p || q.any id), m)
    | _, _ => (none, acc.2)) (some ([], false), m)

/-- A grain page is owned by a spar command (R317, R318). -/
def Mach.ownedAt (m : Mach) (dpa : Nat) : Bool := Tab.get [] m.owned (frameOf dpa) != []

/-- An access of firmware to `n` bytes of a context: it is held where a page of them is owned (R318). -/
def Mach.firmwareHeld (m : Mach) (ctx va n : Nat) : Mach :=
  { m with fwHeld := m.fwHeld || ((List.range ((va + n + 65535) / 65536 - va / 65536)).any fun i => (m.xlate ctx ((va / 65536 + i) * 65536)).any m.ownedAt) }

/-- Bytes that firmware reads in a context's published tables; they are metered to the overhead account (R677). -/
def Mach.fetchVa (m : Mach) (ctx va n : Nat) : Option (List Byte × Bool) × Mach :=
  let (r, m) := (m.firmwareHeld ctx va n).readVa (firmwareAcc ctx) (m.xlate ctx) va n
  (r, if r.isSome then m.chargeOverhead (pathBytes 0 n) else m)

/-- A flag read by firmware, metered to the overhead account. -/
def Mach.firmwareFlag (m : Mach) (ctx a : Nat) : PWord × Mach :=
  let (f, m) := m.readWord (firmwareAcc ctx) a
  (f, m.chargeOverhead (pathBytes 0 8))

/-- Bytes written at a virtual address through an address function; bytes that do not translate are not written. -/
def Mach.writeVa (m : Mach) (tr : Nat → Option Nat) (va : Nat) (data : List Byte) (p : Bool) : Mach :=
  ((List.range ((va + data.length + 65535) / 65536 - va / 65536)).map fun i =>
    let lo := max va ((va / 65536 + i) * 65536)
    (lo, min (va + data.length) ((va / 65536 + i + 1) * 65536) - lo)).foldl (fun m c =>
      match tr c.1 with
      | some d => m.writeBytes d ((data.drop (c.1 - va)).take c.2) p
      | none => m) m

/-- A firmware fault: an access of firmware at an address that its context's mapping does not hold (R373). -/
def Mach.firmwareFault (m : Mach) (ctx addr : Nat) : Mach := m.post .firmwareFault (some ctx) uModule [BitVec.ofNat 64 addr]

/-- Firmware's write in place at a virtual address of a context, metered to the overhead account (R677); bytes that do not translate are a
firmware fault (R373, R375). -/
def Mach.storeVa (m : Mach) (ctx va : Nat) (data : List Byte) : Mach :=
  let m := ((m.firmwareHeld ctx va data.length).writeVa (m.xlate ctx) va data false).chargeOverhead (pathBytes 1 data.length)
  match ((List.range ((va + data.length + 65535) / 65536 - va / 65536)).map fun i => max va ((va / 65536 + i) * 65536)).find? fun a => (m.xlate ctx a).isNone with
  | some a => m.firmwareFault ctx a
  | none => m

/-- Firmware reads or writes at an address that it gives itself: one that reaches no cell is a firmware fault (R373). -/
def Mach.firmwareAccess (m : Mach) (ctx dpa : Nat) : Mach := if (m.reach dpa).isNone then m.firmwareFault ctx dpa else m

/-- A flag: the aligned word of a word-view page that a context maps (R395). -/
def Mach.flagAddr (m : Mach) (ctx va : Nat) : Option Nat :=
  if va % 8 ≠ 0 then none else
    match m.pageOf ctx va with
    | some p => if p.frame < 2 ^ 24 then some (frameDpa p.frame + va % 65536) else none
    | none => none

/-- The comparisons of R80: 0 always, 1 EQ, 2 NE, 3 LT, 4 GE, 5 ANY; none for any other. -/
def flagCompare (op : Nat) (f v : Word) : Option Bool :=
  if op = 0 then some true else if op = 1 then some (f == v) else if op = 2 then some (f != v)
  else if op = 3 then some (decide (f.toNat < v.toNat)) else if op = 4 then some (decide (v.toNat ≤ f.toNat))
  else if op = 5 then some (f &&& v != 0) else none

end Sys2Proof.Machine
end

