-- ==== Sys2Proof/Machine/Inlay.lean ====
section
/-! DEFINITION. Inlay entries: their checks, arming and disarming (R644 to R649). -/
namespace Sys2Proof.Machine

/-- The arguments of INLAY_ARM. -/
structure InlayArgs where
  spad : Bool
  entry : Nat
  stack : Nat
  die : Nat
  bank : Nat
  line : Nat
  row : Nat
  core : Nat
  spadLine : Nat
  deriving DecidableEq, Repr

/-- The arguments read, and their ranges; a field of the other target is not looked at. -/
def inlayArgs (b : List Byte) : InlayArgs :=
  ⟨fld b 0 1 == 1, fld b 2 1, fld b 3 1, fld b 4 1, fld b 5 1, fld b 6 1, fld b 8 4, fld b 0x0C 2, fld b 0x10 4⟩
def inlayOk (b : List Byte) : Bool :=
  let x := inlayArgs b
  decide (fld b 0 1 ≤ 1) && decide (fld b 1 1 ≤ 1) && zeros b 7 1 && zeros b 0x0E 2 && zeros b 0x14 28
    && (if x.spad then decide (x.entry < 4) && decide (x.core < 256) && decide (x.spadLine < 32768)
        else decide (x.entry < 8) && decide (x.stack < 12) && decide (x.die < 16) && decide (x.bank < 64) && decide (x.line < 16) && decide (x.row < 65536))

/-- The core of a scratchpad target, and whether it is in service. -/
def Mach.inlayCore (m : Mach) (x : InlayArgs) : Core := (m.cl (x.core / 8)).core (x.core % 8)
def Mach.coreServes (m : Mach) (g : Nat) : Bool := (m.cl (g / 8)).enabled && (m.cl (g / 8)).coreMask.getLsbD (g % 8)

/-- The spare lines that an arm may take: usable, and held by no armed entry of the bank or scratchpad. -/
def Mach.inlaySpares (m : Mach) (x : InlayArgs) : List Nat :=
  if x.spad then
    let k := m.inlayCore x
    (List.range 4).filter fun i => !Tab.get false k.spareBad i && !k.inlay.any fun e => e.2.any fun y => y.2 == i
  else
    let k := m.st x.stack
    (List.range 16).filter fun i => !Tab.get false k.spareBad ((x.die * 64 + x.bank) * 16 + i)
      && !k.inlay.any fun e => e.2.any fun y => y.die == x.die && y.bank == x.bank && y.spare == i

/-- What refuses an arm (R649). -/
def Mach.armRefusal (m : Mach) (x : InlayArgs) : Option Status :=
  let serves := if x.spad then m.coreServes x.core else m.stackOk x.stack
  let armed := if x.spad then (Tab.get none (m.inlayCore x).inlay x.entry).isSome else (Tab.get none (m.st x.stack).inlay x.entry).isSome
  let dup := if x.spad then (m.inlayCore x).inlay.any fun e => e.2.any fun y => y.1 == x.spadLine
    else (m.st x.stack).inlay.any fun e => e.2.any fun y => y.die == x.die && y.bank == x.bank && y.row == x.row && y.line == x.line
  if !serves then some .inlayUnitExcluded else if armed then some .inlayInUse else if dup then some .inlayDuplicate
  else if (m.inlaySpares x).isEmpty then some .inlayNoSpare else none

/-- The cell of the first byte of a stack line, the pages of both views that hold it, and whether a spar command owns the grain
page (R318). -/
def InlayArgs.cell (x : InlayArgs) : Nat := cellAt x.stack x.die x.bank x.row (64 * x.line)
def Mach.lineOwned (m : Mach) (x : InlayArgs) : Bool := m.ownedAt (grainBase + x.cell)

/-- Eight words copied from one place of a memory to another: single-bit errors corrected, poison and uncorrectable words stored as
poison (R648). -/
def copyLine (r : Ram) (src dst : Nat) : Ram := (List.range 8).foldl (fun (r : Ram) i => r.putWord (dst + i) (r.decode (src + i)).word) r

/-- INLAY_CHANGED (R660): entry, L, spare line, action. -/
def Mach.inlayEvent (m : Mach) (x : InlayArgs) (spare action : Nat) : Mach :=
  m.post .inlayChanged none (if x.spad then uCore x.core else uStack x.stack)
    [BitVec.ofNat 64 x.entry, if x.spad then 0 else locWord x.cell false 0, BitVec.ofNat 64 spare, BitVec.ofNat 64 action]

/-- A stack line copied to its spare line and the entry enabled, in one bank slot; a scratchpad line likewise. The reads of the copy
report nothing (R648 and the worked example of R660). -/
def Mach.armNow (m : Mach) (x : InlayArgs) : Status × Nat × Mach :=
  match m.armRefusal x with
  | some st => (st, 0, m)
  | none =>
    match m.pick (m.inlaySpares x) with
    | (none, m) => (.inlayNoSpare, 0, m)
    | (some i, m) =>
      let m := if x.spad then
          m.modCl (x.core / 8) fun c => c.modCore (x.core % 8) fun k =>
            { k with spad := copyLine k.spad (8 * x.spadLine) (spadBytes / 8 + 8 * i), inlay := Tab.put none k.inlay x.entry (some (x.spadLine, i)) }
        else
          ({ m with mem := copyLine m.mem (x.cell / 8) (spareKey x.stack x.die x.bank i 0 / 8) }).modSt x.stack fun k =>
            { k with inlay := Tab.put none k.inlay x.entry (some ⟨x.die, x.bank, x.row, x.line, i⟩) }
      (.ok, i, m.inlayEvent x i 0)

/-- The line that the entry of a request remaps, as its cell, and what refuses a disarm (R649). -/
def Mach.inlayCell (m : Mach) (x : InlayArgs) : Nat :=
  match Tab.get none (m.st x.stack).inlay x.entry with
  | some e => cellAt x.stack e.die e.bank e.row (64 * e.line)
  | none => x.cell
def Mach.disarmRefusal (m : Mach) (x : InlayArgs) : Option Status :=
  if !(if x.spad then m.coreServes x.core else m.stackOk x.stack) then some .inlayUnitExcluded
  else if (if x.spad then (Tab.get none (m.inlayCore x).inlay x.entry).isNone else (Tab.get none (m.st x.stack).inlay x.entry).isNone) then some .inlayNotArmed
  else none

/-- The spare line copied back to the original line, in the same manner, and the entry free (R648). -/
def Mach.disarmNow (m : Mach) (x : InlayArgs) : Status × Nat × Mach :=
  match m.disarmRefusal x with
  | some st => (st, 0, m)
  | none =>
    if x.spad then
      match Tab.get none (m.inlayCore x).inlay x.entry with
      | none => (.inlayNotArmed, 0, m)
      | some (l, i) =>
        let m := m.modCl (x.core / 8) fun c => c.modCore (x.core % 8) fun k =>
          { k with spad := copyLine k.spad (spadBytes / 8 + 8 * i) (8 * l), inlay := Tab.put none k.inlay x.entry none }
        (.ok, i, m.inlayEvent x i 1)
    else
      match Tab.get none (m.st x.stack).inlay x.entry with
      | none => (.inlayNotArmed, 0, m)
      | some e =>
        let m := { m with mem := copyLine m.mem (spareKey x.stack e.die e.bank e.spare 0 / 8) (m.inlayCell x / 8) }
        let m := m.modSt x.stack fun k => { k with inlay := Tab.put none k.inlay x.entry none }
        (.ok, e.spare, m.inlayEvent { x with die := e.die, bank := e.bank, row := e.row, line := e.line } e.spare 1)

/-- A request must wait: a spar command owns the grain page of its line (R318), or the cluster of its scratchpad runs a command
(R648). -/
def Mach.armWaits (m : Mach) (x : InlayArgs) : Bool := if x.spad then (m.cl (x.core / 8)).cmd.isSome else m.lineOwned x
def Mach.disarmWaits (m : Mach) (x : InlayArgs) : Bool := if x.spad then (m.cl (x.core / 8)).cmd.isSome else m.ownedAt (grainBase + m.inlayCell x)

/-- A request by its arguments: whether it is a disarm, whether it must wait, and what it does. -/
def isDisarm (b : List Byte) : Bool := fld b 1 1 == 1
def Mach.inlayWaits (m : Mach) (b : List Byte) : Bool := if isDisarm b then m.disarmWaits (inlayArgs b) else m.armWaits (inlayArgs b)
def Mach.inlayNow (m : Mach) (b : List Byte) : Status × Nat × Mach := if isDisarm b then m.disarmNow (inlayArgs b) else m.armNow (inlayArgs b)

/-- A waiting request is carried out and its outcome posted. -/
def Mach.inlayDone (m : Mach) (a : Admin) : Mach :=
  let (st, i, m) := m.inlayNow a.args
  ({ m with inlayWait := m.inlayWait.erase a } : Mach).postOutcome a.tag 0x11 st (BitVec.ofNat 64 i)

/-- At a command boundary of a cluster, what waits on its scratchpads is carried out (R65, R648). -/
def Mach.inlayBoundary (m : Mach) (c : Nat) : Mach :=
  (m.inlayWait.filter fun a => (inlayArgs a.args).spad && (inlayArgs a.args).core / 8 == c).foldl Mach.inlayDone m

end Sys2Proof.Machine
end

