-- ==== Sys2Proof/Machine/Commands.lean ====
section
/-! DEFINITION. Commands between their ring and their commit: completion entries, meters, stops of queues, failures
and kills (R379 to R386, R429 to R441, R577 to R582, R676, R677). -/
namespace Sys2Proof.Machine

/-! ## Completion rings (R576 to R581) -/

/-- Offsets of the rings of a queue from their base. -/
def sqOffset (q i : Nat) : Nat := q * 0x100000 + i % 4096 * 64
def cqOffset (q i : Nat) : Nat := q * 0x100000 + 0x80000 + i % 4096 * 32

/-- Bytes of a ring area written. -/
def putTab (t : Tab Byte) (o : Nat) : List Byte → Tab Byte
  | [] => t
  | b :: r => putTab (Tab.put 0 t o b) (o + 1) r

/-- A queue of a context, and a queue changed. -/
def Ctx.q (c : Ctx) (q : Nat) : Queue := Tab.get {} c.qs q
def Ctx.modQ (c : Ctx) (q : Nat) (f : Queue → Queue) : Ctx := { c with qs := Tab.upd {} c.qs q f }

/-- What a completion entry says beside its tag and opcode (R580). -/
structure Outcome1 where
  st : Status
  result : Nat := 0
  detail : Nat := 0
  unproven : Bool := false
  deriving DecidableEq, Repr

/-- The bytes of a completion entry (R580). -/
def cqBytes (now : Nat) (tag : Word) (op : Nat) (phase : Bool) (o : Outcome1) : List Byte :=
  leBytes 8 tag.toNat ++ leBytes 8 o.result ++ leBytes 8 now ++ leBytes 2 o.st.code ++ leBytes 1 op
    ++ leBytes 1 (b2n phase + 2 * b2n o.unproven) ++ leBytes 4 o.detail

/-- An entry of a queue completes: its completion is posted, unless it ends with OK or COMMITTED and its flags suppress
that (R579, R580, R584). -/
def Ctx.complete (c : Ctx) (now q : Nat) (tag : Word) (op flags : Nat) (o : Outcome1) : Ctx :=
  let k := c.q q
  if o.st = .ok ∧ bitAt flags 0 = true then c.modQ q fun k => { k with unposted := k.unposted - 1 }
  else
    let phase := k.cqTail / 4096 % 2 == 0
    { c.modQ q (fun k => { k with cqTail := (k.cqTail + 1) % 2 ^ 32, unposted := k.unposted - 1 }) with
      rings := putTab c.rings (cqOffset q k.cqTail) (cqBytes now tag op phase o) }

def Mach.complete (m : Mach) (ctx q : Nat) (tag : Word) (op flags : Nat) (o : Outcome1) : Mach :=
  m.modCx ctx fun c => c.complete m.now q tag op flags o

/-! ## Finding and changing commands -/

/-- The same command: context, queue and position. -/
def sameCmd (a b : Cmd) : Bool := a.ctx == b.ctx && a.q == b.q && a.pos == b.pos

/-- The dispatched command of a sequence number. -/
def Mach.cmdOf (m : Mach) (seq : Nat) : Option Cmd := if seq = 0 then none else m.cmds.find? fun c => c.seq == seq

/-- A command changed. -/
def Mach.modCmd (m : Mach) (c : Cmd) (f : Cmd → Cmd) : Mach := { m with cmds := m.cmds.map fun x => if sameCmd x c then f x else x }

/-- A command of a sequence number changed. -/
def Mach.modSeq (m : Mach) (seq : Nat) (f : Cmd → Cmd) : Mach := match m.cmdOf seq with | some c => m.modCmd c f | none => m

/-- A command taken out. -/
def Mach.dropCmd (m : Mach) (c : Cmd) : Mach := { m with cmds := dropWhere (sameCmd c) m.cmds }

/-- The commands of a queue in queue order, and those before a command. -/
def Mach.queueCmds (m : Mach) (ctx q : Nat) : List Cmd := m.cmds.filter fun c => c.ctx == ctx && c.q == q
def Mach.earlier (m : Mach) (c : Cmd) : List Cmd := (m.queueCmds c.ctx c.q).filter fun x => decide (x.pos < c.pos)

/-- A command that has been dispatched and has not committed. -/
def Cmd.inFlight (c : Cmd) : Bool := c.phase == .copying || c.phase == .running || c.phase == .ended || c.phase == .killing

/-- The clusters that a command occupies. -/
def Cmd.clusters (c : Cmd) : List Nat := c.placed.map (·.1)

/-- The spar cores of a command as (stack, core), in the order of their module numbers (R18, R310). -/
def Img.coreSet (i : Img) : List (Nat × Nat) :=
  (setBits 12 i.stackMask).flatMap fun s => (setBits 16 i.dieMask).flatMap fun d =>
    ((List.range 32).filter fun j => decide (i.coreFirst ≤ j) && decide (j ≤ i.coreLast)).map fun j => (s, 32 * d + j)

/-- The unit numbers of waits: a cluster, or stack × 512 + core, from 2^16 on where the command is a serve step. -/
def sparUnit (x : Cmd) (unit : Nat) : Option (Nat × Nat) :=
  if x.kind = .spar then some (unit / 512, unit % 512)
  else if x.kind = .serve ∧ 2 ^ 16 ≤ unit then some ((unit - 2 ^ 16) / 512, unit % 512) else none

/-- The wait budget of a command in µs on a unit: of the image that runs there, or its context's default (R442). -/
def Mach.budgetOf (m : Mach) (c : Cmd) (unit : Nat) : Nat :=
  let own := if c.kind ≠ .serve then c.budgetUs else
    match sparUnit c unit with
    | some sc => ((c.spars.find? fun r => r.img.coreSet.contains sc).map (·.img.budgetUs)).getD 0
    | none => ((c.placed.find? fun p => p.1 == unit).map (·.2.2.budgetUs)).getD 0
  if own = 0 then (m.cx c.ctx).budgetUs else own

/-- The detail word of a failed command: source, code and unit (R580). -/
def detailWord (src code unit : Nat) : Nat := src * 2 ^ 24 + code % 256 * 2 ^ 16 + unit % 65536
def srcMast : Nat := 1
def srcSpar : Nat := 2
def srcMover : Nat := 3
def srcFabric : Nat := 4

/-! ## Kills (R434 to R440) -/

/-- A cause whose kill is held while the command is anchored (R440). -/
def Cause.holdable : Cause → Bool
  | .preempt | .evict | .disable => true
  | _ => false

/-- A cause after which the module runs the command again (R437). -/
def Cause.rerun : Cause → Bool
  | .preempt | .evict | .writerKilled => true
  | _ => false

/-- The cause that a kill of a writer gives to a reader of its drafts: none that an anchored reader could hold (R386, R437). -/
def Cause.ofWriter : Cause → Cause
  | .preempt | .evict | .writerKilled => .writerKilled
  | .disable => .fail .killed 0
  | _ => .stop

/-- An anchored command from its first bundle on (R77). -/
def Mach.anchoredNow (_ : Mach) (c : Cmd) : Bool :=
  c.anchored && (c.phase == .ended || c.kind != .mast || c.begun)

/-- One command is to be killed for a cause: held where it is anchored and the cause is holdable, else its units stop
and it is killing (R435, R440). -/
def Mach.killOne (m : Mach) (c : Cmd) (why : Cause) : Mach :=
  if c.phase = .copying ∨ c.phase = .running ∨ c.phase = .ended then
    if why.holdable && m.anchoredNow c then
      m.modCmd c fun x => if x.held.any fun h => h.1 == why then x else { x with held := x.held ++ [(why, m.now, false)] }
    else
      let m := m.modCmd c fun x => { x with phase := .killing, cause := some why }
      c.clusters.foldl (fun m k => m.modCl k fun x => if x.cmd == some c.seq then { x with runState := 4 } else x) m
  else if c.phase = .killing ∧ why.rerun = false ∧ (c.cause.map Cause.rerun).getD false = true then m.modCmd c fun x => { x with cause := some why }
  else m

/-- The commands that have read a command's drafts. -/
def Mach.readersOf (m : Mach) (c : Cmd) : List Cmd := m.cmds.filter fun r => c.drafts.any fun d => d.readBy.contains r.seq && r.seq != 0

/-- A kill with the kills of the readers of the drafts, and of theirs in turn; readers lie later in the same queue, so `fuel` need
not exceed the number of commands (R386). -/
def Mach.kill : Nat → Mach → Cmd → Cause → Mach
  | 0, m, c, why => m.killOne c why
  | fuel + 1, m, c, why =>
    let held := why.holdable && m.anchoredNow c
    let m := m.killOne c why
    if held then m else (m.readersOf c).foldl (fun m r => Mach.kill fuel m r why.ofWriter) m

/-- The registration of a collective ends with its bound command, but for what has been aborted, and its engine is free
(R553, R557). -/
def Mach.unbindColl (m : Mach) (c : Cmd) : Mach :=
  if c.peers = [] then m else
    { m.modCx c.ctx (fun (x : Ctx) => { x with
        colls := x.colls.filter fun r => r.1 != c.coll || r.2.2, readySeen := x.readySeen.filter fun r => r.1 != c.coll }) with
      engines := m.engines.filter fun (e : Engine) => e.cmd != c.seq }

/-- A command of a stopped queue that a kill had left to be run again gets its completion at once: it holds nothing (R434). -/
def Mach.endQueued (m : Mach) (c : Cmd) (st : Status) : Mach :=
  let m := ((m.dropCmd c).chargeCtx c.ctx c.meters).unbindColl c
  if c.q < 16 then m.complete c.ctx c.q c.tag c.opcode c.flags { st := st } else m

/-- A FENCE, a SIGNAL or a WAIT: it has a sequence number from the time that its entry is read. -/
def Kind.inQueue : Kind → Bool
  | .fence | .signal | .wait => true
  | _ => false

/-- A command that has been dispatched, was killed, and is to be dispatched again (R438). -/
def Cmd.again (x : Cmd) : Bool := x.phase == .queued && x.seq != 0 && !x.kind.inQueue

/-- A command that has been dispatched and has not come to its end, a killed one that is to run again among them. -/
def Cmd.dispatched (x : Cmd) : Bool := x.inFlight || x.again || x.phase == .flipped

/-- Commands that the module holds dispatched and not committed (R424). -/
def Mach.holding (m : Mach) : Nat := (m.cmds.filter fun x => x.inFlight && !x.kind.inQueue).length
def maxInFlight : Nat := 8192

/-- What a dispatch that waits notes: for a draft frame like a given one, or for page_limit to admit so many pages (R241, R428). -/
def Cmd.waitsFor (x : Cmd) (now : Nat) (limit : Bool) (n : Nat) : Cmd :=
  if limit then { x with waitLimitSince := some (x.waitLimitSince.getD now), waitNeed := n, waitDraftSince := none, draftSeen := false }
  else { x with waitDraftSince := some (x.waitDraftSince.getD now), waitFrame := n, waitLimitSince := none, limitSeen := false }

/-- A queue stops: no entry is consumed until a restart, and every later dispatched command is killed with
QUEUE_STOPPED (R434). -/
def Mach.stopQueue (m : Mach) (ctx q pos : Nat) (st : Status) : Mach :=
  if 16 ≤ q then m else
    let m := m.modCx ctx fun c => c.modQ q fun k =>
      { k with stopped := some (k.stopped.getD st), stopAt := if k.stopped.isSome then min k.stopAt pos else pos }
    ((m.queueCmds ctx q).filter fun c => decide (pos < c.pos) && c.dispatched).foldl
      (fun m c => if c.again then m.endQueued c .queueStopped else m.kill m.cmds.length c .stop) m

/-- A command fails while it runs: it is killed at once, anchored or not, and its queue stops (R433, R440). -/
def Mach.fail (m : Mach) (c : Cmd) (st : Status) (detail : Nat) : Mach :=
  if c.phase = .killing then m else (m.kill m.cmds.length c (.fail st detail)).stopQueue c.ctx c.q c.pos st

/-- Statuses after which a command's queue stops (R433). -/
def Status.stops : Status → Bool
  | .ok | .skipped | .killed | .queueStopped | .pending => false
  | _ => true

/-- A command ends with its final outcome: its meters are charged, its completion is posted, and where the outcome says
so its queue stops (R433, R434, R677). -/
def Mach.finish (m : Mach) (c : Cmd) (st : Status) (detail : Nat) : Mach :=
  let m := ((m.dropCmd c).chargeCtx c.ctx c.meters).unbindColl c
  let m := if c.q < 16 then m.complete c.ctx c.q c.tag c.opcode c.flags { st := st, detail := detail } else m
  if st.stops then m.stopQueue c.ctx c.q c.pos st else m

/-- A command refused at dispatch, which takes nothing (R433). -/
def Mach.refuse (m : Mach) (c : Cmd) (st : Status) : Mach := m.finish c st 0

/-- The location word of the word at a device physical address, 0 where it reaches no cell (R660). -/
def Mach.locAt (m : Mach) (dpa : Nat) : Word :=
  match m.reach (dpa / 8 * 8) with
  | some c => locWord c (m.cellKey c != c) (m.decodeCell c).syn
  | none => 0

/-- Time that a command has occupied a cluster: its meter, and its context's share where it is BE (R422, R676). -/
def Mach.occupy (m : Mach) (x : Cmd) (ns : Nat) : Mach :=
  let m := m.modCmd x fun y => { y with meters := { y.meters with occupancy := y.meters.occupancy + ns } }
  if x.cls = 1 then m.modCx x.ctx fun c => { c with beNs := c.beNs + ns } else m

/-- A command has touched poison (R640); the first time, COMMAND_POISONED names its dispatch sequence, the first poisoned
unit, and L or 0 (R660). -/
def Mach.touchPoison (m : Mach) (seq : Nat) (u : UnitId) (l : Word) : Mach :=
  match m.cmdOf seq with
  | none => m
  | some c =>
    if c.poisoned then m else
      (m.modCmd c fun x => { x with poisoned := true }).post .commandPoisoned (some c.ctx) u
        [BitVec.ofNat 64 c.seq, BitVec.ofNat 64 (u.cls * 65536 + u.idx), l]

/-- A draft discarded: its frame is released (R390, R435). -/
def Mach.discardDrafts (m : Mach) (c : Cmd) : Mach := c.drafts.foldl (fun m d => m.release d.new) m

end Sys2Proof.Machine
end

