-- ==== Sys2Proof/Machine/Descriptors.lean ====
section
/-! DEFINITION. Tensor descriptors: the record, the checks at creation, footprints, and the map from logical elements
to offsets and to device physical addresses (R269, R339 to R365). -/
namespace Sys2Proof.Machine

/-- Bytes of an element of a format code (R343). -/
def elemBytes (fmt : Nat) : Nat :=
  if fmt = 1 then 8 else if fmt = 0 ∨ fmt = 4 ∨ fmt = 5 then 4 else if fmt = 2 ∨ fmt = 3 ∨ fmt = 6 then 2 else 1

/-! ## Records -/

/-- A dimension entry and a window entry of a record (R342). -/
def parseDim (b : List Byte) (o : Nat) : Dim :=
  { stride := sext 64 (fld b o 8), extent := fld b (o + 8) 4, padLo := fld b (o + 12) 2, padHi := fld b (o + 14) 2 }
def parseWindow (b : List Byte) (o : Nat) : Window :=
  { stride := sext 64 (fld b o 8), extent := fld b (o + 8) 4, outDim := fld b (o + 12) 1 / 16, kernDim := fld b (o + 12) 1 % 16,
    step := fld b (o + 13) 1, dilation := fld b (o + 14) 1, padLo := fld b (o + 15) 1 }

/-- A local descriptor as a record gives it. -/
def parseDesc (b : List Byte) : Desc :=
  { space := fld b 0x08 1, view := fld b 0x09 1, use := fld b 0x0A 1, accOp := fld b 0x0B 1, fmt := fld b 0x0C 1, turn := fld b 0x0D 1,
    perCore := bitAt (fld b 0x0E 1) 0, oobSkip := bitAt (fld b 0x0E 1) 1, alloc := fld b 0x10 4, index := fld b 0x14 4,
    base := fld b 0x18 8, coreStep := sext 64 (fld b 0x20 8), pad := fld b 0x28 8, indexDim := fld b 0x30 1,
    dims := (List.range (fld b 7 1)).map fun j => parseDim b (0x40 + 16 * j),
    windows := ((List.range 3).map fun j => parseWindow b (0xA0 + 16 * j)).filter fun w => w.extent != 0 }

/-- Magic, format version and rank (R342, R361). -/
def descHead (b : List Byte) : Bool :=
  fld b 0 4 == 0x4C504453 && fld b 4 2 == 1 && decide (1 ≤ fld b 7 1) && decide (fld b 7 1 ≤ 6)

/-- The field ranges and reserved bytes of a local record: the first check of R349. -/
def descRanges (b : List Byte) : Bool :=
  let rank := fld b 7 1
  descHead b && fld b 6 1 == 0 && decide (fld b 8 1 ≤ 1) && decide (fld b 9 1 ≤ 1) && decide (1 ≤ fld b 10 1) && decide (fld b 10 1 ≤ 3)
    && decide (fld b 12 1 ≤ 12) && (if fld b 9 1 = 1 then decide (fld b 13 1 ≤ 6) else fld b 13 1 == 0)
    && decide (fld b 14 1 < 4) && zeros b 15 1 && zeros b 0x31 15 && zeros b 0xD0 48 && decide (fld b 0x30 1 < rank)
    && (List.range 6).all (fun j => if j < rank then fld b (0x40 + 16 * j + 8) 4 != 0 else zeros b (0x40 + 16 * j) 16)
    && (List.range 3).all fun j =>
      let o := 0xA0 + 16 * j
      if fld b (o + 8) 4 = 0 then zeros b o 16 else fld b (o + 13) 1 != 0 && fld b (o + 14) 1 != 0

/-! ## Elements (R344, R345) -/

/-- Dimension `j` belongs to a used window; it is the indexed one; it is plain. -/
def Desc.isWindow (d : Desc) (j : Nat) : Bool := d.windows.any fun w => w.outDim == j || w.kernDim == j
def Desc.isIndexed (d : Desc) (j : Nat) : Bool := d.index != 0 && d.indexDim == j
def Desc.isPlain (d : Desc) (j : Nat) : Bool := !d.isWindow j && !d.isIndexed j

/-- The logical extents, given the element count of the index view. -/
def Desc.extents (d : Desc) (idx : Nat) : List Nat :=
  d.dims.zipIdx.map fun e => if d.isIndexed e.2 then idx else if d.isWindow e.2 then e.1.extent else e.1.extent + e.1.padLo + e.1.padHi

/-- The product of a list. -/
def prodNat (l : List Nat) : Nat := l.foldl (· * ·) 1

/-- The coordinates of logical element `k`, dim 0 fastest. -/
def coords : List Nat → Nat → List Nat
  | [], _ => []
  | e :: r, k => k % e :: coords r (k / e)

/-- Where an element lies: an offset, padding, or an index out of range (R345). -/
inductive Gen where
  | off (o : Int) | padding | outOfRange
  deriving DecidableEq, Repr

/-- The offset of the element with coordinates `i` for logical core `c`, given the index value of the indexed
dimension's coordinate (R345). -/
def Desc.gen (d : Desc) (i : List Nat) (c : Nat) (idx : Int) : Gen :=
  let base : Int := d.base + (if d.perCore then c * d.coreStep else 0)
  let plain := d.dims.zipIdx.foldl (fun (acc : Option Int) e =>
    if d.isPlain e.2 then
      match acc with
      | none => none
      | some o =>
        let s : Int := (i.getD e.2 0 : Nat) - (e.1.padLo : Int)
        if s < 0 ∨ (e.1.extent : Int) ≤ s then none else some (o + s * e.1.stride)
    else acc) (some base)
  let win := d.windows.foldl (fun (acc : Option Int) w =>
    match acc with
    | none => none
    | some o =>
      let s : Int := (i.getD w.outDim 0 : Nat) * (w.step : Int) + (i.getD w.kernDim 0 : Nat) * (w.dilation : Int) - w.padLo
      if s < 0 ∨ (w.extent : Int) ≤ s then none else some (o + s * w.stride)) plain
  match win with
  | none => .padding
  | some o =>
    if d.index = 0 then .off o else
      match d.dims[d.indexDim]? with
      | none => .off o
      | some x => if idx < 0 ∨ (x.extent : Int) ≤ idx then .outOfRange else .off (o + idx * x.stride)

/-! ## Checks of a local descriptor (R346 to R356) -/

/-- The spans of the footprint (R350). -/
def Desc.spans (d : Desc) : List Int :=
  ((d.dims.zipIdx.filter fun e => !d.isWindow e.2).map fun e => ((e.1.extent : Int) - 1) * e.1.stride)
    ++ d.windows.map (fun w => ((w.extent : Int) - 1) * w.stride) ++ (if d.perCore then [7 * d.coreStep] else [])

/-- The element size that offsets count in: bytes, or 1 in the grain view. -/
def Desc.unit (d : Desc) : Nat := if d.view = 1 then 1 else elemBytes d.fmt

/-- The footprint from its lowest to its highest byte or element (R350). -/
def Desc.footprint (d : Desc) : Int × Int :=
  (d.spans.foldl (fun a s => if s < 0 then a + s else a) (d.base : Int),
   d.spans.foldl (fun a s => if 0 < s then a + s else a) (d.base : Int) + d.unit - 1)

/-- The size that a footprint must lie in: bytes of the allocation or of a scratchpad, or elements of the block map. -/
def Desc.room (d : Desc) (a : Option Alloc) : Int :=
  match a with
  | none => 2 * 1024 * 1024
  | some a => if d.view = 1 then ((a.banks.length * a.perBank * (64 / 2 ^ d.turn) * 8192 : Nat) : Int) else ((a.pages.length * 65536 : Nat) : Int)

/-- A value that 64 signed bits hold. -/
def in64 (i : Int) : Bool := decide (-(2 ^ 63 : Int) ≤ i) && decide (i < 2 ^ 63)

/-- The dimensions of the injectivity test: extent and stride in units of e (R352). -/
def Desc.injDims (d : Desc) : List (Nat × Nat) :=
  let e := d.unit
  ((d.dims.zipIdx.filter fun x => d.isPlain x.2 && decide (1 < x.1.extent)).map fun x => (x.1.extent, x.1.stride.natAbs / e))
    ++ (if d.perCore then [(8, d.coreStep.natAbs / e)] else [])

/-- An entry put into a list sorted by stride. -/
def insDim (x : Nat × Nat) : List (Nat × Nat) → List (Nat × Nat)
  | [] => [x]
  | y :: r => if x.2 ≤ y.2 then x :: y :: r else y :: insDim x r

/-- The nesting test: every stride exceeds what the smaller ones span (R352). -/
def nests : List (Nat × Nat) → Nat → Bool
  | [], _ => true
  | x :: r, sum => decide (sum < x.2) && nests r (sum + (x.1 - 1) * x.2)

/-- Two dimensions collide (R352). -/
def collide (a b : Nat × Nat) : Bool :=
  let g := Nat.gcd a.2 b.2
  decide (b.2 / g ≤ a.1 - 1) && decide (a.2 / g ≤ b.1 - 1)

/-- Some pair of a list collides. -/
def anyPair : List (Nat × Nat) → Bool
  | [] => false
  | x :: r => r.any (collide x) || anyPair r

/-- The result of the injectivity test: accepted, accepted unproven, or rejected. -/
def Desc.injective (d : Desc) : Option Bool :=
  if nests (d.injDims.foldr insDim []) 0 then some true else if anyPair d.injDims then none else some false

/-- The pairs of accumulate operation and format (R356). -/
def accPair (op fmt : Nat) : Bool :=
  (op == 1 || op == 2 || op == 3) && decide (fmt ≤ 7)

/-- The rules of a grain-view descriptor (R353). -/
def Desc.grainOk (d : Desc) : Bool :=
  match d.dims with
  | [x] =>
    let w := 2 ^ d.turn
    x.stride == 1 && x.padLo == 0 && x.padHi == 0 && d.windows.isEmpty && d.index == 0 && decide (d.use ≤ 2) && d.base % 8192 == 0
      && x.extent % 8192 == 0
      && (if d.fmt = 7 then decide (w ≤ 8) else if d.fmt = 12 then false else w == 8 * elemBytes d.fmt)
  | _ => false

/-- A live descriptor of a context by its handle (R340, R341). -/
def Mach.liveDesc (m : Mach) (ctx h : Nat) : Option Desc := if h / 2 ^ 20 = ctx ∧ h ≠ 0 then Tab.get none (m.cx ctx).descs (h % 2 ^ 20) else none

/-- A descriptor that a new dispatch may name: live, not destroyed, its allocation not freed (R341, R342). -/
def Mach.descOf (m : Mach) (ctx h : Nat) : Option Desc :=
  match m.liveDesc ctx h with
  | none => none
  | some d =>
    if d.dying then none
    else if d.grid.isSome then (match m.liveDesc ctx d.local_ with | some l => if l.dying then none else some d | none => none)
    else if d.space = 1 then some d
    else match (m.cx ctx).alloc d.alloc with
      | some a => if a.dying then none else some d
      | none => none

/-- An index descriptor that meets R347. -/
def Desc.isIndexView (d : Desc) : Bool :=
  d.use == 1 && (d.fmt == 4 || d.fmt == 5) && d.windows.isEmpty && d.index == 0 && d.grid.isNone
    && (match d.dims with | [x] => x.padLo == 0 && x.padHi == 0 | _ => false)

/-- The element count of a descriptor's index view. -/
def Mach.indexCount (m : Mach) (ctx : Nat) (d : Desc) : Nat :=
  match m.liveDesc ctx d.index with
  | some x => prodNat (x.extents 0)
  | none => 0

/-- The element count of a descriptor's view (R344). -/
def Mach.elemCount (m : Mach) (ctx : Nat) (d : Desc) : Nat := prodNat (d.extents (m.indexCount ctx d))

/-- The checks of R349 on a local record, in their order: the first failing status, or the descriptor and whether its
injectivity stays unproven. -/
def Mach.checkLocal (m : Mach) (ctx : Nat) (b : List Byte) : Except Status (Desc × Bool) :=
  let d := parseDesc b
  let a := (m.cx ctx).alloc d.alloc
  let e := elemBytes d.fmt
  let words := d.windows.flatMap fun w => [w.outDim, w.kernDim]
  let pads := d.dims.any fun x => x.padLo != 0 || x.padHi != 0
  if !descRanges b then .error .badDesc
  else if (if d.space = 0 then !(a.any fun a => !a.dying) else d.alloc != 0) then .error .badHandle
  else if d.index ≠ 0 ∧ !(match m.descOf ctx d.index with
      | some x => x.isIndexView && (d.dims[d.indexDim]?).any fun y => y.padLo == 0 && y.padHi == 0
      | none => false) then .error .badHandle
  else if (if d.space = 1 then d.view != 0 else !(a.any fun a => a.grain == (d.view == 1))) then .error .viewMismatch
  else if !(decide words.Nodup && words.all (fun j => decide (j < d.dims.length) && !(d.isIndexed j) &&
      (d.dims[j]?).any fun x => x.stride == 0 && x.padLo == 0 && x.padHi == 0)) then .error .badDesc
  else if 2 ^ 40 < m.elemCount ctx d then .error .badDesc
  else if d.view = 0 ∧ !(d.base % e == 0 && d.coreStep.natAbs % e == 0 && d.dims.all (fun x => x.stride.natAbs % e == 0) &&
      d.windows.all fun w => w.stride.natAbs % e == 0) then .error .align
  else if !(decide (0 ≤ d.footprint.1) && decide (d.footprint.2 < d.room (if d.space = 1 then none else a)) && in64 d.footprint.1
      && in64 d.footprint.2) then .error .footprint
  else if d.use ≠ 1 ∧ (pads || !d.windows.isEmpty) = true then .error .padOnWrite
  else if (if d.use = 3 then !accPair d.accOp d.fmt else d.accOp != 0) then .error .badAcc
  else if d.use = 2 ∧ (d.dims.zipIdx.any fun x => d.isPlain x.2 && decide (1 < x.1.extent) && x.1.stride == 0) = true then .error .zeroStride
  else if d.use = 2 ∧ d.injective = none then .error .nonInjective
  else if d.view = 1 ∧ !d.grainOk then .error .badGrain
  else .ok (d, d.use == 2 && d.injective == some false)

/-- An accumulate write's new element: op(x, y) on the patterns of a format (R356). -/
def accumulate (op fmt x y : Nat) : Nat :=
  match elemFmt fmt with
  | some (.fl f) => if op = 1 then fadd f x y else f.maxNum (op == 2) x y
  | some (.int w sg) =>
    let v := fun (a : Nat) => if sg then sext w a else ((a % 2 ^ w : Nat) : Int)
    intBits w (if op = 1 then v x + v y else if op = 2 then max (v x) (v y) else min (v x) (v y))
  | none => x

/-! ## Distributed descriptors (R361 to R365) -/

/-- A distributed descriptor as a record gives it; its view, format and use are its shard's (R361). -/
def parseGrid (b : List Byte) : Desc :=
  { local_ := fld b 8 4, fmt := 0,
    grid := some ((List.range (fld b 0x0C 1)).map (fun j => fld b (0x10 + 2 * j) 2), fld b 0x18 8,
      (List.range (fld b 7 1)).map fun j =>
        ⟨fld b (0x20 + 16 * j) 8, fld b (0x28 + 16 * j) 4, fld b (0x2C + 16 * j) 1, fld b (0x2D + 16 * j) 1⟩) }

/-- The largest count of local indices of a global dimension over all owner coordinates (R362). -/
def GDim.localCount (g : GDim) (p : Nat) : Nat :=
  if g.mode = 0 then g.extent else if g.mode = 1 then min g.block g.extent else if g.mode = 2 then ceilDiv g.extent p
  else g.extent / (g.block * p) * g.block + min (g.extent % (g.block * p)) g.block

/-- Owner coordinate (none: every coordinate) and local index of a global index (R362). -/
def GDim.owner (g : GDim) (p i : Nat) : Option Nat × Nat :=
  if g.mode = 0 then (none, i) else if g.mode = 1 then (some (i / g.block), i % g.block) else if g.mode = 2 then (some (i % p), i / p)
  else (some (i / g.block % p), i / (g.block * p) * g.block + i % g.block)

/-- The ranges of a distributed record. -/
def gridRanges (b : List Byte) : Bool :=
  let gr := fld b 0x0C 1
  let rank := fld b 7 1
  descHead b && fld b 6 1 == 1 && decide (1 ≤ gr) && decide (gr ≤ 4) && zeros b 0x0D 3 && zeros b 0x80 128
    && (List.range 4).all (fun j => if j < gr then fld b (0x10 + 2 * j) 2 != 0 else fld b (0x10 + 2 * j) 2 == 0)
    && (List.range 6).all fun j =>
      let o := 0x20 + 16 * j
      if j < rank then
        decide (1 ≤ fld b o 8) && decide (fld b o 8 ≤ 2 ^ 40) && decide (fld b (o + 12) 1 ≤ 3) && zeros b (o + 14) 2
          && (if fld b (o + 12) 1 = 1 ∨ fld b (o + 12) 1 = 3 then fld b (o + 8) 4 != 0 else fld b (o + 8) 4 == 0)
          && (fld b (o + 12) 1 == 0 || decide (fld b (o + 13) 1 < gr))
      else zeros b o 16

/-- The nodes of an owner table read at an address: none where it does not translate or reads as poison. -/
def Mach.ownerTable (m : Mach) (ctx va n : Nat) : Option (Option (List Nat)) × Mach :=
  match m.fetchVa ctx va (4 * n) with
  | (none, m) => (none, m)
  | (some (b, p), m) => (some (if p then none else some ((List.range n).map fun i => fld b (4 * i) 4)), m)

/-- The checks on a distributed record (R361 to R365), given its owner table. -/
def Mach.checkGrid (m : Mach) (ctx : Nat) (b : List Byte) (owners : List Nat) : Except Status (Desc × Bool) :=
  let d := parseGrid b
  match d.grid with
  | none => .error .badDesc
  | some (ext, _, dims) =>
    let axes := (dims.filter fun g => g.mode != 0).map (·.axis)
    if !gridRanges b then .error .badDesc
    else match m.descOf ctx d.local_ with
      | none => .error .badHandle
      | some l =>
        if l.grid.isSome then .error .badHandle
        else if 65536 < prodNat ext ∨ l.dims.length ≠ dims.length ∨ ¬ axes.Nodup then .error .badDesc
        else if dims.any (fun g => g.mode == 1 && decide (g.block * ext.getD g.axis 1 < g.extent)) then .error .badDesc
        else if (dims.zip (l.extents (m.indexCount ctx l))).any (fun x => decide (x.2 < x.1.localCount (ext.getD x.1.axis 1))) then .error .badDesc
        else if owners.any (fun o => decide (65535 < o)) then .error .badDesc
        else if (owners.filter (· == m.shr.node.toNat)).length ≠ 1 then .error .badOwner
        else .ok ({ d with view := l.view, turn := l.turn, fmt := l.fmt, use := l.use, accOp := l.accOp }, false)

/-! ## Addresses of an allocation -/

/-- The frame and first row of a turn block of a grain allocation: block `b` at turn width 2^t (R586). -/
def Alloc.block (a : Alloc) (t b : Nat) : Option (Nat × Nat) :=
  let n := a.banks.length
  let mm := 64 / 2 ^ t
  if n = 0 then none else
    let s := b / n
    (a.page (b % n * a.perBank + s / mm)).map fun f => (f, 2 ^ t * (s % mm))

/-- The page of a turn block. -/
def Alloc.blockPage (a : Alloc) (t b : Nat) : Nat := b % a.banks.length * a.perBank + b / a.banks.length / (64 / 2 ^ t)

/-- The turn block of a grain allocation that row `row` of its page `page` lies in: the inverse of `Alloc.block`. -/
def Alloc.blockOf (a : Alloc) (t page row : Nat) : Nat := (page % a.perBank * (64 / 2 ^ t) + row / 2 ^ t) * a.banks.length + page / a.perBank

/-- Pages of the allocation that a descriptor's footprint touches, with whether it covers the page whole (R425). -/
def Desc.touched (d : Desc) (a : Alloc) : List (Nat × Bool) :=
  let (lo, hi) := d.footprint
  if d.view = 1 then
    let b0 := lo.toNat / 8192
    let b1 := hi.toNat / 8192
    let blocks := (List.range (b1 + 1 - b0)).map (· + b0)
    let per := 64 / 2 ^ d.turn
    (blocks.foldl (fun l b => addNew l (a.blockPage d.turn b)) []).map fun p =>
      (p, decide ((blocks.filter fun b => a.blockPage d.turn b == p).length = per))
  else
    let p0 := lo.toNat / 65536
    let p1 := hi.toNat / 65536
    (List.range (p1 + 1 - p0)).map fun i =>
      (p0 + i, decide (lo ≤ ((p0 + i) * 65536 : Nat)) && decide (((p0 + i) * 65536 + 65535 : Nat) ≤ hi))

end Sys2Proof.Machine
end

