-- ==== Sys2Proof/Machine/Movers.lean ====
section
/-! DEFINITION. Tensor movers: starting a move, one transfer of a channel, halts, the turner, and the flits of elements that
other modules own (R262 to R268, R357 to R374, R548 to R550). -/
namespace Sys2Proof.Machine

/-! ## Flits that this module sends (R535 to R538) -/

/-- A flit of this module towards a node, its link fields to be set when it is sent. -/
def Mach.flit (m : Mach) (dst : Nat) (op vc dstCtx va coll srcCtx aux : Nat) (payload : List Word) : Flit :=
  { dst := BitVec.ofNat 16 dst, src := m.shr.node, seq := 0, op := BitVec.ofNat 8 op, vc := Fin.ofNat 4 vc, dstCtx := Fin.ofNat 4096 dstCtx,
    va := BitVec.ofNat 52 va, coll := BitVec.ofNat 16 coll, srcCtx := Fin.ofNat 4096 srcCtx, aux := BitVec.ofNat 32 aux, payload := payload,
    ack := 0, credVc := 0, credShared := 0 }

/-- A flit put behind those that wait to be sent. -/
def Mach.queueFlit (m : Mach) (f : Flit) : Mach := { m with shr := { m.shr with tx := m.shr.tx ++ [f] } }

/-- A flit of a command to the participant of a rank, and the same flit to every other participant. -/
def Mach.sendTo (m : Mach) (c : Cmd) (rank op vc va aux : Nat) (payload : List Word) : Mach :=
  match c.peers[rank]? with
  | some p => m.queueFlit (m.flit p.1 op vc p.2 va c.coll c.ctx aux payload)
  | none => m
def Mach.sendAll (m : Mach) (c : Cmd) (op : Nat) : Mach :=
  ((List.range c.peers.length).filter (· != c.rank)).foldl (fun m r => m.sendTo c r op 1 0 0 []) m

/-! ## Where a move reads and writes -/

/-- The frame that a move reads a page of an allocation from: the draft of an earlier command that it reads under R385, or
the published frame, never a draft of its own command (R359). -/
def Mach.moveFrame (m : Mach) (c : Cmd) (alloc page frame : Nat) : Nat :=
  match m.cmds.find? (fun w => w.ctx == c.ctx && w.q == c.q && decide (w.pos < c.pos) &&
      w.drafts.any fun d => d.alloc == alloc && d.page == page && d.readBy.contains c.seq) with
  | some w => ((w.drafts.find? fun d => d.alloc == alloc && d.page == page).map (·.new)).getD frame
  | none => frame

/-- The address that a move's read of a byte of an allocation reaches. -/
def Mach.moveSrc (m : Mach) (c : Cmd) (alloc off : Nat) : Option Nat :=
  match (m.cx c.ctx).alloc alloc with
  | some a => (a.page (off / 65536)).map fun f => frameDpa (m.moveFrame c alloc (off / 65536) f) + off % 65536
  | none => none

/-- The address in its command's draft that a write of a byte of an allocation reaches (R359). -/
def Cmd.draftDpa (c : Cmd) (alloc off : Nat) : Option Nat :=
  (c.drafts.find? fun d => d.alloc == alloc && d.page == off / 65536).map fun d => frameDpa d.new + off % 65536

/-- The words of a scratchpad that a read decodes, reported. -/
def Mach.noteSpad (m : Mach) (c k a n : Nat) : Mach :=
  let y := (m.cl c).core k
  m.noteRam (uCore (8 * c + k)) sramSpad y.spad ((byteWords a n).map y.spadWord)

/-- The element of `e` bytes at an offset of a core's scratchpad, and the element written. -/
def Core.getElem (c : Core) (a e : Nat) : Nat × Ecc :=
  let w := c.spad.decode (c.spadWord (a / 8))
  (w.word.val.toNat / 2 ^ (8 * (a % 8)) % 2 ^ (8 * e), if w.word.poison then w.kind else .clean)
def Core.putElem (c : Core) (a e v : Nat) : Core :=
  c.putBits (a / 8 * 8) 1 (v % 2 ^ (8 * e) * 2 ^ (8 * (a % 8))) ((2 ^ (8 * e) - 1) * 2 ^ (8 * (a % 8))) 0

/-- Causes of MV_HALT_INFO. -/
def haltUe : Nat := 1
def haltPoison : Nat := 2
def haltIndex : Nat := 3
def haltTranslation : Nat := 4

/-- The cause of a halt on a word that reads as poison (R372). -/
def haltOf (k : Ecc) : Nat := if k = .uncorrectable then haltUe else haltPoison

/-- `e` bytes of stack memory read by a mover: its value or the cause of a halt (R372). -/
def Mach.moverWord (m : Mach) (a : Acc) (dpa e : Nat) : Except Nat Nat × Mach :=
  match m.reach (dpa / 8 * 8) with
  | none => (.error haltPoison, m)
  | some cell =>
    let d := m.decodeCell cell
    let m := m.noteRead a cell d
    if d.word.poison then (.error (haltOf d.kind), m)
    else (.ok (d.word.val.toNat / 2 ^ (8 * (dpa % 8)) % 2 ^ (8 * e)), m)

/-- The first cell of turn block `blk` of a grain allocation, in the frame that a move reads, or in its command's draft (R269, R359). -/
def Mach.grainRow (m : Mach) (c : Cmd) (d : Desc) (write : Bool) (blk : Nat) : Option Nat :=
  match (m.cx c.ctx).alloc d.alloc with
  | none => none
  | some a =>
    (a.block d.turn blk).bind fun (f, row) =>
      let page := a.blockPage d.turn blk
      let frame := if write then (c.drafts.find? fun x => x.alloc == d.alloc && x.page == page).map (·.new) else some (m.moveFrame c d.alloc page f)
      frame.map fun f => (f - 2 ^ 24) * 65536 + row * 1024

/-- The address of the word of row `r` of its block that holds element `off` of a grain view, from the block's first cell. -/
def grainWord (cell off r : Nat) : Nat := grainBase + cell + 1024 * r + off % 8192 / 64 * 8

/-- Element `off` of a grain view, gathered from the rows of its block (R263). -/
def Mach.grainElem (m : Mach) (a : Acc) (c : Cmd) (d : Desc) (off : Nat) : Except Nat Nat × Mach :=
  match m.grainRow c d false (off / 8192) with
  | none => (.error haltTranslation, m)
  | some cell => (List.range (2 ^ d.turn)).foldl (fun (acc : Except Nat Nat × Mach) r =>
      match acc.1 with
      | .error e => (.error e, acc.2)
      | .ok v =>
        match acc.2.moverWord a (grainWord cell off r) 8 with
        | (.ok x, m) => (.ok (v + b2n (bitAt x (off % 64)) * 2 ^ r), m)
        | (.error e, m) => (.error e, m)) (.ok 0, m)

/-- An element of a grain view written into the rows of its block in the command's draft. -/
def Mach.putGrain (m : Mach) (c : Cmd) (d : Desc) (off v : Nat) : Except Nat Unit × Mach :=
  match m.grainRow c d true (off / 8192) with
  | none => (.error haltTranslation, m)
  | some cell => (.ok (), (List.range (2 ^ d.turn)).foldl (fun (m : Mach) r =>
      let dpa := grainWord cell off r
      match m.reach dpa with
      | none => m
      | some k =>
        let old := (m.decodeCell k).word
        let bit := BitVec.ofNat 64 (2 ^ (off % 64))
        m.writeWord dpa ⟨if bitAt v r then old.val ||| bit else old.val &&& ~~~bit, old.poison⟩) m)

/-- An element of a descriptor at an offset: from memory, or from the scratchpad of core `k`. -/
def Mach.moverElem (m : Mach) (a : Acc) (cl : Nat) (c : Cmd) (d : Desc) (off k : Nat) : Except Nat Nat × Mach :=
  let e := elemBytes d.fmt
  if d.space = 1 then
    let (v, p) := ((m.cl cl).core k).getElem off e
    (if p = .clean then .ok v else .error (haltOf p), m.noteSpad cl k off e)
  else if d.view = 1 then m.grainElem a c d off
  else match m.moveSrc c d.alloc off with
    | some dpa => m.moverWord a dpa e
    | none => (.error haltTranslation, m)

/-- The offset in its view of the index element for a coordinate of the indexed dimension (R345, R347). -/
def Desc.indexOff (x : Desc) (i l : Nat) : Option Nat := match x.gen [i] l 0 with | .off o => some o.toNat | _ => none

/-- The index value of the indexed dimension for coordinates (R345, R347). -/
def Mach.moverIndex (m : Mach) (a : Acc) (cl : Nat) (c : Cmd) (d : Desc) (i : List Nat) (l k : Nat) : Except Nat Int × Mach :=
  if d.index = 0 then (.ok 0, m) else
    match m.liveDesc c.ctx d.index with
    | none => (.error haltTranslation, m)
    | some x =>
      match x.indexOff (i.getD d.indexDim 0) l with
      | some o =>
        match m.moverElem a cl c x o k with
        | (.ok v, m) => (.ok (if x.fmt = 4 then sext 32 v else (v : Int)), m)
        | (.error e, m) => (.error e, m)
      | none => (.ok 0, m)

/-- What the element with coordinates `i` of a descriptor is for logical core `l`, physical core `k`: padding causes no access, its
index among them (R345, R346). -/
def Mach.moverAt (m : Mach) (a : Acc) (cl : Nat) (c : Cmd) (d : Desc) (i : List Nat) (l k : Nat) : Except Nat Gen × Mach :=
  match d.gen i l 0 with
  | .padding => (.ok .padding, m)
  | _ =>
    match m.moverIndex a cl c d i l k with
    | (.ok x, m) => (.ok (d.gen i l x), m)
    | (.error e, m) => (.error e, m)

/-- What element `n` of a descriptor is for a core. -/
def Mach.moverGen (m : Mach) (a : Acc) (cl : Nat) (c : Cmd) (d : Desc) (n l k : Nat) : Except Nat Gen × Mach :=
  m.moverAt a cl c d (coords (d.extents (m.indexCount c.ctx d)) n) l k

/-- The source element `n`: its bits and whether it was skipped, or the cause of a halt (R346, R348). -/
def Mach.moverRead (m : Mach) (a : Acc) (cl : Nat) (c : Cmd) (d : Desc) (n l k : Nat) : Except Nat (Nat × Nat) × Mach :=
  let pad := d.pad % 2 ^ (8 * elemBytes d.fmt)
  match m.moverGen a cl c d n l k with
  | (.error e, m) => (.error e, m)
  | (.ok .padding, m) => (.ok (pad, 0), m)
  | (.ok .outOfRange, m) => (if d.oobSkip then .ok (pad, 1) else .error haltIndex, m)
  | (.ok (.off o), m) =>
    match m.moverElem a cl c d o.toNat k with
    | (.ok v, m) => (.ok (v, 0), m)
    | (.error e, m) => (.error e, m)

/-! ## Stores -/

/-- Stores of this descriptor may meet at one element (R352, R357). -/
def Desc.mayCollide (d : Desc) : Bool := d.use == 2 && (d.index != 0 || d.injective != some true)

/-- Where an element of a move lands, for telling stores that meet: its destination, 0 or the number of the scratchpad, its offset. -/
def storePlace (cl dst : Nat) (d : Desc) (k off : Nat) : Nat × Nat × Nat := (dst, if d.space = 1 then 1 + 8 * cl + k else 0, off)

/-- True where an earlier element of the command's moves has stored at this place (R357). -/
def Mach.storedBefore (m : Mach) (c : Cmd) (at_ : Nat × Nat × Nat) : Bool := (m.cmds.find? fun y => sameCmd y c).any fun y => y.stored.contains at_

/-- Bytes written at the address of an element in a draft: stored, or accumulated as one read-modify-write (R356, R358). -/
def Mach.putDraft (m : Mach) (a : Acc) (d : Desc) (dpa v : Nat) : Except Nat Unit × Mach :=
  let e := elemBytes d.fmt
  if d.use = 3 then
    match m.moverWord a dpa e with
    | (.ok x, m) => (.ok (), m.writeBytes dpa (leBytes e (accumulate d.accOp d.fmt x v)) false)
    | (.error c, m) => (.error c, m)
  else (.ok (), m.writeBytes dpa (leBytes e v) false)

/-- A channel of a cluster changed. -/
def Mach.modChan (m : Mach) (cl n : Nat) (f : Chan → Chan) : Mach := m.modCl cl fun c => c.modChan n f

/-- Accumulates of a channel that may meet at one element and whose order shows in the result: floating-point sums where the
index, the strides or the cores of a scratchpad source bring elements together (R355, R358). -/
def Mach.mayShare (m : Mach) (cl n : Nat) (c : Cmd) (d : Desc) : Bool :=
  d.use == 3 && d.accOp == 1 && decide (d.fmt < 4) && (d.index != 0 || d.injective != some true
    || (d.space == 0 && !d.perCore && (m.liveDesc c.ctx ((m.cl cl).chan n).src).any fun s => s.space == 1))

/-- An element stored or accumulated at an offset of a local destination, for core `k`: where stores may meet, a later one lands
at a free choice (R357). -/
def Mach.moverApply (m : Mach) (a : Acc) (cl n : Nat) (c : Cmd) (d : Desc) (off k v : Nat) : Except Nat Unit × Mach :=
  let e := elemBytes d.fmt
  let at_ := storePlace cl ((m.cl cl).chan n).dst d k off
  let seen := d.mayCollide && m.storedBefore c at_
  let m := if d.mayCollide then m.modCmd c fun x => { x with stored := addNew x.stored at_ } else m
  let skip := seen && Config.freeChoice m.drawn % 2 == 0
  let m := if seen then { m with drawn := m.drawn + 1 } else m
  if skip then (.ok (), m)
  else if d.space = 1 then
    let core := (m.cl cl).core k
    let (old, p) := core.getElem off e
    let m := if d.use = 3 then m.noteSpad cl k off e else m
    if d.use = 3 ∧ p ≠ .clean then (.error (haltOf p), m)
    else (.ok (), m.modCl cl fun x => x.modCore k fun y => y.putElem off e (if d.use = 3 then accumulate d.accOp d.fmt old v else v))
  else if d.view = 1 then m.putGrain c d off v
  else match c.draftDpa d.alloc off with
    | some dpa => m.putDraft a d dpa v
    | none => (.error haltTranslation, m)

/-- Element `el` reaches a local destination: at once, or, where the order of accumulates is free, when its turn comes (R358). -/
def Mach.moverStore (m : Mach) (a : Acc) (cl n : Nat) (c : Cmd) (d : Desc) (el off k v : Nat) : Except Nat Unit × Mach :=
  if m.mayShare cl n c d then (.ok (), m.modChan cl n fun x => { x with late := x.late ++ [(el, k, off, v)] })
  else m.moverApply a cl n c d off k v

/-- Waiting accumulates of a channel applied one by one at free choices, all of them where the move ends; a halt names its cause and
element (R358, R372). -/
def Mach.applyLate (m : Mach) (a : Acc) (cl n : Nat) (c : Cmd) (d : Desc) (all : Bool) : Nat → Option (Nat × Nat) × Mach
  | 0 => (none, m)
  | fuel + 1 =>
    let l := ((m.cl cl).chan n).late
    let (i, m) := if l.length = 1 ∧ all = true then (some 0, m) else if l = [] then (none, m) else m.pick (List.range (l.length + b2n (!all)))
    match i.bind fun i => (l[i]?).map fun x => (i, x) with
    | none => (none, m)
    | some (i, el, k, off, v) =>
      match (m.modChan cl n fun x => { x with late := x.late.eraseIdx i }).moverApply a cl n c d off k v with
      | (.ok _, m) => m.applyLate a cl n c d all fuel
      | (.error e, m) => (some (e, el), m)

/-! ## Elements of a distributed destination (R362 to R365) -/

/-- Ranks of the owner table that own the element with global coordinates `i`, and its local coordinates. -/
def gridOwners (ext : List Nat) (dims : List GDim) (i : List Nat) : List Nat × List Nat :=
  let own := dims.zipIdx.map fun g => (g.1, g.1.owner (ext.getD g.1.axis 1) (i.getD g.2 0))
  let ranks := (List.range (prodNat ext)).filter fun r =>
    let co := coords ext r
    own.all fun o => match o.2.1 with | none => true | some x => co.getD o.1.axis 0 == x
  (ranks, own.map (·.2.2))

/-- The address at which a context maps an offset of an allocation first. -/
def Ctx.vaOf (c : Ctx) (alloc off : Nat) : Option Nat :=
  (c.maps.find? fun r => r.alloc == alloc && decide (r.page * 65536 ≤ off) && decide (off < (r.page + r.pages) * 65536)).map fun r =>
    r.va + (off - r.page * 65536)

/-- The element that an accumulate leaves every other element unchanged by: −0 for a floating-point sum, NaN for a
floating-point extreme, 0 or the far end of the range for an integer (log entry 50). -/
def identityElem (op fmt : Nat) : Nat :=
  match elemFmt fmt with
  | some (.fl f) => if op = 1 then 2 ^ (f.width - 1) else 2 ^ (f.width - 1) - 1
  | some (.int w sg) =>
    if op = 1 then 0
    else if op = 2 then (if sg then 2 ^ (w - 1) else 0)
    else if sg then 2 ^ (w - 1) - 1 else 2 ^ w - 1
  | none => 0

/-- A word whose listed elements of `e` bytes (offset in the word, value) replace those of `base`. -/
def wordOf (e base : Nat) (l : List (Nat × Nat)) : Nat :=
  l.foldl (fun acc x =>
    let mk := (2 ^ (8 * e) - 1) * 2 ^ (8 * x.1)
    Nat.xor (Nat.lor acc mk) mk + x.2 % 2 ^ (8 * e) * 2 ^ (8 * x.1)) base

/-- A word of identity elements. -/
def identityWord (op fmt : Nat) : Nat :=
  let e := elemBytes fmt
  wordOf e 0 ((List.range (8 / e)).map fun i => (i * e, identityElem op fmt))

/-- A word in which the elements on their way replace the bits of `base`. -/
def RemElem.into (base : Nat) (x : RemElem) : Nat :=
  let mk := (2 ^ x.width - 1) * 2 ^ x.lo
  Nat.xor (Nat.lor base mk) mk + x.val % 2 ^ x.width * 2 ^ x.lo

/-- Elements of one aligned word sent to the participant of their rank: an accumulate sends identity elements beside them, a write
sends free values (log entry 50). -/
def Mach.sendWord (m : Mach) (c : Cmd) (els : List RemElem) : Mach :=
  match els with
  | [] => m
  | x :: _ =>
    let word := fun (base : Nat) => els.foldl RemElem.into base
    if x.aux ≠ 0 then m.sendTo c x.rank 2 1 x.va x.aux [BitVec.ofNat 64 (word (identityWord (x.aux / 16) (x.aux % 16)))]
    else
      let (f, m) := if sumNat (els.map (·.width)) = 64 then ((0 : Word), m) else m.free 64
      m.sendTo c x.rank 1 1 x.va 0 [BitVec.ofNat 64 (word f.toNat)]

/-- Two elements travel in one word. -/
def RemElem.sameWord (x y : RemElem) : Bool := x.aux == y.aux && x.rank == y.rank && x.va == y.va

/-- What a command has gathered for other modules. -/
def Mach.gathered (m : Mach) (c : Cmd) : List RemElem := ((m.cmds.find? fun y => sameCmd y c).map (·.gather)).getD []

/-- Part of a word on its way: it leaves when the parts of its word have come together, or behind an earlier one of the same
place (R550). -/
def Mach.gatherElem (m : Mach) (c : Cmd) (x : RemElem) : Mach :=
  let drop := fun (m : Mach) => m.modCmd c fun y => { y with gather := dropWhere x.sameWord y.gather }
  let old := (m.gathered c).filter x.sameWord
  let (old, m) := if old.any (fun y => decide (y.lo < x.lo + x.width) && decide (x.lo < y.lo + y.width)) then ([], (drop m).sendWord c old) else (old, m)
  if sumNat ((old ++ [x]).map (·.width)) = 64 then (drop m).sendWord c (old ++ [x])
  else m.modCmd c fun y => { y with gather := y.gather ++ [x] }

/-- The parts of words that an element at an offset of a shard fills, by their offset in the allocation: its bytes, or a bit in each row of
its turn block (R263). -/
def Desc.partsAt (l : Desc) (a : Alloc) (off v : Nat) : List (Nat × Nat × Nat × Nat) :=
  if l.view = 1 then
    match a.block l.turn (off / 8192) with
    | none => []
    | some (_, row) => (List.range (2 ^ l.turn)).map fun r =>
        (a.blockPage l.turn (off / 8192) * 65536 + (row + r) * 1024 + off % 8192 / 64 * 8, off % 64, 1, v / 2 ^ r % 2)
  else [(off / 8 * 8, 8 * (off % 8), 8 * elemBytes l.fmt, v)]

/-- An element sent to the module of a node, which is a participant; one whose place this context does not map halts the channel (R365,
R372). -/
def Mach.sendElem (m : Mach) (c : Cmd) (l : Desc) (node off v : Nat) : Except Nat Unit × Mach :=
  match (m.cx c.ctx).alloc l.alloc, c.peers.findIdx? (fun p => p.1 == node) with
  | some a, some rank =>
    (l.partsAt a off v).foldl (fun (acc : Except Nat Unit × Mach) p =>
      match (acc.2.cx c.ctx).vaOf l.alloc p.1 with
      | some va => (acc.1, acc.2.gatherElem c ⟨if l.use = 3 then l.accOp * 16 + l.fmt else 0, rank, va, p.2.1, p.2.2.1, p.2.2.2⟩)
      | none => (.error haltTranslation, acc.2)) (.ok (), m)
  | _, _ => (.error haltTranslation, m)

/-- At the end of a command's work, the words that its elements fill only in part. -/
def Mach.sendRest (m : Mach) (c : Cmd) : Mach :=
  let l := m.gathered c
  let firsts := (l.zipIdx.filter fun x => !(l.take x.2).any x.1.sameWord).map (·.1)
  firsts.foldl (fun m x => m.sendWord c (l.filter x.sameWord)) (m.modCmd c fun y => { y with gather := [] })

/-- The owner table of a distributed destination as dispatch read it. -/
def Cmd.ownersOf (c : Cmd) (h : Nat) : List Nat := ((c.ownersL.find? fun x => x.1 == h).map (·.2)).getD []

/-- One element written to a destination for core `l`, `k`: locally, or to the owners of a distributed destination (R365). -/
def Mach.moverWrite (m : Mach) (a : Acc) (cl n : Nat) (c : Cmd) (d : Desc) (el l k v : Nat) : Except Nat Nat × Mach :=
  match d.grid with
  | none =>
    match m.moverGen a cl c d el l k with
    | (.error e, m) => (.error e, m)
    | (.ok .padding, m) => (.ok 0, m)
    | (.ok .outOfRange, m) => (if d.oobSkip then .ok 1 else .error haltIndex, m)
    | (.ok (.off o), m) =>
      match m.moverStore a cl n c d el o.toNat k v with
      | (.ok _, m) => (.ok 0, m)
      | (.error e, m) => (.error e, m)
  | some (ext, _, dims) =>
    match m.liveDesc c.ctx d.local_ with
    | none => (.error haltTranslation, m)
    | some ld =>
      let (ranks, li) := gridOwners ext dims (coords (dims.map (·.extent)) el)
      let owners := c.ownersOf ((m.cl cl).chan n).dst
      match m.moverAt a cl c ld li l k with
      | (.error e, m) => (.error e, m)
      | (.ok .padding, m) => (.ok 0, m)
      | (.ok .outOfRange, m) => (if ld.oobSkip then .ok 1 else .error haltIndex, m)
      | (.ok (.off o), m) =>
        ranks.foldl (fun (acc : Except Nat Nat × Mach) r =>
          let node := owners.getD r 0xFFFF
          match acc.1 with
          | .error e => (.error e, acc.2)
          | .ok x =>
            match (if node = acc.2.shr.node.toNat then acc.2.moverStore a cl n c ld el o.toNat k v else acc.2.sendElem c ld node o.toNat v) with
            | (.ok _, m) => (.ok x, m)
            | (.error e, m) => (.error e, m)) (.ok 0, m)

/-! ## Registers of a channel -/

/-- MV_CHAN_STATUS and MV_HALT_INFO. -/
def Chan.statusWord (c : Chan) : Word :=
  packWord [(62, c.st), (59, c.ctxSlot), (58, b2n c.attached), (57, b2n c.turner), (41, min c.oob 65535), (0, c.done % 2 ^ 41)]
def haltWord (cause elem : Nat) (valid : Bool) : Word := packWord [(56, cause), (55, b2n valid), (0, elem % 2 ^ 41)]

/-- The channel halts, its command is killed and reported (R372, R433). -/
def Mach.moverHalt (m : Mach) (cl n : Nat) (c : Cmd) (cause elem : Nat) (l : Word) : Mach :=
  let m := m.modChan cl n fun x =>
    if x.haltValid then { x with st := 3 } else { x with st := 3, haltCause := cause, haltValid := true, haltElem := elem }
  let x := (m.cl cl).chan n
  let m := m.post .moverHalt (some c.ctx) (uCluster cl)
    [haltWord cause elem true, x.statusWord, BitVec.ofNat 64 c.seq, BitVec.ofNat 64 (x.src + x.dst * 2 ^ 32), l]
  let m := if cause = haltUe ∨ cause = haltPoison then m.touchPoison c.seq (uCluster cl) l else m
  m.fail c .halted (detailWord srcMover cause cl)

/-- A channel has moved its last element; when no channel moves for a MOVE command any more, the command has ended
(R367, R433). -/
def Mach.moveDone (m : Mach) (cl n : Nat) (c : Cmd) : Mach :=
  let m := m.modChan cl n fun x => { x with st := 0, late := [] }
  if c.kind = .move ∧ !((m.cl cl).chans.any fun e => e.2.cmd == c.seq && (e.2.st == 1 || e.2.st == 2)) then
    m.modCmd c fun x => { x with phase := if x.phase = .running then .ended else x.phase }
  else m

/-! ## Starting a move (R366 to R369, R371) -/

/-- A move passes a turner: exactly one side is a grain view (R262). -/
def turnerMove (s d : Desc) : Bool := (s.view == 1) != (d.view == 1)

/-- The element count that movers share out: the grain side's where w-bit elements pair with bytes (R353, R367). -/
def Mach.moveCount (m : Mach) (ctx : Nat) (s d : Desc) : Nat :=
  if s.view = 1 then m.elemCount ctx s else
    match d.grid with
    | some (_, _, dims) => prodNat (dims.map (·.extent))
    | none => if d.view = 1 then m.elemCount ctx d else m.elemCount ctx s

/-- Free channels of a cluster. -/
def Cluster.freeChans (c : Cluster) : List Nat := (List.range 8).filter fun n => (c.chan n).st == 0

/-- `k` channels of a cluster taken for a move, at a free choice, each with its share of the elements. -/
def Mach.startMove (m : Mach) (cl slot : Nat) (c : Cmd) (src dst k : Nat) (attached : Bool) : Mach :=
  match m.liveDesc c.ctx src, m.liveDesc c.ctx dst with
  | some s, some d =>
    let e := m.moveCount c.ctx s d
    let share := ceilDiv e k
    (List.range k).foldl (fun m j =>
      match m.pick (m.cl cl).freeChans with
      | (some n, m) => m.modChan cl n fun x =>
        { x with st := if j * share < min e ((j + 1) * share) then 1 else 0, cmd := c.seq, src := src, dst := dst, attached := attached, turner := turnerMove s d,
                 ctxSlot := slot, first := j * share, limit := min e ((j + 1) * share), core := 0, oob := 0, done := 0, sub := 0,
                 waiting := false, late := [] }
      | (none, m) => m) m
  | _, _ => m

/-! ## One transfer (R367, R368, R370) -/

/-- The (logical, physical) cores that one element is moved for: every core for a scratchpad destination, the core in turn for
a scratchpad source, else core index 0. -/
def moveCores (cl : Cluster) (s d : Desc) (core : Nat) : List (Nat × Nat) :=
  let all := cl.phys.zipIdx.map fun x => (x.2, x.1)
  if d.space = 1 ∧ d.grid.isNone then all else if s.space = 1 then (all[core]?).toList else [(0, 0)]

/-- The stack that element `n` of a local descriptor lies in, for the side that is read or written: none where it causes no access to
stack memory. -/
def Mach.elemStack (m : Mach) (a : Acc) (cl : Nat) (c : Cmd) (d : Desc) (write : Bool) (n l k : Nat) : Option Nat :=
  if d.space = 1 ∨ d.grid.isSome = true then none else
    match (m.moverGen a cl c d n l k).1 with
    | .ok (.off o) =>
      if d.view = 1 then (m.grainRow c d write (o.toNat / 8192)).map stackOfCell
      else (if write then c.draftDpa d.alloc o.toNat else m.moveSrc c d.alloc o.toNat).map fun x => frameStack (frameOf x)
    | _ => none

/-- The mast die of a stack (R13), of a cluster (R15), and the bytes that cross the bridge between two dies (R20). -/
def dieOfStack (k : Nat) : Nat := k / 6
def dieOfCluster (c : Nat) : Nat := c / 16
def bridgeBytes (a b n : Nat) : Meters := pathBytes 3 (if a = b then 0 else n)

/-- The bytes of a cluster's access to stack memory that cross the bridge: those to a remote stack (R17, R20; log entry 73). -/
def Mach.crossing (m : Mach) (x : Cmd) (cl dpa n : Nat) : Mach :=
  m.modCmd x fun y => { y with meters := y.meters.add (bridgeBytes (dieOfCluster cl) (dieOfStack (frameStack (frameOf dpa))) n) }

/-- The bytes that an element of a move carries over the stack interfaces and over the bridge: from the stack of its source, or the
cluster, to the stack of its destination, or the cluster (R20, R676; log entry 73). -/
def Mach.meterElem (m : Mach) (a : Acc) (cl : Nat) (c : Cmd) (s d : Desc) (n l k : Nat) : Mach :=
  let e := elemBytes s.fmt
  let src := m.elemStack a cl c s false n l k
  let dst := m.elemStack a cl c d true n l k
  let side := fun (x : Desc) (st : Option Nat) => if x.space = 1 then some (dieOfCluster cl) else st.map dieOfStack
  let x := ((pathBytes 0 (if src.isSome then e else 0)).add (pathBytes 1 (if dst.isSome then e else 0))).add
    (match side s src, side d dst with | some p, some q => bridgeBytes p q e | _, _ => {})
  m.modCmd c fun y => { y with meters := y.meters.add x }

/-- One element of a move for one core: its effect, or the cause of a halt. -/
def Mach.moveElem (m : Mach) (a : Acc) (cl n : Nat) (c : Cmd) (s d : Desc) (el : Nat) (lk : Nat × Nat) : Except Nat Nat × Mach :=
  match m.moverRead a cl c s el lk.1 lk.2 with
  | (.error e, m) => (.error e, m)
  | (.ok (v, o), m) =>
    match m.moverWrite a cl n c d el lk.1 lk.2 v with
    | (.error e, m) => (.error e, m)
    | (.ok o2, m) => (.ok (max o o2), m)

/-- Elements moved one after another until one halts: the elements done, those skipped (each counts once, R348), and the cause and
element of a halt. -/
def Mach.moveRun (m : Mach) (a : Acc) (cl n : Nat) (c : Cmd) (s d : Desc) (core : Nat) : List Nat → Nat × Nat × Option (Nat × Nat) × Mach
  | [] => (0, 0, none, m)
  | el :: r =>
    let lks := moveCores (m.cl cl) s d core
    let res := lks.foldl (fun (acc : Except Nat Nat × Mach) lk =>
      match acc.1 with
      | .error e => (.error e, acc.2)
      | .ok o => match acc.2.moveElem a cl n c s d el lk with | (.ok o2, m) => (.ok (max o o2), m) | (.error e, m) => (.error e, m)) (.ok 0, m)
    match res with
    | (.error e, m) => (0, 0, some (e, el), m)
    | (.ok o, m) =>
      let m := match lks with | lk :: _ => m.meterElem a cl c s d el lk.1 lk.2 | [] => m
      let (k, o2, h, m) := m.moveRun a cl n c s d core r; (k + 1, o + o2, h, m)

/-- Who a mover is to the stack controllers. -/
def moverAcc (c : Cmd) (cl : Nat) : Acc := ⟨whoMover, c.ctx, cl, c.seq⟩

/-! ## The scratchpad ports of a transfer (R145, R162, R163, R370) -/

/-- The banks that a read takes: those of its lines, and of its scale bytes. -/
def Feed.banks (f : Feed) : List (Nat × Nat) := (spadBanks f.addr f.bytes ++ f.also).map fun b => (f.core, b)

/-- A scratchpad access of an element: whether it writes, the core, and the line. -/
structure SpadUse where
  write : Bool
  core : Nat
  line : Nat
  deriving DecidableEq, Repr

/-- Its bank. -/
def SpadUse.bank (x : SpadUse) : Nat × Nat := (x.core, x.line % 32)

/-- The scratchpad accesses that moving element `el` causes: its source, the index elements of either side, and its destination, which
an accumulate reads as well. -/
def Mach.spadUses (m : Mach) (a : Acc) (cl : Nat) (c : Cmd) (s d : Desc) (el : Nat) (lk : Nat × Nat) : List SpadUse :=
  let at_ := fun (write : Bool) (o : Nat) => (⟨write, lk.2, o / 64⟩ : SpadUse)
  let index := fun (x : Desc) => match m.liveDesc c.ctx x.index with
    | some y => if x.index ≠ 0 ∧ y.space = 1 then
        ((y.indexOff ((coords (x.extents (m.indexCount c.ctx x)) el).getD x.indexDim 0) lk.1).map (at_ false)).toList else []
    | none => []
  let place := fun (x : Desc) => if x.space = 1 ∧ x.grid.isNone = true then
      (match (m.moverGen a cl c x el lk.1 lk.2).1 with | .ok (.off o) => some o.toNat | _ => none) else none
  index s ++ index d ++ ((place s).map (at_ false)).toList ++ ((place d).map (at_ true)).toList
    ++ (if d.use = 3 then ((place d).map (at_ false)).toList else [])

/-- An access finds its port free: a bank serves one line's read in an ac, which no slot, feeder or MLDB has taken or wants, and two
writes; accesses of one transfer to one line are one. -/
def Cluster.portFree (k : Cluster) (mine : List SpadUse) (x : SpadUse) : Bool :=
  let wanted := if k.granted then [] else k.feeds.flatMap Feed.banks
  let same := (mine.filter fun y => y.write == x.write).map SpadUse.bank
  mine.contains x || (if x.write then decide (((k.wroteBanks ++ same).filter (· == x.bank)).length < 2)
    else !(k.slotBanks ++ wanted ++ same).contains x.bank)

/-- The accesses of an element taken on top of those of a transfer: none where one of them finds no port. -/
def Cluster.takePorts (k : Cluster) (mine l : List SpadUse) : Option (List SpadUse) :=
  l.foldl (fun acc x => acc.bind fun mine => if k.portFree mine x then some (addNew mine x) else none) (some mine)

/-- The elements, from the first, whose scratchpad accesses find their ports in this ac, and the accesses. -/
def Cluster.grantEls (k : Cluster) : List (Nat × List SpadUse) → List SpadUse → List Nat × List SpadUse
  | [], mine => ([], mine)
  | (el, l) :: r, mine =>
    match k.takePorts mine l with
    | none => ([], mine)
    | some mine => let (els, mine) := k.grantEls r mine; (el :: els, mine)

/-- The ports that a transfer has taken. -/
def Cluster.usePorts (k : Cluster) (mine : List SpadUse) : Cluster :=
  { k with slotBanks := k.slotBanks ++ (mine.filter fun x => !x.write).map SpadUse.bank, wroteBanks := k.wroteBanks ++ (mine.filter (·.write)).map SpadUse.bank }

/-! ## Transfers -/

/-- A page of a grain view in stack memory that a move reads is owned by a spar command, which holds the access (R318). -/
def Mach.viewHeld (m : Mach) (c : Cmd) (x : Desc) : Bool :=
  x.space == 0 && x.view == 1 && (match (m.cx c.ctx).alloc x.alloc with
    | some y => (x.touched y).any fun t => (y.page t.1).any fun f => m.ownedAt (frameDpa (m.moveFrame c x.alloc t.1 f))
    | none => false)

/-- What a move reads is held: its source, or the index of either side. -/
def Mach.moveHeld (m : Mach) (c : Cmd) (s d : Desc) : Bool :=
  m.viewHeld c s || [s, d].any fun x => x.index != 0 && (m.liveDesc c.ctx x.index).any (m.viewHeld c)

/-- The grain side of a move, and the offset there of the first element of block `b` for logical core `l`: of a shard, where the element
lies in it (R262, R269, R362). -/
def Mach.grainSide (m : Mach) (c : Cmd) (s d : Desc) (b l : Nat) : Option (Desc × Nat) :=
  let at_ := fun (g : Desc) (i : Nat) => (g, (g.base + (if g.perCore then l * g.coreStep else 0) + (i : Int)).toNat)
  if d.view = 1 then
    match d.grid with
    | none => some (at_ d (b * 8192))
    | some (ext, _, dims) => (m.liveDesc c.ctx d.local_).map fun ld => at_ ld ((gridOwners ext dims (coords (dims.map (·.extent)) (b * 8192))).2.getD 0 0)
  else some (at_ s (b * 8192))

/-- The stack whose turner a block of a move passes, the block's first cell on the grain side, and whether the block is a whole turn block
of a local descriptor there. -/
def Mach.grainBlock (m : Mach) (c : Cmd) (s d : Desc) (b l : Nat) : Option (Nat × Nat × Bool) :=
  (m.grainSide c s d b l).bind fun (g, o) => (m.grainRow c g (d.view == 1) (o / 8192)).map fun cell => (stackOfCell cell, cell, o % 8192 == 0 && d.grid.isNone)

/-- A grain to grain move of whole blocks: 128 B of the rows of block `b`, copied through the bits of the elements (R371); a halt names its
cause and the first element of the bad word. -/
def Mach.moveGrainPiece (m : Mach) (a : Acc) (c : Cmd) (s d : Desc) (b sub : Nat) : Except (Nat × Nat) Unit × Mach :=
  match m.grainRow c s false (s.base / 8192 + b), m.grainRow c d true (d.base / 8192 + b) with
  | some src, some dst =>
    let o := sub / 8 * 1024 + sub % 8 * 128
    let used := ((pathBytes 0 128).add (pathBytes 1 128)).add (bridgeBytes (dieOfStack (stackOfCell src)) (dieOfStack (stackOfCell dst)) 128)
    let m := m.modCmd c fun y => { y with meters := y.meters.add used }
    (List.range 16).foldl (fun (acc : Except (Nat × Nat) Unit × Mach) i =>
      match acc.1 with
      | .error e => (.error e, acc.2)
      | .ok _ =>
        match acc.2.moverWord a (grainBase + src + o + 8 * i) 8 with
        | (.ok v, m) => (.ok (), m.writeWord (grainBase + dst + o + 8 * i) ⟨BitVec.ofNat 64 v, false⟩)
        | (.error e, m) => (.error (e, b * 8192 + (sub % 8 * 128 + 8 * i) * 8), m)) (.ok (), m)
  | _, _ => (.error (haltTranslation, b * 8192), m)

/-- The local descriptor that a channel's elements are applied through: the destination, or the shard of a distributed one. -/
def Mach.chanDest (m : Mach) (cl n : Nat) (c : Cmd) : Option Desc :=
  (m.liveDesc c.ctx ((m.cl cl).chan n).dst).bind fun d => if d.grid.isSome then m.liveDesc c.ctx d.local_ else some d

/-- A piece of a channel's range is done: the next core of a scratchpad source, or the end of the move, before which every
accumulate has been applied. -/
def Mach.moveAdvance (m : Mach) (cl n : Nat) (c : Cmd) (s : Desc) (done oob : Nat) : Mach :=
  let m := m.modChan cl n fun x => { x with first := x.first + done, done := x.done + done, oob := x.oob + oob }
  let x := (m.cl cl).chan n
  let turns := decide (s.space = 1) && ((m.liveDesc c.ctx x.dst).any fun d => d.space == 0) && decide (x.core + 1 < (m.cl cl).phys.length)
  let (halt, m) := match m.chanDest cl n c with
    | some d => m.applyLate (moverAcc c cl) cl n c d (!turns && decide (x.limit ≤ x.first)) x.late.length
    | none => (none, m)
  match halt with
  | some (why, el) => m.moverHalt cl n c why el 0
  | none =>
    if x.first < x.limit then m
    else if turns then m.modChan cl n fun y => { y with core := y.core + 1, first := y.limit - y.done / (x.core + 1) }
    else m.moveDone cl n c

/-- The cores that each block of a turned move goes round: those of a scratchpad destination whose source has per_core (R368). -/
def turnCores (cl : Cluster) (s d : Desc) : Nat := if d.space = 1 ∧ s.perCore = true then cl.phys.length else 1

/-- The next block of a channel's range goes to its turner, which works through its range by blocks of 8,192 elements (R265, R266). -/
def Mach.moverTurn (m : Mach) (cl n : Nat) (c : Cmd) (s d : Desc) : Mach :=
  let x := (m.cl cl).chan n
  let b := ceilDiv x.first 8192
  let l := if s.space = 1 then x.core else x.sub
  if x.limit ≤ b * 8192 then m.moveAdvance cl n c s (x.limit - x.first) 0 else
    match m.grainBlock c s d b l with
    | none => m.moverHalt cl n c haltTranslation (b * 8192) 0
    | some (k, _) => (m.modSt k fun st => { st with turns := st.turns ++ [({ cluster := cl, chan := n, block := b, core := l } : Turn)] }).modChan cl n fun x => { x with waiting := true }

/-- 128 B of a move between grain pages that are laid out alike. -/
def Mach.moverPiece (m : Mach) (cl n : Nat) (c : Cmd) (s d : Desc) : Mach :=
  let x := (m.cl cl).chan n
  let b := ceilDiv x.first 8192
  if x.limit ≤ b * 8192 then m.moveAdvance cl n c s (x.limit - x.first) 0 else
    match m.moveGrainPiece (moverAcc c cl) c s d b x.sub with
    | (.error (e, el), m) => m.moverHalt cl n c e el 0
    | (.ok _, m) =>
      if x.sub + 1 < 8 * 2 ^ d.turn then m.modChan cl n fun y => { y with sub := y.sub + 1 }
      else (m.modChan cl n fun y => { y with sub := 0 }).moveAdvance cl n c s (min x.limit ((b + 1) * 8192) - x.first) 0

/-- Up to 128 B of a move element by element: those from the first whose scratchpad accesses find their ports (R163, R370). -/
def Mach.moverEls (m : Mach) (cl n : Nat) (c : Cmd) (s d : Desc) : Mach :=
  let x := (m.cl cl).chan n
  let a := moverAcc c cl
  let per := if s.view = 1 then 1024 / 2 ^ s.turn else 128 / elemBytes s.fmt
  let els := (List.range per).map (· + x.first) |>.filter fun i => decide (i < x.limit)
  let uses := els.map fun el => (el, (moveCores (m.cl cl) s d x.core).flatMap (m.spadUses a cl c s d el))
  let (els, ports) := (m.cl cl).grantEls uses []
  if els.isEmpty && decide (x.first < x.limit) then m else
    let (k, o, h, m) := (m.modCl cl fun y => y.usePorts ports).moveRun a cl n c s d x.core els
    match h with
    | some (e', el) =>
      (m.modChan cl n fun y => { y with first := y.first + k, done := y.done + k, oob := y.oob + o }).moverHalt cl n c e' el 0
    | none => m.moveAdvance cl n c s k o

/-- MOVER_TRANSFER: a channel moves up to 128 B (R370), or hands its next block to a turner (R266, R371); one that waits for a
controller entry stalls (R249), and a page that a spar command owns holds it (R318). -/
def Mach.moverTransfer (m : Mach) (cl n : Nat) : Mach :=
  let x := (m.cl cl).chan n
  match m.cmdOf x.cmd with
  | none => m
  | some c =>
    match m.liveDesc c.ctx x.src, m.liveDesc c.ctx x.dst with
    | some s, some d =>
      if x.st ≠ 1 ∨ c.phase ≠ .running ∨ x.waiting = true ∨ m.moveHeld c s d = true then m
      else if x.turner then m.moverTurn cl n c s d
      else if s.view = 1 ∧ d.grid.isNone then m.moverPiece cl n c s d
      else m.moverEls cl n c s d
    | _, _ => m

/-- MOVER_TRANSFER (R370, R372): one transfer of channel `n` of cluster `c`. -/
def execMoverTransfer (c : Fin 32) (n : Fin 8) (s : State) : Host.Outcome State Fault Refusal :=
  .next (s.withMach (s.m.moverTransfer c.val n.val))

/-! ## The turner (R262 to R268) -/

/-- Bit rows of 8,192 elements of width `w` given as one number in word order: row `k` holds bit `k` of each element (R263). -/
def turnRow (w v k : Nat) : Nat := ((List.range 8192).map fun e => bitAt v (e * w + k)).reverse.foldl (fun a x => a * 2 + b2n x) 0

/-- The word-order number of a block from its rows. -/
def unturn (rows : List Nat) : Nat :=
  ((List.range 8192).flatMap fun e => rows.map fun r => bitAt r e).reverse.foldl (fun a x => a * 2 + b2n x) 0

/-- Elements of a block read one after another for a core as one number, lowest first, with how many of them were skipped; a halt names its
cause and the element's place in the list. -/
def Mach.turnRead (m : Mach) (a : Acc) (cl : Nat) (c : Cmd) (s : Desc) (w : Nat) (lk : Nat × Nat) (els : List Nat) :
    Except (Nat × Nat) (Nat × Nat) × Mach :=
  els.zipIdx.foldl (fun (acc : Except (Nat × Nat) (Nat × Nat) × Mach) x =>
    match acc.1 with
    | .error y => (.error y, acc.2)
    | .ok (t, o) =>
      match acc.2.moverRead a cl c s x.1 lk.1 lk.2 with
      | (.error y, m) => (.error (y, x.2), m)
      | (.ok (v, o2), m) => (.ok (t + v % 2 ^ w * 2 ^ (w * x.2), o + o2), m)) (.ok (0, 0), m)

/-- Elements of `w` bits of a block written from one number for each of the cores, lowest first, with how many of them were skipped. -/
def Mach.turnWrite (m : Mach) (a : Acc) (cl n : Nat) (c : Cmd) (d : Desc) (w v : Nat) (lks : List (Nat × Nat)) (els : List Nat) :
    Except (Nat × Nat) Nat × Mach :=
  els.zipIdx.foldl (fun (acc : Except (Nat × Nat) Nat × Mach) x =>
    match acc.1 with
    | .error y => (.error y, acc.2)
    | .ok o =>
      let r := lks.foldl (fun (acc : Except Nat Nat × Mach) lk =>
        match acc.1 with
        | .error y => (.error y, acc.2)
        | .ok o => match acc.2.moverWrite a cl n c d x.1 lk.1 lk.2 (v / 2 ^ (w * x.2) % 2 ^ w) with
          | (.ok o2, m) => (.ok (max o o2), m)
          | (.error y, m) => (.error y, m)) (.ok 0, acc.2)
      match r with
      | (.ok o2, m) => (.ok (o + o2), m)
      | (.error y, m) => (.error (y, x.2), m)) (.ok 0, m)

/-- The words of a turn block that a grain side reads, checked and corrected: the block's rows, and the first lane that a bad word holds,
with the cause of a halt (R267, R372). -/
def Mach.blockRead (m : Mach) (a : Acc) (cell w : Nat) : (List Nat × Option (Nat × Nat)) × Mach :=
  let cells := (List.range w).flatMap fun r => (List.range 128).map fun i => (i, cell + 1024 * r + 8 * i)
  let ds := cells.map fun y => (y.1, y.2, m.decodeCell y.2)
  let bad := (ds.filter fun y => y.2.2.word.poison).foldl (fun (b : Option (Nat × Nat)) y => match b with
    | some z => if y.1 * 64 < z.1 then some (y.1 * 64, haltOf y.2.2.kind) else b
    | none => some (y.1 * 64, haltOf y.2.2.kind)) none
  (((List.range w).map fun r => (m.rowValue (cell + 1024 * r)).1, bad), ds.foldl (fun m y => m.noteRead a y.2.1 y.2.2) m)

/-- One block through the turner of stack `k`: `nw` word elements of `ew` bits against 8,192 of `w` bits. A whole turn block of a local grain
descriptor is read or written by rows, other elements one by one. Of a block with a bad grain word, the elements before its first lane are
delivered, and the move halts there (R267, R372). -/
def Mach.turnBlock (m : Mach) (k : Nat) (t : Turn) : Mach :=
  let x := (m.cl t.cluster).chan t.chan
  match m.cmdOf x.cmd with
  | none => m
  | some c =>
    match m.liveDesc c.ctx x.src, m.liveDesc c.ctx x.dst with
    | some s, some d =>
      let toGrain := d.view == 1
      let w := 2 ^ (if toGrain then d.turn else s.turn)
      let ew := 8 * elemBytes (if toGrain then s.fmt else d.fmt)
      let nw := w * 8192 / ew
      let words := (List.range nw).map (· + t.block * nw)
      let lanes := (List.range 8192).map (· + t.block * 8192)
      let all := (m.cl t.cluster).phys.zipIdx.map fun y => (y.2, y.1)
      let own := ((all[t.core]?).getD (0, 0))
      let lks := if d.space = 1 ∧ d.grid.isNone = true ∧ s.perCore = false then all else [own]
      let a : Acc := ⟨whoTurner, c.ctx, k, c.seq⟩
      let mine := moverAcc c t.cluster
      let cross := match (if toGrain then m.elemStack mine t.cluster c s false (t.block * nw) own.1 own.2 else m.elemStack mine t.cluster c d true (t.block * nw) own.1 own.2) with
        | some q => bridgeBytes (dieOfStack k) (dieOfStack q) (w * 1024)
        | none => bridgeBytes (dieOfStack k) (if s.space = 1 ∨ d.space = 1 then dieOfCluster t.cluster else dieOfStack k) (w * 1024)
      let m := m.count 3 k 0x06 (w * 1024)
      let used := (((pathBytes 2 (w * 1024)).add (pathBytes 0 (if s.space = 0 then w * 1024 else 0))).add (pathBytes 1 (if d.space = 0 then w * 1024 else 0))).add cross
      let m := m.modCmd c fun y => { y with meters := y.meters.add used }
      let free := fun (m : Mach) => m.modChan t.cluster t.chan fun y => { y with waiting := false }
      let done := fun (m : Mach) (o : Nat) =>
        if x.sub + 1 < turnCores (m.cl t.cluster) s d then (free m).modChan t.cluster t.chan fun y => { y with sub := y.sub + 1, oob := y.oob + o }
        else ((free m).modChan t.cluster t.chan fun y => { y with sub := 0 }).moveAdvance t.cluster t.chan c s (min x.limit ((t.block + 1) * 8192) - x.first) o
      let halt := fun (m : Mach) (why lane : Nat) => (free m).moverHalt t.cluster t.chan c why (t.block * 8192 + lane) 0
      match m.grainBlock c s d t.block t.core with
      | none => halt m haltTranslation 0
      | some (_, cell, whole) =>
        if toGrain then
          match m.turnRead mine t.cluster c s ew own words with
          | (.error (why, i), m) => halt m why (i * 8192 / nw)
          | (.ok (v, o), m) =>
            if whole then done ((List.range w).foldl (fun m r => m.putRow (cell + 1024 * r) (turnRow w v r) 0) m) o
            else match m.turnWrite a t.cluster t.chan c d w v [own] lanes with
              | (.error (why, i), m) => halt m why i
              | (.ok o2, m) => done m (o + o2)
        else
          let (r, m) : Except (Nat × Nat) (Nat × Option (Nat × Nat)) × Mach :=
            if whole then let ((rows, bad), m) := m.blockRead a cell w; (.ok (unturn rows, bad), m)
            else match m.turnRead a t.cluster c s w own lanes with
              | (.error (why, i), m) => (.error (why, i), m)
              | (.ok (v, _), m) => (.ok (v, none), m)
          match r with
          | .error (why, i) => halt m why i
          | .ok (v, bad) =>
            let good := match bad with | some b => words.take (b.1 * nw / 8192) | none => words
            match m.turnWrite mine t.cluster t.chan c d ew v lks good with
            | (.error (why, i), m) => halt m why (i * 8192 / nw)
            | (.ok o, m) =>
              match bad with
              | some (lane, why) => halt (m.modSt k fun st => { st with turnPoison := true }) why lane
              | none => done m o
    | _, _ => m

/-- A turn block that a spar command's ownership of its page holds (R318). -/
def Mach.turnHeld (m : Mach) (t : Turn) : Bool :=
  let x := (m.cl t.cluster).chan t.chan
  match m.cmdOf x.cmd with
  | none => false
  | some c =>
    match m.liveDesc c.ctx x.src, m.liveDesc c.ctx x.dst with
    | some s, some d => m.moveHeld c s d
    | _, _ => false

/-- TURNER_BLOCK: the turner of a stack converts the next block in its rotation whose reads are not held (R263, R266, R318). -/
def execTurnerBlock (k : Fin 12) (s : State) : Host.Outcome State Fault Refusal :=
  match (s.m.st k.val).turns.find? fun t => !s.m.turnHeld t with
  | none => .next s
  | some t => .next (s.withMach ((s.m.modSt k.val fun st => { st with turns := st.turns.erase t }).turnBlock k.val t))

end Sys2Proof.Machine
end

