-- ==== Sys2Proof/Machine/Issue.lean ====
section
/-! DEFINITION. The sequencer of a cluster: one issue cycle with its slots, traps and freezes, the boundary between
commands, and instruction-memory loads (R47 to R71, R85 to R149, R181 to R185, R510 to R517, R590 to R592). -/
namespace Sys2Proof.Machine

/-! ## The running command and its registers -/

/-- The command that runs on a cluster and the image it runs there. -/
def Mach.running' (m : Mach) (c : Nat) : Option (Cmd × Img) :=
  match (m.cl c).cmd with
  | none => none
  | some seq =>
    match m.cmdOf seq with
    | none => none
    | some x => (x.placed.find? fun p => p.1 == c).map fun p => (x, p.2.2)

/-- SEQ_STATUS, SEQ_TRAP_INFO and SEQ_FREEZE_CAUSE. -/
def Cluster.statusWord (c : Cluster) : Word :=
  packWord [(48, c.width), (40, c.coreMask.toNat), (36, c.phys.length), (20, c.runState), (8, c.rank), (0, c.ctxSlot)]
def trapWord (code slot mask user off : Nat) (valid : Bool) : Word :=
  packWord [(56, code), (53, slot), (45, mask), (21, user), (20, b2n valid), (0, off)]
def Cluster.freezeWord (c : Cluster) : Word := packWord [(8, c.seen.toNat), (0, c.frozen.toNat)]

/-- Scalar register `i` and predicate `i`. -/
def Cluster.gv (c : Cluster) (i : Nat) : PWord := Tab.get {} c.g i
def Cluster.pv (c : Cluster) (i : Nat) : Bool := Tab.get false c.p i
def Cluster.pp (c : Cluster) (i : Nat) : Bool := Tab.get false c.pPoison i

/-- A slot with this predicate field takes effect (R53, R109). -/
def Cluster.on (c : Cluster) (pred : Nat) : Bool := match predOf pred with | none => true | some i => c.pv i

/-- The poison of a slot's predicate. -/
def Cluster.predPoison (c : Cluster) (pred : Nat) : Bool := match predOf pred with | none => false | some i => c.pp i

/-- Bank B for true, bank A for false: read and changed. -/
def Cluster.imem (c : Cluster) (b : Bool) : Imem := if b then c.imemB else c.imemA
def Cluster.modImem (c : Cluster) (b : Bool) (f : Imem → Imem) : Cluster :=
  if b then { c with imemB := f c.imemB } else { c with imemA := f c.imemA }

/-- A word of an instruction-memory bank as a fetch decodes it, and the code as fetches deliver it (R631, R639, R739). -/
def Imem.decode (b : Imem) (w : Nat) : EccRead := eccDecode (BitVec.ofNat 64 (fld b.code (8 * w) 8)) false (Tab.get 0 b.flips w)
def Imem.text (b : Imem) : List Byte :=
  b.flips.foldl (fun l e => l.take (8 * e.1) ++ leBytes 8 (b.decode e.1).word.val.toNat ++ l.drop (8 * e.1 + 8)) b.code

/-- The bank that serves the running command, and the window of its context slot. -/
def Cluster.bank (c : Cluster) : Imem := if c.imemB.st = .active then c.imemB else c.imemA
def Cluster.window (c : Cluster) : Ram := Tab.get {} c.windows c.ctxSlot

/-! ## Upsets (R627, R630) -/

/-- The number under which a cluster keeps what errors have flipped in a word of a context's cache line. -/
def cacheWord (ctx a : Nat) : Nat := ctx * 2 ^ 48 + a / 8

/-- Stored bits of a cluster upset: flipped in a memory with its check bits, to be decoded when the word is read; a register's word of 64
bits and its parity bit (bit 64) delivers poison where an odd number of them is flipped. -/
def Cluster.upset (c : Cluster) (u : ClSite × BitVec 72) : Cluster :=
  let x := u.2.setWidth 64
  let odd := popcount 65 (u.2.toNat % 2 ^ 65) % 2 == 1
  match u.1 with
  | .imem b w => c.modImem b fun y => if 8 * w < y.code.length then { y with flips := Tab.upd 0 y.flips w (· ^^^ u.2) } else y
  | .window s w => if w < 4096 then { c with windows := Tab.upd {} c.windows s.val fun r => r.flip w u.2 } else c
  | .spad k w => if w < 2 ^ 18 then c.modCore k.val fun y => { y with spad := y.spad.flip w u.2 } else c
  | .g i => { c with g := Tab.upd {} c.g i.val fun r => ⟨r.val ^^^ x, r.poison || odd⟩ }
  | .p i => { c with p := Tab.upd false c.p i.val fun v => v != x.getLsbD 0,
                     pPoison := Tab.upd false c.pPoison i.val fun v => v || odd }
  | .v k i w => c.modCore k.val fun y => { y with v := Tab.upd {} y.v i.val fun r =>
      ⟨r.val ^^^ (x.setWidth 2048 <<< (64 * w.val)), if odd then r.poison ||| (1#32 <<< w.val) else r.poison⟩ }
  | .m k i w => c.modCore k.val fun y => { y with m := Tab.upd {} y.m i.val fun r =>
      { r with val := r.val ^^^ (x.setWidth 128 <<< (64 * w.val)), poison := r.poison || odd } }
  | .acc k w => c.modCore k.val fun y => { y with accFlips := Tab.upd 0 y.accFlips w.val (· ^^^ u.2) }
  | .cache ctx w => if c.cache.any fun l => l.1 == ctx.val && l.2.1 == w / 8 * 64 then { c with cacheFlips := Tab.upd 0 c.cacheFlips (cacheWord ctx.val (8 * w)) (· ^^^ u.2) } else c

/-! ## Traps (R147 to R149) -/

/-- What a failed check is: code, slot, cores that failed it, user code. -/
structure Trap where
  code : Nat
  slot : Nat
  mask : Nat
  user : Nat := 0
  deriving DecidableEq, Repr

/-- A trap of the running command: the first fills SEQ_TRAP_INFO, each is recorded, and the command is killed. The record of a further
trap holds that trap's own word, for the register keeps the first (DESIGN CHOICE, log entry 69). -/
def Mach.mastTrap (m : Mach) (c : Nat) (x : Cmd) (img : Img) (t : Trap) : Mach :=
  let cl := m.cl c
  let m := m.modCl c fun k => if k.trapValid then k else
    { k with trapValid := true, trapCode := t.code, trapSlot := t.slot, trapMask := t.mask, trapUser := t.user, trapOff := k.pc }
  let m := m.post .mastFault (some x.ctx) (uCluster c)
    [trapWord t.code t.slot t.mask t.user cl.pc true, cl.statusWord, BitVec.ofNat 64 cl.issueAc, BitVec.ofNat 64 cl.freezeAc,
     BitVec.ofNat 64 x.seq, BitVec.ofNat 64 img.va]
  m.fail x .trapped (detailWord srcMast t.code c)

/-! ## The scalar slot (R113 to R115) -/

/-- The arithmetic of ADD to MAXU; the immediate forms have the code of their register form plus 0x10. -/
def aluOp (op : Nat) (a b : Word) : Word :=
  match op with
  | 0x01 => a + b
  | 0x02 => a - b
  | 0x03 => a * b
  | 0x04 => BitVec.ofNat 64 (a.toNat * b.toNat / 2 ^ 64)
  | 0x05 => a &&& b
  | 0x06 => a ||| b
  | 0x07 => a ^^^ b
  | 0x08 => a <<< (b.toNat % 64)
  | 0x09 => a >>> (b.toNat % 64)
  | 0x0A => a.sshiftRight (b.toNat % 64)
  | 0x0B => if a.slt b then a else b
  | 0x0C => if a.slt b then b else a
  | 0x0D => if a.ult b then a else b
  | _ => if a.ult b then b else a

/-- The address of a window access. -/
def Cluster.windowAddr (c : Cluster) (s : SSlot) : Nat := ((c.gv s.rs1).val + ofInt64 s.simm).toNat

/-- Bytes of a window access. -/
def windowSize (op : Nat) : Nat := if op = 0x40 ∨ op = 0x44 then 8 else 4

/-- Bytes of the next `n` bundles of a code section from a point: none where they run past the end or one is a last
bundle (R106, R108). -/
def walkBundles : Nat → List Byte → Option Nat
  | 0, _ => some 0
  | n + 1, code =>
    match bundleAt code 0 with
    | none => none
    | some b => if b.kind = 1 then none else (walkBundles n (code.drop b.size)).map (· + b.size)

/-- The end of the body that a LOOP at the end of bundle `b` opens: none where R59, R108 or R115 forbid it. A LOOP inside four others is
forbidden whatever its count, though one of count 0 would open nothing (DESIGN CHOICE, log entry 69). -/
def Cluster.loopEnd (c : Cluster) (b : Bundle) (s : SSlot) : Option Nat :=
  let entry := bits s.imm 36 31
  let len := bits s.imm 30 15
  if c.counts.length ≤ entry ∨ len = 0 ∨ 4 ≤ c.loops.length then none else
    match walkBundles len (c.bank.text.drop (b.off + b.size)) with
    | none => none
    | some n =>
      let last := b.off + b.size + n
      match c.loops with
      | [] => some last
      | l :: _ => if last ≤ l.last then some last else none

/-- The check of a scalar slot that is on. -/
def Cluster.scalarTrap (c : Cluster) (b : Bundle) (s : SSlot) : Option Trap :=
  if s.op = 0x50 then (if (c.loopEnd b s).isNone then some ⟨0x03, 0, 0xFF, 0⟩ else none)
  else if s.op = 0x5C then some ⟨0x0E, 0, 0xFF, s.imm % 65536⟩
  else if s.op ∈ [0x40, 0x41, 0x44, 0x45] then
    let a := c.windowAddr s
    if a % windowSize s.op ≠ 0 ∨ 0x8000 < a + windowSize s.op then some ⟨0x04, 0, 0xFF, 0⟩ else none
  else none

/-- Latency of a scalar opcode (R135). -/
def scalarLatency (op : Nat) : Nat := if op = 0x03 ∨ op = 0x04 then 3 else if op = 0x40 ∨ op = 0x41 then 4 else 1

/-- The results of a scalar slot that is on, issued in cycle `t`. Predicate logic names its sources in bits [3:0] of rs1 and rs2; bit 4
is not checked and means nothing (DESIGN CHOICE, log entry 69). -/
def Cluster.scalarPends (c : Cluster) (t : Nat) (s : SSlot) : List Pend :=
  let a := c.gv s.rs1
  let b := c.gv s.rs2
  let pz := c.predPoison s.pred
  let due := t + scalarLatency s.op - 1
  let g := fun (v : Word) (p : Bool) => [(⟨due, t, 0, .g s.rd, v.toNat, 0, b2n (p || pz), 0⟩ : Pend)]
  let p := fun (v p : Bool) => [(⟨due, t, 0, .p (s.rd % 16), b2n v, 0, b2n (p || pz), 0⟩ : Pend)]
  if s.op ≤ 0x0E then g (aluOp s.op a.val b.val) (a.poison || b.poison)
  else if s.op ≤ 0x17 then g (aluOp (s.op - 0x10) a.val (ofInt64 s.simm)) a.poison
  else if s.op ≤ 0x1A then g (aluOp (s.op - 0x10) a.val (BitVec.ofNat 64 (s.imm % 64))) a.poison
  else if s.op = 0x20 then g (ofInt64 s.simm) false
  else if s.op = 0x21 then
    let r := c.gv s.rd
    g ((r.val &&& BitVec.ofNat 64 (2 ^ 37 - 1)) ||| BitVec.ofNat 64 (s.imm % 2 ^ 27 * 2 ^ 37)) r.poison
  else if s.op ≤ 0x2D then p (scalarCompare s.op a.val b.val) (a.poison || b.poison)
  else if s.op ≤ 0x33 then
    p (predLogic s.op (c.pv (s.rs1 % 16)) (c.pv (s.rs2 % 16))) (c.pp (s.rs1 % 16) || (s.op != 0x33 && c.pp (s.rs2 % 16)))
  else if s.op = 0x34 then p (bitAt s.imm 0) false
  else if s.op = 0x38 then
    let i := s.imm % 16
    g (if c.pv i then a.val else b.val) (c.pp i || (if c.pv i then a.poison else b.poison))
  else if s.op ≤ 0x41 then
    let (v, q) := c.window.read (c.windowAddr s) (windowSize s.op)
    g (BitVec.ofNat 64 (leNat v)) (q || a.poison)
  else if s.op ≤ 0x45 then
    let n := windowSize s.op
    [⟨due, t, 0, .window (c.windowAddr s) n, b.val.toNat % 2 ^ (8 * n), 0, b2n (b.poison || a.poison || pz), 0⟩]
  else if s.op = 0x51 then g (BitVec.ofNat 64 (((c.loops[s.imm % 4]?).map fun (l : LoopSt) => l.iter).getD 0)) false
  else []

/-- The end of a body reached: back to its first bundle, or out of the loop and perhaps of the next one (R106, R108). -/
def closeLoops : List LoopSt → Nat → List LoopSt × Nat
  | [], pc => ([], pc)
  | l :: r, pc =>
    if pc = l.last then
      if l.iter + 1 < l.count then ({ l with iter := l.iter + 1 } :: r, l.body) else closeLoops r pc
    else (l :: r, pc)

/-- The program position after a bundle: a LOOP that is on opens its body or skips it (R61, R106). -/
def Cluster.advance (c : Cluster) (b : Bundle) : Cluster :=
  let next := b.off + b.size
  let at_ := match b.slot 0 with
    | some w =>
      let s := sslot w
      if s.op = 0x50 then
        let n := c.counts.getD (bits s.imm 36 31) 0
        let last := (c.loopEnd b s).getD next
        if n = 0 then closeLoops c.loops last else (⟨next, last, n, 0⟩ :: c.loops, next)
      else closeLoops c.loops next
    | none => closeLoops c.loops next
  { c with loops := at_.1, pc := at_.2, idle := b.idle, lastSeen := b.kind == 1, cleared := 0 }

/-! ## Load and store slots (R124 to R129) -/

/-- Effective address of a load or store slot for logical core `l` (R50, R125). -/
def Cluster.effAddr (c : Cluster) (s : MSlot) (l : Nat) : Nat :=
  ((c.gv s.base).val + ofInt64 (sext 25 s.imm) + (if s.indexed then BitVec.ofNat 64 l * (c.gv s.step).val else 0)).toNat

/-- The enabled cores as (logical index, physical core). -/
def Cluster.cores' (c : Cluster) : List (Nat × Nat) := c.phys.zipIdx.map fun x => (x.2, x.1)

/-- The address does not depend on the core (R128). -/
def Cluster.coreIndependent (c : Cluster) (s : MSlot) : Bool := !s.indexed || (c.gv s.step).val == 0

/-- The cores whose accesses a slot makes: all, or logical core 0 for a core-independent address (R51, R52). -/
def Cluster.accessCores (c : Cluster) (s : MSlot) : List (Nat × Nat) :=
  if c.coreIndependent s then c.cores'.take 1 else c.cores'

/-- A mask of the physical cores at which a check fails. -/
def failMask (l : List (Nat × Nat)) (bad : Nat → Bool) : Nat := sumNat ((l.filter fun x => bad x.1).map fun x => 2 ^ x.2)

/-- The trap of code `code` in slot `slot` where some core fails. -/
def trapIf (code slot mask : Nat) : Option Trap := if mask = 0 then none else some ⟨code, slot, mask, 0⟩

/-- The AFU window: entry of the step table with handle 0 (R516). -/
def afuBlock : Nat := 524288

/-- The check of VLD and VST. -/
def Cluster.spadTrap (c : Cluster) (slot : Nat) (s : MSlot) : Option Trap :=
  trapIf 0x05 slot (failMask c.cores' fun l => c.effAddr s l % 256 != 0 || decide (spadBytes ≤ c.effAddr s l))

/-- The bytes of an allocation of a context. -/
def Mach.allocBytes (m : Mach) (ctx h : Nat) : Nat := match (m.cx ctx).alloc h with | some a => a.pages.length * 65536 | none => 0

/-- The frame page of an allocation's byte, as translation through its page list finds it (R127, R374). -/
def Mach.allocRef (m : Mach) (ctx h off : Nat) : Option PageRef :=
  match (m.cx ctx).alloc h with
  | some a => (a.page (off / 65536)).map fun f => ⟨h, off / 65536, f, true⟩
  | none => none

/-- The 256 B at an offset lie within a descriptor's footprint (R127): in the grain view, in a row of one of its turn blocks. -/
def Mach.inFootprint (m : Mach) (ctx : Nat) (d : Desc) (off : Nat) : Bool :=
  if d.view = 1 then
    match (m.cx ctx).alloc d.alloc with
    | some a =>
      let b := a.blockOf d.turn (off / 65536) (off % 65536 / 1024)
      decide (d.footprint.1 ≤ ((8192 * b : Nat) : Int)) && decide (((8192 * b : Nat) : Int) ≤ d.footprint.2)
    | none => false
  else decide (d.footprint.1 ≤ (off : Int)) && decide ((off + 255 : Nat) ≤ d.footprint.2)

/-- The checks of VLDG, VLDV and VSTG (R127, R517). -/
def Mach.ioTrap (m : Mach) (c : Nat) (x : Cmd) (img : Img) (slot : Nat) (s : MSlot) : Option Trap :=
  let cl := m.cl c
  let all := cl.coreMask.toNat
  match img.io[s.io]? with
  | none => some ⟨0x06, slot, all, 0⟩
  | some io =>
    if (slot = 3 ∧ io.mode = 2) ∨ (slot = 4 ∧ io.mode = 1) then some ⟨0x07, slot, all, 0⟩
    else if io.desc = 0 then
      trapIf 0x08 slot (failMask cl.cores' fun l =>
        let n := cl.effAddr s l / afuBlock
        cl.effAddr s l % 256 != 0 || decide (cl.afu.total ≤ n) || (match cl.afu.touched with | some k => decide (n < k) | none => false))
    else match m.liveDesc x.ctx io.desc with
      | none => some ⟨0x0D, slot, all, 0⟩
      | some d =>
        match trapIf 0x08 slot (failMask cl.cores' fun l =>
            let a := cl.effAddr s l
            a % 256 != 0 || decide (m.allocBytes x.ctx d.alloc < a + 256) || (slot == 4 && !m.inFootprint x.ctx d a)) with
        | some t => some t
        | none => trapIf 0x0D slot (failMask cl.cores' fun l => (m.allocRef x.ctx d.alloc (cl.effAddr s l)).isNone)

/-! ## The checks of a bundle -/

/-- The address of a matrix slot. -/
def Cluster.matrixAddr (c : Cluster) (s : XSlot) : Nat := ((c.gv s.base).val + BitVec.ofNat 64 (s.imm * 64)).toNat

/-- Bytes that a matrix slot reads or writes from its address (R740). -/
def matrixBytes (s : XSlot) : Nat :=
  let k := classDepth s.cls / 32
  if s.op = 1 then max (classDepth s.cls * classTileRow s.cls) (if s.mx then 4096 + 64 * k else 0)
  else if s.op = 2 then s.count * classRow s.cls + (if s.mx then s.count * k else 0)
  else if s.op = 3 then s.count * 64 * moutBytes s.fmtA
  else 0

/-- Rows of the accumulator view that a matrix slot counts in (R97, R123). -/
def matrixRows (s : XSlot) : Nat := if (s.op = 2 ∧ s.fmtB = 1) ∨ (s.op = 3 ∧ s.fmtA = 1) then 512 else 1024

/-- The checks of a matrix slot that is on, issued in cycle `t` (R122, R123, R137, R740). MZACC addresses no scratchpad, and what g0 holds,
which its base field of 0 names, is not checked (DESIGN CHOICE, log entry 69). -/
def Cluster.matrixTrap (c : Cluster) (t : Nat) (s : XSlot) : Option Trap :=
  let all := c.coreMask.toNat
  let tile := fun k => if s.swap then (c.core k).shadow else (c.core k).stat
  if s.op = 2 ∧ (c.phys.any fun k => (tile k).cls.any fun x => x != s.cls) = true then some ⟨0x01, 2, all, 0⟩
  else if s.op ≠ 4 ∧ ((c.gv s.base).val.toNat % 64 ≠ 0 ∨ spadBytes < c.matrixAddr s + matrixBytes s) then some ⟨0x05, 2, all, 0⟩
  else if s.op ≠ 1 ∧ matrixRows s < s.accRow + s.count then some ⟨0x09, 2, all, 0⟩
  else if s.op = 2 ∧ (c.passes.any fun p => decide (t < p.at_ + p.count * p.r)) = true then some ⟨0x0A, 2, all, 0⟩
  else none

/-- The checks of a sync slot that is on (R131, R132). -/
def Mach.syncTrap (m : Mach) (c : Nat) (x : Cmd) (s : YSlot) : Option Trap :=
  let cl := m.cl c
  let all := cl.coreMask.toNat
  let a := (cl.gv s.ga).val.toNat
  if s.op = 1 then
    if a % 8 ≠ 0 then some ⟨0x0B, 5, all, 0⟩ else if (m.flagAddr x.ctx a).isNone then some ⟨0x0D, 5, all, 0⟩ else none
  else if s.op = 2 then
    let n := (cl.gv s.gb).val.toNat
    if 2 ^ 24 < n then some ⟨0x0B, 5, all, 0⟩
    else if n ≠ 0 ∧ ((List.range ((a + n + 65535) / 65536 - a / 65536)).all fun i => (m.pageOf x.ctx ((a / 65536 + i) * 65536)).isSome) = false then
      some ⟨0x0D, 5, all, 0⟩
    else none
  else none

/-- The check of slot `i` of a bundle: its encoding, and where it is on, its operands. -/
def Mach.slotTrap (m : Mach) (c t : Nat) (x : Cmd) (img : Img) (b : Bundle) (i : Nat) : Option Trap :=
  let cl := m.cl c
  match b.slot i with
  | none => none
  | some w =>
    if slotIllegal i w then some ⟨0x01, i, 0xFF, 0⟩
    else if !cl.on (if i = 5 then (yslot w).pred else bits w 63 59) then none
    else match i with
      | 0 => cl.scalarTrap b (sslot w)
      | 2 => cl.matrixTrap t (xslot w)
      | 3 => if (mslot w).op = 1 then cl.spadTrap 3 (mslot w) else m.ioTrap c x img 3 (mslot w)
      | 4 => if (mslot w).op = 1 then cl.spadTrap 4 (mslot w) else m.ioTrap c x img 4 (mslot w)
      | 5 => m.syncTrap c x (yslot w)
      | _ => none

/-- The first check that a bundle fails: its header, then its slots in order. -/
def Mach.bundleTrap (m : Mach) (c t : Nat) (x : Cmd) (img : Img) (b : Bundle) : Option Trap :=
  if b.illegal then some ⟨0x01, 7, 0xFF, 0⟩ else (List.range 6).findSome? (m.slotTrap c t x img b)

/-! ## Freezes (R85 to R92) -/

/-- Freeze sources as bits of SEQ_FREEZE_CAUSE. -/
def srcSync : BitVec 4 := 1
def srcFeeder : BitVec 4 := 2
def srcCache : BitVec 4 := 4
def srcUnfurl : BitVec 4 := 8

/-- A cluster frozen by more sources. -/
def Cluster.freeze (c : Cluster) (b : BitVec 4) : Cluster :=
  { c with runState := 3, frozen := c.frozen ||| b, seen := c.seen ||| b }

/-- A source that clears: it is not evaluated again for the bundle held at issue, and the cluster resumes when no other
source freezes it (R90). -/
def Cluster.clear (c : Cluster) (b : BitVec 4) : Cluster :=
  let f := c.frozen &&& ~~~b
  { c with frozen := f, cleared := c.cleared ||| b, runState := if c.runState = 3 ∧ f = 0 then 2 else c.runState }

/-- The device physical address that a VLDG, VLDV or VSTG of a command reaches for an offset (R127, R383, R385). -/
def Mach.loadDpa (m : Mach) (x : Cmd) (d : Desc) (off : Nat) : Option Nat :=
  (m.allocRef x.ctx d.alloc off).map fun p => frameDpa (m.readFrame x p) + off % 65536

/-- A word of a context's cache line as its decoder reads it, where errors have flipped its bits (R627, R631, R739). -/
def Cluster.lineWord (c : Cluster) (l : Nat × Nat × List Byte × List Bool) (i : Nat) : Option EccRead :=
  let e := Tab.get 0 c.cacheFlips (cacheWord l.1 (l.2.1 + 8 * i))
  if e = 0 then none else some (eccDecode (BitVec.ofNat 64 (fld l.2.2.1 (8 * i) 8)) (l.2.2.2.getD i false) e)

/-- The cache line of a context at a line address: its bytes and the poison of its words, as they are read. -/
def Cluster.line (c : Cluster) (ctx dpa : Nat) : Option (List Byte × List Bool) :=
  (c.cache.find? fun l => l.1 == ctx && l.2.1 == dpa).map fun l =>
    if c.cacheFlips.isEmpty then l.2.2 else
      ((List.range 8).flatMap fun i => match c.lineWord l i with | some d => leBytes 8 d.word.val.toNat | none => slice l.2.2.1 (8 * i) 8,
       (List.range 8).map fun i => match c.lineWord l i with | some d => d.word.poison | none => l.2.2.2.getD i false)

/-- What the decoder of a cluster cache reports of a line that is read (R633, R638). -/
def Mach.noteLine (m : Mach) (c ctx dpa : Nat) : Mach :=
  match (m.cl c).cache.find? fun l => l.1 == ctx && l.2.1 == dpa with
  | none => m
  | some l => (List.range 8).foldl (fun (m : Mach) i => match (m.cl c).lineWord l i with
    | some d => m.noteSram (uCluster c) sramCache (dpa / 8 + i) d
    | none => m) m

/-- The words of a line stand as they are written, without what errors had flipped in them. -/
def Cluster.cleanWords (c : Cluster) (ctx a n : Nat) : Cluster :=
  { c with cacheFlips := c.cacheFlips.filter fun e => !(decide (cacheWord ctx a ≤ e.1) && decide (e.1 < cacheWord ctx a + n)) }

/-- Where a load slot that is on translates to, for each logical core that it reads for: none for the AFU window (R378). -/
def Mach.loadAt (m : Mach) (c : Nat) (x : Cmd) (img : Img) (s : MSlot) : List (Nat × Nat) :=
  match img.io[s.io]? with
  | none => []
  | some io =>
    match (if io.desc = 0 then none else m.liveDesc x.ctx io.desc) with
    | none => []
    | some d => ((m.cl c).accessCores s).filterMap fun k => (m.loadDpa x d ((m.cl c).effAddr s k.1)).map fun a => (k.1, a)

/-- What a load slot that is on waits for: kind and line address, or block of the AFU window (R88, R129, R517). A VLDV that names the AFU
window waits only for a block that is not staged (DESIGN CHOICE, log entry 69). -/
def Mach.loadMisses (m : Mach) (c : Nat) (x : Cmd) (img : Img) (s : MSlot) : List (Nat × Nat) :=
  let cl := m.cl c
  if (img.io[s.io]?).any fun io => io.desc == 0 then
    (cl.accessCores s).foldl (fun l k =>
      let n := cl.effAddr s k.1 / afuBlock
      if (Tab.get none cl.afu.staged n).isSome then l else addNew l (2, n)) []
  else
    (m.loadAt c x img s).foldl (fun l k => (List.range 4).foldl (fun l i =>
      let a := k.2 + 64 * i
      if s.op = 3 then addNew l (1, a) else if (cl.line x.ctx a).isSome then l else addNew l (0, a)) l) []

/-- Counts of a load slot at its first evaluation: VLDG hits and misses, VLDV reads (R662). -/
def Mach.countLoad (m : Mach) (c : Nat) (s : MSlot) (miss : List (Nat × Nat)) : Mach :=
  let n := ((m.cl c).accessCores s).length
  if s.op = 3 then m.count 1 c 0x12 n
  else if miss.isEmpty then m.count 1 c 0x10 n
  else (m.count 1 c 0x11 (min n miss.length)).count 1 c 0x10 (n - min n miss.length)

/-- The freeze sources of a bundle at issue: whether the wait's read killed the command, and the machine with the sources
that freeze now and those found clear noted (R88 to R90, R131, R183). -/
def Mach.freezeSources (m : Mach) (c : Nat) (x : Cmd) (img : Img) (b : Bundle) : Bool × Mach :=
  let cl := m.cl c
  let skip := fun (s : BitVec 4) => (cl.cleared &&& s) != 0
  -- sync wait
  let (dead, m) := match b.slot 5 with
    | some w =>
      let s := yslot w
      if s.op = 1 ∧ cl.on s.pred = true ∧ skip srcSync = false then
        let va := (cl.gv s.ga).val.toNat
        match m.flagAddr x.ctx va with
        | none => (false, m)
        | some a =>
          let (f, m) := m.readWord ⟨whoMast, x.ctx, c, x.seq⟩ a
          let m := m.modCl c fun k => { k with wait := some ⟨va, (cl.gv s.gb).val, s.cmp, m.now, false⟩ }
          if f.poison then (true, (m.touchPoison x.seq (uCluster c) (m.locAt a)).fail x .poisoned (detailWord srcMast 0 c))
          else if (flagCompare (s.cmp + 1) f.val (cl.gv s.gb).val).getD true then (false, m.modCl c fun k => { k with cleared := k.cleared ||| srcSync, wait := none })
          else (false, m.modCl c fun k => k.freeze srcSync)
      else (false, m)
    | none => (false, m)
  if dead then (true, m) else
  -- cluster-cache miss
  let m := match b.slot 3 with
    | some w =>
      let s := mslot w
      if s.op ≠ 1 ∧ cl.on s.pred = true ∧ skip srcCache = false then
        let miss := m.loadMisses c x img s
        let m := m.countLoad c s miss
        if miss.isEmpty then m.modCl c fun k => { k with cleared := k.cleared ||| srcCache }
        else m.modCl c fun k => ({ k.freeze srcCache with miss := miss, loadAt := m.loadAt c x img s, volatile := [] } : Cluster)
      else m
    | none => m
  -- unfurl ramp
  match b.slot 2 with
  | some w =>
    let s := xslot w
    if s.op = 2 ∧ cl.on s.pred = true ∧ skip srcUnfurl = false ∧ 256 ≤ cl.arrayIdle then
      (false, m.modCl c fun k => { k.freeze srcUnfurl with ramp := 1, rampAc := 0 })
    else (false, m)
  | none => (false, m)

/-! ## Effects of the slots -/

/-- Results of a vector slot that is on, for every enabled core of cluster `n`; a core's generator supplies its random values (R210). -/
def Cluster.vectorPends (c : Cluster) (n t : Nat) (v : VSlot) : List Pend :=
  let due := t + vectorLatency v.op v.fmt - 1
  let pz := c.predPoison v.pred
  c.cores'.map fun q =>
    let core := c.core q.2
    let rv := fun i => Tab.get ({} : VReg) core.v i
    let x : VIn := { a := rv v.va, b := rv v.vb, c := rv v.vc, old := rv v.vd, mask := Tab.get {} core.m v.mask,
                     dest := Tab.get {} core.m (v.aux % 8), g := c.gv (v.aux % 32), u := fun i => (Config.stochastic core.seed.1 core.seed.2 (8 * n + q.2) (core.supplied + i)).toNat }
    if v.isCompare then
      let r := vectorMask v x
      ⟨due, t, 1, .m q.2 (v.aux % 8), r.val.toNat, 0, b2n (r.poison || pz), r.width⟩
    else
      let r := vectorResult v x
      ⟨due, t, 1, .v q.2 v.vd, r.val.toNat, 0, if pz then allWords else r.poison.toNat, 0⟩

/-- The MAC class of a pass as meters and counters number it (R662, R676). -/
def macClass (s : XSlot) (int8 : Bool) : Nat :=
  match s.cls with
  | 0 => 0
  | 1 => if int8 then 2 else 1
  | 2 => 3
  | 3 => 4
  | _ => 5

/-- A matrix slot that is on starts in cycle `t` (R136 to R139, R150 to R156). -/
def Cluster.matrixIssue (c : Cluster) (t width : Nat) (s : XSlot) : Cluster :=
  let addr := c.matrixAddr s
  let bad := (c.gv s.base).poison
  let spads := c.phys.foldl (fun (l : Tab Ram) k => Tab.put {} l k (c.core k).spad) []
  match s.op with
  | 1 => { c with mldbs := c.mldbs ++ [{ at_ := t, fmt := s.fmtB, mx := s.mx, addr := addr, old := spads, bad := bad }] }
  | 2 =>
    let c := if s.swap then c.swapTiles else c
    { c with arrayIdle := 0, ramp := 2, passes := c.passes ++ [{
        at_ := t, fmtA := s.fmtA, fmtB := s.fmtB, mx := s.mx, count := s.count, accRow := s.accRow, accumulate := s.accumulate, addr := addr,
        r := classInterval s.cls, width := width, old := spads, tiles := c.phys.foldl (fun (l : Tab Tile) k => Tab.put {} l k (c.core k).stat) [], bad := bad }] }
  | 3 => { c with mouts := c.mouts ++ [⟨t, s.fmtA, s.count, s.accRow, s.accumulate, addr, false, bad⟩] }
  | _ => { c with mouts := c.mouts ++ [⟨t, 0, s.count, s.accRow, false, 0, true, false⟩] }

/-- 256 B of memory read as a vector with the poison of its words. -/
def Mach.readVector (m : Mach) (a : Acc) (dpa : Nat) : (Nat × Nat) × Mach :=
  let (ws, m) := m.readWords a ((List.range 32).map fun i => dpa + 8 * i)
  (ws.reverse.foldl (fun acc w => (acc.1 * 2 ^ 64 + w.val.toNat, acc.2 * 2 + b2n w.poison)) (0, 0), m)

/-- A vector of bytes with the poison of each of its words, as a value. -/
def vectorOf (l : List Byte) (p : List Bool) : Nat × Nat := (leNat l, p.reverse.foldl (fun a b => a * 2 + b2n b) 0)

/-- A line as a load takes it: a VLDV from what its volatile reads have brought, a VLDG from the cache. -/
def Cluster.loadLine (c : Cluster) (s : MSlot) (ctx dpa : Nat) : Option (List Byte × List Bool) :=
  if s.op = 3 then (c.volatile.find? fun l => l.1 == dpa).map (·.2) else c.line ctx dpa

/-- The value that a VLDG or VLDV brings core `l`: from a staged block, or from the lines at the address that it has translated to, once; a
poisoned one touches the command (R129, R378, R383, R393, R517). -/
def Mach.loadValue (m : Mach) (c : Nat) (x : Cmd) (img : Img) (s : MSlot) (l : Nat) : (Nat × Nat) × Mach :=
  let cl := m.cl c
  let off := cl.effAddr s l
  match img.io[s.io]? with
  | none => ((0, 0), m)
  | some io =>
    if io.desc = 0 then
      let r := (Tab.get none cl.afu.staged (off / afuBlock)).getD {}
      let ws := (List.range 32).map fun i => (r.decode (off % afuBlock / 8 + i)).word
      let v := ws.reverse.foldl (fun (acc : Nat × Nat) w => (acc.1 * 2 ^ 64 + w.val.toNat, acc.2 * 2 + b2n w.poison)) (0, 0)
      let m := m.noteRam (uCluster c) sramAfu r (byteWords (off % afuBlock) 256)
      (v, if v.2 = 0 then m else m.touchPoison x.seq (uCluster c) 0)
    else match m.liveDesc x.ctx io.desc with
      | none => ((0, 0), m)
      | some d =>
        match ((cl.loadAt.find? fun e => e.1 == l).map (·.2)).orElse fun _ => m.loadDpa x d off with
        | none => ((0, 0), m)
        | some a =>
          let ls := (List.range 4).map fun i => cl.loadLine s x.ctx (a + 64 * i)
          let (v, m) :=
            if ls.all (·.isSome) then
              let m := if s.op = 3 then m else (List.range 4).foldl (fun (m : Mach) i => m.noteLine c x.ctx (a + 64 * i)) m
              (vectorOf (ls.flatMap fun o => (o.map (·.1)).getD []) (ls.flatMap fun o => (o.map (·.2)).getD []), m)
            else m.readVector ⟨whoMast, x.ctx, c, x.seq⟩ a
          (v, if v.2 = 0 then m else m.touchPoison x.seq (uCluster c) (m.locAt a))

/-- The address of a load or store slot comes from a poisoned register (R640). -/
def Cluster.addrPoison (c : Cluster) (s : MSlot) : Bool := (c.gv s.base).poison || (s.indexed && (c.gv s.step).poison)

/-- Results of a load slot that is on (R126, R129, R135). -/
def Mach.loadPends (m : Mach) (c t : Nat) (x : Cmd) (img : Img) (s : MSlot) : List Pend × Mach :=
  let cl := m.cl c
  let pz := cl.predPoison s.pred || cl.addrPoison s
  let mk := fun (lat k : Nat) (v : Nat × Nat) => (⟨t + lat - 1, t, 3, .v k s.vreg, v.1, 0, if pz then allWords else v.2, 0⟩ : Pend)
  if s.op = 1 then
    (cl.cores'.map fun q => mk 6 q.2 ((cl.core q.2).getBits (cl.effAddr s q.1) 32),
     (cl.cores'.foldl (fun (m : Mach) q => m.noteSpad c q.2 (cl.effAddr s q.1) 256) m).modCl c fun k => { k with slotBanks := k.slotBanks ++ cl.cores'.flatMap fun q => (spadBanks (cl.effAddr s q.1) 256).map fun b => (q.2, b) })
  else if cl.coreIndependent s then
    let (v, m) := m.loadValue c x img s 0
    (cl.cores'.map fun q => mk 20 q.2 v, m)
  else
    cl.cores'.foldl (fun (acc : List Pend × Mach) q =>
      let (v, m) := acc.2.loadValue c x img s q.1
      (acc.1 ++ [mk 20 q.2 v], m)) ([], m)

/-- Results of a store slot that is on: scratchpad bytes, or words of the command's draft (R52, R126, R129, R742). -/
def Mach.storePends (m : Mach) (c t : Nat) (x : Cmd) (img : Img) (s : MSlot) : List Pend :=
  let cl := m.cl c
  let pz := cl.predPoison s.pred || cl.addrPoison s
  let val := fun k => Tab.get ({} : VReg) (cl.core k).v s.vreg
  let mk := fun k => if s.masked then let r := Tab.get ({} : MReg) (cl.core k).m s.mask; storeMask r.val.toNat r.width else 2 ^ 2048 - 1
  let po := fun k => if pz || (s.masked && (Tab.get ({} : MReg) (cl.core k).m s.mask).poison) then allWords else (val k).poison.toNat
  if s.op = 1 then cl.cores'.map fun q => ⟨t + 2, t, 4, .spad q.2 (cl.effAddr s q.1) 256, (val q.2).val.toNat, mk q.2, po q.2, 0⟩
  else match img.io[s.io]? with
    | none => []
    | some io =>
      match m.liveDesc x.ctx io.desc with
      | none => []
      | some d => (cl.accessCores s).filterMap fun q =>
        (x.draftDpa d.alloc (cl.effAddr s q.1)).map fun a => (⟨t + 7, t, 4, .mem a, (val q.2).val.toNat, mk q.2, po q.2, 0⟩ : Pend)

/-- The lines that an INV removes when it completes, page by page (R132, R135): none for a length of 0. -/
def Mach.invPends (m : Mach) (t : Nat) (x : Cmd) (a n : Nat) : List Pend :=
  if n = 0 then [] else (List.range ((a + n + 65535) / 65536 - a / 65536)).filterMap fun i =>
    let lo := max a ((a / 65536 + i) * 65536)
    let hi := min (a + n) ((a / 65536 + i + 1) * 65536)
    (m.xlateRead x lo).map fun d => (⟨t + 32 + ceilDiv n 16384 - 1, t, 5, .inv d (hi - lo), 0, 0, 0, 0⟩ : Pend)

/-- A record written to the log ring, over the oldest (R590, R591). -/
def Mach.logRecord (m : Mach) (source kind code ctx cluster : Nat) (payload : List Word) : Mach :=
  let h := m.hyv
  let logs := Tab.put none h.logs (h.logProd % 16384) (some ⟨h.logProd, m.now, source, kind, code, ctx, cluster, payload⟩)
  { m with hyv := { h with logProd := h.logProd + 1, logs := logs } }

/-- A TRACE (R133, R592): some of the records in flight have reached the ring, a free choice of how many; a trace point that is
enabled emits a record, or counts a drop while 64 are in flight. -/
def Mach.trace (m : Mach) (c : Nat) (x : Cmd) (aux : Nat) (v : Word) : Mach :=
  if !(m.hyv.traceMask.getLsbD aux) then m else
    let left := Config.freeChoice m.drawn % ((m.cl c).traces + 1)
    let code := (Config.freeBits 16 (m.drawn + 1)).toNat
    let m := { m with drawn := m.drawn + 2 }
    if 64 ≤ left then { (m.modCl c fun k => { k with traces := left }) with hyv := { m.hyv with traceDrops := satAdd 64 m.hyv.traceDrops 1 } }
    else (m.modCl c fun k => { k with traces := left + 1 }).logRecord 0x40 1 code x.ctx c [BitVec.ofNat 64 aux, v]

/-- The word of slot `i` of a bundle where it is present and on. -/
def Cluster.slotOn (c : Cluster) (b : Bundle) (i : Nat) : Option Nat :=
  match b.slot i with
  | some w => if c.on (if i = 5 then (yslot w).pred else bits w 63 59) then some w else none
  | none => none

/-- A slot that is on reads a poisoned predicate, or a poisoned g register for an address, a length or a comparison: the command has
touched poison (R640). What vector and scalar slots make of poisoned operands touches it as it lands. -/
def Cluster.readsPoison (c : Cluster) (b : Bundle) : Bool :=
  (List.range 6).any fun i => match c.slotOn b i with
    | none => false
    | some w => c.predPoison (if i = 5 then (yslot w).pred else bits w 63 59) || (match i with
      | 2 => (c.gv (xslot w).base).poison
      | 3 | 4 => c.addrPoison (mslot w)
      | 5 => (c.gv (yslot w).ga).poison || (c.gv (yslot w).gb).poison
      | _ => false)

/-- The slots of a bundle take effect in cycle `t`: every operand is read before anything is written (R143). -/
def Mach.issueSlots (m : Mach) (c t : Nat) (x : Cmd) (img : Img) (b : Bundle) : Mach :=
  let cl := m.cl c
  let slotOn := cl.slotOn b
  let m := if cl.readsPoison b then m.touchPoison x.seq (uCluster c) 0 else m
  let m := match slotOn 0 with
    | some w => let s := sslot w; if s.op = 0x40 ∨ s.op = 0x41 then m.noteRam (uCluster c) sramWindow cl.window (byteWords (cl.windowAddr s) (windowSize s.op)) else m
    | none => m
  let sp := match slotOn 0 with | some w => cl.scalarPends t (sslot w) | none => []
  let vp := match slotOn 1 with | some w => cl.vectorPends c t (vslot w) | none => []
  let m := match slotOn 1 with
    | some w =>
      let m := cl.phys.foldl (fun (m : Mach) k => m.count 2 (c * 8 + k) 0x00 1) m
      if (vslot w).rnd = 2 then m.modCl c fun k => cl.phys.foldl (fun (k : Cluster) i => k.modCore i fun y => { y with supplied := y.supplied + 256 }) k else m
    | none => m
  let stp : List Pend := match slotOn 4 with | some w => m.storePends c t x img (mslot w) | none => []
  let stBytes : Nat := stp.foldl (fun (n : Nat) (p : Pend) => match p.loc with | .mem _ => n + 256 | _ => n) 0
  let m := if stBytes = 0 then m else m.modCmd x fun y => { y with meters := y.meters.add (pathBytes 1 stBytes) }
  let m := stp.foldl (fun (m : Mach) (p : Pend) => match p.loc with | .mem a => m.crossing x c a 256 | _ => m) m
  let inv := match slotOn 5 with
    | some w => if (yslot w).op = 2 then m.invPends t x (cl.gv (yslot w).ga).val.toNat (cl.gv (yslot w).gb).val.toNat else []
    | none => []
  let (lp, m) := match slotOn 3 with | some w => m.loadPends c t x img (mslot w) | none => ([], m)
  let m := match slotOn 3 with
    | some w =>
      let s := mslot w
      match img.io[s.io]? with
      | some io => if s.op = 2 ∧ io.desc = 0 then
          let n := maxNat ((cl.accessCores s).map fun (k : Nat × Nat) => cl.effAddr s k.1 / afuBlock)
          m.modCl c fun k =>
            let top := max n (k.afu.touched.getD 0)
            { k with afu := { k.afu with touched := some top, staged := k.afu.staged.filter fun e => decide (top ≤ e.1) } }
        else m
      | none => m
    | none => m
  let m := match slotOn 5 with
    | some w => if (yslot w).op = 3 then m.trace c x (yslot w).aux (cl.gv (yslot w).gb).val else m
    | none => m
  let m := match slotOn 2 with
    | some w =>
      let s := xslot w
      let m := m.modCl c fun k => k.matrixIssue t (min img.width 64) s
      if s.op = 2 then
        let int8 := match (m.cl c).passes.getLast?, cl.phys with | some p, k :: _ => intPass p (Tab.get {} p.tiles k) | _, _ => false
        let n := s.count * classDepth s.cls * min img.width 64 * cl.phys.length
        (m.count 1 c (0x20 + macClass s int8) n).modCmd x fun y => { y with meters := y.meters.add { macs := Tab.put 0 [] (macClass s int8) n } }
      else m
    | none => m
  (m.modCl c fun k => { k.advance b with pend := k.pend ++ sp ++ vp ++ lp ++ stp ++ inv, loadAt := [], volatile := [] }).count 1 c 0x05 1

/-! ## The end of an issue cycle -/

/-- Words of a draft written where the mask has a 1, and in the cluster's line where it is present (R129, R383). -/
def Mach.landMem (m : Mach) (c ctx dpa val mask poison : Nat) : Mach :=
  (List.range 32).foldl (fun m i =>
    let mk := mask / 2 ^ (64 * i) % 2 ^ 64
    if mk = 0 then m else
      let a := dpa + 8 * i
      match m.reach a with
      | none => m
      | some cell =>
        let old := (m.decodeCell cell).word
        let w : PWord := ⟨(BitVec.ofNat 64 (val / 2 ^ (64 * i)) &&& BitVec.ofNat 64 mk) ||| (old.val &&& ~~~(BitVec.ofNat 64 mk)),
          bitAt poison i || (mk != 2 ^ 64 - 1 && old.poison)⟩
        (m.writeWord a w).modCl c fun k => { k.cleanWords ctx a 1 with cache := k.cache.map fun l =>
          if l.1 == ctx && l.2.1 == a / 64 * 64 then
            (l.1, l.2.1, l.2.2.1.take (a % 64) ++ leBytes 8 w.val.toNat ++ l.2.2.1.drop (a % 64 + 8), l.2.2.2.set (a % 64 / 8) w.poison)
          else l }) m

/-- The unit that a location of cluster `c` lies in. -/
def Loc.unit (c : Nat) : Loc → UnitId
  | .v k _ => uCore (c * 8 + k)
  | .m k _ => uCore (c * 8 + k)
  | .acc k _ => uCore (c * 8 + k)
  | .spad k _ _ => uCore (c * 8 + k)
  | _ => uCluster c

/-- A result lands (R134, R144): in the cluster, in a draft, or as an invalidation; one that holds poison touches the
command (R640). -/
def Mach.landOne (m : Mach) (c : Nat) (x : Cmd) (p : Pend) : Mach :=
  let m := match p.loc with
    | .mem a => m.landMem c x.ctx a p.val p.mask p.poison
    | .inv a n =>
      let hit := fun (l : Nat × Nat × List Byte × List Bool) => l.1 == x.ctx && decide (l.2.1 < a + n) && decide (a < l.2.1 + 64)
      (m.count 1 c 0x13 ((m.cl c).cache.filter hit).length).modCl c fun k => { k with cache := dropWhere hit k.cache }
    | _ => m.modCl c fun k => k.land p
  if p.poison = 0 then m else
    m.touchPoison x.seq (p.loc.unit c) 0

/-- A result for a scratchpad. -/
def Pend.isSpad (p : Pend) : Bool := match p.loc with | .spad _ _ _ => true | _ => false

/-- Results at which `take` holds land in order and leave. -/
def Mach.landWhere (m : Mach) (c : Nat) (x : Cmd) (take : Pend → Bool) : Mach :=
  let l := ((m.cl c).pend.filter take).foldr insPend []
  l.foldl (fun m p => m.landOne c x p) (m.modCl c fun k => { k with pend := dropWhere take k.pend })

/-- Scratchpad results of earlier issue cycles land before the accesses of this ac, and take a write port of their banks (R163). -/
def Mach.landSpads (m : Mach) (c t : Nat) (x : Cmd) : Mach :=
  let now := fun (p : Pend) => p.isSpad && decide (p.due < t)
  let banks := ((m.cl c).pend.filter now).flatMap fun p => match p.loc with
    | .spad k a n => (spadBanks a n).map fun b => (k, b)
    | _ => []
  (m.modCl c fun k => { k with wroteBanks := k.wroteBanks ++ banks }).landWhere c x now

/-- The end of issue cycle `t`: reads fall due, rows of passes and MOUTs form, and results land (R134 to R139). Results for
scratchpads land at the start of the next ac, after the reads of this one. -/
def Mach.endCycle (m : Mach) (c t : Nat) (x : Cmd) : Mach :=
  let cl := m.cl c
  let draw := m.drawn
  let cl := { cl with feeds := cl.feeds ++ cl.newFeeds t, mldbs := cl.mldbs.map fun (b : Mldb) => b.takeScales cl draw t }
  let read := (cl.accReads t).map fun e => (e, (cl.core e.1).accDecode e.2)
  let (ps, cl) := cl.passResults t draw
  let cl := { cl with pend := cl.pend ++ ps ++ cl.moutResults t }
  let bad := cl.badTiles t draw
  let cl := cl.landTiles t draw
  let cl := { cl with passes := cl.passes.filter (fun p => decide (t + 1 < p.at_ + 128 + p.count * p.r)),
                      mouts := cl.mouts.filter fun o => decide (t + 1 < o.at_ + (if o.clear then ceilDiv o.count 16 else o.count * moutStep o.fmt)),
                      issueAc := t + 1 }
  let m := { m.setCl c cl with drawn := if cl.passes.isEmpty && cl.mldbs.isEmpty then draw else draw + 4096 }
  let m := read.foldl (fun (m : Mach) e => m.noteSram (uCore (c * 8 + e.1.1)) sramAcc e.1.2 e.2) m
  let m := bad.foldl (fun (m : Mach) k => m.touchPoison x.seq (uCore (c * 8 + k)) 0) m
  m.landWhere c x fun p => !p.isSpad && decide (p.due ≤ t)

/-- The unfurl ends when 48 ac of it have passed, and its freeze is released (R183). -/
def Cluster.endUnfurl (c : Cluster) : Cluster := if c.ramp = 1 ∧ 48 ≤ c.rampAc then { c.clear srcUnfurl with ramp := 2 } else c

/-- The furl begins when the idle count has reached 256 (R182). -/
def Cluster.startFurl (c : Cluster) : Cluster := if c.ramp = 2 ∧ 256 ≤ c.arrayIdle then { c with ramp := 3, rampAc := 0 } else c

/-- Groups of 8 columns that are enabled (R182, R183): one more every 6 ac of an unfurl, one fewer every 6 ac of a furl. -/
def Cluster.groupsOn (c : Cluster) : Nat :=
  match c.ramp with | 0 => 0 | 1 => min 8 (c.rampAc / 6 + 1) | 2 => 8 | _ => 8 - min 8 (c.rampAc / 6)

/-- An ac begins: an unfurl or an idle count that has run its time takes effect, and no bank has served anything yet. -/
def Cluster.acStart (c : Cluster) : Cluster := { c.endUnfurl.startFurl with granted := false, slotBanks := [], wroteBanks := [] }

/-- What every ac does to the array: its idle count, and the ramp in progress (R91, R181 to R185). -/
def Cluster.acEnd (before c : Cluster) : Cluster :=
  let ramp := if c.ramp = 3 ∧ 48 ≤ c.rampAc + 1 then 0 else c.ramp
  { c with arrayIdle := if before.passes.isEmpty && c.passes.isEmpty then min 256 (c.arrayIdle + 1) else c.arrayIdle,
           rampAc := if c.ramp = 1 ∨ c.ramp = 3 then c.rampAc + 1 else c.rampAc, ramp := ramp }

/-- A frozen ac: counted for each source, and nothing else moves (R85, R86). -/
def Mach.frozenAc (m : Mach) (c : Nat) : Mach :=
  let f := (m.cl c).frozen
  (List.range 4).foldl (fun m i => if f.getLsbD i then m.count 1 c (1 + i) 1 else m) (m.modCl c fun k => { k with freezeAc := k.freezeAc + 1, stallAc := k.stallAc + b2n ((f &&& srcSync) == 0) })

/-- A row that its pass needed by the end of the last issue cycle is missing (R166). -/
def Cluster.underflow (c : Cluster) : Bool := c.feeds.any fun f => !f.tile && decide (f.due + 16 ≤ c.issueAc)

/-- The words of a bank that a fetch reads: their decodes reported, and whether one of them is uncorrectable or poison (R638, R639). -/
def Mach.fetched (m : Mach) (c : Nat) (b : Imem) (words : List Nat) : Bool × Mach :=
  let l := words.filter fun w => Tab.get 0 b.flips w != 0
  (l.any fun w => (b.decode w).word.poison, l.foldl (fun (m : Mach) w => m.noteSram (uCluster c) sramImem w (b.decode w)) m)

/-- A bundle is issued, or held by a freeze, or trapped (R69, R89, R102, R105, R147). Code that is not the image's but carries its digest
runs as it is resident, cut to the size of the image's code (DESIGN CHOICE, R74, log entry 69). -/
def Mach.tryIssue (m : Mach) (c : Nat) (x : Cmd) (img : Img) : Mach :=
  let cl := m.cl c
  let t := cl.issueAc
  let code := cl.bank.text.take img.code.length
  let (dead, m) := m.fetched c cl.bank [cl.pc / 8]
  if dead then m.mastTrap c x img ⟨0x0C, 7, 0xFF, 0⟩ else
  match bundleAt code cl.pc with
  | none => m.mastTrap c x img ⟨0x02, 7, 0xFF, 0⟩
  | some b =>
    let (dead, m) := m.fetched c cl.bank ((byteWords b.off b.size).drop 1)
    if dead then m.mastTrap c x img ⟨0x0C, 7, 0xFF, 0⟩
    else match m.bundleTrap c t x img b with
      | some tr => m.mastTrap c x img tr
      | none =>
        match m.freezeSources c x img b with
        | (true, m) => m
        | (false, m) =>
          if (m.cl c).frozen ≠ 0 then m.frozenAc c
          else
            let m := m.issueSlots c t x img b
            let m := m.modCl c fun k => k.modSlot k.ctxSlot fun y => { y with lastUs := m.now / 1000 }
            (m.count 1 c 0x00 1).endCycle c t x

/-- One ac of a cluster whose command is issuing. -/
def Mach.issueAc (m : Mach) (c : Nat) (x : Cmd) (img : Img) : Mach :=
  let cl := m.cl c
  let t := cl.issueAc
  let m := m.landSpads c t x
  if cl.underflow then (m.modCl c fun k => k.freeze srcFeeder).frozenAc c
  else if cl.idle ≠ 0 then ((m.modCl c fun k => { k with idle := k.idle - 1 }).count 1 c 0x00 1).endCycle c t x
  else if cl.lastSeen then (if t < cl.drained then (m.count 1 c 0x00 1).endCycle c t x else m)
  else m.tryIssue c x img

/-- One ac of a cluster. -/
def Mach.ac (m : Mach) (c : Nat) : Mach :=
  let m := m.modCl c Cluster.acStart
  let before := m.cl c
  let m := match m.running' c with
    | some (x, img) => if before.runState = 2 then m.issueAc c x img else if before.runState = 3 then (m.landSpads c before.issueAc x).frozenAc c else m
    | none => m
  m.modCl c fun k => before.acEnd k

/-- ISSUE_CYCLE: one ac of a cluster, in which a bundle issues its slots or an idle cycle passes and due results land; a frozen
cluster, and one with nothing to issue, lets the ac pass (R85, R91, R102, R104). Bits that errors have flipped since the last ac come
first (R627, log entry 9). -/
def execIssueCycle (c : Fin 32) (s : State) : Host.Outcome State Fault Refusal :=
  .next (s.withMach (s.m.ac c.val))

/-! ## Freezes that end, the ramps, and the scratchpad banks -/

/-- WAIT_REPOLL: the sync unit repeats the flag read and releases the freeze when the comparison is true (R131). A read of
poison kills the command (R639); a flag that no longer translates traps. -/
def Mach.waitRepoll (m : Mach) (c : Nat) : Mach :=
  let cl := m.cl c
  match m.running' c, cl.wait with
  | some (x, img), some w =>
    if (cl.frozen &&& srcSync) = 0 then m else
      match m.flagAddr x.ctx w.va with
      | none => m.mastTrap c x img ⟨0x0D, 5, cl.coreMask.toNat, 0⟩
      | some a =>
        let (f, m) := m.readWord ⟨whoMast, x.ctx, c, x.seq⟩ a
        let m := m.modCmd x fun y => { y with meters := y.meters.add (pathBytes 0 8) }
        if f.poison then (m.touchPoison x.seq (uCluster c) (m.locAt a)).fail x .poisoned (detailWord srcMast 0 c)
        else if (flagCompare (w.cmp + 1) f.val w.val).getD true then
          (m.modCl c fun k => { k.clear srcSync with wait := none }).modCmd x fun y => { y with overdue := y.overdue.filter fun o => o.1 != c }
        else m
  | _, _ => m

def execWaitRepoll (c : Fin 32) (s : State) : Host.Outcome State Fault Refusal := .next (s.withMach (s.m.waitRepoll c.val))

/-- Lines that a cluster cache holds: 8 MiB, or 6 MiB while a serve step runs (R512). -/
def cacheLines (serve : Bool) : Nat := (if serve then 6 else 8) * 2 ^ 20 / 64

/-- A line brought into a cluster cache, over one taken at a free choice where the cache is full (R391). -/
def Mach.fillLine (m : Mach) (c : Nat) (x : Cmd) (dpa : Nat) : Mach :=
  let (l, m) := m.readBytes ⟨whoMast, x.ctx, c, x.seq⟩ dpa 64
  let m := (m.modCmd x fun y => { y with meters := y.meters.add (pathBytes 0 64) }).crossing x c dpa 64
  let keep := (m.cl c).cache
  let (keep, m) := if cacheLines (x.kind == .serve) ≤ keep.length then
      let (v, m) := m.pick keep
      (dropWhere (fun k => some k == v) keep, m)
    else (keep, m)
  m.modCl c fun k => { k.cleanWords x.ctx dpa 8 with cache := keep ++ [(x.ctx, dpa, l.1, l.2)] }

/-- A store into the 64 B line at an address. -/
def Pend.storesLine (p : Pend) (line : Nat) : Bool :=
  match p.loc with | .mem a => decide (a < line + 64) && decide (line < a + 256) | _ => false

/-- A volatile read of a line, kept for the load that waits for it (R129). -/
def Mach.volatileLine (m : Mach) (c : Nat) (x : Cmd) (dpa : Nat) : Mach :=
  let (l, m) := m.readBytes ⟨whoMast, x.ctx, c, x.seq⟩ dpa 64
  (((m.modCmd x fun y => { y with meters := y.meters.add (pathBytes 0 64) }).crossing x c dpa 64).modCl c fun k =>
    { k with volatile := k.volatile ++ [(dpa, l.1, l.2)] })

/-- CACHE_MISS_FILL: the first line awaited arrives; when none is awaited any more, the freeze ends (R88, R129). The stores of the cluster
to that line, issued before the load, are performed first (R383). A line of a grain page that a spar command owns is held (R318), and one
whose request waits for its entry or its slot has not arrived (R249). -/
def Mach.cacheMissFill (m : Mach) (c : Nat) : Mach :=
  let cl := m.cl c
  match m.running' c, cl.miss with
  | some (x, _), (k, a) :: r =>
    if k = 2 ∨ m.ownedAt a ∨ m.requestOpen .mastSlot c (a / 64) = true then m else
      let m := m.landWhere c x fun p => p.storesLine a
      let m := if k = 0 then m.fillLine c x a else m.volatileLine c x a
      m.modCl c fun y => let y := { y with miss := r }; if r.isEmpty then y.clear srcCache else y
  | _, _ => m

def execCacheMissFill (c : Fin 32) (s : State) : Host.Outcome State Fault Refusal := .next (s.withMach (s.m.cacheMissFill c.val))

/-- UNFURL_END: 48 ac after the unfurl began, its freeze is released (R183). Where the next ac comes first, the release comes with it. -/
def execUnfurlEnd (c : Fin 32) (s : State) : Host.Outcome State Fault Refusal :=
  let cl := s.m.cl c.val
  .next (if cl.ramp = 1 ∧ 48 ≤ cl.rampAc then s.withMach (s.m.modCl c.val Cluster.endUnfurl) else s)

/-- ARRAY_FURL: the idle count has reached 256, and the array begins to furl; it is furled 48 ac later (R182). -/
def execArrayFurl (c : Fin 32) (s : State) : Host.Outcome State Fault Refusal :=
  let cl := s.m.cl c.val
  .next (if cl.ramp = 2 ∧ 256 ≤ cl.arrayIdle then s.withMach (s.m.modCl c.val Cluster.startFurl) else s)

/-- One read granted or retried: it takes its banks where none is taken, and its row enters the tile's or the pass's
queue; a parity error in the queue causes the row to be read again (R163 to R167). -/
def Mach.grantFeed (c : Nat) (err : BitVec 8) (acc : Mach × List (Nat × Nat) × List Feed) (f : Feed) : Mach × List (Nat × Nat) × List Feed :=
  let (m, taken, left) := acc
  let want := f.banks
  if want.any taken.contains then (m.count 2 (c * 8 + f.core) 0x01 1, taken, left ++ [f])
  else
    let taken := taken ++ want
    let cl := m.cl c
    let m := ({ m with drawn := m.drawn + 128 } : Mach).noteSpad c f.core f.addr f.bytes
    if f.tile then
      match cl.mldbs.find? (fun b => b.at_ == f.pass) with
      | none => (m, taken, left)
      | some b =>
        let row := b.readRow cl m.drawn f.core f.row
        (m.modCl c fun k => { k with mldbs := k.mldbs.map fun y => if y.at_ == f.pass then { y with got := y.got ++ [(f.core, row)] } else y }, taken, left)
    else if err.getLsbD f.core then (m.count 2 (c * 8 + f.core) 0x02 1, taken, left ++ [f])
    else
      match cl.passes.find? (fun p => p.at_ == f.pass) with
      | none => (m, taken, left)
      | some p =>
        let row := p.readRow cl m.drawn f.core f.row
        let m := m.modCl c fun k => k.modCore f.core fun y => { y with queue := y.queue ++ [row] }
        let m := match row.poison, m.running' c with
          | true, some (x, _) => m.touchPoison x.seq (uCore (c * 8 + f.core)) 0
          | _, _ => m
        (m, taken, left)

/-- SCRATCHPAD_BANK_ARBITRATION: the reads of this ac are granted in the order VLD, MLDB, feeder; a row that ends an underflow
releases its freeze (R163, R166, R167). -/
def Mach.arbitrate (m : Mach) (c : Nat) (err : BitVec 8) : Mach :=
  let cl := m.cl c
  if cl.granted then m else
    let (tiles, rows) := cl.feeds.partition (·.tile)
    let (m, taken, left) := (tiles ++ rows).foldl (Mach.grantFeed c err) (m, cl.slotBanks, [])
    m.modCl c fun k =>
      let k := { k with feeds := left, granted := true, slotBanks := taken }
      if (k.frozen &&& srcFeeder) ≠ 0 ∧ k.underflow = false then
        let y := k.clear srcFeeder
        { y with cleared := y.cleared &&& ~~~srcFeeder }
      else k

def execScratchpadBankArbitration (c : Fin 32) (parityErr : BitVec 8) (s : State) : Host.Outcome State Fault Refusal :=
  .next (s.withMach (s.m.arbitrate c.val parityErr))

/-- FEEDER_UNDERFLOW: a row is missing from some core's queues at the end of its last cycle, and the cluster freezes until
it is there (R166). -/
def execFeederUnderflow (c : Fin 32) (s : State) : Host.Outcome State Fault Refusal :=
  let cl := s.m.cl c.val
  .next (if cl.runState = 2 ∧ cl.underflow = true then s.withMach (s.m.modCl c.val fun k => k.freeze srcFeeder) else s)

/-! ## Instruction-memory loads (R63 to R71) -/

/-- A load runs. -/
def Cluster.loadBusy (c : Cluster) : Bool := c.imemA.st == .loading || c.imemB.st == .loading

/-- The outcome of a load request: 0 OK, else a load_status that refuses it, by the state of the bank that it targets (R63, R64). -/
def Cluster.loadCheck (m : Mach) (c : Cluster) (bank : Bool) (lines src : Nat) : Nat :=
  if (c.imem bank).st = .loading then 1
  else if (c.imem bank).st = .armed ∨ (c.imem bank).st = .active then 2
  else if lines = 0 ∨ 8192 < lines then 3
  else if src % 64 ≠ 0 ∨ (m.reach src).isNone ∨ (m.reach (src + 64 * lines - 8)).isNone then 4
  else 0

/-- A load requested: refused with its status, or the bank becomes `loading` and its digest is cleared. -/
def Mach.requestLoad (m : Mach) (c : Nat) (bank : Bool) (lines src : Nat) : Mach :=
  let st := Cluster.loadCheck m (m.cl c) bank lines src
  m.modCl c fun k =>
    if st ≠ 0 then { k with loadStatus := st, loadLatest := none }
    else { k.modImem bank (fun _ => { st := .loading, lines := lines, src := src }) with loadStatus := 0, loadLatest := some bank }

/-- SEQ_IMEM_LOAD: a write of SEQ_IMEM_LOAD; only the cluster's control core is heeded (R64, R71). -/
def Mach.writeImemLoad (m : Mach) (c : Nat) (v : Word) : Mach :=
  let m := m.modCl c fun k => { k with loadReg := BitVec.ofNat 59 (b2n (v.getLsbD 62) * 2 ^ 58 + bits v.toNat 57 0) }
  if v.getLsbD 63 then m.requestLoad c (v.getLsbD 62) (bits v.toNat 57 44) (bits v.toNat 43 0) else m

def execSeqImemLoad (c : Fin 32) (w : Master) (v : Word) (s : State) : Host.Outcome State Fault Refusal :=
  .next (if w = .control c ∧ s.aon.mode.powered = true then s.withMach (s.m.writeImemLoad c.val v) else s)

/-- The next command's code on a cluster: the active bank bound for reuse, a `ready` bank with its digest armed, else a load
requested into an `empty` bank, or a `ready` one where none is empty (R63, R66). -/
def Mach.bindImem (m : Mach) (c : Nat) : Mach :=
  let cl := m.cl c
  let img := (cl.next.bind m.cmdOf).bind fun x => (x.placed.find? fun p => p.1 == c).map (·.2.2)
  match img with
  | none => m
  | some i =>
    let same := fun (b : Bool) (t : Bank3) => (cl.imem b).st == t && (cl.imem b).digest == some i.digest
    if cl.reuse = true ∨ cl.codeBound ≠ none ∨ cl.imemA.st = .armed ∨ cl.imemB.st = .armed ∨ cl.loadBusy = true then m
    else if same false .active || same true .active then m.modCl c fun k => { k with reuse := true }
    else match [false, true].find? (fun b => same b .ready) with
      | some b => m.modCl c fun k => k.modImem b fun y => { y with st := .armed }
      | none =>
        match ([false, true].filter fun b => (cl.imem b).st == .empty) ++ [false, true].filter (fun b => (cl.imem b).st == .ready) with
        | b :: _ => m.requestLoad c b (i.code.length / 64) i.codeDpa
        | [] => m

/-- IMEM_LOAD_DONE: a load ends, at a free choice where both banks are loading; the bank holds the code, armed where the next command
waits for it, or is `empty` with UNCORRECTABLE, which fails that command as a fetch would (R66, R69, R326). load_status keeps to the most
recent request (R71). -/
def Mach.imemLoadDone (m : Mach) (c : Nat) : Mach :=
  let cl := m.cl c
  match m.pick ([false, true].filter fun b => (cl.imem b).st == .loading) with
  | (none, _) => m
  | (some bank, m) =>
    let src := (cl.imem bank).src
    let next := cl.next.bind m.cmdOf
    let img := next.bind fun x => (x.placed.find? fun p => p.1 == c).map (·.2.2)
    let mine := cl.reuse == false && cl.codeBound == none && img.any fun i => i.codeDpa == src
    let ((bytes, bad), m) := if mine then m.readPieces ((img.map (·.pieces)).getD []) else m.readBytes (firmwareAcc 0) src (64 * (cl.imem bank).lines)
    let m := m.chargeOverhead (pathBytes 0 bytes.length)
    if bad.any id then
      let m := m.modCl c fun k => { k.modImem bank (fun _ => {}) with loadStatus := if k.loadLatest = some bank then 5 else k.loadStatus }
      match next, img with
      | some x, some i => if mine then m.mastTrap c x i ⟨0x0C, 7, 0xFF, 0⟩ else m.bindImem c
      | _, _ => m
    else
      let m := m.modCl c fun k => k.modImem bank fun _ => { st := if mine then .armed else .ready, code := bytes, digest := if mine then img.map (·.digest) else some (codeDigest bytes) }
      m.bindImem c

def execImemLoadDone (c : Fin 32) (s : State) : Host.Outcome State Fault Refusal := .next (s.withMach (s.m.imemLoadDone c.val))

/-! ## The command boundary (R65 to R70, R76 to R78) -/

/-- The banks at a boundary: no swap under reuse, else the active bank becomes `ready` and the armed one `active` (R65); reuse reads 1
until then (R66). -/
def Cluster.swapBanks (c : Cluster) : Cluster :=
  if c.reuse then { c with reuse := false, codeBound := some false } else
    let f := fun (b : Imem) => { b with st := if b.st = .active then .ready else if b.st = .armed then .active else b.st }
    { c with imemA := f c.imemA, imemB := f c.imemB, codeBound := if c.imemA.st = .armed ∨ c.imemB.st = .armed then some true else none }

/-- The commit log as the window holds it: log_count whole entries, as the command has left them (R56, R70). An entry is poison where
either of its words is (log entry 71). -/
def captureLog (w : Ram) (count : Nat) : List LogE :=
  (List.range count).map fun i =>
    let (b, p) := w.read (0x1000 + 16 * i) 16
    { op := fld b 7 1, va := fld b 0 8 % 2 ^ 52, val := ⟨BitVec.ofNat 64 (fld b 8 8), p⟩ }

/-- A command's work on a cluster is over: the cluster is free, and its time is metered (R676). -/
def Mach.leaveCluster (m : Mach) (c : Nat) (x : Cmd) : Mach :=
  (m.modCl c fun k => { k with cmd := none, runState := 0, idleSince := m.now, boundAt := m.now, wait := none, miss := [], loadAt := [], volatile := [], frozen := 0, cleared := 0 }).occupy x (m.now - (m.cl c).boundAt)

/-- COMMAND_BOUNDARY: the longest latency after the last bundle has elapsed and no attached move is running; the banks swap,
rank 0's log is captured, inlay requests that wait for the boundary are carried out, and the command ends when every cluster has come this far; a further launch of a serve step's stage on
the cluster is bound (R65, R70, R76, R78, R369, R449, R648). -/
def Mach.commandBoundary (m : Mach) (c : Nat) : Mach :=
  let cl := m.cl c
  match m.running' c with
  | none => m
  | some (x, img) =>
    if cl.runState ≠ 2 ∨ cl.lastSeen = false ∨ cl.issueAc < cl.drained ∨
        (cl.chans.any fun e => e.2.cmd == x.seq && (e.2.st == 1 || e.2.st == 2)) = true then m
    else
      let m := m.landWhere c x fun _ => true
      let log := captureLog (m.cl c).window img.log.length
      let m := if cl.rank = 0 then
          let m := m.noteRam (uCluster c) sramWindow (m.cl c).window (byteWords 0x1000 (16 * img.log.length))
          let m := m.modCmd x fun y => { y with log := if y.kind = .serve then y.log ++ log else log, captured := true }
          if log.any (·.val.poison) then m.touchPoison x.seq (uCluster c) 0 else m
        else m
      let m := (((m.modCl c fun k => k.swapBanks).leaveCluster c x).count 1 c 0x30 1).inlayBoundary c
      match x.more.find? (fun p => p.1 == c) with
      | some e =>
        let m := m.modCmd x fun y => { y with more := y.more.erase e, placed := y.placed.map fun p => if p.1 == c then e else p }
        (m.modCl c fun k => { k with next := some x.seq, runState := 1 }).bindImem c
      | none =>
        let m := m.modCl c fun k => { k with runState := if k.next.isSome then 1 else 0 }
        let m := m.modCmd x fun y =>
          { y with boundary := addNew y.boundary c,
                   phase := if y.phase = .running ∧ y.kind ≠ .serve ∧ (addNew y.boundary c).length = y.placed.length then .ended else y.phase }
        m.bindImem c

def execCommandBoundary (c : Fin 32) (s : State) : Host.Outcome State Fault Refusal := .next (s.withMach (s.m.commandBoundary c.val))

/-- The count of a loop-count table entry (R60, R61). -/
def loopCount (args : List Byte) (l : Bool × Nat × Nat) : Nat := if l.1 then fld args (8 * l.2.1) 4 else l.2.2

/-- The window at command start: argument block, commit log; scalar data stays (R56). The log area behind the entries of the image reads
0 (DESIGN CHOICE, log entry 71). -/
def layWindow (w : Ram) (args : List Byte) (log : List LogE) : Ram :=
  let w := w.write 0 (slice args 0 4096) false
  let entries := log.flatMap fun e => leBytes 8 (e.op * 2 ^ 56 + e.va) ++ leBytes 8 e.val.val.toNat
  w.write 0x1000 (slice entries 0 4096) false

/-- A core at the first bundle of a command: registers, masks, accumulators and tiles cleared (R94, R154). -/
def Core.fresh (k : Core) : Core :=
  { k with v := [], m := [], acc := [], accPoison := [], accFlips := [], stat := {}, shadow := {}, queue := [] }

/-- The state that a command finds at its first bundle (R56, R57, R94, R154): the generators of its cores seeded (R210), and the idle
count at 256 where no command has run since reset or a kill (R181). -/
def Cluster.begin (c : Cluster) (x : Cmd) (rank slot : Nat) (img : Img) : Cluster :=
  let c := c.phys.foldl (fun (c : Cluster) k => c.modCore k fun y => { y.fresh with seed := (x.ctx, x.seq), supplied := 0 }) c
  let g : Tab PWord := [(1, rank), (2, img.clusters), (3, c.phys.length)].foldl (fun (t : Tab PWord) e => Tab.put {} t e.1 ⟨BitVec.ofNat 64 e.2, false⟩) []
  { c with cmd := some x.seq, next := none, rank := rank, ctxSlot := slot, runState := 2, g := g, p := [], pPoison := [], pc := 0, idle := 0,
           lastSeen := false, loops := [], counts := img.loops.map (loopCount img.argBytes), issueAc := 0, freezeAc := 0, stallAc := 0, frozen := 0, cleared := 0,
           wait := none, miss := [], loadAt := [], volatile := [], pend := [], passes := [], mldbs := [], mouts := [], feeds := [],
           reuse := false, codeBound := none, arrayIdle := if c.idleFull then 256 else c.arrayIdle, idleFull := false,
           windows := Tab.upd {} c.windows slot fun w => layWindow w img.argBytes img.log }

/-- The slot in which a context is resident on a cluster. -/
def Cluster.slotOf (c : Cluster) (ctx : Nat) : Option Nat := (List.range 8).find? fun i => (c.slot i).ctx == some ctx

/-- COMMAND_FIRST_BUNDLE: the boundary is complete, the next command's code is armed or bound for reuse, and the channels of its
attached moves are free; its state is set, its attached moves start, and its first bundle issues (R56, R57, R67, R77, R94,
R366, R369). -/
def Mach.firstBundle (m : Mach) (c : Nat) : Mach :=
  let cl := m.cl c
  match cl.next.bind m.cmdOf with
  | none => m
  | some x =>
    match x.placed.find? (fun p => p.1 == c), cl.slotOf x.ctx with
    | some (_, rank, img), some slot =>
      let armed := cl.imemA.st == .armed || cl.imemB.st == .armed
      let ready := armed || cl.reuse || cl.codeBound.isSome
      let moves := if rank = 0 then x.moves else []
      if cl.cmd.isSome ∨ cl.runState = 4 ∨ x.phase ≠ .running ∨ ready = false ∨ (cl.slot slot).st ≠ 0 ∨ cl.freeChans.length < moves.length then m
      else
        let m := m.modCl c fun k => (if armed then k.swapBanks else k).begin x rank slot img
        let m := if x.kind = .serve then m.modCl c fun k =>
            { k with afu := { k.afu with st := if img.walk = 0 then 0 else 1, next := 0, total := img.walk, touched := none, staged := [], dep := x.q - 16, entry := img.entry } }
          else m
        let m := m.modCmd x fun y => { y with startedAt := if y.begun then y.startedAt else m.now, begun := true }
        let m := moves.foldl (fun m mv => m.startMove c slot x mv.1 mv.2 1 true) m
        m.ac c
    | _, _ => m

def execCommandFirstBundle (c : Fin 32) (s : State) : Host.Outcome State Fault Refusal := .next (s.withMach (s.m.firstBundle c.val))

end Sys2Proof.Machine
end

