-- ==== Sys2Proof/Machine/Rings.lean ====
section
/-! DEFINITION. Submission rings and the memory entries: doorbells, the entry at the head of a queue, ALLOC, FREE, MAP,
UNMAP, DESC_CREATE and DESC_DESTROY (R243 to R246, R320, R340 to R342, R349, R576 to R588, R743, R744). -/
namespace Sys2Proof.Machine

/-! ## Doorbells (R577, R578, R582, R588) -/

/-- A count of a 32-bit ring from one index to another. -/
def ringDist (a b : Nat) : Nat := (b + 2 ^ 32 - a) % 2 ^ 32

/-- SQ_TAIL_DOORBELL: the tail advances, or the write is ignored, with a doorbell-invalid event where it would move the tail
backwards or leave more than 4,096 entries unread (R578). -/
def Mach.doorbell (m : Mach) (ctx q tail : Nat) : Mach :=
  let c := m.cx ctx
  if c.st = .absent ∨ c.queues ≤ q then m else
    let k := c.q q
    if ringDist k.sqHead tail < ringDist k.sqHead k.sqTail ∨ 4096 < ringDist k.sqHead tail then
      m.post .doorbellInvalid (some ctx) uDamger [BitVec.ofNat 64 ctx, BitVec.ofNat 64 q]
    else m.modCx ctx fun c => c.modQ q fun k => { k with sqTail := tail }

def execSqTailDoorbell (ctx : Fin 4096) (q : Fin 16) (tail : BitVec 32) (s : State) : Host.Outcome State Fault Refusal :=
  .next (if s.servedFullWrite = true then s.withMach (s.m.doorbell ctx.val q.val tail.toNat) else s)

/-- HYV_Q_RESTART: the stop of a queue ends (R582). -/
def execHyvQRestart (ctx : Fin 4096) (q : Fin 16) (s : State) : Host.Outcome State Fault Refusal :=
  .next (if s.servedFullWrite = true ∧ (s.m.cx ctx.val).st ≠ .absent ∧ q.val < (s.m.cx ctx.val).queues then
    s.withMach (s.m.modCx ctx.val fun c => c.modQ q.val fun k => { k with stopped := none }) else s)

/-- Versions of Hyval that the identity block gives (R569, R588). -/
def hyvalMin : Nat := 1
def hyvalMax : Nat := 1

/-- HYV_VERSION_WRITE: the host selects a version, once until the next `BOOT`; a value out of range leaves 0 (R588). -/
def execHyvVersionWrite (v : BitVec 8) (s : State) : Host.Outcome State Fault Refusal :=
  .next (if s.servedWrite = true ∧ s.m.hyv.version = 0 ∧ hyvalMin ≤ v.toNat ∧ v.toNat ≤ hyvalMax then
    s.withMach { s.m with hyv := { s.m.hyv with version := v } } else s)

/-! ## The entry at the head of a queue (R577, R579, R584, R585) -/

/-- A submission entry. -/
structure Ent where
  ctx : Nat
  q : Nat
  op : Nat
  flags : Nat
  tag : Word
  bytes : List Byte
  deriving DecidableEq, Repr

/-- The opcodes of R586; those of commands take queue positions (R585). -/
def entryOps : List Nat := [1, 2, 3, 4, 5, 6, 0x10, 0x11, 0x12, 0x13, 0x14, 0x15, 0x20, 0x21, 0x22, 0x23, 0x24, 0x25, 0x30, 0x31]
def commandOps : List Nat := [1, 2, 3, 4, 5, 6, 0x30]

/-- A reserved byte or flag that is not 0, or an unlisted opcode (R584). -/
def Ent.bad (e : Ent) : Bool := !entryOps.contains e.op || decide (4 ≤ e.flags) || !zeros e.bytes 2 6

/-- A field of an entry. -/
def Ent.fld (e : Ent) (o n : Nat) : Nat := Sys2Proof.Machine.fld e.bytes o n

/-- A queue from which firmware reads: its context is `enabled`, it is not stopped, and the completion ring has room for
one more outcome (R406, R434, R579). -/
def Ctx.readable (c : Ctx) (q : Nat) : Bool :=
  c.st == .enabled && decide (q < c.queues) && (c.q q).stopped.isNone && (c.q q).sqHead != (c.q q).sqTail
    && decide ((c.q q).unposted + ringDist (c.q q).cqHead (c.q q).cqTail < 4096)

/-- Bytes of a context's rings. -/
def ringBytes (t : Tab Byte) (o n : Nat) : List Byte := (List.range n).map fun i => Tab.get 0 t (o + i)

/-- The entry at the head of a queue, where firmware runs and reads it. -/
def State.headEntry (s : State) (ctx q : Nat) : Option Ent :=
  let c := s.m.cx ctx
  if (s.aon.mode = .ready ∨ s.aon.mode = .run) ∧ s.m.running = true ∧ c.readable q = true then
    let b := ringBytes c.rings (sqOffset q (c.q q).sqHead) 64
    some ⟨ctx, q, fld b 0 1, fld b 1 1, BitVec.ofNat 64 (fld b 8 8), b⟩
  else none

/-- The entry is copied: the head advances past it, and room is kept for its completion (R577, R579). -/
def Mach.consume (m : Mach) (e : Ent) : Mach :=
  m.modCx e.ctx fun c => c.modQ e.q fun k =>
    { k with sqHead := (k.sqHead + 1) % 2 ^ 32, unposted := k.unposted + 1, nextPos := k.nextPos + 1 }

/-- An entry completes. -/
def Mach.endEntry (m : Mach) (e : Ent) (o : Outcome1) : Mach := m.complete e.ctx e.q e.tag e.op e.flags o

/-- The row of a submission entry: the entry at the head is read where it is this row's; an ordered control entry waits until
every earlier entry of its queue has completed (R585), a command stays in its ring while the module holds as many as it may (R424), and
an entry that R584 refuses completes with BAD_OPCODE. -/
def entryRow (s : State) (ctx q : Nat) (mine : Ent → Bool) (run : Ent → Mach → Mach) : State :=
  match s.headEntry ctx q with
  | none => s
  | some e =>
    if e.bad then s.withMach ((s.m.consume e).endEntry e { st := .badOpcode })
    else if !mine e then s
    else if !commandOps.contains e.op && bitAt e.flags 1 && ((s.m.cx ctx).q q).unposted != 0 then s
    else if commandOps.contains e.op && decide (maxInFlight ≤ s.m.holding) then s
    else s.firmware (run e (s.m.consume e))

/-- A command made of an entry: queued at its position. -/
def Mach.addCmd (m : Mach) (e : Ent) (kind : Kind) (f : Cmd → Cmd) : Mach :=
  let pos := ((m.cx e.ctx).q e.q).nextPos - 1
  { m with cmds := m.cmds ++ [f { seq := 0, ctx := e.ctx, q := e.q, pos := pos, kind := kind, tag := e.tag, opcode := e.op, flags := e.flags, entry := e.bytes }] }

/-! ## Memory entries: what is still in use (R320, R342) -/

/-- The descriptors that a handle stands for: itself, its index, and its local descriptor. -/
def Mach.handlesOf (m : Mach) (ctx h : Nat) : List Nat :=
  match m.liveDesc ctx h with
  | none => [h]
  | some d =>
    let l := if d.grid.isSome then d.local_ :: (match m.liveDesc ctx d.local_ with | some y => [y.index] | none => []) else []
    (h :: d.index :: l).filter (· != 0)

/-- A dispatched, uncommitted command uses an allocation, or a descriptor. -/
def Mach.usesAlloc (m : Mach) (x : Cmd) (h : Nat) : Bool :=
  x.drafts.any (fun d => d.alloc == h) ||
    (x.reads.flatMap (m.handlesOf x.ctx)).any fun i => (m.liveDesc x.ctx i).any fun d => d.grid.isNone && d.space == 0 && d.alloc == h
def Mach.usesDesc (m : Mach) (x : Cmd) (h : Nat) : Bool := (x.reads.flatMap (m.handlesOf x.ctx)).contains h

/-- Some page of an allocation is owned by a spar command. -/
def Mach.ownedAlloc (m : Mach) (a : Alloc) : Bool := a.pages.any fun f => Tab.get [] m.owned f != []

/-- A pending FREE, DESC_DESTROY or UNMAP may take effect. -/
def Mach.freeReady (m : Mach) (ctx : Nat) (e : Nat × Nat × Nat × Nat × Word × Nat) : Bool :=
  let live := m.cmds.filter fun x => x.ctx == ctx && x.inFlight
  match e.1 with
  | 0 => (match (m.cx ctx).alloc e.2.1 with | some a => !m.ownedAlloc a | none => true) && live.all fun x => !m.usesAlloc x e.2.1
  | 1 => live.all fun x => !m.usesDesc x e.2.1
  | _ => (m.cx ctx).maps.all fun r => (List.range r.pages).all fun i =>
      let v := r.va + i * 65536
      decide (v < e.2.1) || decide (e.2.1 + e.2.2.1 ≤ v) || match (m.cx ctx).mapped v with
        | some p => Tab.get [] m.owned p.frame == []
        | none => true

/-- The pages of a range taken out of a mapping: what is left before and after it. -/
def Mapping.cut (r : Mapping) (va pages : Nat) : List Mapping :=
  let first := max r.va va
  let last := min (r.va + r.pages * 65536) (va + pages * 65536)
  if last ≤ first then [r] else
    ([{ r with pages := (first - r.va) / 65536 },
      { r with va := last, page := r.page + (last - r.va) / 65536, pages := (r.va + r.pages * 65536 - last) / 65536 }] : List Mapping).filter fun x => x.pages != 0

/-- A pending entry takes effect: the allocation's mappings and frames go, the descriptor goes, or the range is unmapped. -/
def Mach.freeDone (m : Mach) (ctx : Nat) (e : Nat × Nat × Nat × Nat × Word × Nat) : Mach :=
  match e.1 with
  | 0 =>
    match (m.cx ctx).alloc e.2.1 with
    | none => m
    | some a =>
      let held := a.pages.filter fun f => m.frame f == .ctx ctx
      let m := m.modCx ctx fun c => { c with
        maps := c.maps.filter (fun r => r.alloc != e.2.1), allocs := Tab.erase c.allocs e.2.1, frames := c.frames - held.length }
      held.foldl Mach.release m
  | 1 => m.modCx ctx fun c => { c with descs := Tab.erase c.descs (e.2.1 % 2 ^ 20) }
  | _ => m.modCx ctx fun c => { c with maps := c.maps.flatMap fun r => r.cut e.2.1 (e.2.2.1 / 65536) }

/-- Opcode of a pending memory entry. -/
def freeOp (k : Nat) : Nat := match k with | 0 => 0x11 | 1 => 0x15 | _ => 0x13

/-- The pending memory entries of a context that may take effect do, and complete (R320, R342). -/
def Mach.settle (m : Mach) (ctx : Nat) : Mach :=
  (m.cx ctx).frees.foldl (fun (m : Mach) e =>
    if m.freeReady ctx e then
      ((m.freeDone ctx e).modCx ctx fun c => { c with frees := c.frees.erase e }).complete ctx e.2.2.2.1 e.2.2.2.2.1 (freeOp e.1) e.2.2.2.2.2 { st := .ok }
    else m) m

/-- A memory entry that takes effect now, or when what it names is no longer in use. -/
def Mach.deferFree (m : Mach) (e : Ent) (kind a b : Nat) : Mach :=
  (m.modCx e.ctx fun c => { c with frees := c.frees ++ [(kind, a, b, e.q, e.tag, e.flags)] }).settle e.ctx

/-! ## Placement (R243 to R246, R586) -/

/-- A free frame of a stack at or after a group and phase (take of R244). -/
def Mach.takeFrame (m : Mach) (use : FrameUse) (stack group phase : Nat) : Option (Nat × Mach) :=
  ((List.range 64).map fun i => (phase + i % 4) % 4 * 16 + (group + i / 4) % 16).findSome? fun col => m.takeOf (framesOfColour stack col) use

/-- A page placed in spread mode. -/
def Mach.placeSpread (m : Mach) (use : FrameUse) (v seed : Nat) : Option (Nat × Mach) :=
  (List.range 12).findSome? fun ds => m.takeFrame use ((v + seed + ds) % 12) ((v / 12 + seed / 12) % 16) (v / 192 % 4)

/-- A page placed in locality mode. -/
def Mach.placeLocality (m : Mach) (use : FrameUse) (v seed home : Nat) : Option (Nat × Mach) :=
  [Config.nearStacks home, Config.farStacks home, Config.remoteStacks home].findSome? fun set =>
    (List.range set.length).findSome? fun i =>
      m.takeFrame use (set.getD ((v + i) % set.length) 0) ((v / set.length + seed) % 16) 0

/-- The first frames of the large pages of a stack (R237), and the frames of one. -/
def largePages (stack : Nat) : List Nat := (List.range 128).map fun u => stack * 2 ^ 20 + u * 8192
def largeFrames (f : Nat) : List Nat := (List.range 8192).map (f + ·)

/-- A large page of a stack at a free choice: its 8,192 frames. -/
def Mach.takeLarge (m : Mach) (use : FrameUse) (stack : Nat) : Option (List Nat × Mach) :=
  match m.pick ((largePages stack).filter fun f => (largeFrames f).all m.available) with
  | (some f, m) => some (largeFrames f, (largeFrames f).foldl (fun (m : Mach) x => m.setFrame x use) m)
  | (none, _) => none

/-- The stacks in which a page is sought, in order. -/
def stackOrder (locality : Bool) (v seed home : Nat) : List Nat :=
  if locality then [Config.nearStacks home, Config.farStacks home, Config.remoteStacks home].flatMap fun set =>
    (List.range set.length).map fun i => set.getD ((v + i) % set.length) 0
  else (List.range 12).map fun ds => (v + seed + ds) % 12

/-- Page `v` of a word-view allocation placed: its frames. -/
def Mach.placePage (m : Mach) (use : FrameUse) (locality large : Bool) (v seed home : Nat) : Option (List Nat × Mach) :=
  if large then (stackOrder locality v seed home).findSome? (m.takeLarge use)
  else (if locality then m.placeLocality use v seed home else m.placeSpread use v seed).map fun r => ([r.1], r.2)

/-- The pages of a word-view allocation placed one after another; none where frames run out (R586). -/
def Mach.placeWord (m : Mach) (use : FrameUse) (locality large : Bool) (n seed home : Nat) : Option (List Nat × Mach) :=
  (List.range n).foldl (fun (acc : Option (List Nat × Mach)) v =>
    match acc with
    | none => none
    | some (l, m) => (m.placePage use locality large v seed home).map fun r => (l ++ r.1, r.2)) (some ([], m))

/-- The banks that a grain-view ALLOC names: die varying fastest, then bank, then stack. -/
def namedBanks (memStacks dies first last step : Nat) : List Nat :=
  (setBits 12 memStacks).flatMap fun s =>
    ((List.range 64).filter fun b => decide (first ≤ b) && decide (b ≤ last) && (b - first) % step == 0).flatMap fun b =>
      (setBits 16 dies).map fun d => s * 1024 + d * 64 + b

/-- The pages of a grain-view allocation: as many in each named bank. -/
def Mach.placeGrain (m : Mach) (use : FrameUse) (banks : List Nat) (per : Nat) : Option (List Nat × Mach) :=
  banks.foldl (fun (acc : Option (List Nat × Mach)) b =>
    (List.range per).foldl (fun (acc : Option (List Nat × Mach)) _ =>
      match acc with
      | none => none
      | some (l, m) => (m.takeOf (pagesOfBank b) use).map fun r => (l ++ [r.1], r.2)) acc) (some ([], m))

/-! ## ALLOC, FREE, MAP, UNMAP (R586, R744) -/

/-- The range checks of ALLOC (R744). -/
def Ent.allocOk (e : Ent) : Bool :=
  let view := e.fld 0x18 1
  let large := e.fld 0x19 1
  if view = 0 then
    decide (large ≤ 1) && e.fld 0x10 8 != 0 && e.fld 0x10 8 % (if large = 1 then 2 ^ 29 else 65536) == 0 && decide (e.fld 0x1A 1 ≤ 31)
  else
    view == 1 && large == 0 && e.fld 0x1C 2 != 0 && decide (e.fld 0x1C 2 < 4096) && e.fld 0x1E 2 != 0
      && decide (e.fld 0x20 1 ≤ e.fld 0x21 1) && decide (e.fld 0x21 1 ≤ 63) && (e.fld 0x22 1 == 1 || e.fld 0x22 1 == 2)
      && decide (1 ≤ e.fld 0x24 4) && decide (e.fld 0x24 4 ≤ 1024) && decide (e.fld 0x1B 1 ≤ 6)

/-- ALLOC: the checks, page_limit before any frame is sought, the frames, and the handle (R246, R586, R744). -/
def Mach.alloc (m : Mach) (e : Ent) : Mach :=
  let c := m.cx e.ctx
  let h := c.nextAlloc
  let large := e.fld 0x19 1 == 1
  let word := e.fld 0x18 1 == 0
  let banks := namedBanks (e.fld 0x1C 2) (e.fld 0x1E 2) (e.fld 0x20 1) (e.fld 0x21 1) (e.fld 0x22 1)
  let need := if word then e.fld 0x10 8 / 65536 else banks.length * e.fld 0x24 4
  if !e.allocOk then m.endEntry e { st := .badParam }
  else if c.pageLimit ≠ 0 ∧ c.pageLimit < c.frames + need then m.endEntry e { st := .pageLimit }
  else
    match (if word then m.placeWord (.ctx e.ctx) c.locality large (if large then need / 8192 else need) (h % 192) (e.fld 0x1A 1)
           else m.placeGrain (.ctx e.ctx) banks (e.fld 0x24 4)) with
    | none => m.endEntry e { st := .noMemory }
    | some (l, m) =>
      let a : Alloc := { pages := l, pageSize := if word && large then 2 ^ 29 else 65536, grain := !word, turn := if word then 0 else e.fld 0x1B 1,
                         banks := if word then [] else banks, perBank := if word then 0 else e.fld 0x24 4 }
      let m := m.modCx e.ctx fun c => { c with allocs := Tab.put none c.allocs h (some a), nextAlloc := h + 1, frames := c.frames + l.length }
      let home := e.fld 0x1A 1
      let cnt := fun (set : List Nat) => (l.filter fun f => set.contains (frameStack f)).length
      if word && c.locality then
        m.endEntry e { st := .ok, result := h + cnt (Config.nearStacks home) % 2 ^ 24 * 2 ^ 32, detail := cnt (Config.farStacks home) % 2 ^ 24 }
      else m.endEntry e { st := .ok, result := h }

def execAlloc (ctx : Fin 4096) (q : Fin 16) (s : State) : Host.Outcome State Fault Refusal :=
  .next (entryRow s ctx.val q.val (·.op == 0x10) fun e m => m.alloc e)

/-- FREE: the allocation may be named by no new dispatch, and goes when no dispatched command uses it (R342). -/
def Mach.freeAlloc (m : Mach) (e : Ent) : Mach :=
  let h := e.fld 0x10 4
  match (m.cx e.ctx).alloc h with
  | some a =>
    if a.dying then m.endEntry e { st := .badHandle }
    else (m.modCx e.ctx fun c => { c with allocs := Tab.put none c.allocs h (some { a with dying := true }) }).deferFree e 0 h 0
  | none => m.endEntry e { st := .badHandle }

def execFree (ctx : Fin 4096) (q : Fin 16) (s : State) : Host.Outcome State Fault Refusal :=
  .next (entryRow s ctx.val q.val (·.op == 0x11) fun e m => m.freeAlloc e)

/-- MAP: an allocation mapped whole at a range that holds no mapping (R744). -/
def Mach.map (m : Mach) (e : Ent) : Mach :=
  let h := e.fld 0x10 4
  let va := e.fld 0x18 8
  let c := m.cx e.ctx
  match c.alloc h with
  | none => m.endEntry e { st := .badParam }
  | some a =>
    let n := a.pages.length * 65536
    let clash := c.maps.any fun r => decide (r.va < va + n) && decide (va < r.va + r.pages * 65536)
    if a.dying ∨ 1 < e.fld 0x14 1 ∨ va % a.pageSize ≠ 0 ∨ ringBase < va + n ∨ clash = true then m.endEntry e { st := .badParam }
    else (m.modCx e.ctx fun c => { c with maps := c.maps ++ [⟨va, h, 0, a.pages.length, e.fld 0x14 1 == 1⟩] }).endEntry e { st := .ok }

def execMap (ctx : Fin 4096) (q : Fin 16) (s : State) : Host.Outcome State Fault Refusal :=
  .next (entryRow s ctx.val q.val (·.op == 0x12) fun e m => m.map e)

/-- UNMAP: every mapped page of a range; a range that touches a large page covers it whole (R744). -/
def Mach.unmap (m : Mach) (e : Ent) : Mach :=
  let va := e.fld 0x10 8
  let n := e.fld 0x18 8
  let c := m.cx e.ctx
  let parts := c.maps.any fun r => match c.alloc r.alloc with
    | some a => a.pageSize != 65536 && decide (r.va < va + n) && decide (va < r.va + r.pages * 65536)
        && ((decide (r.va < va) && va % a.pageSize != 0) || (decide (va + n < r.va + r.pages * 65536) && (va + n) % a.pageSize != 0))
    | none => false
  if va % 65536 ≠ 0 ∨ n % 65536 ≠ 0 ∨ n = 0 ∨ 2 ^ 52 < va + n ∨ parts = true then m.endEntry e { st := .badParam }
  else m.deferFree e 2 va n

def execUnmap (ctx : Fin 4096) (q : Fin 16) (s : State) : Host.Outcome State Fault Refusal :=
  .next (entryRow s ctx.val q.val (·.op == 0x13) fun e m => m.unmap e)

/-! ## DESC_CREATE and DESC_DESTROY (R340 to R365) -/

/-- Descriptors that count towards the limits of R340. -/
def Ctx.descCount (c : Ctx) : Nat := (c.descs.filter fun d => d.2.isSome).length

/-- The next index of context `ctx` that is not in use, looking from the latest on: an index comes round only after all others, and only
handle 0 is never issued (R340). -/
def Ctx.freeDesc (c : Ctx) (ctx : Nat) : Option Nat :=
  findFrom (fun i => (Tab.get none c.descs (i % 2 ^ 20)).isNone && (ctx != 0 || i % 2 ^ 20 != 0)) (2 ^ 20) c.nextDesc

/-- A descriptor that has passed its checks gets a handle (R340). -/
def Mach.addDesc (m : Mach) (e : Ent) (d : Desc) (unproven : Bool) : Mach :=
  let c := m.cx e.ctx
  match (if 65536 ≤ c.descCount ∨ 1048576 ≤ sumNat (m.ctxs.map fun x => x.2.descCount) then none else c.freeDesc e.ctx) with
  | none => m.endEntry e { st := .noSpace }
  | some i =>
    let i := i % 2 ^ 20
    (m.modCx e.ctx fun c => { c with descs := Tab.put none c.descs i (some d), nextDesc := (i + 1) % 2 ^ 20 }).endEntry e
      { st := .ok, result := e.ctx * 2 ^ 20 + i, unproven := unproven }

/-- DESC_CREATE: the record is read and checked; a distributed one with its owner table (R349, R361 to R365, R743). -/
def Mach.descCreate (m : Mach) (e : Ent) : Mach :=
  match m.fetchVa e.ctx (e.fld 0x10 8) 256 with
  | (none, m) => m.endEntry e { st := .badParam }
  | (some (_, true), m) => m.endEntry e { st := .poisoned }
  | (some (b, false), m) =>
    if fld b 6 1 = 1 then
      let n := prodNat ((List.range (fld b 0x0C 1)).map fun j => fld b (0x10 + 2 * j) 2)
      if !gridRanges b ∨ 65536 < n then m.endEntry e { st := .badDesc }
      else match m.ownerTable e.ctx (fld b 0x18 8) n with
        | (none, m) => m.endEntry e { st := .badParam }
        | (some none, m) => m.endEntry e { st := .poisoned }
        | (some (some o), m) =>
          match m.checkGrid e.ctx b o with
          | .ok (d, u) => m.addDesc e d u
          | .error st => m.endEntry e { st := st }
    else match m.checkLocal e.ctx b with
      | .ok (d, u) => m.addDesc e d u
      | .error st => m.endEntry e { st := st }

def execDescCreate (ctx : Fin 4096) (q : Fin 16) (s : State) : Host.Outcome State Fault Refusal :=
  .next (entryRow s ctx.val q.val (·.op == 0x14) fun e m => m.descCreate e)

/-- DESC_DESTROY: no new dispatch may name the descriptor, which goes when no dispatched command uses it (R342). -/
def Mach.descDestroy (m : Mach) (e : Ent) : Mach :=
  let h := e.fld 0x10 4
  match m.liveDesc e.ctx h with
  | some d =>
    if d.dying then m.endEntry e { st := .badHandle }
    else (m.modCx e.ctx fun c => { c with descs := Tab.put none c.descs (h % 2 ^ 20) (some { d with dying := true }) }).deferFree e 1 h 0
  | none => m.endEntry e { st := .badHandle }

def execDescDestroy (ctx : Fin 4096) (q : Fin 16) (s : State) : Host.Outcome State Fault Refusal :=
  .next (entryRow s ctx.val q.val (·.op == 0x15) fun e m => m.descDestroy e)

end Sys2Proof.Machine
end

