-- ==== Sys2Proof/Machine/Inbound.lean ====
section
/-! DEFINITION. Requests of the companion to stack memory and to the rings (R373, R394, R398 to R400, R565, R566, R576). -/
namespace Sys2Proof.Machine

/-- The ring offset of an address of a context: within the submission or the completion ring of one of its queues (R576). -/
def Ctx.ringAt (c : Ctx) (va n : Nat) : Option Nat :=
  if va < ringBase then none else
    let o := va - ringBase
    let r := o % 0x100000
    if o / 0x100000 < c.queues ∧ (r + n ≤ 0x40000 ∨ (0x80000 ≤ r ∧ r + n ≤ 0xA0000)) then some o else none

/-- The parts of a range that lie in one page each: address and bytes. -/
def pageCuts (va n : Nat) : List (Nat × Nat) :=
  (List.range ((va + n + 65535) / 65536 - va / 65536)).map fun i =>
    let lo := max va ((va / 65536 + i) * 65536)
    (lo, min (va + n) ((va / 65536 + i + 1) * 65536) - lo)

/-- The pages of a request, each with its part; none where one is not mapped, or not writable for a write (R373). -/
def Mach.inboundPages (m : Mach) (x : Inbound) : Option (List ((Nat × Nat) × PageRef)) :=
  (pageCuts x.va x.len).foldr (fun c acc =>
    match acc, m.pageOf x.tag c.1 with
    | some l, some p => if x.data.isSome && !p.writable then none else some ((c, p) :: l)
    | _, _ => none) (some [])

/-- A line is recalled from the companion, once. -/
def Mach.recallLine (m : Mach) (l : Nat) : Mach := { m with dmg := { m.dmg with recalls := addNew m.dmg.recalls l } }

/-- How many lines a stack's directory holds (R566). -/
def dirRoom : Nat := 2 ^ 20

/-- The stack of a line. -/
def lineStack (l : Nat) : Nat := ((cellOf (lineDpa l)).map stackOfCell).getD 0

/-- The recalls that a grant of lines waits for: of those being recalled, and of the line of a full directory granted longest ago
(R566). -/
def Mach.grantWaits (m : Mach) (lines : List Nat) : Option Mach :=
  if lines.any m.dmg.recalls.contains then some m else
    match lines.find? (fun l => !m.dmg.dir.contains l && decide (dirRoom ≤ (m.dmg.dir.filter fun k => lineStack k == lineStack l).length)) with
    | some l => some (match (m.dmg.dir.filter fun k => lineStack k == lineStack l).getLast? with | some k => m.recallLine k | none => m)
    | none => none

/-- A write has landed in a frame that a command not yet committed will replace: it is reported (R399). -/
def Mach.superseded (m : Mach) (f : Nat) : Mach :=
  (m.cmds.filter fun x => x.inFlight && x.drafts.any fun d => d.old == f).foldl (fun (m : Mach) x =>
    m.post .inboundSuperseded (some x.ctx) uDamger [BitVec.ofNat 64 x.ctx, BitVec.ofNat 64 f, BitVec.ofNat 64 x.seq]) m

/-- A reply to a tagged request. -/
def Mach.answerTag (m : Mach) (tag : Nat) (r : Reply) : Mach := { m with dmg := { m.dmg with replies := m.dmg.replies ++ [(tag, r)] } }

/-- A request refused: an error response and an event (R373). -/
def Mach.refuseInbound (m : Mach) (x : Inbound) : Mach :=
  (m.post .inboundRefused (some x.tag) uDamger [BitVec.ofNat 64 x.tag, BitVec.ofNat 64 x.va]).answerTag x.tag .error

/-- The lines that a read which the companion keeps is granted. -/
def keptLines (cuts : List ((Nat × Nat) × PageRef)) : List Nat :=
  cuts.flatMap fun c =>
    let a := frameDpa c.2.frame + c.1.1 % 65536
    (List.range ((a + c.1.2 + 63) / 64 - a / 64)).map (a / 64 + ·)

/-- A request that nothing holds: performed volatilely at the home controllers, in place, and metered to its context (R394, R398,
R676). -/
def Mach.performInbound (m : Mach) (x : Inbound) (cuts : List ((Nat × Nat) × PageRef)) : Mach :=
  let m := m.chargeCtx x.tag ((pathBytes 6 x.len).add (pathBytes (b2n x.data.isSome) x.len))
  match x.data with
  | some b =>
    (cuts.foldl (fun (m : Mach) c =>
      (m.writeBytes (frameDpa c.2.frame + c.1.1 % 65536) ((b.drop (c.1.1 - x.va)).take c.1.2) false).superseded c.2.frame) m).answerTag x.tag .done
  | none =>
    let (b, q, m) := cuts.foldl (fun (acc : List Byte × List Bool × Mach) c =>
      let ((d, p), m) := acc.2.2.readBytes ⟨whoDamger, x.tag, 0, 0⟩ (frameDpa c.2.frame + c.1.1 % 65536) c.1.2
      (acc.1 ++ d, acc.2.1 ++ p, m)) ([], [], m)
    let m := if x.keep then
        { m with dmg := { m.dmg with dir := (keptLines cuts).foldl (fun l k => k :: l.filter (· != k)) m.dmg.dir } } else m
    m.answerTag x.tag (.data b q)

/-- A request held. -/
def Mach.holdInbound (m : Mach) (x : Inbound) : Mach := { m with dmg := { m.dmg with heldAcc := m.dmg.heldAcc ++ [x] } }

/-- A write comes behind one that is held: writes are performed in the order in which the link delivers them (R398). -/
def Mach.behindWrite (m : Mach) (x : Inbound) : Bool := x.data.isSome && m.dmg.heldAcc.any fun y => y.data.isSome

/-- A request: held behind an earlier write, to the rings, refused, held by a spar command or for a recall, or performed. -/
def Mach.inbound (m : Mach) (x : Inbound) : Mach :=
  if m.behindWrite x then m.holdInbound x else
  match (m.cx x.tag).ringAt x.va x.len with
  | some o =>
    let m := m.chargeCtx x.tag (pathBytes 6 x.len)
    match x.data with
    | some b => (m.modCx x.tag fun c => { c with rings := putTab c.rings o b }).answerTag x.tag .done
    | none => m.answerTag x.tag (.data ((List.range x.len).map fun i => Tab.get 0 (m.cx x.tag).rings (o + i)) [])
  | none =>
    match m.inboundPages x with
    | none => m.refuseInbound x
    | some cuts =>
      if cuts.any fun c => Tab.get [] m.owned c.2.frame != [] then
        (cuts.foldl (fun (m : Mach) c => if Tab.get [] m.owned c.2.frame != [] then m.modSt (frameStack c.2.frame) fun k => { k with holdSeen := true } else m) (m.holdInbound x))
      else if x.keep then
        match m.grantWaits (keptLines cuts) with
        | some m => m.holdInbound x
        | none => m.performInbound x cuts
      else m.performInbound x cuts

/-- Held requests looked at again, in the order of their arrival (R400). -/
def Mach.serveHeld (m : Mach) : Mach :=
  if m.dmg.heldAcc = [] then m else
    m.dmg.heldAcc.foldl (fun (m : Mach) x => m.inbound x) { m with dmg := { m.dmg with heldAcc := [], replies := [] } }

end Sys2Proof.Machine
end

