-- ==== Sys2Proof/Machine/RowEngine.lean ====
section
/-! DEFINITION. The row engine of the stacks: latches and their operations, row steps from start to end, atomic blocks,
quota tokens, and the traps of spar commands (R269 to R281, R297 to R306, R328 to R337). -/
namespace Sys2Proof.Machine

/-! ## Units of a stack -/

/-- Bank of a stack as die × 64 + bank; the spar core that drives it; and the banks A and B of a core (R18, R273). -/
def coreOfBank (b : Nat) : Nat := b / 2
def banksOfCore (c : Nat) : List Nat := [2 * c, 2 * c + 1]

/-- The banks that a step with target `t` runs in. -/
def stepBanks (c t : Nat) : List Nat := if t = 0 then [2 * c] else if t = 1 then [2 * c + 1] else banksOfCore c

def Mach.modBank (m : Mach) (s b : Nat) (f : DBank → DBank) : Mach := m.modSt s fun k => k.modBank b f
def Mach.modSpar (m : Mach) (s c : Nat) (f : Spar → Spar) : Mach := m.modSt s fun k => k.modCore c f
def Mach.sparCore (m : Mach) (s c : Nat) : Spar := (m.st s).core c

/-- A serve step as one of its spar cores sees it: with the spar image that holds the core (R449). -/
def Cmd.onCore (x : Cmd) (s c : Nat) : Cmd :=
  match x.spars.find? fun r => r.img.coreSet.contains (s, c) with
  | some r => { x with img := r.img, resolved := r.resolved, released := r.released }
  | none => x

/-- The command that runs on a spar core. -/
def Mach.sparCmd (m : Mach) (s c : Nat) : Option Cmd :=
  let k := m.sparCore s c
  if k.st = .running ∨ k.st = .ending then (m.cmdOf k.cmd).map fun x => x.onCore s c else none

/-- The neighbour towards the higher or lower stack number that belongs to the same command (R301, R305). -/
def Mach.neighbour (m : Mach) (x : Cmd) (s c : Nat) (up : Bool) : Option Nat :=
  let n := if up then c + 1 else c - 1
  if (!up && c == 0) || (up && c == 511) then none else if x.img.coreSet.contains (s, n) && (m.sparCore s n).cmd == x.seq then some n else none

/-! ## Traps of spar commands (R322, SPAR_TRAP_INFO) -/

def sparIllegal : Nat := 1
def sparRowRange : Nat := 2
def sparDmem : Nat := 3
def sparPaired : Nat := 4
def sparBlock : Nat := 5
def sparChain : Nat := 6
def sparFetch : Nat := 7
def sparOverrun : Nat := 8
def sparUser : Nat := 9
def sparBind : Nat := 10

/-- SPAR_TRAP_INFO and SPAR_STATUS. -/
def sparTrapWord (code core user pc : Nat) (valid : Bool) : Word :=
  packWord [(56, code % 256), (47, core % 512), (31, user % 65536), (30, b2n valid), (0, pc % 2048)]
def Stack.sparStatus (k : Stack) : Word :=
  let n := fun (p : SparSt → Bool) => (k.spar.filter fun e => p e.2.st).length
  packWord [(42, k.pool % 2048), (31, k.held % 2048), (21, n fun x => x == .bound || x == .running || x == .ending),
    (11, 512 - n (fun x => x != .idle)), (1, b2n k.holdSeen), (0, b2n k.overdueSeen)]

/-- A trap on a spar core: the first fills SPAR_TRAP_INFO, each is recorded, and the whole command is killed (R322). -/
def Mach.sparTrap (m : Mach) (s c : Nat) (x : Cmd) (code user pc : Nat) : Mach :=
  let m := m.modSt s fun k => if k.trapValid then k else
    { k with trapValid := true, trapCode := code, trapCore := c, trapUser := user, trapPc := pc }
  let m := m.post .sparFault (some x.ctx) (uSpar s)
    [sparTrapWord code c user pc true, (m.st s).sparStatus, BitVec.ofNat 64 x.seq, BitVec.ofNat 64 x.img.va]
  m.fail x .trapped (detailWord srcSpar code s)

/-! ## Rows with their errors (R330) -/

/-- A spar command as a requester. -/
def sparAcc (x : Cmd) (s : Nat) : Acc := ⟨whoSpar, x.ctx, s, x.seq⟩

/-- A row read by the engine: each word is checked, its error reported, and an uncorrectable one poisoned (R330). -/
def Mach.readRow (m : Mach) (a : Acc) (c : Nat) : (Nat × Nat) × Mach :=
  let ds := m.peekRow c
  let m := (ds.zipIdx.filter fun d => d.1.kind != .clean).foldl (fun (m : Mach) d => m.noteRead a (c + 8 * d.2) d.1) m
  (ds.reverse.foldl (fun acc d => (acc.1 * 2 ^ 64 + d.word.val.toNat, acc.2 * 2 + b2n d.word.poison)) (0, 0), m)

/-! ## Latches and their operations (R272, R275 to R279, R331) -/

/-- The poison of every word that an operation writes where one that it draws from is poison (R331). -/
def wholly (n p : Nat) : Nat := if p = 0 then 0 else 2 ^ n - 1

/-- The lanes of the poisoned words of a latch, and the words of a set of lanes, over `n` words. -/
def lanesOf (n p : Nat) : Nat := sumNat ((setBits n p).map fun i => (2 ^ 64 - 1) * 2 ^ (64 * i))
def wordSet (n l : Nat) : Nat := sumNat (((List.range n).filter fun i => l / 2 ^ (64 * i) % 2 ^ 64 != 0).map fun i => 2 ^ i)

/-- A latch value: its bits and the poison of its words. -/
abbrev LVal := Nat × Nat

/-- The four latches of a group of banks side by side, lane 0 in the first bank (R271). -/
def Stack.latches (k : Stack) (g : List Nat) : List LVal :=
  (List.range 4).map fun i => g.reverse.foldl (fun (acc : LVal) b =>
    let l := Tab.get ({} : Latch) (k.bank b).latches i
    (acc.1 * 2 ^ 8192 + l.val, acc.2 * 2 ^ 128 + l.poison.toNat)) (0, 0)

/-- The latches of a group written back. -/
def Stack.putLatches (k : Stack) (g : List Nat) (l : List LVal) : Stack :=
  g.zipIdx.foldl (fun (k : Stack) b => k.modBank b.1 fun x => { x with
    latches := l.zipIdx.foldl (fun (t : Tab Latch) v => Tab.put {} t v.2
      ⟨v.1.1 / 2 ^ (8192 * b.2) % 2 ^ 8192, BitVec.ofNat 128 (v.1.2 / 2 ^ (128 * b.2))⟩) x.latches }) k

/-- Lanes of `new` where the mask is 1 and of `old` elsewhere; a word is poison where a lane drawn from a poisoned word, or
the mask of that word, is. -/
def mergeLanes (n : Nat) (mask old new : LVal) : LVal :=
  let full := 2 ^ (64 * n) - 1
  ((new.1 &&& mask.1) ||| (old.1 &&& (full ^^^ mask.1)),
   wordSet n ((lanesOf n new.2 &&& mask.1) ||| (lanesOf n old.2 &&& (full ^^^ mask.1))) ||| mask.2)

/-- A lane-by-lane operation (R277), codes 0 to 11; one that draws from a poisoned word poisons all that it writes (R331). -/
def latchOp (n : Nat) (l : List LVal) (o : Nat) : List LVal :=
  let full := 2 ^ (64 * n) - 1
  let L := fun i => l.getD i (0, 0)
  let x := L (lf o 1)
  let y := L (lf o 2)
  let z := L (lf o 3)
  let maj := fun (a b c : Nat) => (a &&& b) ||| (a &&& c) ||| (b &&& c)
  let d := fun (v : LVal) => l.set (lf o 0) (v.1, wholly n v.2)
  let all := wholly n (x.2 ||| y.2 ||| z.2)
  match lcode o with
  | 0 => d (0, 0)
  | 1 => d (full, 0)
  | 2 => d x
  | 3 => d (full ^^^ x.1, x.2)
  | 4 => d (x.1 &&& y.1, x.2 ||| y.2)
  | 5 => d (x.1 ||| y.1, x.2 ||| y.2)
  | 6 => d (x.1 ^^^ y.1, x.2 ||| y.2)
  | 7 => d (x.1 &&& (full ^^^ y.1), x.2 ||| y.2)
  | 8 => d (maj x.1 y.1 z.1, x.2 ||| y.2 ||| z.2)
  | 9 => d (mergeLanes n x z y)
  | 10 => (l.set (lf o 2) (x.1 ^^^ y.1 ^^^ z.1, all)).set (lf o 3) (maj x.1 y.1 z.1, all)
  | _ => (l.set (lf o 2) (y.1 ^^^ x.1 ^^^ z.1, all)).set (lf o 3) (maj (full ^^^ y.1) x.1 z.1, all)

/-- The lanes that an LSH by `k` moves out of a latch of `w` lanes. -/
def shiftedOut (w k : Nat) (up : Bool) (v : Nat) : Nat := if up then v / 2 ^ (w - k) else v % 2 ^ k

/-- A latch shifted by `k` lanes, with the missing lanes given (R278). -/
def shifted (w k : Nat) (up : Bool) (v inc : Nat) : Nat :=
  if up then v * 2 ^ k % 2 ^ w + inc else v / 2 ^ k + inc * 2 ^ (w - k)

/-- An LSH with its missing lanes and their poison given. -/
def latchShift (n : Nat) (l : List LVal) (o inc incl : Nat) : List LVal :=
  let w := 64 * n
  let x := l.getD (lf o 1) (0, 0)
  let k := 2 ^ lshM o
  l.set (lf o 0) (shifted w k (lshUp o) x.1 inc, wholly n (shifted w k (lshUp o) (lanesOf n x.2) incl))

/-- The bits and the poison that an LSH moves out of its latch. -/
def lshOut (n : Nat) (l : List LVal) (o : Nat) : Nat × Nat :=
  let v := l.getD (lf o 1) (0, 0)
  (shiftedOut (64 * n) (2 ^ lshM o) (lshUp o) v.1, shiftedOut (64 * n) (2 ^ lshM o) (lshUp o) (lanesOf n v.2))

/-- A latch operation that waits for no neighbour: CNT changes no latch, a rotation brings back what it moves out, and any other LSH
brings zeros (R278, R305). -/
def latchStep (n : Nat) (l : List LVal) (o : Nat) : List LVal :=
  if lcode o = 14 then l
  else if isLsh o then (let out := if lshEdge o = 1 then lshOut n l o else (0, 0); latchShift n l o out.1 out.2)
  else latchOp n l o

/-- The lanes of each latch that depend on lanes still to come, after an operation. -/
def latchTaint (n : Nat) (t : List Nat) (o : Nat) : List Nat :=
  let x := t.getD (lf o 1) 0
  let any := x ||| t.getD (lf o 2) 0 ||| t.getD (lf o 3) 0
  match lcode o with
  | 0 | 1 => t.set (lf o 0) 0
  | 2 | 3 => t.set (lf o 0) x
  | 4 | 5 | 6 | 7 => t.set (lf o 0) (x ||| t.getD (lf o 2) 0)
  | 8 | 9 => t.set (lf o 0) any
  | 10 | 11 => (t.set (lf o 2) any).set (lf o 3) any
  | 12 | 13 => t.set (lf o 0) (shifted (64 * n) (2 ^ lshM o) (lshUp o) x (if lshEdge o = 1 then shiftedOut (64 * n) (2 ^ lshM o) (lshUp o) x else 0))
  | _ => t

/-- The lanes that an edge exchange waits for. -/
def missingLanes (n o : Nat) : Nat := shifted (64 * n) (2 ^ lshM o) (lshUp o) 0 (2 ^ 2 ^ lshM o - 1)

/-- The second edge exchange of a step behind a first that waits, with the latches as they stand at it, where its lanes do not
depend on those the first brings: the two run concurrently (R306). -/
def lookAhead (n : Nat) : List Nat → List LVal → List Nat → Option (Nat × List LVal)
  | [], _, _ => none
  | o :: r, l, t =>
    if isLsh o && lshEdge o == 2 then
      if shiftedOut (64 * n) (2 ^ lshM o) (lshUp o) (t.getD (lf o 1) 0) = 0 then some (o, l) else none
    else lookAhead n r (latchStep n l o) (latchTaint n t o)

/-- The count of a CNT and its poison (R279, R331). -/
def latchCount (n : Nat) (l : List LVal) (o : Nat) : Nat × Bool :=
  let x := l.getD (lf o 1) (0, 0)
  (popcount (64 * n) x.1, x.2 != 0)

/-! ## Edge exchanges (R302 to R306) -/

/-- The word at which a core stands: of its oldest step that runs, or of its next instruction. -/
def Spar.at_ (k : Spar) : Nat := match k.cur with | t :: _ => t.pc | [] => k.pc

/-- Both cores of an exchange whose distances differ trap (R304). -/
def Mach.chainMismatch (m : Mach) (s c n : Nat) (x : Cmd) (pc : Nat) : Mach :=
  let m := m.sparTrap s c x sparChain 0 pc
  m.sparTrap s n x sparChain 0 (m.sparCore s n).at_

/-- The lanes and their poison that an edge exchange sends to the neighbour on the side it shifts towards; nothing goes to a core
outside the command (R305). It meets the oldest that the neighbour has sent on the link and that has met none, and where the two
differ in distance both cores trap (R304). -/
def Mach.sendEdge (m : Mach) (s c : Nat) (x : Cmd) (pc n : Nat) (l : List LVal) (o : Nat) : Mach :=
  let up := lshUp o
  let k := 2 ^ lshM o
  let out := lshOut n l o
  match m.neighbour x s c up with
  | none => m
  | some j =>
    let m := m.modSpar s j fun y => if up then { y with edgeLo := y.edgeLo ++ [(k, out)] } else { y with edgeHi := y.edgeHi ++ [(k, out)] }
    match (if up then (m.sparCore s j).sentLo else (m.sparCore s j).sentHi) with
    | [] => m.modSpar s c fun y => if up then { y with sentHi := y.sentHi ++ [k] } else { y with sentLo := y.sentLo ++ [k] }
    | h :: q =>
      let m := m.modSpar s j fun y => if up then { y with sentLo := q } else { y with sentHi := q }
      if h = k then m else m.chainMismatch s c j x pc

/-- How far a step's latch operations have come: the latches, the CNT met, the operations left, whose first waits, and whether the
second exchange of the step has been sent with its first. -/
structure OpsRun where
  latches : List LVal
  cnt : Option (Nat × Nat × Bool) := none
  left : List Nat := []
  ahead : Bool := false
  deriving DecidableEq, Repr

/-- Latch operations run in order on a group of banks of `n` words. An edge exchange sends its lanes, unless it has been sent with the
first of its step, and one with a neighbour on its source side stops the run there. -/
def Mach.runOps (m : Mach) (s c : Nat) (x : Cmd) (pc n : Nat) : List Nat → OpsRun → OpsRun × Mach
  | [], a => ({ a with left := [], ahead := false }, m)
  | o :: r, a =>
    if lcode o = 14 then let v := latchCount n a.latches o; m.runOps s c x pc n r { a with cnt := some (bits o 5 2, v) }
    else if isLsh o && lshEdge o == 2 then
      let m := if a.ahead then m else m.sendEdge s c x pc n a.latches o
      if (m.neighbour x s c (!lshUp o)).isNone then m.runOps s c x pc n r { a with latches := latchShift n a.latches o 0 0, ahead := false }
      else match lookAhead n r (latchShift n a.latches o 0 0) ((List.replicate 4 0).set (lf o 0) (missingLanes n o)) with
        | some (p, l) => ({ a with left := o :: r, ahead := true }, m.sendEdge s c x pc n l p)
        | none => ({ a with left := o :: r, ahead := false }, m)
    else m.runOps s c x pc n r { a with latches := latchStep n a.latches o }

/-! ## Row steps (R273 to R276, R280, R281) -/

/-- Row of a step in a bank, and second row of a CPY. -/
def Step.row (t : Step) (b : Nat) : Nat := if b % 2 = 0 then t.rowA else t.rowB
def Step.row2 (t : Step) (b : Nat) : Nat := if b % 2 = 0 then t.row2A else t.row2B

/-- The write at the end of WL, WLM and UPD: whole rows from the latches (R275, R328, R331). -/
def Mach.stepWrite (m : Mach) (s : Nat) (x : Cmd) (t : Step) (g : List Nat) : Mach :=
  let l := (m.st s).latches g
  if t.op = 3 ∨ t.op = 5 then
    let v := l.getD t.lx (0, 0)
    g.zipIdx.foldl (fun (m : Mach) b => m.putRow (t.row b.1) (v.1 / 2 ^ (8192 * b.2) % 2 ^ 8192) (v.2 / 2 ^ (128 * b.2) % 2 ^ 128)) m
  else if t.op = 4 then
    g.zipIdx.foldl (fun (m : Mach) b =>
      let cut := fun (v : LVal) => (v.1 / 2 ^ (8192 * b.2) % 2 ^ 8192, v.2 / 2 ^ (128 * b.2) % 2 ^ 128)
      let (old, m) := m.readRow (sparAcc x s) (t.row b.1)
      let w := mergeLanes 128 (cut (l.getD t.lm (0, 0))) old (cut (l.getD t.lx (0, 0)))
      let m := m.putRow (t.row b.1) w.1 w.2
      if w.2 = 0 then m else m.touchPoison x.seq (uSpar s) 0) m
  else m

/-- The read at the start of RL, RLM and UPD (R274, R275, R330). -/
def Mach.stepRead (m : Mach) (s : Nat) (x : Cmd) (t : Step) (g : List Nat) : Mach :=
  if t.op = 1 ∨ t.op = 2 ∨ t.op = 5 then
    let l := (m.st s).latches g
    let (row, m) := g.zipIdx.foldl (fun (acc : LVal × Mach) b =>
      let (r, m) := acc.2.readRow (sparAcc x s) (t.row b.1)
      ((acc.1.1 + r.1 * 2 ^ (8192 * b.2), acc.1.2 + r.2 * 2 ^ (128 * b.2)), m)) ((0, 0), m)
    let v := if t.op = 2 then mergeLanes (128 * g.length) (l.getD t.lm (0, 0)) (l.getD t.lx (0, 0)) row else row
    let m := m.modSt s fun k => k.putLatches g (l.set t.lx v)
    if v.2 = 0 then m else m.touchPoison x.seq (uSpar s) (m.locAt (grainBase + t.row (g.headD 0)))
  else m

/-- The latch operations of a step on a group of banks, from where they stand; the write follows when none is left. -/
def Mach.stepOps (m : Mach) (s c : Nat) (x : Cmd) (t : Step) (g : List Nat) : OpsRun × Mach :=
  let l := (m.st s).latches g
  let (a, m) := m.runOps s c x t.pc (128 * g.length) t.ops { latches := l, ahead := t.ahead }
  let m := m.modSt s fun k => k.putLatches g a.latches
  let m := if (t.ops ≠ [] ∨ 2 ≤ t.op ∧ t.op ≤ 4) ∧ l.any (fun v => v.2 != 0) = true then m.touchPoison x.seq (uSpar s) 0 else m
  ({ a with cnt := a.cnt.map fun e => (e.1, e.2.1, e.2.2 || t.bad) }, if a.left.isEmpty then m.stepWrite s x t g else m)

/-- A CNT on its way to its register, which is busy until then; a CNT to k0 is discarded (R279, R291). -/
def Spar.sendCnt (k : Spar) (c : Option (Nat × Nat × Bool)) : Spar :=
  match c with
  | some (r, v, p) => if r = 0 then k else { k with cnt := k.cnt ++ [(r, v, p)] }
  | none => k

/-- The counts of two banks that run one step apart are added. -/
def addCnt (a b : Option (Nat × Nat × Bool)) : Option (Nat × Nat × Bool) :=
  match a, b with
  | some (r, v, p), some (_, w, q) => some (r, v + w, p || q)
  | some x, none => some x
  | none, y => y

/-- A core whose step stands as its operations have left it: its CNT is on its way, and it waits for edge bits where some are left. -/
def Spar.afterOps (k : Spar) (a : OpsRun) (now : Nat) : Spar :=
  { k.sendCnt a.cnt with edgeWait := !a.left.isEmpty, edgeSince := if a.left.isEmpty then none else some now }

/-- Bank and word of the row that PUTW and GETW address: in paired mode words 128 to 255 lie in bank B (R299). -/
def Step.wordBank (t : Step) (c : Nat) : Nat := if t.tgt = 2 then 2 * c + t.w / 128 else 2 * c + t.tgt
def Step.word (t : Step) : Nat := t.w % 128

/-- What a step does once it has started in its banks: the step as it then stands, and the machine (R274 to R281). -/
def Mach.runStep (m : Mach) (s c : Nat) (x : Cmd) (t : Step) : Step × Mach :=
  let g := stepBanks c t.tgt
  if t.op = 7 then
    let m := g.foldl (fun (m : Mach) b => m.copyRow (t.row b) (t.row2 b)) m
    let bad := g.any fun b => (m.peekRow (t.row2 b)).any (·.word.poison)
    (t, if bad then m.touchPoison x.seq (uSpar s) 0 else m)
  else if t.op = 8 then (t, g.foldl (fun (m : Mach) b => m.putRow (t.row b) 0 0) m)
  else if t.op = 9 then
    let b := t.wordBank c
    let (old, m) := m.readRow (sparAcc x s) (t.row b)
    let keep := (2 ^ 8192 - 1) ^^^ ((2 ^ 64 - 1) * 2 ^ (64 * t.word))
    let pk := (2 ^ 128 - 1) ^^^ 2 ^ t.word
    let p := (old.2 &&& pk) ||| (b2n t.kval.poison * 2 ^ t.word)
    let m := m.putRow (t.row b) ((old.1 &&& keep) ||| (t.kval.val.toNat * 2 ^ (64 * t.word))) p
    (t, if p = 0 then m else m.touchPoison x.seq (uSpar s) 0)
  else if t.op = 10 then
    let b := t.wordBank c
    let (old, m) := m.readRow (sparAcc x s) (t.row b)
    let p := bitAt old.2 t.word
    ({ t with kval := ⟨BitVec.ofNat 64 (old.1 / 2 ^ (64 * t.word)), p || t.bad⟩ },
      if p then m.touchPoison x.seq (uSpar s) (m.locAt (grainBase + t.row b + 8 * t.word)) else m)
  else if x.img.paired then
    let (a, m) := (m.stepRead s x t g).stepOps s c x t g
    ({ t with ops := a.left, ahead := a.ahead }, m.modSpar s c fun k => k.afterOps a m.now)
  else
    let (cnt, m) := g.foldl (fun (acc : Option (Nat × Nat × Bool) × Mach) b =>
      let (a, m) := (acc.2.stepRead s x t [b]).stepOps s c x t [b]
      (addCnt acc.1 a.cnt, m)) (none, m)
    ({ t with ops := [] }, m.modSpar s c fun k => k.sendCnt cnt)

/-- A step whose queue entry was read with a parity error has been delivered as poison: the rows that it writes and the latches that it
may have written are poison, and its command has touched poison (R630, R640; log entry 72). -/
def Mach.spoil (m : Mach) (s c : Nat) (x : Cmd) (t : Step) : Mach :=
  if !t.bad then m else
    let g := stepBanks c t.tgt
    let all := 2 ^ 128 - 1
    let m := if t.op = 3 ∨ t.op = 4 ∨ t.op = 5 ∨ t.op = 8 then g.foldl (fun (m : Mach) b => m.putRow (t.row b) (m.rowValue (t.row b)).1 all) m
      else if t.op = 7 then g.foldl (fun (m : Mach) b => m.putRow (t.row2 b) (m.rowValue (t.row2 b)).1 all) m
      else if t.op = 9 then let r := t.row (t.wordBank c); m.putRow r (m.rowValue r).1 all
      else m
    let m := if t.op = 1 ∨ t.op = 2 ∨ t.op = 5 ∨ t.ops ≠ [] then
        m.modSt s fun k => k.putLatches g ((k.latches g).map fun l => (l.1, 2 ^ (128 * g.length) - 1)) else m
    m.touchPoison x.seq (uSpar s) 0

/-! ## Starting and ending steps (R273, R332 to R337) -/

/-- Tokens that a step takes when it starts: one for each bank; none inside an atomic block. -/
def Step.tokens (t : Step) : Nat := if t.atomic then 0 else if t.tgt = 2 then 2 else 1

/-- The banks that the steps of a block run in: bit 0 for bank A, bit 1 for bank B. -/
def blockMask (l : List Step) : Nat :=
  (if l.any (fun t => t.tgt != 1) then 1 else 0) + (if l.any (fun t => t.tgt != 0) then 2 else 0)

/-- A slot that went to no controller access, outside a block and inside one: outside, only whether the next may go to one matters
(R252); inside, they count towards what the bank owes at the end (R337). -/
def DBank.passSlot (z : DBank) (inBlock : Bool) : DBank := { z with sinceCtl := if inBlock then z.sinceCtl + 1 else min 3 (z.sinceCtl + 1) }

/-- The end of a block: of the slots inside it, the fourth after the last controller slot and each fourth behind it are owed (R337). -/
def DBank.blockEnd (z : DBank) : DBank := { z with owed := z.owed + z.sinceCtl / 4, sinceCtl := z.sinceCtl % 4 }

/-- The front step starts in its banks: it leaves the queue, takes its tokens, and is counted and metered once per bank; controller
slots owed from a block have been offered before it (R332, R337, R662, R676). -/
def Mach.startStep (m : Mach) (s c : Nat) (x : Cmd) (t : Step) : Mach :=
  let g := stepBanks c t.tgt
  let m := m.modSt s fun k =>
    let k := g.foldl (fun (k : Stack) b => k.modBank b fun y => { y.passSlot t.atomic with busy := some c, hold := false, owed := if t.atomic then y.owed else 0 }) k
    { (k.modCore c fun y => { y with steps := y.steps.drop 1 }) with held := k.held + t.tokens }
  let m := (m.count 3 s 0x02 g.length).modCmd x fun y => { y with meters := { y.meters with spar := y.meters.spar + g.length } }
  let (u, m) := m.runStep s c x t
  (m.spoil s c x t).modSpar s c fun y => { y with cur := y.cur ++ [u] }

/-- A bank is free for a step: no step, refresh or controller access occupies it. -/
def Mach.bankFree (m : Mach) (s b : Nat) : Bool := ((m.st s).bank b).busy.isNone && decide (((m.st s).bank b).freeAt ≤ m.now)

/-- The banks of a core's running block, which gives back its tokens when its last step ends (R334, R337). -/
def Mach.endBlock (m : Mach) (s c : Nat) : Mach :=
  let bs := (setBits 2 (m.sparCore s c).blockBanks).map fun i => 2 * c + i
  m.modSt s fun y =>
    { ((bs.foldl (fun (y : Stack) b => y.modBank b DBank.blockEnd) y).modCore c fun z => { z with blockRun := 0, blockBanks := 0 }) with
      held := y.held - bs.length }

/-- A running step ends: its banks are at a slot boundary, its tokens return, and GETW's word lands (R280, R291, R332). At the
end of its last step an atomic block returns its tokens, and each bank it used owes the controller slots that the limit
would have given (R334, R337). -/
def Mach.endStep (m : Mach) (s c : Nat) (t : Step) : Mach :=
  let k := m.sparCore s c
  let g := stepBanks c t.tgt
  let m := m.modSt s fun y =>
    let y := g.foldl (fun (y : Stack) b => y.modBank b fun z => { z with busy := none }) y
    { y with held := y.held - t.tokens }
  let m := m.modSpar s c fun y => { y with cur := y.cur.erase t }
  let m := if t.op = 10 ∧ t.k ≠ 0 then m.modSpar s c fun y => { y with k := Tab.put {} y.k t.k t.kval, busy := Tab.put false y.busy t.k false } else m
  if t.atomic then
    if k.blockRun ≤ 1 then m.endBlock s c else m.modSpar s c fun y => { y with blockRun := y.blockRun - 1 }
  else m

/-- Firmware's row steps in the banks of a frame may run: the pool holds a token for each, 64 for a word frame and one for a grain page,
and they return when the steps end (R281, R332). -/
def Mach.firmwareTokens (m : Mach) (f : Nat) : Bool :=
  let k := m.st (frameStack f)
  decide (k.held + (if f < 2 ^ 24 then 64 else 1) ≤ k.pool)

/-- ROW_STEP_END: one of the steps that run on a core and wait for no edge bits ends; where its two banks run different steps,
which of them ends first is a free choice (R280, log entry 2). -/
def execRowStepEnd (k : Fin 12) (c : Fin 512) (s : State) : Host.Outcome State Fault Refusal :=
  let y := s.m.sparCore k.val c.val
  match (if y.edgeWait then (none, s.m) else s.m.pick y.cur) with
  | (some t, m) => .next (s.withMach (m.endStep k.val c.val t))
  | (none, _) => .next s

/-- CNT_RESULT: the oldest count on its way reaches its register (R279). -/
def execCntResult (k : Fin 12) (c : Fin 512) (s : State) : Host.Outcome State Fault Refusal :=
  match (s.m.sparCore k.val c.val).cnt with
  | [] => .next s
  | (r, v, p) :: q => .next (s.withMach (s.m.modSpar k.val c.val fun y => { y with
      cnt := q, k := Tab.put {} y.k r ⟨BitVec.ofNat 64 v, p⟩, busy := Tab.put false y.busy r false }))

/-- EDGE_BITS_ARRIVE: the next edge bits from the side that a step waits for arrive, and its operations go on; bits that its
neighbour has sent for another distance trap both cores (R303, R304, R306; log entry 72). -/
def Mach.edgeArrive (m : Mach) (s c : Nat) : Mach :=
  let y := m.sparCore s c
  match m.sparCmd s c, y.edgeWait, y.cur with
  | some x, true, t :: _ =>
    match t.ops with
    | [] => m
    | o :: r =>
      let up := lshUp o
      match (if up then y.edgeLo else y.edgeHi) with
      | [] => m
      | (k, bits, lanes) :: q =>
        let m := m.modSpar s c fun z => if up then { z with edgeLo := q } else { z with edgeHi := q }
        if k ≠ 2 ^ lshM o then m.chainMismatch s c (if up then c - 1 else c + 1) x t.pc
        else
          let g := stepBanks c t.tgt
          let m := m.modSt s fun z => z.putLatches g (latchShift 256 (z.latches g) o bits lanes)
          let m := if lanes = 0 then m else m.touchPoison x.seq (uSpar s) 0
          let (a, m) := m.stepOps s c x { t with ops := r } g
          (if a.left.isEmpty then m.spoil s c x t else m).modSpar s c fun z =>
            { z.afterOps a m.now with cur := z.cur.map fun w => if w = t then { t with ops := a.left, ahead := a.ahead } else w }
  | _, _, _ => m

def execEdgeBitsArrive (k : Fin 12) (c : Fin 512) (s : State) : Host.Outcome State Fault Refusal :=
  .next (s.withMach (s.m.edgeArrive k.val c.val))

end Sys2Proof.Machine
end

