-- ==== Sys2Proof/Machine/Spar.lean ====
section
/-! DEFINITION. The spar cores: their instructions, the chain, the release of pages, and loads of their instruction memory
(R289 to R327). -/
namespace Sys2Proof.Machine

/-! ## Upsets and fetches (R327, R627, R630) -/

/-- Stored bits of a spar core upset: flipped in a memory with its check bits, to be decoded when the word is read; a register's, a latch's
or a step entry's word of 64 bits and its parity bit (bit 64) delivers poison where an odd number of them is flipped. -/
def Stack.sparUpset (k : Stack) (c : Nat) (u : SpSite × BitVec 72) : Stack :=
  let x := u.2.setWidth 64
  let odd := popcount 65 (u.2.toNat % 2 ^ 65) % 2 == 1
  match u.1 with
  | .code w => k.modCore c fun y => if w < y.code.length then { y with flips := Tab.upd 0 y.flips w (· ^^^ u.2) } else y
  | .dmem w => if w < 512 then k.modCore c fun y => { y with dmem := y.dmem.flip w u.2 } else k
  | .k i => if i.val = 0 then k else k.modCore c fun y => { y with k := Tab.upd {} y.k i.val fun r => ⟨r.val ^^^ x, r.poison || odd⟩ }
  | .latch b i w => k.modBank (2 * c + b.val) fun y => { y with latches := Tab.upd {} y.latches i.val fun l =>
      ⟨l.val ^^^ (x.toNat * 2 ^ (64 * w.val)), if odd then l.poison ||| (1#128 <<< w.val) else l.poison⟩ }
  | .step i => k.modCore c fun y => { y with steps := modAt y.steps i fun t => { t with bad := t.bad || odd } }

/-- A word of a core's instruction memory as a fetch decodes it (R631, R739). -/
def Spar.fetch (k : Spar) (w : Nat) : EccRead := eccDecode (k.code.getD w 0) false (Tab.get 0 k.flips w)

/-! ## Registers -/

/-- Register `i` of a core; k0 reads 0. -/
def Spar.kv (k : Spar) (i : Nat) : PWord := if i = 0 then {} else Tab.get {} k.k i

/-- A register written; a write to k0 is discarded (R289). -/
def Spar.setK (k : Spar) (i : Nat) (v : PWord) : Spar := if i = 0 then k else { k with k := Tab.put {} k.k i v }

/-- A register whose producing step has not finished (R291). -/
def Spar.isBusy (k : Spar) (i : Nat) : Bool := i != 0 && Tab.get false k.busy i

/-! ## Rows of bindings (R297, R312, R316) -/

/-- The frame that a binding of a mode resolves a page to: the command's draft for a binding that writes; for one that
reads, the draft of an earlier command that it reads under the overlap bit, or the published page (R316, R385). -/
def Mach.bindFrame (m : Mach) (x : Cmd) (mode : Nat) (p : PageRef) : Nat :=
  if mode ≠ 1 then ((x.draftOf p).map (·.new)).getD p.frame
  else m.readFrame { x with drafts := [] } p

/-- The banks of a core that a binding of a side reaches. -/
def sideBanks (c side : Nat) : List Nat := if side = 0 then [2 * c] else if side = 1 then [2 * c + 1] else banksOfCore c

/-- A binding and a bank of a stack as they number the pages that a binding has resolved to. -/
def bindKey (bind s b : Nat) : Nat := bind * 2 ^ 14 + s * 1024 + b

/-- The grain pages of every binding in every bank of the command's cores, resolved once at dispatch; 0 stands for a page whose entry
cannot be read (R312, R316, R643). -/
def Mach.bindRows (m : Mach) (x : Cmd) (i : Img) : Tab (List Nat) :=
  i.io.zipIdx.foldl (fun (t : Tab (List Nat)) e =>
    match (m.liveDesc x.ctx e.1.desc).bind fun d => ((m.cx x.ctx).alloc d.alloc).map fun a => (d.alloc, a) with
    | none => t
    | some (h, a) => i.coreSet.foldl (fun (t : Tab (List Nat)) sc => (sideBanks sc.2 e.1.side).foldl (fun (t : Tab (List Nat)) b =>
        match a.banks.findIdx? (· == sc.1 * 1024 + b) with
        | none => t
        | some j => Tab.put [] t (bindKey e.2 sc.1 b) ((List.range a.perBank).map fun p =>
            ((a.page (j * a.perBank + p)).map fun f => m.bindFrame x e.1.mode ⟨h, j * a.perBank + p, f, true⟩).getD 0)) t) t) []

/-- The first cell of the row `o` of a binding in bank `b` of a stack: none at or beyond its row count there (R297, R312). -/
def Img.bindRow (i : Img) (s b bind o : Nat) : Option Nat :=
  match (Tab.get [] i.rows (bindKey bind s b))[o / 64]? with
  | some f => if f < 2 ^ 24 then none else some ((f - 2 ^ 24) * 65536 + o % 64 * 1024)
  | none => none

/-- A step that writes through its binding (R297). -/
def stepWrites (op : Nat) : Bool := op == 3 || op == 4 || op == 5 || op == 8 || op == 9

/-- What the issue of an instruction does: it waits, traps with a code, or leaves a machine. -/
inductive Issue where
  | wait
  | trap (code user : Nat)
  | done (m : Mach)
  deriving DecidableEq, Repr

/-! ## Row-step instructions (R292, R296 to R300) -/

/-- The registers that a row step reads and writes. -/
def RWord.regs (r : RWord) : List Nat :=
  [r.ri] ++ (if r.op = 7 then [r.ri2] else []) ++ (if r.op = 9 ∨ r.op = 10 then [r.k] else [])
    ++ (r.ops.filter fun o => lcode o == 14).map fun o => bits o 5 2

/-- The registers whose value a step brings later. -/
def RWord.dests (r : RWord) : List Nat :=
  ((if r.op = 10 then [r.k] else []) ++ (r.ops.filter fun o => lcode o == 14).map fun o => bits o 5 2).filter (· != 0)

/-- A row-step instruction issues: its checks, its registers, its rows, and its place in the step queue. -/
def Mach.issueStep (m : Mach) (s c : Nat) (x : Cmd) (r : RWord) : Issue :=
  let k := m.sparCore s c
  let paired := x.img.paired
  if r.illegal paired x.img.io.length || r.wordFault paired then .trap sparIllegal 0
  else if r.pairedFault paired then .trap sparPaired 0
  else if 0 < k.block ∧ r.edges ≠ [] then .trap sparBlock 0
  else if r.regs.any k.isBusy ∨ 8 ≤ k.steps.length then .wait
  else
    let banks := stepBanks c r.tgt
    let o := ((k.kv r.ri).val + BitVec.ofNat 64 r.offset).toNat
    let o2 := ((k.kv r.ri2).val + BitVec.ofNat 64 r.offset2).toNat
    let mode := fun (b : Nat) => ((x.img.io[b]?).map (·.mode)).getD 0
    let row := fun (bind o b : Nat) => if banks.contains b then x.img.bindRow s b bind o else some 0
    if r.op ≠ 6 ∧ ((stepWrites r.op = true ∧ mode r.bind = 1) ∨ (r.op = 7 ∧ mode r.bind2 = 1)) then .trap sparBind 0
    else match (if r.op = 6 then some 0 else row r.bind o (2 * c)), (if r.op = 6 then some 0 else row r.bind o (2 * c + 1)),
        (if r.op = 7 then row r.bind2 o2 (2 * c) else some 0), (if r.op = 7 then row r.bind2 o2 (2 * c + 1) else some 0) with
      | some a, some b, some a2, some b2 =>
        let first := decide (0 < k.block) && k.block == k.blockLen
        let t : Step := { op := r.op, tgt := r.tgt, rowA := a, rowB := b, row2A := a2, row2B := b2, lx := r.lx, lm := r.lm, ops := r.ops,
                          k := r.k, w := r.w, kval := if r.op = 9 then k.kv r.k else {}, atomic := decide (0 < k.block),
                          blk := if first then k.blockLen else 0, pc := k.pc }
        .done (m.modSpar s c fun y => { y with
          steps := y.steps ++ [t], pc := y.pc + r.words, block := y.block - 1, waitSince := none,
          busy := r.dests.foldl (fun b i => Tab.put false b i true) y.busy })
      | _, _, _, _ => .trap sparRowRange 0

/-! ## Scalar, control and chain instructions (R294, R295, R307, R314, R334, R335) -/

/-- The arithmetic of ADD to MUL, SLT and SLTU. -/
def sparAlu (op : Nat) (a b : Word) : Word :=
  match op with
  | 0x20 => a + b
  | 0x21 => a - b
  | 0x22 => a &&& b
  | 0x23 => a ||| b
  | 0x24 => a ^^^ b
  | 0x25 => a <<< (b.toNat % 64)
  | 0x26 => a >>> (b.toNat % 64)
  | 0x27 => a.sshiftRight (b.toNat % 64)
  | 0x28 => a * b
  | 0x2C => if a.slt b then 1 else 0
  | _ => if a.ult b then 1 else 0

/-- Whether a branch is taken. -/
def sparBranch (op : Nat) (a b : Word) : Bool :=
  match op with
  | 0x34 => a == b
  | 0x35 => a != b
  | 0x36 => a.slt b
  | _ => !a.slt b

/-- The program counter after a jump by words; one below 0 lies outside the code. -/
def jumpTo (pc : Nat) (d : Int) : Nat := (BitVec.ofInt 64 ((pc : Int) + d)).toNat

/-- A core waits at a SEND or RECV: since when is noted once (R308). -/
def Mach.sparWaits (m : Mach) (s c : Nat) : Mach :=
  m.modSpar s c fun y => { y with waitSince := match y.waitSince with | none => some m.now | some t => some t }

/-- The registers that a scalar, control or chain instruction reads and writes. -/
def KWord.regs (w : KWord) : List Nat :=
  match kUses w.op with
  | some (d, r1, r2, _) => (if r1 then [w.rs1] else []) ++ (if r2 then [w.rs2] else []) ++ (if d then [w.rd] else [])
  | none => []

/-- A scalar, control or chain instruction issues. -/
def Mach.issueWord (m : Mach) (s c : Nat) (x : Cmd) (w : KWord) : Issue :=
  let k := m.sparCore s c
  if w.illegal then .trap sparIllegal 0
  else if w.regs.any k.isBusy then .wait
  else
    let a := k.kv w.rs1
    let b := k.kv w.rs2
    let step := fun (f : Spar → Spar) => Issue.done (m.modSpar s c fun y => { (f y) with pc := y.pc + 1, waitSince := none })
    let set := fun (v : Word) (p : Bool) => step fun y => y.setK w.rd ⟨v, p⟩
    let jump := fun (yes : Bool) => Issue.done (m.modSpar s c fun y => { y with pc := if yes then jumpTo y.pc w.simm else y.pc + 1 })
    let addr := (a.val + ofInt64 w.simm).toNat
    let up := bitAt w.imm 0
    if w.op ≤ 0x28 ∨ w.op = 0x2C ∨ w.op = 0x2D then set (sparAlu w.op a.val b.val) (a.poison || b.poison)
    else if w.op = 0x29 then set (a.val + ofInt64 w.simm) a.poison
    else if w.op = 0x2A then set (ofInt64 w.simm) false
    else if w.op = 0x2B then
      let r := k.kv w.rd
      set (BitVec.ofNat 64 (r.val.toNat % 2 ^ 32 + w.imm * 2 ^ 32)) r.poison
    else if w.op = 0x30 ∨ w.op = 0x31 then
      if addr % 8 ≠ 0 ∨ 4096 ≤ addr then .trap sparDmem 0
      else if w.op = 0x30 then
        let v := k.dmem.decode (addr / 8)
        .done ((m.noteSram (uSpar s) sramSparData (512 * c + addr / 8) v).modSpar s c fun y =>
          { y.setK w.rd ⟨v.word.val, v.word.poison || a.poison⟩ with pc := y.pc + 1, waitSince := none })
      else step fun y => { y with dmem := y.dmem.putWord (addr / 8) ⟨b.val, b.poison || a.poison⟩ }
    else if w.op = 0x38 then jump true
    else if w.op ≤ 0x37 then jump (sparBranch w.op a.val b.val)
    else if w.op = 0x3A then
      if 0 < k.block then .trap sparBlock 0 else step fun y => { y with block := w.imm % 16, blockLen := w.imm % 16 }
    else if w.op = 0x3B then
      if (m.neighbour x s c up).isNone then .trap sparChain 0
      else if 4 ≤ (if up then k.outHi else k.outLo).length then .wait
      else step fun y => if up then { y with outHi := y.outHi ++ [a] } else { y with outLo := y.outLo ++ [a] }
    else if w.op = 0x3C then
      if (m.neighbour x s c up).isNone then .trap sparChain 0
      else match (if up then k.inHi else k.inLo) with
        | [] => .wait
        | v :: q => step fun y => (if up then { y with inHi := q } else { y with inLo := q }).setK w.rd v
    else if w.op = 0x3D then
      let e := w.imm % 256
      if x.img.log.length ≤ e then .trap sparIllegal 0
      else match step id with
        | .done m => .done (if (x.img.coreSet.head?) = some (s, c) then m.modCmd x fun y => { y with log := modAt y.log (x.img.logBase + e) fun g => { g with val := a } } else m)
        | i => i
    else if w.op = 0x3E then
      if 0 < k.block then .trap sparBlock 0 else Issue.done (m.modSpar s c fun y => { y with st := .ending, waitSince := none })
    else .trap sparUser (w.imm % 65536)

/-- SPAR_ISSUE: a running core fetches and issues one instruction, or waits (R289 to R294, R327). A word that is poison, in a
register that the instruction reads or writes, has touched the command (R331, R640). -/
def Mach.sparIssue (m : Mach) (s c : Nat) : Mach :=
  let k := m.sparCore s c
  match m.sparCmd s c with
  | none => m
  | some x =>
    if k.st ≠ .running ∨ x.phase ≠ .running then m
    else if k.code.length ≤ k.pc then m.sparTrap s c x sparOverrun 0 k.pc
    else
      let d := k.fetch k.pc
      let m := m.noteSram (uSpar s) sramSparCode (2048 * c + k.pc) d
      if d.word.poison then m.sparTrap s c x sparFetch 0 k.pc else
        let w := d.word.val.toNat
        let op := bits w 63 58
        let step := decide (1 ≤ op) && decide (op ≤ 0x0A)
        let two := step && (rword w 0).words == 2
        let e := k.fetch (k.pc + 1)
        let m := if two && decide (k.pc + 1 < k.code.length) then m.noteSram (uSpar s) sramSparCode (2048 * c + k.pc + 1) e else m
        let r := rword w (if two then e.word.val.toNat else 0)
        let i := kword w
        let issue : Issue := if two && decide (k.code.length ≤ k.pc + 1) then .trap sparOverrun 0
          else if two && e.word.poison then .trap sparFetch 0
          else if step then m.issueStep s c x r else m.issueWord s c x i
        match issue with
        | .wait =>
          -- only a chain wait is timed, not one for a register or the step queue (R291, R292, R308)
          if (op = 0x3B ∧ k.isBusy i.rs1 = false) ∨ (op = 0x3C ∧ k.isBusy i.rd = false) then m.sparWaits s c else m
        | .trap code user => m.sparTrap s c x code user k.pc
        | .done m' =>
          let poison := fun (y : Spar) => (if step then r.regs else i.regs).any fun j => (y.kv j).poison
          if poison k || poison (m'.sparCore s c) then m'.touchPoison x.seq (uSpar s) 0 else m'

def execSparIssue (k : Fin 12) (c : Fin 512) (s : State) : Host.Outcome State Fault Refusal :=
  .next (s.withMach (s.m.sparIssue k.val c.val))

/-- CHAIN_WORD_ARRIVE: the oldest word that a core has sent towards one neighbour reaches that neighbour's receive queue, where
there is room for it (R302, R307). -/
def Mach.chainArrive (m : Mach) (s c : Nat) (up : Bool) : Mach :=
  let k := m.sparCore s c
  match m.sparCmd s c with
  | none => m
  | some x =>
    match (if up then k.outHi else k.outLo), m.neighbour x s c up with
    | v :: q, some n =>
      let y := m.sparCore s n
      if 4 ≤ (if up then y.inLo else y.inHi).length then m else
        let m := m.modSpar s c fun z => if up then { z with outHi := q } else { z with outLo := q }
        m.modSpar s n fun z => if up then { z with inLo := z.inLo ++ [v] } else { z with inHi := z.inHi ++ [v] }
    | _, _ => m

def execChainWordArrive (k : Fin 12) (c : Fin 512) (up : Bool) (s : State) : Host.Outcome State Fault Refusal :=
  .next (s.withMach (s.m.chainArrive k.val c.val up))

/-! ## Ownership and release (R317 to R320) -/

/-- The owner that a core of a command is. -/
def ownerId (seq s c : Nat) : Nat := seq * 8192 + s * 512 + c

/-- Owners of pages at which `p` holds go; requests that ownership held are performed (R318, R319, R400). -/
def Mach.disown (m : Mach) (p : Nat → Bool) : Mach :=
  let t := m.owned.filterMap fun e => let l := dropWhere p e.2; if l.isEmpty then none else some (e.1, l)
  ({ m with owned := t, ownedX := m.ownedX.filter fun e => t.any fun x => x.1 == e.1 }).serveHeld

/-- A core as a command leaves it: `idle`, its code and digest kept, its queues, latches and registers gone. The steps that its banks
run have ended and given back their tokens, and so has a block of which the rest is abandoned (R290, R321, R332). -/
def Mach.freeSpar (m : Mach) (s c : Nat) : Mach :=
  let k := m.sparCore s c
  let m := if k.blockRun = 0 then m else m.endBlock s c
  m.modSt s fun y =>
    let y := (banksOfCore c).foldl (fun (y : Stack) b => y.modBank b fun z =>
      { z with latches := [], busy := if z.busy = some c then none else z.busy, hold := false }) y
    { (y.modCore c fun _ => { code := k.code, flips := k.flips, digest := k.digest }) with held := y.held - sumNat (k.cur.map Step.tokens) }

/-- What a command keeps of the spar cores that have released: a spar command ends when every core of its set has, and so does a spar
image of a serve step (R319, R449). -/
def Cmd.released' (x : Cmd) (s c : Nat) (rel : List Nat) (last : Bool) : Cmd :=
  if x.kind = .serve then
    let l := x.spars.map fun r => if r.img.coreSet.contains (s, c) then { r with released := rel } else r
    { x with spars := if last then l.filter (fun r => !r.img.coreSet.contains (s, c)) else l }
  else { x with released := rel, phase := if last then .ended else x.phase }

/-- A core's program has ended and its last step finished, so it releases its pages; when every core of the set has, the command ends
and the cores return to `idle` (R319). -/
def Mach.sparRelease (m : Mach) (s c : Nat) : Mach :=
  let k := m.sparCore s c
  match m.sparCmd s c with
  | none => m
  | some x =>
    if k.st ≠ .ending ∨ k.steps ≠ [] ∨ k.cur ≠ [] ∨ x.phase ≠ .running ∨ x.released.contains (s * 512 + c) = true then m
    else
      let m := m.disown (· == ownerId x.seq s c)
      let set := x.img.coreSet
      let rel := addNew x.released (s * 512 + c)
      let last := set.all fun e => rel.contains (e.1 * 512 + e.2)
      let m := if last then set.foldl (fun (m : Mach) e => m.freeSpar e.1 e.2) m else m
      m.modCmd x fun y => y.released' s c rel last

/-! ## Loading spar instruction memory (R324 to R326) -/

/-- The outcome of a load request, a load_status: 0 where it is accepted. -/
def Mach.sparLoadCheck (m : Mach) (s : Nat) (cores : List Nat) (bound : Bool) (len src : Nat) : Nat :=
  let k := m.st s
  if k.loadSet ≠ [] then 1
  else if cores = [] then 6
  else if len = 0 ∨ 2048 < len then 3
  else if src % 64 ≠ 0 ∨ (m.reach src).isNone ∨ (m.reach (src + 8 * len - 8)).isNone then 4
  else if cores.all (fun c => (k.core c).st == (if bound then .bound else .idle)) then 0
  else 2

/-- A load requested for a set of cores: refused with its status, or the set moves to `loading` (R325, R326). -/
def Mach.sparLoad (m : Mach) (s : Nat) (cores : List Nat) (bound : Bool) (len src : Nat) : Mach :=
  let st := m.sparLoadCheck s cores bound len src
  if st ≠ 0 then m.modSt s fun k => { k with loadStatus := st, loadLatest := false } else
    m.modSt s fun k =>
      let k := cores.foldl (fun (k : Stack) c => k.modCore c fun y => { y with st := .loading }) k
      { k with loadSet := cores, loadFor := bound, loadNow := (len, src), loadStatus := 0, loadLatest := true }

/-- A write of SPAR_IMEM_LOAD with SPAR_IMEM_SRC as it stands; only firmware is heeded (R324). -/
def Mach.writeSparLoad (m : Mach) (s : Nat) (w : Master) (v : Word) : Mach :=
  let n := v.toNat
  let cores := (setBits 16 (bits n 31 16)).flatMap fun d =>
    ((List.range 32).filter fun j => decide (bits n 4 0 ≤ j) && decide (j ≤ bits n 9 5)).map fun j => 32 * d + j
  if w = .companion then m else
    let m := m.modSt s fun x => { x with loadMask := bits n 31 16, loadFirst := bits n 4 0, loadLast := bits n 9 5, loadBound := bitAt n 62 }
    if bitAt n 63 then m.sparLoad s cores (bitAt n 62) (m.st s).loadLen (m.st s).loadSrc else m

/-- SPAR_IMEM_LOAD (R324, R325). -/
def execSparImemLoad (k : Fin 12) (w : Master) (v : Word) (s : State) : Host.Outcome State Fault Refusal :=
  .next (if s.aon.mode.powered = true then s.withMach (s.m.writeSparLoad k.val w v) else s)

/-- The lines that hold poison or an uncorrectable error of a load, and its words. -/
def codeWords (b : List Byte) : List Word := (List.range (b.length / 8)).map fun i => BitVec.ofNat 64 (fld b (8 * i) 8)

/-- The end of a load: its set takes what `f` makes of each core, and the load's status stands where no later request has been refused. -/
def Stack.loadEnds (k : Stack) (status : Nat) (f : Spar → Spar) : Stack :=
  { k.loadSet.foldl (fun (y : Stack) c => y.modCore c f) k with loadSet := [], loadStatus := if k.loadLatest then status else k.loadStatus }

/-- A load ends: each core of the set holds the code and its digest in the state it had before; on an uncorrectable error each holds
none, and a load made for a dispatch traps its command (R326). -/
def Mach.sparLoadDone (m : Mach) (s : Nat) : Mach :=
  let k := m.st s
  if k.loadSet = [] then m else
    let first := k.loadSet.headD 0
    let cmd := if k.loadFor then (m.cmdOf (k.core first).cmd).map fun x => x.onCore s first else none
    let ((bytes, bad), m) := match cmd with
      | some x => m.readPieces x.img.pieces
      | none => m.readBytes (firmwareAcc 0) k.loadNow.2 (8 * k.loadNow.1)
    let m := m.chargeOverhead (pathBytes 0 bytes.length)
    if bad.any id then
      let m := m.modSt s fun y => y.loadEnds 5 fun z => { z with st := .idle, code := [], flips := [], digest := none }
      match cmd with
      | some x => m.sparTrap s first x sparFetch 0 0
      | none => m
    else
      let dig := match cmd with | some x => x.img.digest | none => codeDigest bytes
      m.modSt s fun y => y.loadEnds 0 fun z =>
        { z with st := if k.loadFor then .bound else .idle, code := codeWords bytes, flips := [], digest := some dig }

end Sys2Proof.Machine
end

