-- ==== Sys2Proof/Machine/Images.lean ====
section
/-! DEFINITION. Command images as dispatch reads them: headers, tables, variant sets, argument blocks, attach lists
(R72 to R79, R309 to R311, R369, R395, R738), and the bytes that a command reads and writes (R379, R425). -/
namespace Sys2Proof.Machine

/-! ## Reading at dispatch (R73) -/

/-- What a reading gives: a value, or the status that refuses the command. -/
abbrev Try (α : Type) := Except Status α × Mach

/-- One reading after another; the first refusal stands. -/
def Try.andThen {α β : Type} (r : Try α) (f : α → Mach → Try β) : Try β :=
  match r with
  | (.error e, m) => (.error e, m)
  | (.ok a, m) => f a m

/-- A check that refuses with a status where it fails. -/
def Mach.need (m : Mach) (ok : Bool) (st : Status) : Try Unit := (if ok then .ok () else .error st, m)

/-- Bytes that dispatch reads: BAD_IMAGE where one does not translate, POISONED where one reads as poison. -/
def Mach.take (m : Mach) (ctx va n : Nat) : Try (List Byte) :=
  match m.fetchVa ctx va n with
  | (none, m) => (.error .badImage, m)
  | (some (_, true), m) => (.error .poisoned, m)
  | (some (b, false), m) => (.ok b, m)

/-- A list read entry by entry. -/
def Try.each {α β : Type} (f : α → Mach → Try β) : List α → Mach → Try (List β)
  | [], m => (.ok [], m)
  | a :: r, m => (f a m).andThen fun b m => (Try.each f r m).andThen fun t m => (.ok (b :: t), m)

/-- Sections as (offset, bytes): each within the image and none overlapping another (R73). -/
def sectionsOk (size : Nat) : List (Nat × Nat) → Bool
  | [] => true
  | s :: r => (s.2 == 0 || (decide (s.1 + s.2 ≤ size) && r.all fun t => t.2 == 0 || decide (s.1 + s.2 ≤ t.1) || decide (t.1 + t.2 ≤ s.1)))
      && sectionsOk size r

/-- Where a section of the image at `va` lies: device physical address and bytes, page by page. -/
def Mach.pieces (m : Mach) (ctx va n : Nat) : List (Nat × Nat) :=
  (List.range ((va + n + 65535) / 65536 - va / 65536)).filterMap fun i =>
    let lo := max va ((va / 65536 + i) * 65536)
    (m.xlate ctx lo).map fun d => (d, min (va + n) ((va / 65536 + i + 1) * 65536) - lo)

/-- A commit-log entry (R72), and its check: a known op and reserved bits 0. -/
def parseLog (b : List Byte) (o : Nat) : LogE := { op := fld b (o + 7) 1, va := fld b o 8 % 2 ^ 52, val := ⟨BitVec.ofNat 64 (fld b (o + 8) 8), false⟩ }
def logEntryOk (b : List Byte) (o : Nat) : Bool := decide (1 ≤ fld b (o + 7) 1) && decide (fld b (o + 7) 1 ≤ 7) && bits (fld b o 8) 55 52 == 0

/-- Flags of an image that lie in a grain page (R395). -/
def Mach.inGrain (m : Mach) (ctx va : Nat) : Bool := (m.pageOf ctx va).any fun p => decide (2 ^ 24 ≤ p.frame)
def Mach.grainTargets (m : Mach) (ctx : Nat) (i : Img) : Bool :=
  (i.predVa != 0 && m.inGrain ctx i.predVa) || (i.doneVa != 0 && m.inGrain ctx i.doneVa) || i.log.any fun e => m.inGrain ctx e.va

/-! ## Mast images (R72 to R77) -/

/-- The header of a mast image within its ranges (R73). -/
def mastHeader (h : List Byte) : Bool :=
  fld h 0 4 == 0x4C504D43 && fld h 4 2 == 1 && fld h 6 2 == 256 && fld h 8 1 == 1 && decide (fld h 9 1 ≤ 1)
    && (fld h 0x0A 1 == 0 || (decide (60 ≤ fld h 0x0A 1) && decide (fld h 0x0A 1 ≤ 64)))
    && (fld h 0x0B 1 == 7 || fld h 0x0B 1 == 8) && decide (1 ≤ fld h 0x0C 1) && decide (fld h 0x0C 1 ≤ 32) && decide (fld h 0x0D 1 ≤ 1)
    && decide (fld h 0x0E 2 ≤ 4096) && decide (fld h 0x30 1 ≤ 5) && zeros h 0x31 7 && decide (fld h 0x4C 2 ≤ 64)
    && decide (fld h 0x4E 2 ≤ 64) && decide (fld h 0x58 2 ≤ 256) && zeros h 0x5A 2 && fld h 0x5C 4 % 64 == 0
    && decide (64 ≤ fld h 0x60 4) && decide (fld h 0x60 4 ≤ 524288) && fld h 0x60 4 % 64 == 0 && zeros h 0x68 8 && zeros h 0x90 112
    && decide (256 ≤ fld h 0x64 4)
    && sectionsOk (fld h 0x64 4) [(0, 256), (fld h 0x48 4, 8 * fld h 0x4C 2), (fld h 0x50 4, 8 * fld h 0x4E 2),
        (fld h 0x54 4, 16 * fld h 0x58 2), (fld h 0x5C 4, fld h 0x60 4)]

/-- An entry of the input and output table, and of a binding table. -/
def parseIo (b : List Byte) (o : Nat) : Io :=
  { desc := fld b (o + 4) 4, mode := bits (fld b o 4) 1 0, overlap := bitAt (fld b o 4) 2, side := bits (fld b o 4) 4 3 }

/-- The tables of a mast image: reserved bits 0, modes and operations known. -/
def mastTables (b : List Byte) : Bool :=
  ((List.range (fld b 0x4C 2)).all fun i => bits (fld b (fld b 0x48 4 + 8 * i) 8) 62 41 == 0)
    && ((List.range (fld b 0x4E 2)).all fun i => let v := fld b (fld b 0x50 4 + 8 * i) 4; bits v 31 3 == 0 && bits v 1 0 != 0)
    && (List.range (fld b 0x58 2)).all fun i => logEntryOk b (fld b 0x54 4 + 16 * i)

/-- A mast image from its bytes. -/
def mastImg (va : Nat) (b : List Byte) (pieces : List (Nat × Nat)) : Img :=
  { va := va, size := fld b 0x64 4, cls := fld b 9 1, width := fld b 0x0A 1, cores := fld b 0x0B 1, clusters := fld b 0x0C 1, anchored := fld b 0x0D 1 == 1,
    args := fld b 0x0E 2, wcet := fld b 0x10 8, stallNs := fld b 0x18 4, budgetUs := fld b 0x1C 4, predVa := fld b 0x20 8,
    predVal := BitVec.ofNat 64 (fld b 0x28 8), predOp := fld b 0x30 1, doneVa := fld b 0x38 8, doneAdd := BitVec.ofNat 64 (fld b 0x40 8),
    loops := (List.range (fld b 0x4C 2)).map fun i => let v := fld b (fld b 0x48 4 + 8 * i) 8; (bitAt v 63, bits v 40 32, bits v 31 0),
    io := (List.range (fld b 0x4E 2)).map fun i => parseIo b (fld b 0x50 4 + 8 * i),
    log := (List.range (fld b 0x58 2)).map fun i => parseLog b (fld b 0x54 4 + 16 * i),
    code := slice b (fld b 0x5C 4) (fld b 0x60 4), codeDpa := (pieces.headD (0, 0)).1, pieces := pieces, digest := fld b 0x70 32 }

/-- A mast image read whole and checked. -/
def Mach.readMast (m : Mach) (ctx va : Nat) : Try Img :=
  (m.need (va % 64 == 0) .badImage).andThen fun _ m => (m.take ctx va 256).andThen fun h m =>
  (m.need (mastHeader h) .badImage).andThen fun _ m => (m.take ctx va (fld h 0x64 4)).andThen fun b m =>
  let i := mastImg va b (m.pieces ctx (va + fld b 0x5C 4) (fld b 0x60 4))
  (m.need (mastTables b && !m.grainTargets ctx i) .badImage).andThen fun _ m => (.ok i, m)

/-! ## Variant sets (R738, R79) -/

/-- The entries of a variant set as (image address, required width, core count), each within its ranges. -/
def variantOk (b : List Byte) : Bool :=
  (List.range (b.length / 16)).all fun i =>
    (fld b (16 * i + 8) 1 == 0 || (decide (60 ≤ fld b (16 * i + 8) 1) && decide (fld b (16 * i + 8) 1 ≤ 64)))
      && (fld b (16 * i + 9) 1 == 7 || fld b (16 * i + 9) 1 == 8) && zeros b (16 * i + 10) 6
def Mach.readVariants (m : Mach) (ctx va : Nat) : Try (List (Nat × Nat × Nat)) :=
  (m.take ctx va 16).andThen fun h m =>
  (m.need (decide (1 ≤ fld h 0 1) && decide (fld h 0 1 ≤ 16) && zeros h 1 15) .badImage).andThen fun _ m =>
  (m.take ctx (va + 16) (16 * fld h 0 1)).andThen fun b m =>
  (m.need (variantOk b) .badImage).andThen fun _ m =>
    (.ok ((List.range (fld h 0 1)).map fun i => (fld b (16 * i) 8, fld b (16 * i + 8) 1, fld b (16 * i + 9) 1)), m)

/-- A variant with its image, as dispatch has read them. -/
structure Variant where
  width : Nat
  cores : Nat
  img : Img
  deriving DecidableEq, Repr

/-- The images of a variant set, each with its argument block (R73). Every image of the set is read and checked, those too that no cluster
selects, and a bad one refuses the command (DESIGN CHOICE, log entry 69). -/
def Mach.readImages (m : Mach) (ctx va args : Nat) : Try (List Variant) :=
  (m.readVariants ctx va).andThen fun vs m =>
    Try.each (fun (v : Nat × Nat × Nat) (m : Mach) => (m.readMast ctx v.1).andThen fun i m =>
      if args = 0 then (.ok ⟨v.2.1, v.2.2, i⟩, m) else
        (m.take ctx args i.args).andThen fun a m => (.ok ⟨v.2.1, v.2.2, { i with argBytes := a }⟩, m)) vs m

/-- The entry that a cluster selects: equal core count and the largest width not above the presented one (R79), and an
image that may run there (R75). -/
def Cluster.select (c : Cluster) (vs : List Variant) : Option Variant :=
  match (vs.filter fun v => v.cores == c.phys.length && decide (v.width ≤ c.width)).foldl
      (fun (best : Option Variant) v => match best with | none => some v | some b => if b.width < v.width then some v else some b) none with
  | some v => if v.img.cores = c.phys.length ∧ v.img.width ≤ c.width then some v else none
  | none => none

/-- A cluster on which a context may be resident: enabled, in its mask, and granted to no other context (R401, R668). -/
def Mach.mayUse (m : Mach) (ctx c : Nat) : Bool :=
  (m.cl c).enabled && (m.cx ctx).clusterMask.getLsbD c && !m.ctr.grants.any fun g => g.ctx != ctx && bitAt g.clusters c

/-- The images that enough candidate clusters select, each with those clusters. -/
def Mach.workable (m : Mach) (ctx : Nat) (vs : List Variant) : List (Img × List Nat) :=
  (vs.map fun v => (v.img, (List.range 32).filter fun c => m.mayUse ctx c && (m.cl c).select vs == some v)).filter fun e =>
    decide (e.1.clusters ≤ e.2.length)

/-- The attach list: pairs of source and destination (R369, R586). -/
def Mach.readAttach (m : Mach) (ctx va n : Nat) : Try (List (Nat × Nat)) :=
  if n = 0 then (.ok [], m) else
    (m.take ctx va (16 * n)).andThen fun b m =>
    (m.need ((List.range n).all fun i => zeros b (16 * i + 8) 8) .badParam).andThen fun _ m =>
      (.ok ((List.range n).map fun i => (fld b (16 * i) 4, fld b (16 * i + 4) 4)), m)

/-! ## Spar images (R309 to R311) -/

/-- The header of a spar image within its ranges (R310). -/
def sparHeader (h : List Byte) : Bool :=
  fld h 0 4 == 0x4C505343 && fld h 4 2 == 1 && fld h 6 2 == 256 && fld h 8 1 == 2 && decide (fld h 9 1 ≤ 1) && decide (fld h 0x0A 1 ≤ 3)
    && decide (1 ≤ fld h 0x0B 1) && decide (fld h 0x0B 1 ≤ 16) && fld h 0x0C 2 != 0 && decide (fld h 0x0C 2 < 4096) && fld h 0x0E 2 != 0
    && decide (fld h 0x11 1 ≤ 31) && decide (fld h 0x10 1 ≤ fld h 0x11 1) && decide (fld h 0x12 2 ≤ 2048) && decide (fld h 0x30 1 ≤ 5)
    && zeros h 0x31 7 && decide (fld h 0x4C 2 ≤ 256) && zeros h 0x4E 2 && fld h 0x54 4 % 64 == 0 && decide (8 ≤ fld h 0x58 4)
    && decide (fld h 0x58 4 ≤ 16384) && fld h 0x58 4 % 8 == 0 && zeros h 0x64 12 && zeros h 0x90 112 && decide (256 ≤ fld h 0x5C 4)
    && sectionsOk (fld h 0x5C 4) [(0, 256), (fld h 0x48 4, 8 * fld h 0x0B 1), (fld h 0x50 4, 16 * fld h 0x4C 2), (fld h 0x54 4, fld h 0x58 4)]

/-- The tables of a spar image. -/
def sparTables (b : List Byte) : Bool :=
  ((List.range (fld b 0x0B 1)).all fun i =>
      let v := fld b (fld b 0x48 4 + 8 * i) 4
      bits v 31 5 == 0 && bits v 4 3 != 3 && bits v 1 0 != 0)
    && (List.range (fld b 0x4C 2)).all fun i => logEntryOk b (fld b 0x50 4 + 16 * i)

/-- A spar image from its bytes. -/
def sparImg (va : Nat) (b : List Byte) (pieces : List (Nat × Nat)) : Img :=
  { va := va, size := fld b 0x5C 4, cls := fld b 9 1, anchored := bitAt (fld b 0x0A 1) 0, paired := bitAt (fld b 0x0A 1) 1, stackMask := fld b 0x0C 2,
    dieMask := fld b 0x0E 2, coreFirst := fld b 0x10 1, coreLast := fld b 0x11 1, args := fld b 0x12 2, budgetUs := fld b 0x14 4,
    wcet := fld b 0x18 8, predVa := fld b 0x20 8, predVal := BitVec.ofNat 64 (fld b 0x28 8), predOp := fld b 0x30 1, doneVa := fld b 0x38 8,
    doneAdd := BitVec.ofNat 64 (fld b 0x40 8), io := (List.range (fld b 0x0B 1)).map fun i => parseIo b (fld b 0x48 4 + 8 * i),
    log := (List.range (fld b 0x4C 2)).map fun i => parseLog b (fld b 0x50 4 + 16 * i),
    code := slice b (fld b 0x54 4) (fld b 0x58 4), codeDpa := (pieces.headD (0, 0)).1, pieces := pieces, digest := fld b 0x70 32 }

/-- A spar image read whole and checked, with its argument block. -/
def Mach.readSpar (m : Mach) (ctx va args : Nat) : Try Img :=
  (m.need (va % 64 == 0) .badImage).andThen fun _ m => (m.take ctx va 256).andThen fun h m =>
  (m.need (sparHeader h) .badImage).andThen fun _ m => (m.take ctx va (fld h 0x5C 4)).andThen fun b m =>
  let i := sparImg va b (m.pieces ctx (va + fld b 0x54 4) (fld b 0x58 4))
  (m.need (sparTables b && !m.grainTargets ctx i) .badImage).andThen fun _ m =>
  if args = 0 then (.ok i, m) else (m.take ctx args i.args).andThen fun a m => (.ok { i with argBytes := a }, m)

/-! ## The bytes that a command reads and writes (R379, R425) -/

/-- Bytes of a page: the page's key and number, and its first and end byte. -/
structure Span where
  key : Nat
  page : Nat
  lo : Nat
  hi : Nat
  deriving DecidableEq, Repr

/-- Two spans share a byte; some pair of two lists does. -/
def Span.meets (a b : Span) : Bool := a.key == b.key && a.page == b.page && decide (a.lo < b.hi) && decide (b.lo < a.hi)
def anyMeet (a b : List Span) : Bool := a.any fun x => b.any x.meets

/-- The spans of `n` bytes at an address. -/
def Mach.vaSpans (m : Mach) (ctx va n : Nat) : List Span :=
  (List.range ((va + n + 65535) / 65536 - va / 65536)).filterMap fun i =>
    let lo := max va ((va / 65536 + i) * 65536)
    (m.pageOf ctx lo).map fun p => ⟨p.key, p.page, lo % 65536, lo % 65536 + (min (va + n) ((va / 65536 + i + 1) * 65536) - lo)⟩

/-- The aligned word of a flag or log target. -/
def Mach.wordSpan (m : Mach) (ctx va : Nat) : List Span := m.vaSpans ctx (va / 8 * 8) 8

/-- The local descriptor that a handle stands for. -/
def Mach.localDesc (m : Mach) (ctx h : Nat) : Option Desc :=
  match m.liveDesc ctx h with
  | some d => if d.grid.isSome then m.liveDesc ctx d.local_ else some d
  | none => none

/-- A touched page of a descriptor as a span: whole, or from the first to the last byte that its footprint has there. -/
def Desc.pageSpan (d : Desc) (whole : Bool) (page : Nat) : Span :=
  if whole || d.view == 1 then ⟨d.alloc, page, 0, 65536⟩ else
    let (lo, hi) := d.footprint
    ⟨d.alloc, page, lo.toNat - page * 65536, min 65536 (hi.toNat + 1 - page * 65536)⟩

/-- What a descriptor touches of stack memory, and its index. -/
def Mach.descSpans (m : Mach) (whole : Bool) (ctx h : Nat) : List Span :=
  let one := fun (d : Desc) => if d.space = 1 then [] else match (m.cx ctx).alloc d.alloc with
    | some a => (d.touched a).map fun t => d.pageSpan whole t.1
    | none => []
  match m.localDesc ctx h with
  | some d => one d ++ (if d.index = 0 then [] else match m.liveDesc ctx d.index with | some x => one x | none => [])
  | none => []

/-- The allocation that a binding names. -/
def Mach.bindAlloc (m : Mach) (ctx : Nat) (e : Io) : Option (Nat × Alloc) :=
  (m.liveDesc ctx e.desc).bind fun d => ((m.cx ctx).alloc d.alloc).map fun a => (d.alloc, a)

/-- Where a binding lies among the pages of its allocation, for each bank of each core: core, and the page numbers (R312). -/
def Img.bindAt (i : Img) (e : Io) (a : Alloc) : List ((Nat × Nat) × List Nat) :=
  i.coreSet.flatMap fun sc => (sideBanks sc.2 e.side).filterMap fun b =>
    (a.banks.findIdx? (· == sc.1 * 1024 + b)).map fun j => (sc, (List.range a.perBank).map (j * a.perBank + ·))

/-- The pages that the bindings of a spar command resolve to, whole: it may read, and has drafted, any row of them (R312, R316). -/
def Mach.bindSpans (m : Mach) (c : Cmd) (p : Io → Bool) : List Span :=
  if c.kind ≠ .spar then [] else
    (c.img.io.filter p).flatMap fun e => match m.bindAlloc c.ctx e with
      | none => []
      | some (h, a) => (c.img.bindAt e a).flatMap fun x => x.2.map fun g => ⟨h, g, 0, 65536⟩

/-- The handles that a command writes through, with their overlap bit, and those it reads through. -/
def Cmd.outs (c : Cmd) : List (Nat × Bool) :=
  (c.img.io.filter (·.mode != 1)).map (fun i => (i.desc, i.overlap)) ++ c.moves.map (fun p => (p.2, false)) ++ (if c.dstH = 0 then [] else [(c.dstH, false)])
def Cmd.ins (c : Cmd) : List Nat :=
  (c.img.io.filter (·.mode != 2)).map (·.desc) ++ c.moves.map (·.1) ++ (if c.srcH = 0 then [] else [c.srcH])

/-- What a command writes: its outputs, one with the overlap bit apart, its log targets and its completion flags. -/
def Mach.writesOf (m : Mach) (c : Cmd) (overlap whole : Bool) : List Span :=
  ((c.outs.filter fun o => o.2 == overlap).flatMap fun o => m.descSpans whole c.ctx o.1) ++ m.bindSpans c (fun e => e.mode != 1 && e.overlap == overlap)
    ++ (if overlap then [] else c.log.flatMap (fun e => m.wordSpan c.ctx e.va) ++ c.dones.flatMap fun d => m.wordSpan c.ctx d.1)

/-- What a command reads through its descriptors. -/
def Mach.readsOf (m : Mach) (c : Cmd) : List Span := c.ins.flatMap (m.descSpans false c.ctx) ++ m.bindSpans c (fun e => e.mode == 1)

/-- `x`, which reads `extra` beside its inputs, reads or writes what an earlier command writes (R379). An output is a whole page, since its
draft may start as a copy of it (R425). Reads of an output with the overlap bit are held only until the draft stands as it starts (R385). -/
def Mach.conflicts (m : Mach) (e x : Cmd) (extra : List Span) : Bool :=
  let outs := m.writesOf x false true ++ m.writesOf x true true
  let ins := m.readsOf x
  anyMeet (m.writesOf e false false) (ins ++ extra) || anyMeet (m.writesOf e true false) extra
    || anyMeet (m.writesOf e false true ++ m.writesOf e true true) outs
    || (anyMeet (m.writesOf e true false) ins && (e.phase == .queued || e.phase == .copying))

/-- A command holds later ones of its queue: it is one whose reach is not known yet, a FENCE, or a WAIT that has not been
released (R379, R382, R585; log entry 30). -/
def Cmd.blocks (e : Cmd) : Bool :=
  e.kind == .fence || (e.kind == .wait && e.phase != .ended) || (e.phase == .queued && e.seq == 0)

/-- The first earlier command of the queue that holds `x` at dispatch (R379). -/
def Mach.holder (m : Mach) (x : Cmd) (extra : List Span) : Option Cmd :=
  (m.earlier x).find? fun e => e.blocks || m.conflicts e x extra

/-- Bytes as dispatch would read them now; none where they do not translate. -/
def Mach.peekVa (m : Mach) (ctx va n : Nat) : List Byte := match (m.fetchVa ctx va n).1 with | some (b, _) => b | none => []

/-- What the checks of an image read: its header, the image to the size that the field at `sizeAt` gives, and as many bytes of the argument
block as the field at `argsAt` gives. -/
def Mach.imageReads (m : Mach) (ctx va sizeAt argsAt args : Nat) : List Span :=
  let h := m.peekVa ctx va 256
  m.vaSpans ctx va (max 256 (fld h sizeAt 4)) ++ (if args = 0 then [] else m.vaSpans ctx args (fld h argsAt 2))

/-- The owner table of a distributed descriptor. -/
def Mach.ownerSpans (m : Mach) (ctx h : Nat) : List Span :=
  match (m.descOf ctx h).bind (·.grid) with
  | some (ext, va, _) => m.vaSpans ctx va (4 * prodNat ext)
  | none => []

/-- A flag that dispatch reads; none for address 0. -/
def Mach.flagSpan (m : Mach) (ctx va : Nat) : List Span := if va = 0 then [] else m.wordSpan ctx va

/-- What dispatch reads of a mast command before its tables are known: the variant set, the attach list with its owner tables, and every
image of the set (R73, R379). -/
def Mach.mastReads (m : Mach) (x : Cmd) : List Span :=
  let va := fld x.entry 0x10 8
  let n := min 16 (fld (m.peekVa x.ctx va 16) 0 1)
  let set := m.peekVa x.ctx (va + 16) (16 * n)
  let at_ := fld x.entry 0x20 8
  let k := fld x.entry 0x28 1
  let attach := if k = 0 then [] else m.peekVa x.ctx at_ (16 * k)
  m.vaSpans x.ctx va (16 + 16 * n) ++ m.vaSpans x.ctx at_ (16 * k)
    ++ (List.range k).flatMap (fun i => m.ownerSpans x.ctx (fld attach (16 * i + 4) 4))
    ++ (List.range n).flatMap fun i => m.imageReads x.ctx (fld set (16 * i) 8) 0x64 0x0E (fld x.entry 0x18 8)

/-- What dispatch reads of a spar command, of a move, and of a COLLECTIVE before its descriptors are known (R379). -/
def Mach.sparReads (m : Mach) (x : Cmd) : List Span := m.imageReads x.ctx (fld x.entry 0x10 8) 0x5C 0x12 (fld x.entry 0x18 8)
def Mach.moveReads (m : Mach) (x : Cmd) : List Span := m.flagSpan x.ctx (fld x.entry 0x20 8) ++ m.ownerSpans x.ctx x.dstH
def Mach.collReads (m : Mach) (x : Cmd) : List Span :=
  let va := fld x.entry 0x10 8
  let b := m.peekVa x.ctx va 128
  m.vaSpans x.ctx va 128 ++ m.vaSpans x.ctx (fld b 0x20 8) (4 * fld b 0x0A 2)

/-- What is known of what a queued command reads. -/
def Mach.entryReads (m : Mach) (x : Cmd) : List Span :=
  match x.kind with
  | .mast => m.mastReads x
  | .spar => m.sparReads x
  | .coll => m.collReads x
  | .move => m.flagSpan x.ctx (fld x.entry 0x20 8)
  | .wait => m.wordSpan x.ctx x.waitVa
  | _ => []

/-- `x`, dispatched under `seq`, reads the overlapping drafts of earlier commands of its queue (R385). -/
def Mach.markReads (m : Mach) (x : Cmd) (seq : Nat) : Mach :=
  let rd := m.readsOf x
  { m with cmds := m.cmds.map fun e =>
      if e.ctx == x.ctx && e.q == x.q && decide (e.pos < x.pos) then
        { e with drafts := e.drafts.map fun d =>
            if d.overlap && rd.any (fun s => s.key == d.alloc && s.page == d.page) then { d with readBy := addNew d.readBy seq } else d }
      else e }

end Sys2Proof.Machine
end

