-- ==== Sys2Proof/Machine/Engine.lean ====
section
/-! DEFINITION. The collective engines: halves, chunks and parts, the first contents of a destination, and the sending of a part
(R553, R556, R642). -/
namespace Sys2Proof.Machine

/-! ## Halves, chunks, steps (R556) -/

/-- A half of an engine's elements: its first and end element, this module's rank and the root as the half counts them (the second
half in reverse, log entry 52), and the participants that it sends to and receives from. -/
structure Half where
  lo : Nat
  hi : Nat
  rank : Nat
  root : Nat
  next : Nat
  prev : Nat
  deriving DecidableEq, Repr

def Engine.half (e : Engine) (h : Nat) : Half :=
  let mid := if e.dirs = 1 then e.elems else ceilDiv e.elems 2
  let up := (e.rank + 1) % e.n
  let down := (e.rank + e.n - 1) % e.n
  if h = 0 then ⟨0, mid, e.rank, e.root, up, down⟩ else ⟨mid, e.elems, e.n - 1 - e.rank, e.n - 1 - e.root, down, up⟩

/-- The elements of chunk `k` of a half, as first and end. -/
def Half.chunk (h : Half) (n k : Nat) : Nat × Nat :=
  let c := ceilDiv (h.hi - h.lo) n
  (min h.hi (h.lo + k * c), min h.hi (h.lo + (k + 1) * c))

/-- How far a rank of a broadcast stands behind the root, as a half counts. -/
def Half.fromRoot (h : Half) (n : Nat) : Nat := (h.rank + n - h.root) % n

/-- The steps in which a half sends, in order: the op (2 ACCUM, 1 WRITE), the chunk, and how many steps of the half must have been
received, up to the same part, before it is sent. -/
def Engine.steps (e : Engine) (h : Half) : List (Nat × Nat × Nat) :=
  let reduce := (List.range (e.n - 1)).map fun s => (2, (h.rank + e.n - s) % e.n, s)
  let gather := fun (before : Nat) => (List.range (e.n - 1)).map fun s => (1, (h.rank + 1 + e.n - s) % e.n, before + s)
  match e.kind with
  | 1 => reduce ++ gather (e.n - 1)
  | 2 => reduce
  | 3 => gather 0
  | _ =>
    let d := h.fromRoot e.n
    if d + 1 = e.n then [] else (List.range e.n).map fun k => (1, k, if d = 0 then 0 else k + 1)

/-- The steps in which a half receives, in order: the op and the chunk. -/
def Engine.recvs (e : Engine) (h : Half) : List (Nat × Nat) :=
  let reduce := (List.range (e.n - 1)).map fun s => (2, (h.rank + e.n - s - 1) % e.n)
  let gather := (List.range (e.n - 1)).map fun s => (1, (h.rank + e.n - s) % e.n)
  match e.kind with
  | 1 => reduce ++ gather
  | 2 => reduce
  | 3 => gather
  | _ => if h.fromRoot e.n = 0 then [] else (List.range e.n).map fun k => (1, k)

/-- The elements of a part of a chunk: 64 KiB of them (R556). -/
def Engine.partEls (e : Engine) (hf : Half) (k part : Nat) : List Nat :=
  let (a, b) := hf.chunk e.n k
  let per := 65536 / elemBytes e.fmt
  ((List.range per).map (a + part * per + ·)).filter fun i => decide (i < b)

/-- The elements of the part that a half sends next: the op, the elements, and the steps that must have been received; none when
all has been sent. -/
def Engine.part (e : Engine) (hf : Half) (st : Nat × Nat) : Option (Nat × List Nat × Nat) :=
  match (e.steps hf)[st.1]? with
  | none => none
  | some (op, k, need) => some (op, e.partEls hf k st.2, need)

/-- The place of a half moved on past the parts that hold no element. -/
def Engine.settle (e : Engine) (hf : Half) : Nat → Nat × Nat → Nat × Nat
  | 0, st => st
  | fuel + 1, st =>
    match e.part hf st with
    | some (_, [], _) => Engine.settle e hf fuel (st.1 + 1, 0)
    | _ => st

def Engine.place (e : Engine) (h : Nat) : Nat × Nat := e.settle (e.half h) (2 * e.n) (e.at_.getD h (0, 0))

/-- Everything has been sent. -/
def Engine.sentAll (e : Engine) : Bool := (List.range e.dirs).all fun h => (e.part (e.half h) (e.place h)).isNone

/-! ## Elements of the destination -/

/-- The virtual address of an element of the destination, at which the participants map it alike (log entry 50). -/
def Mach.engineVa (m : Mach) (a : Acc) (x : Cmd) (d : Desc) (n : Nat) : Option Nat × Mach :=
  match m.moverGen a 0 x d n 0 0 with
  | (.ok (.off o), m) => ((m.cx x.ctx).vaOf d.alloc o.toNat, m)
  | (_, m) => (none, m)

/-- The engine as a requester. -/
def engineAcc (x : Cmd) : Acc := ⟨whoFabric, x.ctx, 0, x.seq⟩

/-- The engine of a command, and one changed. -/
def Mach.engineOf (m : Mach) (seq : Nat) : Option Engine := m.engines.find? fun e => e.cmd == seq
def Mach.modEngine (m : Mach) (seq : Nat) (f : Engine → Engine) : Mach :=
  { m with engines := m.engines.map fun (e : Engine) => if e.cmd == seq then f e else e }

/-- The work of an engine has ended once everything has been sent (R552). -/
def Mach.engineEnd (m : Mach) (x : Cmd) : Mach :=
  match m.engineOf x.seq with
  | some e => if e.sentAll then m.modCmd x fun y => if y.phase = .running then { y with phase := .ended } else y else m
  | none => m

/-- The engine's command fails on poison (R642), or on what a descriptor does not reach. -/
def Mach.engineFails (m : Mach) (x : Cmd) (why : Nat) (dpa : Nat) : Mach :=
  if why = haltUe ∨ why = haltPoison then (m.touchPoison x.seq uModule (m.locAt dpa)).fail x .poisoned 0
  else m.fail x .halted (detailWord srcFabric why 0)

/-- One element of the source copied into the destination's draft. -/
def Mach.copyElem (m : Mach) (x : Cmd) (s d : Desc) (n : Nat) : Except Nat Unit × Mach :=
  match m.moverRead (engineAcc x) 0 x s n 0 0 with
  | (.error e, m) => (.error e, m)
  | (.ok (v, _), m) =>
    match m.moverGen (engineAcc x) 0 x d n 0 0 with
    | (.ok (.off o), m) =>
      match x.draftDpa d.alloc o.toNat with
      | some dpa => (.ok (), m.writeBytes dpa (leBytes (elemBytes d.fmt) v) false)
      | none => (.error haltTranslation, m)
    | (.ok _, m) => (.ok (), m)
    | (.error e, m) => (.error e, m)

/-- The drafts of a hardware collective get their first contents: a copy of the source, but at the ranks of a broadcast that are
not its root (R556). -/
def Mach.startEngine (m : Mach) (x : Cmd) : Mach :=
  match m.engineOf x.seq, m.liveDesc x.ctx x.srcH, m.liveDesc x.ctx x.dstH with
  | some e, some s, some d =>
    let m := m.modEngine x.seq fun e => { e with started := true }
    if e.kind = 4 ∧ e.rank ≠ e.root then m.engineEnd x else
      match (List.range e.elems).foldl (fun (acc : Except Nat Unit × Mach) n =>
          match acc.1 with | .error y => (.error y, acc.2) | .ok _ => acc.2.copyElem x s d n) (.ok (), m) with
      | (.ok _, m) => m.engineEnd x
      | (.error why, m) => m.engineFails x why 0
  | _, _, _ => m

/-! ## Sending a part (R556, R642) -/

/-- The elements of a part, each with its address; one that lies nowhere is passed over. -/
def Mach.partVas (m : Mach) (x : Cmd) (d : Desc) : List Nat → List Nat × Mach
  | [] => ([], m)
  | n :: r =>
    let (v, m) := m.engineVa (engineAcc x) x d n
    let (l, m) := m.partVas x d r
    (v.toList ++ l, m)

/-- The aligned words that some addresses lie in, each once and in order. -/
def wordsAt (vas : List Nat) : List Nat := vas.foldl (fun t v => addNew t (v / 8)) []

/-- A word that a half receives: its step and part, the op, the word, and the offsets of its elements in it. -/
structure Arrival where
  step : Nat
  part : Nat
  op : Nat
  word : Nat
  offs : List Nat
  deriving DecidableEq, Repr

/-- The words that a half receives, in order (R556). -/
def Mach.arrivals (m : Mach) (x : Cmd) (e : Engine) (d : Desc) (hf : Half) : List Arrival :=
  (e.recvs hf).zipIdx.flatMap fun r =>
    let (a, b) := hf.chunk e.n r.1.2
    (List.range (ceilDiv ((b - a) * elemBytes e.fmt) 65536)).flatMap fun part =>
      let vas := (m.partVas x d (e.partEls hf r.1.2 part)).1
      (wordsAt vas).map fun w => ⟨r.2, part, r.1.1, w, (vas.filter fun v => v / 8 == w).map (· % 8)⟩

/-- The half whose next word a flit's word is, and the offsets of the elements that it brings. -/
def Mach.engineTakes (m : Mach) (x : Cmd) (src : Option Nat) (op word : Nat) : Option (Nat × List Nat) :=
  match m.engineOf x.seq, m.liveDesc x.ctx x.dstH with
  | some e, some d => (List.range e.dirs).findSome? fun h =>
    if src = some (e.half h).prev then
      match (m.arrivals x e d (e.half h))[Tab.get 0 e.rcv h]? with
      | some a => if a.op = op ∧ a.word = word then some (h, a.offs) else none
      | none => none
    else none
  | _, _ => none

/-- The words of a part with their contents as they are sent: a WRITE sends the draft's word, an ACCUM the part's elements among
identity elements; or the address of a poisoned one. -/
def Mach.partWords (m : Mach) (x : Cmd) (e : Engine) (op : Nat) (vas : List Nat) : Except Nat (List (Nat × Nat)) × Mach :=
  let b := elemBytes e.fmt
  (wordsAt vas).foldl (fun (acc : Except Nat (List (Nat × Nat)) × Mach) w =>
    match acc.1 with
    | .error y => (.error y, acc.2)
    | .ok l =>
      match acc.2.xlateWrite x (w * 8) with
      | none => (.error 0, acc.2)
      | some dpa =>
        let (v, m) := acc.2.readWord (engineAcc x) dpa
        if v.poison then (.error dpa, m) else
          let els := (vas.filter fun a => a / 8 == w).map fun a => (a % 8, v.val.toNat / 2 ^ (8 * (a % 8)))
          (.ok (l ++ [(w, if op = 2 then wordOf b (identityWord e.accOp e.fmt) els else v.val.toNat)]), m)) (.ok [], m)

/-- Words cut into flits: runs of adjacent words of one page, at most 27 words each. -/
def flitRuns : List (Nat × Nat) → List (Nat × List Word)
  | [] => []
  | (w, v) :: r =>
    match flitRuns r with
    | (w', l) :: t => if w' = w + 1 ∧ w' % 8192 ≠ 0 ∧ l.length < 27 then (w, BitVec.ofNat 64 v :: l) :: t else (w, [BitVec.ofNat 64 v]) :: (w', l) :: t
    | [] => [(w, [BitVec.ofNat 64 v])]

/-- The halves whose next part may be sent: that part of the previous step has been applied, with all before it (R556). -/
def Mach.readyHalves (m : Mach) (x : Cmd) (e : Engine) (d : Desc) : List Nat :=
  (List.range e.dirs).filter fun h =>
    match e.part (e.half h) (e.place h) with
    | none => false
    | some (_, _, need) => (m.arrivals x e d (e.half h)).zipIdx.all fun a =>
      !(decide (a.1.step + 1 < need) || (a.1.step + 1 == need && decide (a.1.part ≤ (e.place h).2))) || decide (a.2 < Tab.get 0 e.rcv h)

/-- The next part of a half is sent. -/
def Mach.sendPart (m : Mach) (x : Cmd) (e : Engine) (d : Desc) (h : Nat) : Mach :=
  let hf := e.half h
  match e.part hf (e.place h) with
  | none => m
  | some (op, els, _) =>
    let (vas, m) := m.partVas x d els
    match m.partWords x e op vas with
    | (.error dpa, m) => if dpa = 0 then m.engineFails x haltTranslation 0 else m.engineFails x haltPoison dpa
    | (.ok ws, m) =>
      let aux := if op = 2 then e.accOp * 16 + e.fmt else 0
      let m := (flitRuns ws).foldl (fun (m : Mach) r => m.sendTo x hf.next op 1 (r.1 * 8) aux r.2) m
      let st := e.place h
      let m := m.modEngine x.seq fun g => { g with at_ := (List.range e.dirs).map fun i => if i = h then (st.1, st.2 + 1) else e.at_.getD i (0, 0) }
      m.engineEnd x

/-- COLLECTIVE_PART_SEND: one half, at a free choice among those whose next part may go. -/
def Mach.partSend (m : Mach) (seq : Nat) : Mach :=
  match m.cmdOf seq, m.engineOf seq with
  | some x, some e =>
    match m.liveDesc x.ctx x.dstH with
    | none => m
    | some d =>
      if x.phase ≠ .running ∨ e.started = false then m else
        match m.readyHalves x e d with
        | [] => m
        | l => match m.pick l with
          | (some h, m) => m.sendPart x e d h
          | (none, m) => m
  | _, _ => m

def execCollectivePartSend (seq : Nat) (s : State) : Host.Outcome State Fault Refusal := .next (s.withMach (s.m.partSend seq))

end Sys2Proof.Machine
end

