-- ==== Sys2Proof/Machine/Launch.lean ====
section
/-! DEFINITION. Dispatch of mast, spar and move commands: checks, predicates, admission, residence, drafts, and the start of
what they run (R73 to R84, R241, R309 to R326, R366 to R371, R411 to R428, R548 to R551). -/
namespace Sys2Proof.Machine

/-! ## Routes and collectives that commands are bound to (R545, R548 to R551, R553) -/

/-- The port of the routing entry for a node: none where the entry is invalid. -/
def Mach.route (m : Mach) (node : Nat) : Option Nat :=
  let e := (Tab.get 0 m.shr.routes node).toNat
  if bitAt e 7 then some (e % 16) else none
def Mach.port (m : Mach) (p : Nat) : Port := Tab.get {} m.shr.ports p

/-- A node can be reached: it is this module, or its route names a port that is `up` (R545). -/
def Mach.reachable (m : Mach) (node : Nat) : Bool :=
  node == m.shr.node.toNat || (match m.route node with | some p => (m.port p).st == .up | none => false)

/-- The participants, this module's rank, the budget and the queue of a registered collective: its record, its peer list, and
behind them the number of its queue. -/
def collPeers (b : List Byte) : List (Nat × Nat) :=
  (List.range (fld b 0x0A 2)).map fun i => (fld b (128 + 4 * i) 2, fld b (130 + 4 * i) 2 % 4096)
def collQueue (b : List Byte) : Nat := fld b (128 + 4 * fld b 0x0A 2) 1

/-- What a command that names a collective is bound to: participants, rank and budget. -/
abbrev Bound := List (Nat × Nat) × Nat × Nat
def Mach.bindColl (m : Mach) (x : Cmd) (anchored : Bool) : Try Bound :=
  if x.coll = 0 then (.ok ([], 0, 0), m) else
    match (m.cx x.ctx).colls.find? (fun r => r.1 == x.coll && collQueue r.2.1 == x.q) with
    | none => (.error .badParam, m)
    | some (_, b, aborted) =>
      let peers := collPeers b
      if aborted then (.error .aborted, m)
      else if !anchored then (.error .badImage, m)
      else if !(peers.all fun p => m.reachable p.1) then (.error .linkDown, m)
      else (.ok (peers, fld b 0x0C 2, fld b 0x14 4), m)

/-! ## Descriptors of moves (R341, R353, R365 to R369) -/

/-- Every handle names a descriptor of the context that new dispatches may name. -/
def Mach.allLive (m : Mach) (ctx : Nat) (l : List Nat) : Bool := l.all fun h => (m.descOf ctx h).isSome

/-- The rules of R366 and R368 for a source and a destination; only attached moves may touch scratchpads (R369). -/
def Mach.shapeOk (m : Mach) (ctx : Nat) (attached : Bool) (mv : Nat × Nat) : Bool :=
  match m.descOf ctx mv.1, m.descOf ctx mv.2 with
  | some s, some d =>
    let dl := ((m.localDesc ctx mv.2).getD d)
    let es := m.elemCount ctx s
    let ed := match d.grid with | some (_, _, dims) => prodNat (dims.map (·.extent)) | none => m.elemCount ctx d
    let half := fun (g w : Desc) (eg ew : Nat) => g.fmt == 7 && decide (g.turn < 3) && w.fmt == 7 && ew * (8 / 2 ^ g.turn) == eg
    let sizes := if s.view = 1 ∧ dl.view = 0 ∧ s.fmt = 7 ∧ s.turn < 3 then half s dl es ed
      else if s.view = 0 ∧ dl.view = 1 ∧ dl.fmt = 7 ∧ dl.turn < 3 then half dl s ed es
      else es == ed && elemBytes s.fmt == elemBytes dl.fmt
    s.grid.isNone && s.use == 1 && (d.use == 2 || d.use == 3) && sizes && (s.view == 0 || dl.view == 0 || s.turn == dl.turn)
      && (attached || (s.space == 0 && dl.space == 0)) && (d.grid.isNone || dl.space == 0)
      && !(s.space == 1 && dl.space == 0 && !dl.perCore && d.use != 3)
  | _, _ => false

/-- A distributed destination: another module owns some of its elements. -/
def Mach.ownersOf (m : Mach) (ctx h : Nat) : Try (List Nat) :=
  match m.descOf ctx h with
  | some d =>
    match d.grid with
    | none => (.ok [], m)
    | some (ext, va, _) =>
      match m.ownerTable ctx va (prodNat ext) with
      | (none, m) => (.error .badParam, m)
      | (some none, m) => (.error .poisoned, m)
      | (some (some l), m) => (.ok l, m)
  | none => (.error .staleDesc, m)

/-- The owner tables of a command's distributed destinations: every remote owner must be a participant of the collective that the command
is bound to (R365, R548; log entry 73). -/
def Mach.owners (m : Mach) (x : Cmd) (b : Bound) : List Nat → Try (List (Nat × List Nat))
  | [] => (.ok [], m)
  | h :: r =>
    (m.owners x b r).andThen fun rest m =>
    if !((m.descOf x.ctx h).any fun d => d.grid.isSome) then (.ok rest, m) else
      (m.ownersOf x.ctx h).andThen fun l m =>
      (m.need (l.all fun n => n == m.shr.node.toNat || (x.coll != 0 && b.1.any fun p => p.1 == n)) .notAnchored).andThen fun _ m => (.ok ((h, l) :: rest), m)

/-! ## Predicates (R80 to R84, R438) -/

/-- The predicate read once, by a volatile read; a re-run keeps its first result. A read that faults refuses. -/
def Mach.predicate (m : Mach) (x : Cmd) (va op : Nat) (v : Word) : Try Bool :=
  match x.pred with
  | some b => (.ok b, m)
  | none =>
    if va = 0 then (.ok true, m) else
      match m.flagAddr x.ctx va with
      | none => (.error .predFault, m)
      | some a =>
        let (f, m) := m.firmwareFlag x.ctx a
        if f.poison then (.error .predFault, m) else (.ok ((flagCompare op f.val v).getD true), m)

/-! ## Which commands may be dispatched -/

/-- Dispatch from a queue: its context is enabled and the queue runs; a re-run goes on in a drain and in a stopped queue
(R402, R406, R424, R434, R437). -/
def Mach.mayDispatch (m : Mach) (x : Cmd) : Bool :=
  let c := m.cx x.ctx
  (if x.again then c.st == .enabled || c.st == .draining else c.st == .enabled && (c.q x.q).stopped.isNone)
    && decide (m.holding < maxInFlight)

/-- Fields of the entry of a command. -/
def Cmd.fld (x : Cmd) (o n : Nat) : Nat := Sys2Proof.Machine.fld x.entry o n

/-- The first command of a kind in a queue that waits to be dispatched. -/
def Mach.firstQueued (m : Mach) (ctx q : Nat) (k : Kind) : Option Cmd := (m.queueCmds ctx q).find? fun x => x.kind == k && x.phase == .queued

/-! ## Admission (R418 to R421) -/

/-- The cost in µs of an LC mast command on a cluster whose clock is `f` MHz, and of a spar command on a stack with a pool of
quota tokens (R419). -/
def mastCost (i : Img) (f : Nat) : Nat := ceilDiv (i.wcet * 1000 + i.stallNs * f) (f * 1000)
def sparCost (i : Img) (pool : Nat) : Nat := ceilDiv (i.wcet * 1024) (pool * 1000)

/-- Reserve of a context that is not claimed on a cluster or a stack in the current window. -/
def Mach.leftC (m : Mach) (ctx c : Nat) : Nat := (m.cx ctx).reserve - Tab.get 0 (m.cl c).admittedUs ctx
def Mach.leftS (m : Mach) (ctx k : Nat) : Nat := (m.cx ctx).reserve - Tab.get 0 (m.st k).admittedUs ctx

/-! ## Residence (R411 to R416) -/

/-- A context has a command in flight on a cluster. -/
def Mach.busyOn (m : Mach) (ctx c : Nat) : Bool := m.cmds.any fun x => x.ctx == ctx && x.inFlight && (x.clusters.contains c || x.more.any fun p => p.1 == c)

/-- A command that runs on clusters is held at dispatch behind a Hyval WAIT: it counts where its context is resident (R414). -/
def Mach.behindWait (m : Mach) (x : Cmd) : Bool :=
  (x.kind == .mast || x.kind == .move) && x.phase == .queued && (m.earlier x).any fun e => e.kind == .wait && e.phase == .waitHeld

/-- A slot is idle: a context holds it that has nothing in flight there. -/
def Mach.slotIdle (m : Mach) (c i : Nat) : Bool :=
  let s := (m.cl c).slot i
  s.st == 0 && s.ctx.any fun y => !m.busyOn y c && !m.cmds.any fun x => x.ctx == y && m.behindWait x

/-- The slot with the oldest last-issue time of a list. -/
def oldestSlot (cl : Cluster) (l : List Nat) : Option Nat :=
  l.foldl (fun (b : Option Nat) i => match b with | none => some i | some j => if (cl.slot i).lastUs < (cl.slot j).lastUs then some i else some j) none

/-- The slot that a context may take on a cluster: a free one, else the idle one longest without an issue (R415). -/
def Mach.openSlot (m : Mach) (c : Nat) : Option Nat :=
  match (List.range 8).find? (fun i => (m.cl c).slot i == {}) with
  | some i => some i
  | none => oldestSlot (m.cl c) ((List.range 8).filter (m.slotIdle c))

/-- The context is resident, or on its way into a slot. -/
def Cluster.holds (cl : Cluster) (ctx : Nat) : Bool :=
  (List.range 8).any fun i => ((cl.slot i).ctx == some ctx && (cl.slot i).st != 5) || (cl.slot i).incoming == some ctx

/-- Residence of a context on a cluster: held, or a swap into an open slot begins. -/
def Mach.reside (m : Mach) (ctx c : Nat) : Mach :=
  if (m.cl c).holds ctx then m else
    match m.openSlot c with
    | none => m
    | some i => m.modCl c fun k =>
      let old := (k.slot i).ctx
      { k.modSlot i (fun s => { s with st := 4, ctx := none, incoming := some ctx }) with swaps := satAdd 32 k.swaps (b2n old.isSome) }

/-- The context may have residence on the cluster. -/
def Mach.canReside (m : Mach) (ctx c : Nat) : Bool := (m.cl c).holds ctx || (m.openSlot c).isSome

/-! ## Placement on clusters (R411, R422, R423) -/

/-- The class of the command of a sequence number; none runs: as LC, which nothing displaces. -/
def Mach.clsOf (m : Mach) (seq : Option Nat) : Nat := ((seq.bind m.cmdOf).map (·.cls)).getD 0

/-- A cluster with nothing bound to it; one that an LC command may take from BE commands: not from a next command that is anchored and
has begun on another cluster, which keeps its place (R440). -/
def Cluster.vacant (cl : Cluster) : Bool := cl.cmd.isNone && cl.next.isNone
def Mach.preemptible (m : Mach) (c : Nat) : Bool :=
  let cl := m.cl c
  (cl.next.isSome && m.clsOf cl.next == 1 && !(cl.next.bind m.cmdOf).any m.anchoredNow) || (cl.next.isNone && cl.cmd.isSome && m.clsOf cl.cmd == 1)

/-- A cluster whose next command is still open: none is bound, and the command that runs has no further launch there. -/
def Mach.nextOpen (m : Mach) (c : Nat) : Bool :=
  (m.cl c).next.isNone && !((m.cl c).cmd.bind m.cmdOf).any fun x => x.more.any fun p => p.1 == c

/-- The commands of class BE that an LC command displaces on a cluster: the running one and the next. -/
def Mach.displaced (m : Mach) (c : Nat) : List Cmd :=
  ([(m.cl c).cmd, (m.cl c).next].filterMap fun o => o.bind m.cmdOf).filter fun x => x.cls == 1

/-- `n` entries of a list at free choices. -/
def Mach.pickMany {α : Type} [DecidableEq α] (m : Mach) : Nat → List α → List α × Mach
  | 0, _ => ([], m)
  | n + 1, l =>
    match m.pick l with
    | (some a, m) => let (r, m) := m.pickMany n (l.erase a); (a :: r, m)
    | (none, m) => ([], m)

/-- `n` clusters of a list of candidates: vacant ones first; for an LC command then those of BE commands, unheld ones before
held ones; then those whose next command is open. Fewer than `n`: none. -/
def Mach.chooseClusters (m : Mach) (cls n : Nat) (cands : List Nat) : Option (List Nat) × Mach :=
  let free := cands.filter fun c => (m.cl c).vacant
  let be := if cls = 0 then cands.filter fun c => !(m.cl c).vacant && m.preemptible c else []
  let held := fun (c : Nat) => (m.displaced c).any m.anchoredNow
  let open_ := cands.filter fun c => !(m.cl c).vacant && !be.contains c && m.nextOpen c
  let groups := [free, be.filter fun c => !held c, be.filter held, open_]
  let (l, m) := groups.foldl (fun (acc : List Nat × Mach) g =>
    let (r, m) := acc.2.pickMany (n - acc.1.length) g
    (acc.1 ++ r, m)) ([], m)
  (if l.length = n then some l else none, m)

/-- The next command of a cluster gives up its place: its bank returns to `ready`, also where the
boundary has made it `active` already, its binding for reuse ends, its load is aborted (R68). -/
def Cluster.unbind (cl : Cluster) : Cluster :=
  if cl.next.isNone then cl else
    let back := cl.codeBound == some true
    let f := fun (b : Imem) =>
      if b.st = .armed ∨ (back = true ∧ b.st = .active) then { b with st := .ready } else if b.st = .loading then ({} : Imem) else b
    { cl with next := none, reuse := false, codeBound := none, imemA := f cl.imemA, imemB := f cl.imemB }

/-- A cluster bound to a dispatched command, whose BE commands make way where an LC command takes it; idle time before it goes
to the overhead account (R423, R676, R677). -/
def Mach.bindCluster (m : Mach) (x : Cmd) (c : Nat) : Mach :=
  let m := (if x.cls = 0 ∧ m.preemptible c = true then m.displaced c else []).foldl (fun (m : Mach) y => m.kill m.cmds.length y .preempt) m
  let m := m.reside x.ctx c
  let m := if (m.cl c).vacant then
      (m.chargeOverhead { occupancy := m.now - (m.cl c).boundAt }).modCl c fun k => { k with boundAt := m.now } else m
  (m.modCl c fun k => { k.unbind with next := some x.seq, runState := if k.runState = 0 then 1 else k.runState }).bindImem c

/-! ## Drafts (R240, R241, R359, R385, R425 to R428) -/

/-- A page to be drafted: its key and number, the frame it lies in, whether the draft starts as a copy, its overlap bit. -/
structure Want where
  key : Nat
  page : Nat
  frame : Nat
  copy : Bool
  overlap : Bool
  deriving DecidableEq, Repr

/-- One more want: a page is drafted once. It starts as a copy for a read-modify-write output, as a blank page for a write
output that covers it whole, and otherwise as a copy (R385, R425). -/
def addWant (l : List (Want × Nat)) (w : Want) (rank : Nat) : List (Want × Nat) :=
  if l.any (fun x => x.1.key == w.key && x.1.page == w.page) then
    l.map fun x => if x.1.key == w.key && x.1.page == w.page then
      (if x.2 < rank then ({ w with overlap := w.overlap || x.1.overlap }, rank) else ({ x.1 with overlap := w.overlap || x.1.overlap }, x.2)) else x
  else l ++ [(w, rank)]

/-- The pages of an output of a mode (2 write, 3 read-modify-write). -/
def Mach.wantsOf (m : Mach) (ctx h mode : Nat) (overlap : Bool) : List (Want × Nat) :=
  match m.localDesc ctx h with
  | none => []
  | some d => if d.space = 1 then [] else
    match (m.cx ctx).alloc d.alloc with
    | none => []
    | some a => (d.touched a).filterMap fun t => (a.page t.1).map fun f =>
        if mode = 3 then (⟨d.alloc, t.1, f, true, overlap⟩, 2) else if t.2 then (⟨d.alloc, t.1, f, false, overlap⟩, 1) else (⟨d.alloc, t.1, f, true, overlap⟩, 0)

/-- The pages that a mast or move command drafts. -/
def Mach.wants (m : Mach) (x : Cmd) : List Want :=
  let all := (x.img.io.filter (·.mode != 1)).flatMap (fun i => m.wantsOf x.ctx i.desc i.mode i.overlap)
    ++ (x.moves.map (·.2) ++ (if x.dstH = 0 then [] else [x.dstH])).flatMap fun h => m.wantsOf x.ctx h 3 false
  (all.foldl (fun l w => addWant l w.1 w.2) []).map (·.1)

/-- Drafts for all pages of a list or for none: the drafts, or the page for which no frame is free. -/
def Mach.takeDrafts (m : Mach) (seq : Nat) (l : List Want) : Except Nat (List Draft × Mach) :=
  l.foldl (fun (acc : Except Nat (List Draft × Mach)) w =>
    match acc with
    | .error f => .error f
    | .ok (d, m) =>
      match m.takeOf (draftPool w.frame) (.draft seq) with
      | some (f, m) => .ok (d ++ [{ alloc := w.key, page := w.page, old := w.frame, new := f, copying := w.copy, overlap := w.overlap }], m)
      | none => .error w.frame) (.ok ([], m))

/-- A context may hold so many frames more (R428). -/
def Ctx.admits (c : Ctx) (n : Nat) : Bool := c.pageLimit == 0 || decide (c.frames + n ≤ c.pageLimit)

/-- Drafts that start as copies hold the old page as it is when they are taken (R399, R425). -/
def Mach.copyDrafts (m : Mach) (l : List Draft) : Mach := l.foldl (fun m d => if d.copying then m.copyFrame d.old d.new else m) m

/-- The drafts of a dispatch: taken, copied and counted to the context, or the command is left waiting for a frame or for
page_limit, since when it has waited being noted (R241, R428). -/
def Mach.draftsFor (m : Mach) (x : Cmd) (seq : Nat) (l : List Want) : Except Mach (List Draft × Mach) :=
  let c := m.cx x.ctx
  if !c.admits l.length then .error (m.modCmd x fun y => y.waitsFor m.now true l.length) else
    match m.takeDrafts seq l with
    | .error f => .error (m.modCmd x fun y => y.waitsFor m.now false f)
    | .ok (d, m) => .ok (d, (m.copyDrafts d).modCx x.ctx fun c => { c with frames := c.frames + d.length })

/-! ## What all dispatches share -/

/-- A skipped command: it commits at its position with nothing but its completion flag (R82, R83). -/
def Mach.skip (m : Mach) (x : Cmd) (dones : List (Nat × Word)) : Mach :=
  { (m.modCmd x fun y => { y with seq := m.nextSeq, phase := .ended, pred := some false, img := {}, moves := [], dstH := 0, srcH := 0, log := [], dones := dones }) with
    nextSeq := m.nextSeq + 1 }

/-- Completion flags as a list: none for address 0. -/
def doneOf (va : Nat) (add : Word) : List (Nat × Word) := if va = 0 then [] else [(va, add)]

/-- What a new dispatch clears of an earlier run of the command (R438). -/
def Cmd.fresh (x : Cmd) (seq : Nat) : Cmd :=
  { x with seq := seq, drafts := [], poisoned := false, cause := none, held := [], boundary := [], captured := false, released := [], spars := [], overdue := [],
           resolved := false, startedAt := 0, meters := {}, wcetReported := false, endSent := false, acks := [], endsIn := [], gather := [], stored := [], collSeen := false,
           waitDraftSince := none, waitLimitSince := none, draftSeen := false, limitSeen := false }

/-- A bound command is dispatched: it sends READY to the other participants, and its collective's budget begins (R549, R554). -/
def Mach.announce (m : Mach) (x : Cmd) : Mach :=
  if (m.cmdOf x.seq).any fun y => y.phase == .killing then m else (m.modCmd x fun y => { y with dispatchAt := m.now }).sendAll x 4

/-- A command dispatched under a new sequence number (R438); one whose drafts are still being copied is announced with the
last copy (R427). -/
def Mach.enter (m : Mach) (x : Cmd) (f : Cmd → Cmd) : Mach :=
  let seq := m.nextSeq
  let m := { m with nextSeq := seq + 1 }
  let m := m.modCmd x fun y => f (y.fresh seq)
  match m.cmdOf seq with
  | some y => let m := m.markReads y seq; if y.phase = .copying then m else m.announce y
  | none => m

/-! ## MAST_DISPATCH (R73 to R84, R411 to R428) -/

/-- What the checks of a mast command leave: the image, its candidate clusters, the moves, and what it is bound to. -/
structure MastPlan where
  img : Img
  cands : List Nat
  moves : List (Nat × Nat)
  owners : List (Nat × List Nat)
  bound : Bound
  deriving DecidableEq, Repr

/-- The loop counts of a command lie within their bounds (R62). -/
def loopsOk (i : Img) : Bool := i.loops.all fun l => !l.1 || decide (fld i.argBytes (8 * l.2.1) 8 ≤ l.2.2)

/-- The descriptors that a mast command names; a table entry must name stack memory (R127). -/
def Img.handles (i : Img) : List Nat := i.io.map (·.desc)

/-- The checks of a mast command, in their order. Where no image has as many candidate clusters as it asks for, the status is BAD_IMAGE
(DESIGN CHOICE, R79, log entry 69). -/
def Mach.checkMast (m : Mach) (x : Cmd) : Try MastPlan :=
  (m.need (decide (x.fld 0x28 1 ≤ 8)) .badParam).andThen fun _ m =>
  (m.readImages x.ctx (x.fld 0x10 8) (x.fld 0x18 8)).andThen fun vs m =>
  (m.readAttach x.ctx (x.fld 0x20 8) (x.fld 0x28 1)).andThen fun moves m =>
  match m.pick (m.workable x.ctx vs) with
  | (none, m) => (.error .badImage, m)
  | (some (i, cands), m) =>
    (m.need (loopsOk i) .loopBound).andThen fun _ m =>
    (m.need (m.allLive x.ctx (i.handles ++ moves.flatMap fun p => [p.1, p.2])) .staleDesc).andThen fun _ m =>
    (m.need (i.io.all fun e => (m.descOf x.ctx e.desc).any fun d => d.space == 0 && d.grid.isNone) .badImage).andThen fun _ m =>
    (m.need (moves.all (m.shapeOk x.ctx true)) .shape).andThen fun _ m =>
    (m.bindColl x i.anchored).andThen fun b m =>
    (m.owners x b (moves.map (·.2))).andThen fun o m => (.ok ⟨i, cands, moves, o, b⟩, m)

/-- The command as its plan describes it, before it is dispatched. -/
def Cmd.planned (x : Cmd) (p : MastPlan) : Cmd :=
  { x with cls := p.img.cls, anchored := p.img.anchored, img := p.img, moves := p.moves, log := p.img.log, dones := doneOf p.img.doneVa p.img.doneAdd,
           budgetUs := p.img.budgetUs, reads := p.img.handles ++ p.moves.flatMap (fun q => [q.1, q.2]), ownersL := p.owners, peers := p.bound.1,
           rank := p.bound.2.1, collUs := p.bound.2.2 }

/-- What a queued command keeps of the plan that its last examination has made, which tells what holds it and what waits for it (R444). -/
def Cmd.examined (x y : Cmd) : Cmd :=
  { x with coll := y.coll, cls := y.cls, img := y.img, moves := y.moves, srcH := y.srcH, dstH := y.dstH, log := y.log, dones := y.dones, reads := y.reads }

/-- Which BE commands go after others, where a command is to be placed (R422, R439). -/
abbrev After := Mach → Cmd → Bool

/-- A mast command whose predicate is true is placed, gets its drafts, and is bound to its clusters; where something is
missing, or a BE command goes after others, it stays queued. -/
def Mach.placeMast (m : Mach) (after : After) (lv : Nat → Nat) (x : Cmd) (p : MastPlan) : Mach :=
  let n := p.img.clusters
  let cost := fun (c : Nat) => mastCost p.img (Config.clockMHz (lv c))
  let lc := p.img.cls == 0
  if lc && !x.costTried && ((m.cx x.ctx).reserve == 0 || decide ((p.cands.filter fun c => decide (cost c ≤ (m.cx x.ctx).reserve)).length < n)) then
    m.refuse x .wcetExceedsReserve
  else
    let m := m.modCmd x fun y => { y with costTried := true }
    if !lc && after m x then m else
    let fit := p.cands.filter fun c => (!lc || decide (cost c ≤ m.leftC x.ctx c)) && m.canReside x.ctx c
    match m.chooseClusters p.img.cls n fit with
    | (none, m) => m
    | (some cs, m) =>
      match m.draftsFor x m.nextSeq (m.wants (x.planned p)) with
      | .error m => m
      | .ok (ds, m) =>
        let placed := cs.zipIdx.map fun e => (e.1, e.2, p.img)
        let seq := m.nextSeq
        let m := m.enter x fun y => { (y.planned p) with
          drafts := ds, placed := placed, phase := if ds.any (·.copying) then .copying else .running, admitted := lc, pred := some true,
          claimUs := if lc then maxNat (cs.map cost) else 0 }
        let m := if lc then cs.foldl (fun (m : Mach) c => m.modCl c fun k => { k with admittedUs := Tab.upd 0 k.admittedUs x.ctx (· + cost c) }) m else m
        match m.cmdOf seq with
        | some y => cs.foldl (fun (m : Mach) c => m.bindCluster y c) m
        | none => m

/-- MAST_DISPATCH: the first mast command of a queue that waits is read, checked, predicated and placed (R73). -/
def Mach.mastDispatch (m : Mach) (after : After) (lv : Nat → Nat) (ctx q : Nat) : Mach :=
  match m.firstQueued ctx q .mast with
  | none => m
  | some x =>
    let x := { x with coll := x.fld 0x2A 2 }
    if !m.mayDispatch x || (m.holder x (m.mastReads x)).isSome then m else
      let m := m.modCmd x fun y => { y with coll := x.coll }
      match m.checkMast x with
      | (.error st, m) => m.refuse x st
      | (.ok p, m) =>
        let y := x.planned p
        let m := m.modCmd x fun z => z.examined y
        if (m.holder y (m.flagSpan x.ctx p.img.predVa)).isSome then m else
          match m.predicate x p.img.predVa p.img.predOp p.img.predVal with
          | (.error st, m) => m.refuse x st
          | (.ok false, m) => m.skip x (doneOf p.img.doneVa p.img.doneAdd)
          | (.ok true, m) => (m.modCmd x fun y => { y with pred := some true }).placeMast after lv { x with pred := some true } p

/-- Firmware dispatches: the module is in `RUN` or `READY` and its processors run. -/
def State.dispatching (s : State) : Bool := (s.aon.mode == .ready || s.aon.mode == .run) && s.m.running

/-- The clock level of a cluster, for the cost of its admission. -/
def State.level (s : State) (c : Nat) : Nat := Tab.get 0 s.pwr.levelC c

/-! ## MOVE_DISPATCH (R365 to R371, R586) -/

/-- A move command as its entry describes it. -/
def Cmd.asMove (x : Cmd) : Cmd :=
  { x with coll := x.fld 0x1A 2, srcH := x.fld 0x10 4, dstH := x.fld 0x14 4, movers := x.fld 0x18 1, cls := x.fld 0x19 1,
           anchored := x.fld 0x1A 2 != 0, reads := [x.fld 0x10 4, x.fld 0x14 4], dones := doneOf (x.fld 0x30 8) (BitVec.ofNat 64 (x.fld 0x38 8)) }

/-- The checks of a move command, in their order. -/
def Mach.checkMove (m : Mach) (x : Cmd) : Try (List (Nat × List Nat) × Bound) :=
  (m.need (decide (1 ≤ x.movers) && decide (x.movers ≤ 8) && decide (x.cls ≤ 1)) .badParam).andThen fun _ m =>
  (m.need (decide (x.fld 0x1C 1 ≤ 5) && !((x.fld 0x20 8 != 0 && m.inGrain x.ctx (x.fld 0x20 8)) ||
      (x.fld 0x30 8 != 0 && m.inGrain x.ctx (x.fld 0x30 8)))) .badImage).andThen fun _ m =>
  (m.need (m.allLive x.ctx [x.srcH, x.dstH]) .staleDesc).andThen fun _ m =>
  (m.need (m.shapeOk x.ctx false (x.srcH, x.dstH)) .shape).andThen fun _ m =>
  (m.bindColl x true).andThen fun b m => (m.owners x b [x.dstH]).andThen fun o m => (.ok (o, b), m)

/-- The clusters on which a move may run now: its context resident, enough channels free (R366, R411). -/
def Mach.moveClusters (m : Mach) (x : Cmd) : List Nat :=
  (List.range 32).filter fun c => m.mayUse x.ctx c && ((m.cl c).slotOf x.ctx).isSome && decide (x.movers ≤ (m.cl c).freeChans.length)

/-- A move whose predicate is true starts on a cluster at a free choice; where its context is resident on none that could
take it, a swap begins, and the move stays queued. -/
def Mach.placeMove (m : Mach) (after : After) (x : Cmd) (owners : List (Nat × List Nat)) (b : Bound) : Mach :=
  if x.cls = 0 ∧ (m.cx x.ctx).reserve = 0 then m.refuse x .wcetExceedsReserve
  else if x.cls = 1 ∧ after m x = true then m else
    match m.pick (m.moveClusters x) with
    | (none, m) =>
      match m.pick ((List.range 32).filter fun c => m.mayUse x.ctx c && !(m.cl c).holds x.ctx && (m.openSlot c).isSome) with
      | (some c, m) => m.reside x.ctx c
      | (none, m) => m
    | (some c, m) =>
      match m.draftsFor x m.nextSeq (m.wants x) with
      | .error m => m
      | .ok (ds, m) =>
        let seq := m.nextSeq
        let y := { x with placed := [(c, 0, {})], ownersL := owners, peers := b.1, rank := b.2.1, collUs := b.2.2, pred := some true, admitted := x.cls == 0,
                          phase := if ds.any (·.copying) then Phase.copying else Phase.running }
        let m := m.enter x fun z => { (y.fresh z.seq) with drafts := ds, preempts := z.preempts, starving := z.starving }
        match m.cmdOf seq, (m.cl c).slotOf x.ctx with
        | some y, some slot => (m.modCmd y fun z => { z with startedAt := m.now }).startMove c slot y y.srcH y.dstH y.movers false
        | _, _ => m

/-- MOVE_DISPATCH: the first move of a queue that waits is checked and started on free channels (R366). -/
def Mach.moveDispatch (m : Mach) (after : After) (ctx q : Nat) : Mach :=
  match m.firstQueued ctx q .move with
  | none => m
  | some x0 =>
    let x := x0.asMove
    let m := m.modCmd x fun y => y.examined x
    if !m.mayDispatch x || (m.holder x (m.moveReads x)).isSome then m else
      match m.checkMove x with
      | (.error st, m) => m.refuse x st
      | (.ok (o, b), m) =>
        match m.predicate x (x.fld 0x20 8) (x.fld 0x1C 1) (BitVec.ofNat 64 (x.fld 0x28 8)) with
        | (.error st, m) => m.refuse x st
        | (.ok false, m) => m.skip x x.dones
        | (.ok true, m) => (m.modCmd x fun y => { y with pred := some true }).placeMove after { x with pred := some true } o b

/-! ## SPAR_DISPATCH (R309 to R326) -/

/-- A binding can be resolved for every core of the set (R313). -/
def Mach.bindingOk (m : Mach) (ctx : Nat) (i : Img) (e : Io) : Bool :=
  match m.descOf ctx e.desc with
  | none => false
  | some d => d.grid.isNone && d.space == 0 && d.view == 1 && (!i.paired || e.side == 2) &&
      match (m.cx ctx).alloc d.alloc with
      | some a => i.coreSet.all fun sc => (sideBanks sc.2 e.side).all fun b => a.banks.contains (sc.1 * 1024 + b)
      | none => false

/-- The checks of a spar command, in their order. -/
def Mach.checkSpar (m : Mach) (x : Cmd) : Try (Img × Bound) :=
  (m.readSpar x.ctx (x.fld 0x10 8) (x.fld 0x18 8)).andThen fun i m =>
  (m.need (m.allLive x.ctx i.handles) .staleDesc).andThen fun _ m =>
  (m.need (i.io.all (m.bindingOk x.ctx i)) .badBinding).andThen fun _ m =>
  (m.bindColl x i.anchored).andThen fun b m => (.ok (i, b), m)

/-- The command as its image describes it. -/
def Cmd.asSpar (x : Cmd) (i : Img) (b : Bound) : Cmd :=
  { x with cls := i.cls, anchored := i.anchored, img := i, argBlk := i.argBytes, log := i.log, dones := doneOf i.doneVa i.doneAdd, budgetUs := i.budgetUs,
           reads := i.handles, peers := b.1, rank := b.2.1, collUs := b.2.2 }

/-- Every core of the set is `idle`, so they all become `bound` in one action (R316, step 2); no other context is granted
their stacks (R668). -/
def Mach.reserveSpar (m : Mach) (after : After) (x : Cmd) (i : Img) (b : Bound) : Mach :=
  let memStacks := setBits 12 i.stackMask
  let c := m.cx x.ctx
  let cost := fun (k : Nat) => sparCost i (m.st k).pool
  let lc := i.cls == 0
  if lc && !x.costTried && !(memStacks.all fun k => c.stackMask.getLsbD k && c.reserve != 0 && decide (cost k ≤ c.reserve)) then m.refuse x .wcetExceedsReserve
  else
    let m := m.modCmd x fun y => { y with costTried := true }
    if (!lc && after m x) || (lc && !(memStacks.all fun k => decide (cost k ≤ m.leftS x.ctx k))) ||
        m.ctr.grants.any (fun g => g.ctx != x.ctx && memStacks.any fun k => bitAt g.memStacks k) ||
        !(i.coreSet.all fun sc => (m.sparCore sc.1 sc.2).st == .idle) then m
    else
      let seq := m.nextSeq
      let m := m.enter x fun y => { (y.asSpar i b) with phase := .copying, pred := some true, admitted := lc, claimUs := if lc then maxNat (memStacks.map cost) else 0 }
      let m := if lc then memStacks.foldl (fun (m : Mach) k => m.modSt k fun s => { s with admittedUs := Tab.upd 0 s.admittedUs x.ctx (· + cost k) }) m else m
      i.coreSet.foldl (fun (m : Mach) sc => m.modSpar sc.1 sc.2 fun k => { k with st := .bound, cmd := seq }) m

/-- Loads of the cores of a bound command that hold other code, one request a stack, where its loader is free (R325). -/
def Mach.sparLoads (m : Mach) (x : Cmd) : Mach :=
  (setBits 12 x.img.stackMask).foldl (fun (m : Mach) k =>
    let need := (x.img.coreSet.filter fun sc => sc.1 == k && (m.sparCore k sc.2).st == .bound && (m.sparCore k sc.2).digest != some x.img.digest).map (·.2)
    if need.isEmpty || (m.st k).loadSet != [] then m else m.sparLoad k need true (x.img.code.length / 8) x.img.codeDpa) m

/-- The pages that the bindings resolve to: core, page as a want, and the mode (R312, R316). A page that the footprint of a write binding
does not cover whole is drafted as a copy (R425). -/
def Mach.bindPages (m : Mach) (x : Cmd) : List ((Nat × Nat) × Want × Nat) :=
  x.img.io.flatMap fun e =>
    match m.bindAlloc x.ctx e with
    | none => []
    | some (h, a) =>
      let covered := ((m.liveDesc x.ctx e.desc).map fun d => (d.touched a).filterMap fun t => if t.2 then some t.1 else none).getD []
      (x.img.bindAt e a).flatMap fun l => l.2.filterMap fun g => (a.page g).map fun f => (l.1, ⟨h, g, f, e.mode == 3 || !covered.contains g, e.overlap⟩, e.mode)

/-- Ownership taken of a page by a core (R317). -/
def Mach.own (m : Mach) (f id : Nat) (exclusive : Bool) : Mach :=
  { m with owned := Tab.upd [] m.owned f (addNew · id), ownedX := if exclusive then Tab.put false m.ownedX f true else m.ownedX }

/-- The cores of a spar image start: the state of R290 on every core, all at pc 0 (R316, step 7). -/
def Mach.startCores (m : Mach) (x : Cmd) : Mach :=
  let set := x.img.coreSet
  set.zipIdx.foldl (fun (m : Mach) e =>
    m.modSpar e.1.1 e.1.2 fun k =>
      let regs : Tab PWord := [(1, e.2), (2, set.length), (3, e.1.1 * 512 + e.1.2)].foldl (fun (t : Tab PWord) r => Tab.put {} t r.1 ⟨BitVec.ofNat 64 r.2, false⟩) []
      { st := .running, cmd := x.seq, k := regs, code := k.code, flips := k.flips, digest := k.digest, dmem := ({} : Ram).write 0 (slice x.argBlk 0 2048) false }) m

/-- A spar command starts on all its cores. -/
def Mach.startSpar (m : Mach) (x : Cmd) : Mach :=
  ((m.startCores x).modCmd x fun y => { y with phase := .running, startedAt := m.now }).announce x

/-- Steps 4 and 5 of R316: every binding keeps the pages that it resolves to now, and its cores own them. -/
def Mach.takePages (m : Mach) (x : Cmd) : Mach :=
  let m := (m.bindPages x).foldl (fun (m : Mach) p =>
    m.own (m.bindFrame x p.2.2 ⟨p.2.1.key, p.2.1.page, p.2.1.frame, true⟩) (ownerId x.seq p.1.1 p.1.2) (p.2.2 != 1)) m
  let rows := m.bindRows x x.img
  m.modCmd x fun y => if x.kind = .serve then { y with spars := y.spars.map fun r =>
      if r.img.coreSet = x.img.coreSet then { r with resolved := true, img := { r.img with rows := rows } } else r }
    else { y with img := { y.img with rows := rows } }

/-- A bound command goes on: its loads, then its bindings with drafts and ownership, then its copies or its start (R316,
steps 3 to 7). -/
def Mach.advanceSpar (m : Mach) (x : Cmd) : Mach :=
  let m := m.sparLoads x
  if !(x.img.coreSet.all fun sc => (m.sparCore sc.1 sc.2).st == .bound && (m.sparCore sc.1 sc.2).digest == some x.img.digest) then m else
    let pages := m.bindPages x
    let wants := ((pages.filter fun p => p.2.2 != 1).foldl (fun l p => addWant l p.2.1 p.2.2) []).map (·.1)
    match m.recallFirst (pages.map fun p => p.2.1.frame) [], m.draftsFor x x.seq wants with
    | some m, _ => m
    | none, .error m => m
    | none, .ok (ds, m) =>
      let y := { x with drafts := ds, resolved := true }
      let m := m.modCmd x fun z => { z with drafts := ds, resolved := true }
      let m := (m.markReads y y.seq).takePages y
      if ds.any (·.copying) then m else m.startSpar y

/-- SPAR_DISPATCH: a bound command of the queue goes on, or the first that waits is checked, predicated and bound (R316). -/
def Mach.sparDispatch (m : Mach) (after : After) (ctx q : Nat) : Mach :=
  match (m.queueCmds ctx q).find? (fun x => x.kind == .spar && x.phase == .copying && !x.resolved) with
  | some x => m.advanceSpar x
  | none =>
    match m.firstQueued ctx q .spar with
    | none => m
    | some x =>
      let x := { x with coll := x.fld 0x2A 2 }
      if !m.mayDispatch x || (m.holder x (m.sparReads x)).isSome then m else
        let m := m.modCmd x fun y => { y with coll := x.coll }
        match m.checkSpar x with
        | (.error st, m) => m.refuse x st
        | (.ok (i, b), m) =>
          let y := x.asSpar i b
          let m := m.modCmd x fun z => z.examined y
          if (m.holder y (m.flagSpan x.ctx i.predVa)).isSome then m else
            match m.predicate x i.predVa i.predOp i.predVal with
            | (.error st, m) => m.refuse x st
            | (.ok false, m) => m.skip x (doneOf i.doneVa i.doneAdd)
            | (.ok true, m) =>
              let m := (m.modCmd x fun y => { y with pred := some true }).reserveSpar after { x with pred := some true } i b
              match (m.queueCmds ctx q).find? (fun z => sameCmd z x && z.phase == .copying) with
              | some z => m.advanceSpar z
              | none => m

/-- SPAR_IMEM_LOAD_DONE: the load ends (R326), and bound commands that waited for the loader make their loads (R325). -/
def execSparImemLoadDone (k : Fin 12) (s : State) : Host.Outcome State Fault Refusal :=
  let m := s.m.sparLoadDone k.val
  .next (s.withMach ((m.cmds.filter fun x => x.kind == .spar && x.phase == .copying && !x.resolved && bitAt x.img.stackMask k.val).foldl (fun (m : Mach) x => m.advanceSpar x) m))

/-- SPAR_CORE_RELEASE: a core releases its pages (R319), and a FREE or UNMAP that waited for them takes effect (R320). -/
def execSparCoreRelease (k : Fin 12) (c : Fin 512) (s : State) : Host.Outcome State Fault Refusal :=
  .next (s.withMach (match s.m.sparCmd k.val c.val with
    | some x => (s.m.sparRelease k.val c.val).settle x.ctx
    | none => s.m))

/-! ## Draft copies and waits of dispatch (R241, R427, R428) -/

/-- DRAFT_COPY_DONE: the copy of a draft ends, on tokens of its stack's pool (R332), counted to its command; with the last copy the
command is dispatched (R427). -/
def Mach.draftCopied (m : Mach) (seq page : Nat) : Mach :=
  match m.cmdOf seq with
  | none => m
  | some x =>
    match x.drafts[page]? with
    | none => m
    | some d =>
      if d.copying = false ∨ x.phase ≠ .copying ∨ m.firmwareTokens d.new = false then m else
        let m := m.count 3 (frameStack d.new) 0x02 64
        let ds := modAt x.drafts page fun d => { d with copying := false }
        let m := m.modCmd x fun y => { y with drafts := ds, meters := { y.meters with spar := y.meters.spar + 64 } }
        if ds.any (·.copying) then m
        else if x.kind = .spar then m.startSpar { x with drafts := ds }
        else ((m.modCmd x fun y => { y with phase := .running }).startEngine { x with drafts := ds, phase := .running }).announce x

def execDraftCopyDone (seq page : Nat) (s : State) : Host.Outcome State Fault Refusal := .next (s.withMach (s.m.draftCopied seq page))

/-- Commands whose dispatch may wait: those of a queue, and the steps of the context's deployments whose launch waits. -/
def Mach.waiters (m : Mach) (ctx q : Nat) : List Cmd :=
  ((m.queueCmds ctx q).filter fun x => x.phase == .queued || x.phase == .copying)
    ++ m.deps.filterMap fun e => e.2.bind fun d => if d.ctx = ctx then d.wait else none

/-- The first of them that has waited 1 ms as one of its counts says, unreported. -/
def Mach.overdueWait (m : Mach) (ctx q : Nat) (since : Cmd → Option Nat) (seen : Cmd → Bool) : Option Cmd :=
  (m.waiters ctx q).find? fun x => !seen x && (since x).any fun t => decide (t + 1000000 ≤ m.now)

/-- A waiter changed. -/
def Mach.modWaiter (m : Mach) (x : Cmd) (f : Cmd → Cmd) : Mach :=
  if x.kind = .serve then { m with deps := m.deps.map fun e => (e.1, e.2.map fun d => { d with wait := d.wait.map fun y => if sameCmd y x then f y else y }) }
  else m.modCmd x f

/-- A command as events name it: its queue and its position. -/
def Cmd.name (x : Cmd) : Word := BitVec.ofNat 64 (x.q * 2 ^ 32 + x.pos)

/-- DRAFT_WAIT_EVENT: stack, colour or bank, and command of a dispatch that has waited 1 ms for a draft frame (R241). -/
def execDraftWaitEvent (ctx : Fin 4096) (q : Fin 16) (s : State) : Host.Outcome State Fault Refusal :=
  .next (match s.m.overdueWait ctx.val q.val (·.waitDraftSince) (·.draftSeen) with
    | none => s
    | some x =>
      let f := x.waitFrame
      s.withMach ((s.m.modWaiter x fun y => { y with draftSeen := true }).post .draftWait (some ctx.val) (uStack (frameStack f))
        [BitVec.ofNat 64 (frameStack f), BitVec.ofNat 64 (if f < 2 ^ 24 then frameColour f else pageBank f % 1024), x.name]))

/-- PAGE_LIMIT_EVENT: context and command of a dispatch that page_limit has held for 1 ms, and holds still (R428). -/
def execPageLimitEvent (ctx : Fin 4096) (q : Fin 16) (s : State) : Host.Outcome State Fault Refusal :=
  .next (match s.m.overdueWait ctx.val q.val (fun x => if (s.m.cx ctx.val).admits x.waitNeed then none else x.waitLimitSince) (·.limitSeen) with
    | none => s
    | some x => s.withMach ((s.m.modWaiter x fun y => { y with limitSeen := true }).post .pageLimit (some ctx.val) uModule
        [BitVec.ofNat 64 ctx.val, x.name]))

end Sys2Proof.Machine
end

