-- ==== Sys2Proof/Machine/Accounting.lean ====
section
/-! DEFINITION. Counters, freezes, grants, samples, accounting meters and records (R661 to R685). -/
namespace Sys2Proof.Machine

/-! ## Freezes (R658, R665 to R667) -/

/-- The recorder's counts as a latch takes them: produced, overwritten, dropped for want of room, dropped by rate, stored (R658). -/
def Evr.counts (r : Evr) : List Nat := [r.produced, r.overwritten, r.droppedFull, r.droppedRate, r.held.length]

/-- The five counts latched in one instant; a suspended recorder keeps its last ones (R643, R658). -/
def Evr.latch (r : Evr) : Evr := if r.suspended then r else { r with latched := r.counts }

/-- Frames by use: mapped, drafts (those of a committed serve step that no published generation maps yet among them), in
transit; every other frame of a stack in service is free, but one whose count is lost (R242, R495, R643, R685). -/
def Mach.framesWhere (m : Mach) (p : Nat × FrameUse → Bool) : Nat := (m.frames.filter fun e => p e && m.stackOk (frameStack e.1)).length
def Mach.frameMapped (m : Mach) (e : Nat × FrameUse) : Bool :=
  match e.2 with
  | .ctx _ => true
  | .kv _ => Tab.get 0 m.refs e.1 != 0
  | _ => false
def Mach.frameDrafted (m : Mach) (e : Nat × FrameUse) : Bool :=
  match e.2 with
  | .draft _ => true
  | .kv _ => Tab.get 0 m.refs e.1 == 0
  | _ => false
def Mach.totalFrames (m : Mach) : Nat := ((List.range 12).filter m.stackOk).length * 2 ^ 20

/-- The word frames of the Hyval rings: for each queue of a context four of its submission ring and two of its completion ring (R576, log
entry 39). -/
def Mach.ringFrames (m : Mach) : Nat := sumNat (m.ctxs.map fun e => if e.2.st = .absent then 0 else 6 * e.2.queues)

/-- Host-tier pages that hold data, and all of them. -/
def Mach.tierHeld (m : Mach) : Nat := sumNat (m.deps.map fun e => match e.2 with | some d => (d.tierUsed.filter fun t => t.2.isSome).length | none => 0)
def Mach.tierTotal (m : Mach) : Nat := sumNat (m.deps.map fun e => match e.2 with | some d => d.tierPages | none => 0)

/-- CTR_FREEZE: writing 1 launches a freeze token unless one is under way (R665, R667). -/
def Mach.ctrFreeze (m : Mach) : Mach :=
  if m.ctr.done then { m with ctr := { m.ctr with done := false, freezes := satAdd 32 m.ctr.freezes 1, freezeTime := m.now } } else m

def execCtrFreeze (s : State) : Host.Outcome State Fault Refusal := .next (if s.servedFullWrite = true then s.withMach s.m.ctrFreeze else s)

/-- FREEZE_DONE: every unit has copied its counters; the recorder's counts and the frame counts are latched (R665, R666). -/
def Mach.freezeDone (m : Mach) : Mach :=
  let mapped := m.framesWhere m.frameMapped + m.ringFrames
  let drafts := m.framesWhere m.frameDrafted
  let transit := m.framesWhere (·.2 == .transit)
  let free := m.totalFrames - mapped - drafts - transit - m.framesWhere (·.2 == .lost)
  { m with ctr := { m.ctr with done := true, snap := m.ctr.live, framesA := packWord [(32, free % 2 ^ 32), (0, mapped % 2 ^ 32)],
                                framesB := packWord [(32, drafts % 2 ^ 32), (0, transit % 2 ^ 32)],
                                hostTier := packWord [(32, m.tierHeld % 2 ^ 32), (0, (m.tierTotal - m.tierHeld) % 2 ^ 32)] },
           evr := m.evr.latch }

def execFreezeDone (s : State) : Host.Outcome State Fault Refusal := .next (if s.m.ctr.done = false then s.withMach s.m.freezeDone else s)

/-! ## Reading by a context (R662, R671) -/

/-- The events that user code may read. -/
def userEvent (cls ev : Nat) : Bool :=
  match cls with
  | 1 => decide (ev ≤ 5) || (decide (0x10 ≤ ev) && decide (ev ≤ 0x13)) || (decide (0x20 ≤ ev) && decide (ev ≤ 0x25)) || ev == 0x30 || ev == 0x31 || ev == 0x40
  | 2 => decide (ev ≤ 2)
  | 3 => ev == 2 || ev == 7
  | _ => false

/-- A unit lies within a grant. -/
def Grant.covers (g : Grant) (cls unit : Nat) : Bool :=
  if cls = 1 then bitAt g.clusters unit else if cls = 2 then bitAt g.clusters (unit / 8) else cls == 3 && bitAt g.memStacks unit

/-- Class, unit and event of a counter identifier. -/
def ctrId (v : Nat) : Nat × Nat × Nat := (bits v 19 16, bits v 15 8, bits v 7 0)

/-- A context may read a counter (R671). -/
def Mach.mayRead (m : Mach) (ctx id : Nat) : Bool :=
  let (c, u, e) := ctrId id
  userEvent c e && m.ctr.grants.any fun g => g.ctx == ctx && g.complete && g.covers c u

/-- The live value of a counter. -/
def Mach.liveOf (m : Mach) (id : Nat) : Nat := let (c, u, e) := ctrId id; Tab.get 0 m.ctr.live (ctrKey c u e)

/-- What the companion side is answered. -/
def Mach.reply (m : Mach) (r : Reply) : Mach := { m with dmg := { m.dmg with replies := [(4096, r)] } }

/-- CTR_USER_VALUE_READ: the selected counter, or 0 with `denied` set (R671). -/
def Mach.userRead (m : Mach) (ctx : Nat) : Mach :=
  let u := (m.cx ctx).user
  if m.mayRead ctx u.sel.toNat then m.reply (.value (BitVec.ofNat 64 (m.liveOf u.sel.toNat)))
  else (m.modCx ctx fun c => { c with user := { c.user with denied := true } }).reply (.value 0)

def execCtrUserValueRead (ctx : Fin 4096) (s : State) : Host.Outcome State Fault Refusal :=
  .next (if s.servedFull = true ∧ (s.m.cx ctx.val).st ≠ .absent then s.withMach (s.m.userRead ctx.val) else s)

/-! ## Rings in a context's memory (R470, R675) -/

/-- Producer and consumer index of a ring; none where they do not translate or read as poison. -/
def Mach.ringIndex (m : Mach) (ctx base : Nat) : Option (Nat × Nat) × Mach :=
  match m.fetchVa ctx base 16 with
  | (some (b, false), m) => (some (fld b 0 8, fld b 8 8), m)
  | (_, m) => (none, m)

/-- Room of a ring in entries. -/
def ringRoom (entries : Nat) (x : Nat × Nat) : Nat := entries - (x.1 + 2 ^ 64 - x.2) % 2 ^ 64

/-- Entries of 32 B written behind the producer index, which then advances. -/
def Mach.ringWrite (m : Mach) (ctx base entries prod : Nat) (recs : List (List Byte)) : Mach :=
  (recs.zipIdx.foldl (fun (m : Mach) e => m.storeVa ctx (base + 64 + (prod + e.2) % entries * 32) e.1) m).storeVa ctx base (leBytes 8 (prod + recs.length))

/-! ## Samples (R673 to R675) -/

/-- The unit that a sample names: the cluster of the counter, or the spar core that the row gives, of the counter's stack (R674). -/
def sampleUnit (id unit : Nat) : Option Nat :=
  match ctrId id with
  | (1, u, _) => some u
  | (2, u, _) => some (u / 8)
  | (3, u, _) => if unit / 512 = u then some unit else none
  | _ => none

/-- SAMPLE_RECORD: the counter of a sampling slot has reached a multiple of its period since its last sample, or since the slot was
written; the record is posted, or dropped where the ring is full. -/
def Mach.sample (m : Mach) (ctx slot at_ unit : Nat) : Mach :=
  let w := (Tab.get 0x400 (m.cx ctx).user.samples slot).toNat
  let id := bits w 59 40
  let period := bits w 39 0
  let v := m.liveOf id
  match m.ctr.grants.find? (fun g => g.ctx == ctx && g.complete && g.ring != 0), sampleUnit id unit with
  | some g, some unit =>
    if bitAt w 63 = false ∨ period < 1024 ∨ m.mayRead ctx id = false ∨ v / period ≤ Tab.get 0 (m.cx ctx).user.sampled slot then m else
      let m := m.modCx ctx fun c => { c with user := { c.user with sampled := Tab.put 0 c.user.sampled slot (v / period) } }
      let seq := if (ctrId id).1 = 3 then ((m.sparCmd (unit / 512) (unit % 512)).map (·.seq)).getD 0 else ((m.cl unit).cmd).getD 0
      let rec_ := leBytes 4 id ++ leBytes 4 seq ++ leBytes 8 v ++ leBytes 8 m.now ++ leBytes 4 at_ ++ leBytes 2 unit ++ leBytes 1 slot ++ leBytes 1 0
      match m.ringIndex ctx g.ring with
      | (some x, m) =>
        if 0 < ringRoom g.entries x then m.ringWrite ctx g.ring g.entries x.1 [rec_]
        else m.modCx ctx fun c => { c with user := { c.user with drops := satAdd 16 c.user.drops 1 } }
      | (none, m) => m.modCx ctx fun c => { c with user := { c.user with drops := satAdd 16 c.user.drops 1 } }
  | _, _ => m

def execSampleRecord (ctx : Fin 4096) (slot : Fin 4) (where_ unit : Nat) (s : State) : Host.Outcome State Fault Refusal :=
  .next (s.firmware (s.m.sample ctx.val slot.val where_ unit))

/-! ## Grants (R668 to R670) -/

/-- Some other enabled context with an LC reserve has one of the named units in its masks. -/
def Mach.lcConflict (m : Mach) (ctx clusters memStacks : Nat) : Bool :=
  m.ctxs.any fun e => e.1 != ctx && e.2.st == .enabled && e.2.reserve != 0 &&
    ((e.2.clusterMask.toNat &&& clusters) != 0 || (e.2.stackMask.toNat &&& memStacks) != 0)

/-- The same condition for a context that is to be enabled (R670). -/
def Mach.grantedAgainst (m : Mach) (ctx : Nat) : Bool :=
  let c := m.cx ctx
  c.reserve != 0 && m.ctr.grants.any fun g => g.ctx != ctx && ((c.clusterMask.toNat &&& g.clusters) != 0 || (c.stackMask.toNat &&& g.memStacks) != 0)

/-- Grants of a context end; one that has not completed completes with GRANT_NONE (log entry 31). -/
def Mach.endGrants (m : Mach) (ctx : Nat) : Mach :=
  let mine := m.ctr.grants.filter fun g => g.ctx == ctx && !g.complete
  let m := { m with ctr := { m.ctr with grants := dropWhere (fun g => g.ctx == ctx) m.ctr.grants } }
  mine.foldl (fun (m : Mach) g => m.postOutcome g.tag 0x10 .grantNone 0) m

/-- Ranges of the arguments of GRANT_COUNTERS. -/
def grantOk (b : List Byte) : Bool :=
  let e := fld b 0x18 4
  decide (fld b 0 2 < 4096) && decide (fld b 2 1 ≤ 1) && zeros b 3 1 && decide (fld b 8 2 < 4096) && zeros b 0x0A 6 && zeros b 0x1C 20
    && (if fld b 0x10 8 = 0 then e == 0 else decide (256 ≤ e) && decide (e ≤ 65536) && popcount 32 e == 1)

/-- GRANT_COUNTERS with action 0. -/
def Mach.grant (m : Mach) (a : Admin) : Mach :=
  let b := a.args
  let ctx := fld b 0 2
  let cl := fld b 4 4
  let st := fld b 8 2
  if !grantOk b then m.answer a .badParam 0
  else if (m.cx ctx).st = .absent then m.answer a .ctxState 0
  else if m.ctr.grants.any (fun g => g.ctx != ctx && ((g.clusters &&& cl) != 0 || (g.memStacks &&& st) != 0)) then m.answer a .grantConflict 0
  else if m.lcConflict ctx cl st then m.answer a .grantLcConflict 0
  else if m.hyv.pendFull then m.answer a .busy 0
  else
    ({ m with ctr := { m.ctr with grants := m.ctr.grants ++ [(⟨ctx, cl, st, fld b 0x10 8, fld b 0x18 4, false, a.tag⟩ : Grant)] } }).answer a .pending 0

def execGrantCounters (s : State) : Host.Outcome State Fault Refusal :=
  .next (adminRow s 0x10 (fun a => fld a.args 2 1 != 1) fun a s => s.withMach (s.m.grant a))

/-- GRANT_COUNTERS with action 1: the context's grants end (R670). -/
def execGrantRevoke (s : State) : Host.Outcome State Fault Refusal :=
  .next (adminRow s 0x10 (fun a => fld a.args 2 1 == 1) fun a s =>
    let ctx := fld a.args 0 2
    if !grantOk a.args then s.answer a .badParam 0
    else if (s.m.cx ctx).st = .absent then s.answer a .ctxState 0
    else if !(s.m.ctr.grants.any fun g => g.ctx == ctx) then s.answer a .grantNone 0
    else (s.withMach (s.m.endGrants ctx)).answer a .ok 0)

/-- Contexts that hold a slot of a granted cluster beside the one granted. -/
def Mach.othersOn (m : Mach) (g : Grant) (c : Nat) : List Nat :=
  (List.range 8).filter fun i => let s := (m.cl c).slot i; s != {} && s.ctx != some g.ctx && s.incoming != some g.ctx

/-- GRANT_COMPLETE: idle contexts leave the granted clusters; when every other context has left, and no spar command of
another context runs on the granted stacks, the grant completes (R668). -/
def Mach.grantStep (m : Mach) (g : Grant) : Mach :=
  let m := (setBits 32 g.clusters).foldl (fun (m : Mach) c =>
    (m.othersOn g c).foldl (fun (m : Mach) i => if m.slotIdle c i then m.modCl c fun k => { k.modSlot i (fun _ => {}) with swaps := satAdd 32 k.swaps 1 } else m) m) m
  let clear := (setBits 32 g.clusters).all (fun c => (m.othersOn g c).isEmpty)
    && !m.cmds.any fun x => (x.kind == .spar || x.kind == .serve) && x.inFlight && x.ctx != g.ctx
      && ((x.img.stackMask &&& g.memStacks) != 0 || x.spars.any fun r => (r.img.stackMask &&& g.memStacks) != 0)
  if clear then
    ({ m with ctr := { m.ctr with grants := m.ctr.grants.map fun y => if y == g then { y with complete := true } else y } }).postOutcome g.tag 0x10 .ok 0
  else m

def execGrantComplete (ctx : Fin 4096) (s : State) : Host.Outcome State Fault Refusal :=
  .next (match s.m.ctr.grants.find? (fun g => g.ctx == ctx.val && !g.complete) with
    | some g => if s.dispatching = true then s.withMach (s.m.grantStep g) else s
    | none => s)

/-! ## Frame-milliseconds (R676) -/

/-- The frames that a context holds mapped: those of mapped allocations, each once; those of its KV regions; its drafts; and the
table pages of its regions with one frame of generation records each (R496; log entry 32). -/
def Mach.heldFrames (m : Mach) (ctx : Nat) : Nat :=
  let c := m.cx ctx
  let maps := c.maps.flatMap fun r => match c.alloc r.alloc with
    | some a => (a.pages.drop r.page).take r.pages
    | none => []
  let kv := m.deps.flatMap fun e => match e.2 with
    | some d => if d.ctx = ctx then d.reqs.flatMap (fun r => match r.2 with | some q => (q.kv.filter fun p => p.2.1 == 1 || p.2.1 == 2).map (·.2.2) | none => []) else []
    | none => []
  let tables := sumNat (m.deps.map fun e => match e.2 with
    | some d => if d.ctx = ctx then (d.reqs.filter fun r => r.2.any fun q => !q.kv.isEmpty).length * (ceilDiv d.regionPages 8192 + 1) else 0
    | none => 0)
  ((maps ++ kv).foldl addNew ([] : List Nat)).length + sumNat ((m.cmds.filter fun x => x.ctx == ctx).map (·.drafts.length)) + tables

/-- FRAME_MS_TICK: at a multiple of 1 ms of module time, every context is charged the frames that it holds, and the overhead account those of
the Hyval rings (R677). -/
def Mach.frameMs (m : Mach) : Mach :=
  let m := ({ m with now := (m.now / 1000000 + 1) * 1000000 } : Mach).chargeOverhead { frameMs := m.ringFrames }
  (m.ctxs.filter fun e => e.2.st != .absent).foldl (fun (m : Mach) e => m.chargeCtx e.1 { frameMs := m.heldFrames e.1 }) m

def execFrameMsTick (s : State) : Host.Outcome State Fault Refusal :=
  .next (if s.aon.mode.powered = true then s.withMach s.m.frameMs else s)

/-! ## Accounting records (R680 to R684) -/

/-- A record's bytes. -/
def acctRecord (kind susp ctx session seq start stop : Nat) (x : Meters) : List Byte :=
  leBytes 4 0x4C504143 ++ leBytes 2 1 ++ leBytes 1 kind ++ leBytes 1 susp ++ leBytes 2 ctx ++ leBytes 2 0 ++ leBytes 4 session ++ leBytes 8 seq
    ++ leBytes 8 start ++ leBytes 8 stop ++ leBytes 8 x.occupancy ++ (List.range 6).flatMap (fun i => leBytes 8 (Tab.get 0 x.macs i)) ++ leBytes 8 x.spar
    ++ (List.range 8).flatMap (fun i => leBytes 8 (Tab.get 0 x.bytes i)) ++ leBytes 8 x.frameMs ++ leBytes 8 x.energy ++ leBytes 8 x.tokens ++ leBytes 8 x.late
    ++ leBytes 56 0

/-- Records written to the ring in companion memory by firmware movers (R568, R680): kind, suspended, ctx, session, start, end,
meters of each. -/
structure Acct where
  kind : Nat
  susp : Nat
  ctx : Nat
  session : Nat
  start : Nat
  stop : Nat
  x : Meters
  deriving DecidableEq, Repr

def Mach.postAcct (m : Mach) (l : List Acct) : Mach :=
  l.foldl (fun (m : Mach) r =>
    let k := m.ctr
    let slot := k.prod % k.ringSize
    { m.writeComp (k.ringBase.toNat * 65536 + slot * 256) (acctRecord r.kind r.susp r.ctx r.session k.seq r.start r.stop r.x) with
      ctr := { k with prod := (k.prod + 1) % 2 ^ 64, seq := k.seq + 1 } }) m

/-- Sizes that the accounting ring may have; with another it takes no record (log entry 42). -/
def ringSizes : List Nat := [256, 512, 1024, 2048, 4096, 8192, 16384, 32768, 65536]

/-- The ring takes `n` more records (R680, R683). -/
def Ctr.room (k : Ctr) (n : Nat) : Bool := k.enable && ringSizes.contains k.ringSize && decide ((k.prod + 2 ^ 64 - k.head) % 2 ^ 64 + n ≤ k.ringSize)

/-- The meter groups suspended in any account, and the counts reported so without a meter of their own (R643, R684). -/
def Mach.suspendedCounts (m : Mach) : BitVec 7 := m.ctxs.foldl (fun a e => a ||| e.2.suspended) (m.ctr.suspended ||| m.ctr.reported)

/-- Close records that wait are posted where there is room. -/
def Mach.postCloses (m : Mach) : Mach :=
  let l := m.ctr.closes
  if l.isEmpty || !m.ctr.room l.length then m else
    let m := m.postAcct (l.map fun r => (⟨1, (m.cx r.1).suspended.toNat, r.1, r.2.1, r.2.2.1, r.2.2.2.1, r.2.2.2.2⟩ : Acct))
    { m with ctr := { m.ctr with closes := [], closedSum := l.foldl (fun (a : Meters) r => a.add r.2.2.2.2) m.ctr.closedSum } }

/-- The session of a context closes: its close record covers it from its last interval end on (R404, R681). -/
def Mach.closeSession (m : Mach) (ctx : Nat) : Mach :=
  let c := m.cx ctx
  let m := { m with ctr := { m.ctr with closes := m.ctr.closes ++ [(ctx, c.session, c.sessionAt, m.now, c.meters)] } }
  (m.modCx ctx fun c => { c with meters := c.meters.kept c.suspended, active := false }).postCloses

/-- The end of an interval: at the next multiple of 1 s of module time after the last one. -/
def Mach.intervalEnd (m : Mach) : Nat := max ((m.ctr.endedAt / 1000000000 + 1) * 1000000000) (ceilDiv m.now 1000000000 * 1000000000)

/-- ACCOUNTING_INTERVAL: interval records, the overhead record and the module total are posted; where there is no room, nothing is,
and the meters run on (R681 to R683). -/
def Mach.interval (m : Mach) : Mach :=
  let stop := m.intervalEnd
  let m := { m with now := stop, ctr := { m.ctr with endedAt := stop } }
  let ctxs := m.ctxs.filter fun e => e.2.active
  if !m.ctr.room (ctxs.length + m.ctr.closes.length + 2) then
    if m.ctr.enable then ({ m with ctr := { m.ctr with fullSeen := true } }).post .acctRingFull none uModule [BitVec.ofNat 64 m.ctr.prod] else m
  else
    let m := m.postCloses
    let susp := m.suspendedCounts
    let sum := ctxs.foldl (fun (a : Meters) e => a.add e.2.meters) (m.ctr.closedSum.add m.ctr.overhead)
    let m := m.postAcct ((ctxs.map fun e => (⟨0, e.2.suspended.toNat, e.1, e.2.session, e.2.sessionAt, stop, e.2.meters⟩ : Acct))
      ++ [⟨2, m.ctr.suspended.toNat, 0xFFFF, 0, m.ctr.intervalAt, stop, m.ctr.overhead⟩, ⟨3, susp.toNat, 0xFFFF, 0, m.ctr.intervalAt, stop, sum⟩])
    let m := ctxs.foldl (fun (m : Mach) e => m.modCx e.1 fun c => { c with meters := c.meters.kept c.suspended, sessionAt := stop, active := c.st == .enabled || c.st == .draining }) m
    { m with ctr := { m.ctr with overhead := m.ctr.overhead.kept m.ctr.suspended, closedSum := {}, intervalAt := stop } }

def execAccountingInterval (s : State) : Host.Outcome State Fault Refusal :=
  .next (if s.aon.mode.powered = true ∧ s.m.running = true then s.withMach s.m.interval else s)

end Sys2Proof.Machine
end

