-- ==== Sys2Proof/Machine/Banks.lean ====
section
/-! DEFINITION. The stack controllers: channel queues, bank arbitration, refresh, sensors, the scraper, and the
correctable-address table (R229, R242, R247 to R260, R332 to R337, R632, R634 to R636). -/
namespace Sys2Proof.Machine

/-! ## Requests (R247 to R250) -/

/-- An LC read: issued on behalf of an LC command by a load slot, an AFU or a mover; every other request is BE (R248). -/
def lcRead (r : MemReq) : Bool := r.lc && r.data.isNone && decide ((Requester.num r.who) ≤ 2)

/-- The bank of a stack that a cell lies in, as die × 64 + bank. -/
def bankKey (cell : Nat) : Nat := bankOfCell cell % 1024

/-- Entries of a class in a channel's queue (R247): the requests of its 32 banks. -/
def Stack.entries (k : Stack) (ch : Nat) (lc : Bool) : Nat :=
  sumNat ((List.range 32).map fun i => ((k.bank (32 * ch + i)).reqs.filter fun q => lcRead q.r == lc).length)

/-- A channel's queue has an entry open to a class: 16 for LC reads, 112 for the others (R247). -/
def Stack.entryOpen (k : Stack) (ch : Nat) (lc : Bool) : Bool := decide (k.entries ch lc < (if lc then 16 else 112))

/-- The paths by which a requester writes stack memory (R375): slots, movers, spar cores and turners write drafts of their command, the
fabric, the companion, firmware and the commit log as those chapters say, and an AFU and a scraper nothing. -/
def Mach.mayWrite (m : Mach) (r : MemReq) : Bool :=
  match r.who with
  | .afu | .scraper => r.data.isNone
  | .mastSlot | .mover | .spar | .turner => r.data.isNone || m.frame (frameOf r.dpa.toNat) == .draft r.seq
  | .damger | .fabric | .firmware | .commitLog => true

/-- The channels of a mover that wait for an entry stall, and run on when it has one (R249, R372). -/
def Mach.stallMover (m : Mach) (r : MemReq) (st : Nat) : Mach :=
  if r.who ≠ .mover then m else
    m.modCl r.unit fun c => { c with chans := c.chans.map fun (e : Nat × Chan) =>
      if e.2.cmd == r.seq && (e.2.st == 1 || e.2.st == 2) then (e.1, { e.2 with st := st }) else e }

/-- A request takes its entry; one to a page that a spar command owns is held there (R247, R250, R318). -/
def Mach.queueRequest (m : Mach) (s cell : Nat) (r : MemReq) : Mach :=
  let m := m.modBank s (bankKey cell) fun x => { x with reqs := x.reqs ++ [⟨r, m.now, false⟩] }
  let m := m.count 3 s (if lcRead r then 0 else 1) 1
  if m.ownedAt r.dpa.toNat then (m.modSt s fun k => { k with holdSeen := true }).count 3 s 5 1 else m

/-- A request takes an entry of its class, or waits at its requester for one (R247, R249); one to an address in neither
view is answered with an address fault (R234). A requester that may not write there makes no such request (R375). -/
def Mach.memoryRequest (m : Mach) (r : MemReq) : Mach :=
  match m.reach (r.dpa.toNat / 8 * 8) with
  | none => if (cellOf (r.dpa.toNat / 8 * 8)).isNone && decide (r.dpa.toNat < 0xF00 * 2 ^ 32) then m.addressFault r else m
  | some cell =>
    let s := stackOfCell cell
    if !m.mayWrite r then m
    else if (m.st s).entryOpen (bankKey cell / 32) (lcRead r) then m.queueRequest s cell r
    else (m.modSt s fun k => { k with backpressure := true, waits := k.waits ++ [r] }).stallMover r 2

/-- Requests that have waited take the entries now open to them, oldest first (R249). -/
def Mach.takeWaiting (m : Mach) (s : Nat) : Mach :=
  (m.st s).waits.foldl (fun (m : Mach) r =>
    match m.reach (r.dpa.toNat / 8 * 8) with
    | none => m.modSt s fun k => { k with waits := k.waits.erase r }
    | some cell =>
      if (m.st s).entryOpen (bankKey cell / 32) (lcRead r) then
        let m := (m.modSt s fun k => { k with waits := k.waits.erase r }).queueRequest s cell r
        if (m.st s).waits.any fun w => w.who == r.who && w.unit == r.unit && w.seq == r.seq then m else m.stallMover r 1
      else m) m

/-! ## Bank slots (R251 to R254, R257, R259) -/

/-- A queued request that is not held. -/
def Mach.open_ (m : Mach) (q : Req) : Bool := !m.ownedAt q.r.dpa.toNat

/-- Row and granule of a request. -/
def Req.cell (q : Req) : Nat := (cellOf (q.r.dpa.toNat / 8 * 8)).getD 0
def Req.granule (q : Req) : Nat := colOfCell q.cell / 256

/-- A transfer that failed 8 times in a row on a path with replay is reported: path, sender, receiver, attempts (R629, R660); a stack
sends what is read and receives what is written (log entry 70). -/
def Mach.transportLost (m : Mach) (r : MemReq) (s : Nat) : Mach :=
  match r.lost with
  | none => m
  | some p =>
    let st := BitVec.ofNat 64 (3 * 65536 + s)
    let rq := BitVec.ofNat 64 (Requester.num r.who * 65536 + r.unit)
    m.post .transportPoison none (uStack s) [BitVec.ofNat 64 p.val, if r.data.isNone then st else rq, if r.data.isNone then rq else st, 8]

/-- A request served: the bits upset since the word was last written are flipped, then it is read with its reports, or
written; poison delivered to a slot or an AFU touches the command (R631, R638, R640). A word that its path could not carry arrives as
poison (R629). -/
def Mach.serve (m : Mach) (q : Req) : Mach :=
  let dpa := q.r.dpa.toNat
  match m.reach (dpa / 8 * 8) with
  | none => m
  | some cell =>
    let m := if q.r.upset = 0 then m else { m with mem := m.mem.flip (m.cellKey cell / 8) q.r.upset }
    let m := m.transportLost q.r (stackOfCell cell)
    match q.r.data with
    | some v => m.writeWord dpa ⟨v, q.r.lost.isSome⟩
    | none =>
      let (w, m) := m.readWord ⟨Requester.num q.r.who, q.r.ctx.val, q.r.unit, q.r.seq⟩ dpa
      if (w.poison || q.r.lost.isSome) && (q.r.who == .mastSlot || q.r.who == .afu) then m.touchPoison q.r.seq (uCluster q.r.unit) (m.locAt dpa) else m

/-- The requests that one slot serves: every open one to the row of the first, up to 4 granules (R254). -/
def Mach.sameRow (m : Mach) (reqs : List Req) (q : Req) : List Req :=
  let l := reqs.filter fun x => m.open_ x && rowOfCell x.cell == rowOfCell q.cell
  let gs := ((q :: l).map Req.granule).eraseDups.take 4
  l.filter fun x => gs.contains x.granule

/-- A controller access takes the slot of 16 sc, and the entries that it empties go to requests that wait. -/
def Mach.serveSlot (m : Mach) (s b : Nat) (q : Req) : Mach :=
  let take := m.sameRow ((m.st s).bank b).reqs q
  let m := m.modBank s b fun x =>
    { x with reqs := x.reqs.filter fun y => !take.contains y, sinceCtl := 0, owed := x.owed - 1, freeAt := m.now + 16 }
  (take.foldl Mach.serve m).takeWaiting s

/-- A spar command runs row steps in a bank (R252): a step of its core that runs or waits targets it. -/
def Stack.stepping (k : Stack) (b : Nat) : Bool :=
  ((k.core (coreOfBank b)).steps ++ (k.core (coreOfBank b)).cur).any fun t => (stepBanks (coreOfBank b) t.tgt).contains b

/-- Controller requests may take this slot of a bank: no row steps run in it, three slots have passed since the last, or
slots are owed after a block (R252, R337). -/
def Stack.ctlOpen (k : Stack) (b : Nat) : Bool := !k.stepping b || decide (3 ≤ (k.bank b).sinceCtl) || decide (0 < (k.bank b).owed)

/-- A slot that a bank leaves empty, or in which it is held for a step, has passed: it counts once in its 16 sc (R252, R273). -/
def Mach.emptySlot (m : Mach) (s b : Nat) : Mach :=
  if m.now < ((m.st s).bank b).slotAt + 16 then m else m.modBank s b fun x => { x.passSlot false with slotAt := m.now }

/-- A refresh performed, which occupies the bank for 117 sc: forced where the count stood at 4 (R257, R259). -/
def Mach.refresh (m : Mach) (s b : Nat) : Mach :=
  let x := (m.st s).bank b
  let forced := decide (4 ≤ x.postponed)
  let m := m.modBank s b fun x =>
    { (if x.postponed = 0 then { x with due := false } else { x with postponed := x.postponed - 1 } : DBank).passSlot false with freeAt := m.now + 117 }
  let m := m.count 3 s 3 1
  if forced then (m.modSt s fun k => { k with forced := satAdd 32 k.forced 1 }).count 3 s 4 1 else m

/-- A due refresh postponed while an LC read waits (R251, R259). -/
def Mach.postpone (m : Mach) (s b : Nat) : Mach :=
  let x := (m.st s).bank b
  if !x.due then m else
    let m := m.modBank s b fun x => { x with due := false, postponed := min 4 (x.postponed + 1) }
    if 3 ≤ x.postponed then m.modSt s fun k => { k with reachedFour := true } else m

/-- The steps of a core's running block that have not started. -/
def Spar.blockLeft (k : Spar) : List Step := k.steps.take (k.blockRun - (k.cur.filter (·.atomic)).length)

/-- The front step of a core as a candidate for a slot of bank `b`: none where its command does not run, it targets the other
bank, or it begins an atomic block, which has a start of its own (R334, R336). -/
def Mach.stepFor (m : Mach) (s b : Nat) : Option (Cmd × Step) :=
  let c := coreOfBank b
  let k := m.sparCore s c
  match m.sparCmd s c, k.steps with
  | some x, t :: _ =>
    if x.phase = .running ∧ (stepBanks c t.tgt).contains b = true ∧ (t.atomic = false ∨ k.blockLeft ≠ []) ∧ k.edgeWait = false then some (x, t) else none
  | _, _ => none

/-- A bank stands between two steps of an atomic block whose command runs: nothing else enters it (R334). -/
def Mach.inBlock (m : Mach) (s b : Nat) : Bool :=
  let c := coreOfBank b
  ((m.sparCore s c).blockLeft.any fun t => (stepBanks c t.tgt).contains b) && (m.sparCmd s c).any fun x => x.phase == .running

/-- How far a bank stands behind the one served last, in the rotation of the banks that wait for tokens (R332). -/
def Stack.turnOf (k : Stack) (b : Nat) : Nat := (b + 1023 - k.rot) % 1024

/-- Tokens for which steps of other banks have waited whose turn comes before that of bank `b` (R332). -/
def Mach.tokensAhead (m : Mach) (s b : Nat) : Nat :=
  let k := m.st s
  sumNat (k.spar.map fun e =>
    match e.2.steps, m.sparCmd s e.1 with
    | t :: _, some x =>
      if t.waited && !t.atomic && x.phase == .running && e.1 != coreOfBank b && (stepBanks e.1 t.tgt).any fun i => decide (k.turnOf i < k.turnOf b) then t.tokens else 0
    | _, _ => 0)

/-- A step may start from a slot of bank `b`: each of its banks is free, and no forced refresh comes first in the other (R273). -/
def Mach.stepMayStart (m : Mach) (s b : Nat) (t : Step) : Bool :=
  (stepBanks (coreOfBank b) t.tgt).all fun i => m.bankFree s i && (i == b || decide (((m.st s).bank i).postponed < 4))

/-- Item 4 of R251 for a bank: the step starts, its free bank is held for it while the other is busy (R273), or it waits for
tokens (R332). The first component tells whether it took the slot. -/
def Mach.tryStep (m : Mach) (s b : Nat) (x : Cmd) (t : Step) : Bool × Mach :=
  let c := coreOfBank b
  let k := m.st s
  if k.pool < k.held + t.tokens + m.tokensAhead s b then
    (false, if t.waited then m else (m.modSpar s c fun y => { y with steps := { t with waited := true } :: y.steps.drop 1 }).count 3 s 7 1)
  else if m.stepMayStart s b t then
    (true, (if t.waited then m.modSt s fun k => { k with rot := b } else m).startStep s c x t)
  else (true, (m.modBank s b fun y => { y with hold := true }).emptySlot s b)

/-- What a bank serves at a slot boundary (R251). -/
def Mach.bankSlot (m : Mach) (s b : Nat) : Mach :=
  let k := m.st s
  let x := k.bank b
  if m.bankFree s b = false then m
  else if m.inBlock s b then
    match m.stepFor s b with
    | some (y, t) => if (stepBanks (coreOfBank b) t.tgt).all (m.bankFree s) then m.startStep s (coreOfBank b) y t else m
    | none => m
  else if 4 ≤ x.postponed then m.refresh s b
  else if x.hold || (banksOfCore (coreOfBank b)).any (fun i => (k.bank i).hold) then
    match m.stepFor s b with
    | some (y, t) => (m.tryStep s b y t).2
    | none => m.modBank s b fun y => { y with hold := false }
  else
    let reqs := x.reqs.filter m.open_
    match reqs.find? (fun q => lcRead q.r) with
    | some q =>
      let m := m.postpone s b
      if k.ctlOpen b then m.serveSlot s b q
      else match m.stepFor s b with
        | some (y, t) => let r := m.tryStep s b y t; if r.1 then r.2 else r.2.emptySlot s b
        | none => m.emptySlot s b
    | none =>
      if x.due || decide (0 < x.postponed) then m.refresh s b
      else
        let be := reqs.head?
        let aged := reqs.find? (·.aged)
        match aged, k.ctlOpen b with
        | some q, true => m.serveSlot s b q
        | _, _ =>
          let owed := decide (0 < x.owed) && be.isSome
          let (took, m) := match m.stepFor s b, owed with
            | some (y, t), false => m.tryStep s b y t
            | _, _ => (false, m)
          if took then m else
            match be, k.ctlOpen b with
            | some q, true => m.serveSlot s b q
            | _, _ => m.emptySlot s b

/-- BANK_SLOT: a slot boundary of a bank (R251). -/
def execBankSlot (k : Fin 12) (d : Fin 16) (b : Fin 64) (s : State) : Host.Outcome State Fault Refusal :=
  .next (if s.aon.mode.powered = true then s.withMach (s.m.bankSlot k.val (64 * d.val + b.val)) else s)

/-- ATOMIC_BLOCK_START: the steps of a block are all queued, the pool holds a token for each bank they run in, and no refresh or
controller access is to be served in those banks; the block takes its tokens and its first step starts (R334, R336). -/
def Mach.blockStart (m : Mach) (s c : Nat) : Mach :=
  let k := m.st s
  let y := k.core c
  match m.sparCmd s c, y.steps with
  | some x, t :: _ =>
    let l := y.steps.take t.blk
    let bs := (setBits 2 (blockMask l)).map fun i => 2 * c + i
    let quiet := bs.all fun b =>
      let z := k.bank b
      m.bankFree s b && !z.due && z.postponed == 0 && !(k.ctlOpen b && z.reqs.any fun q => m.open_ q && (lcRead q.r || q.aged || decide (0 < z.owed)))
    if x.phase ≠ .running ∨ t.blk = 0 ∨ l.length < t.blk ∨ 0 < y.blockRun ∨ y.edgeWait = true ∨ quiet = false ∨ k.pool < k.held + bs.length then m
    else
      let m := m.modSt s fun k =>
        { (k.modCore c fun z => { z with blockRun := t.blk, blockBanks := blockMask l }) with held := k.held + bs.length }
      m.startStep s c x t
  | _, _ => m

def execAtomicBlockStart (k : Fin 12) (c : Fin 512) (s : State) : Host.Outcome State Fault Refusal :=
  .next (s.withMach (s.m.blockStart k.val c.val))

/-! ## Refresh intervals and sensors (R257, R258) -/

/-- The refresh rate of a sensor reading: 0 normal, 1 twice, 2 four times; and the interval of a rate in ns. -/
def refreshBand (t : Nat) : Nat := if t < 85 then 0 else if t < 95 then 1 else 2
def refreshNs (rate : Nat) : Nat := if rate = 0 then 3900 else if rate = 1 then 1950 else 975

/-- The refresh intervals of a stack brought to a time: at the start of the next a higher rate takes effect (R258). -/
def Stack.intervals (k : Stack) (now : Nat) : Stack :=
  let next := k.intervalAt + refreshNs k.rate
  if now < next then k else
    let rate := max k.rate k.rateNext
    { k with rate := rate, rateNext := rate, intervalAt := next + (now - next) / refreshNs rate * refreshNs rate }

/-- REFRESH_DUE: a bank's refresh falls due, once in each interval of its stack (R257); one that was still due joins the postponed
ones, of which there are at most four (R259). -/
def Mach.refreshDue (m : Mach) (s b : Nat) : Mach :=
  let m := m.modSt s fun k => k.intervals m.now
  let at_ := (m.st s).intervalAt
  if ((m.st s).bank b).dueAt = some at_ then m else
    (m.postpone s b).modBank s b fun x => { x with due := true, dueAt := some at_ }

def execRefreshDue (k : Fin 12) (d : Fin 16) (b : Fin 64) (s : State) : Host.Outcome State Fault Refusal :=
  .next (if s.aon.mode.powered = true ∧ s.m.stackOk k.val = true then s.withMach (s.m.refreshDue k.val (64 * d.val + b.val)) else s)

/-- BE_REQUEST_AGED: the oldest BE request of a bank that has waited 10 µs is served ahead of row steps from now on (R253). -/
def execBeRequestAged (k : Fin 12) (d : Fin 16) (b : Fin 64) (s : State) : Host.Outcome State Fault Refusal :=
  let b := 64 * d.val + b.val
  let old := ((s.m.st k.val).bank b).reqs.find? fun q => !lcRead q.r && !q.aged && decide (q.at_ + 10000 ≤ s.m.now)
  match old with
  | some q => .next (s.withMach (s.m.modBank k.val b fun x => { x with reqs := x.reqs.map fun y => if y = q then { y with aged := true } else y }))
  | none => .next s

/-- A condition that a reading keeps up: since when it has held. -/
def heldSince (since : Option Nat) (now : Nat) (holds : Bool) : Option Nat := if holds then some (since.getD now) else none

/-- A sensor reading taken into a stack: a rise takes effect at the next interval, a fall once the sensors have read at least 3 °C
below the band for 10 ms. -/
def Stack.sensed (k : Stack) (t now : Nat) : Stack :=
  let a := heldSince k.coolA now (decide (t ≤ 82))
  let b := heldSince k.coolB now (decide (t ≤ 92))
  let long := fun (x : Option Nat) => x.any fun at_ => decide (at_ + 10000000 ≤ now)
  let least := if long a then 0 else if long b then 1 else 2
  let rate := min k.rate (max (refreshBand t) least)
  { k with temp := t, coolA := a, coolB := b, sensorAt := some now, rate := rate, rateNext := max (refreshBand t) (min k.rateNext (max rate least)) }

/-- MC_SENSOR_READ: every 10 µs the highest DRAM-die sensor of a stack is read (R258). -/
def execMcSensorRead (k : Fin 12) (temp : Nat) (s : State) : Host.Outcome State Fault Refusal :=
  .next (if s.aon.mode.powered = true ∧ s.m.stackOk k.val = true ∧ ((s.m.st k.val).sensorAt.all fun t => decide (t + 10000 ≤ s.m.now)) = true then
    s.withMach (s.m.modSt k.val fun x => (x.intervals s.m.now).sensed temp s.m.now) else s)

/-! ## The scraper (R229, R634 to R636) -/

/-- Rows of a bank that a lap visits, the spare row last. -/
def scrapeRows : Nat := 65537

/-- The words of a row that a visit reads: the number each is stored under, its cell, and whether in a spare line. The spare
row has no cells of its own; its words are named by the first cell of the bank. -/
def Mach.scrapeWords (m : Mach) (s b row : Nat) : List (Nat × Nat × Bool) :=
  if row < 65536 then
    let c := cellAt s (b / 64) (b % 64) row 0
    (List.range 128).map fun i => (m.cellKey (c + 8 * i) / 8, c + 8 * i, m.cellKey (c + 8 * i) != c + 8 * i)
  else (List.range 128).map fun i => (spareKey s (b / 64) (b % 64) (i / 8) (i % 8 * 8) / 8, cellAt s (b / 64) (b % 64) 0 (8 * i), true)

/-- One word visited: a single-bit error is rewritten, an uncorrectable or poisoned word is reported once in a lap (R635). -/
def Mach.scrapeWord (m : Mach) (s : Nat) (w : Nat × Nat × Bool) : Mach :=
  let d := m.mem.decode w.1
  let a : Acc := ⟨whoScraper, 0, s, 0⟩
  match d.kind with
  | .clean => m
  | .corrected => { m.noteRead a w.2.1 d with mem := m.mem.putWord w.1 ⟨d.word.val, false⟩ }
  | _ => if (m.st s).reported.contains w.1 then m else (m.noteRead a w.2.1 d).modSt s fun k => { k with reported := k.reported ++ [w.1] }

/-- The slot of a bank that R251 would leave empty. -/
def Mach.slotEmpty (m : Mach) (s b : Nat) : Bool :=
  let x := (m.st s).bank b
  m.bankFree s b && !x.hold && !x.due && x.postponed == 0 && x.reqs.all (fun q => !m.open_ q) && (m.stepFor s b).isNone
    && (m.sparCore s (coreOfBank b)).blockRun == 0

/-- A lap that has passed every bank ends: its time is recorded, SCRAPER_LAP posted, and the next lap begins (R636). -/
def Mach.lapEnd (m : Mach) (s : Nat) : Mach :=
  let k := m.st s
  if ((List.range 1024).all fun b => decide (scrapeRows ≤ (k.bank b).scraped)) = false then m else
    let ms := (m.now - k.lapAt) / 1000000
    let skipped := k.lapSkipped
    (m.modSt s fun k => { k with
      lapMs := ms % 2 ^ 32, laps := satAdd 16 k.laps 1, lapAt := m.now, lapSkipped := 0, overdueLap := false, reported := []
      banks := (List.range 1024).foldl (fun t b => Tab.upd {} t b fun x => { x with scraped := 0 }) k.banks }).post
      .scraperLap none (uStack s) [BitVec.ofNat 64 ms, BitVec.ofNat 64 skipped]

/-- A visit of the scraper to the next row of a bank; a row of a page that a spar command owns is passed over (R318, R636). What it
reads is metered to the overhead account (R677). -/
def Mach.scrape (m : Mach) (s b : Nat) : Mach :=
  let x := (m.st s).bank b
  if scrapeRows ≤ x.scraped ∨ m.now < x.nextVisit ∨ m.slotEmpty s b = false then m else
    let owned := decide (x.scraped < 65536) && m.ownedAt (grainBase + cellAt s (b / 64) (b % 64) x.scraped 0)
    let m := if owned then m.modSt s fun k => { k with lapSkipped := k.lapSkipped + 1 }
      else ((m.scrapeWords s b x.scraped).foldl (fun (m : Mach) w => m.scrapeWord s w) m).chargeOverhead (pathBytes 0 1024)
    (m.modBank s b fun y => { y with scraped := y.scraped + 1, nextVisit := m.now + 1000, freeAt := m.now + 16 }).lapEnd s

/-- SCRAPER_VISIT: the scraper takes an empty slot of a bank; it runs only in `READY` and `RUN` (R634). -/
def execScraperVisit (k : Fin 12) (d : Fin 16) (b : Fin 64) (s : State) : Host.Outcome State Fault Refusal :=
  .next (if (s.aon.mode = .ready ∨ s.aon.mode = .run) ∧ s.m.stackOk k.val = true then s.withMach (s.m.scrape k.val (64 * d.val + b.val)) else s)

/-- SCRAPER_OVERDUE: a lap has lasted longer than 24 h; the scraper continues (R636). -/
def execScraperOverdue (k : Fin 12) (s : State) : Host.Outcome State Fault Refusal :=
  let x := s.m.st k.val
  .next (if (s.aon.mode = .ready ∨ s.aon.mode = .run) ∧ x.overdueLap = false ∧ 86400 * 10 ^ 9 < s.m.now - x.lapAt then
    s.withMach ((s.m.modSt k.val fun y => { y with overdueLap := true }).post .scraperOverdue none (uStack k.val)
      [BitVec.ofNat 64 ((s.m.now - x.lapAt) / 1000000), BitVec.ofNat 64 x.lapSkipped]) else s)

/-! ## Blank fills and the correctable-address table (R242, R281, R632) -/

/-- An access that translated to a frame is still to be completed: a load that a cluster holds at issue, or a request that a stack has not
served (R390). -/
def Mach.frameInUse (m : Mach) (f : Nat) : Bool :=
  (m.clusters.any fun e => (e.2.miss.any fun w => w.1 != 2 && frameOf w.2 == f) || e.2.loadAt.any fun w => frameOf w.2 == f)
    || m.memStacks.any fun e => (e.2.waits.any fun r => frameOf r.dpa.toNat == f) || e.2.banks.any fun b => b.2.reqs.any fun q => frameOf q.r.dpa.toNat == f

/-- BLANK_FILL_DONE: the spar cores have zero-filled a released frame, once the companion has given up its lines (R567) and
every access that translated to it has completed, with what those brought into the caches dropped (R390), on tokens of the stack's pool
(R332), and it may be handed out again; the row steps are counted, and charged to the overhead account (R242, R281, R672, R677). -/
def execBlankFillDone (dpa : BitVec 44) (s : State) : Host.Outcome State Fault Refusal :=
  let f := frameOf dpa.toNat
  .next (if s.m.frame f = .blank ∧ s.m.heldLines [f] [] = [] ∧ s.m.frameInUse f = false ∧ s.m.firmwareTokens f = true then
    s.withMach (((((s.m.dropLines f).zeroRows (frameRows f)).setFrame f .free).count 3 (frameStack f) 2 64).chargeOverhead { spar := 64 }) else s)

/-- MC_CE_CLEAR: the host empties a stack's correctable-address table (R632). -/
def execMcCeClear (k : Fin 12) (s : State) : Host.Outcome State Fault Refusal :=
  .next (if s.servedFullWrite = true then s.withMach (s.m.modSt k.val fun x => { x with ces := [] }) else s)

end Sys2Proof.Machine
end

