-- ==== Sys2Proof/Machine/Commit.lean ====
section
/-! DEFINITION. The command entries, waits, kills and their completion, swaps and evictions, commit, and the reports on waits
(R379 to R390, R411 to R446, R583 to R586, R641). -/
namespace Sys2Proof.Machine

/-! ## Command entries (R585, R586) -/

/-- A command entry queued at its position, to be dispatched by its own row. -/
def Mach.queueEntry (m : Mach) (e : Ent) (k : Kind) : Mach := m.addCmd e k id

/-- LAUNCH_MAST, LAUNCH_SPAR and MOVE: the entry is copied and takes its queue position. -/
def execLaunchMast (ctx : Fin 4096) (q : Fin 16) (s : State) : Host.Outcome State Fault Refusal :=
  .next (entryRow s ctx.val q.val (·.op == 1) fun e m => m.queueEntry e .mast)
def execLaunchSpar (ctx : Fin 4096) (q : Fin 16) (s : State) : Host.Outcome State Fault Refusal :=
  .next (entryRow s ctx.val q.val (·.op == 2) fun e m => m.queueEntry e .spar)
def execMove (ctx : Fin 4096) (q : Fin 16) (s : State) : Host.Outcome State Fault Refusal :=
  .next (entryRow s ctx.val q.val (·.op == 3) fun e m => m.queueEntry e .move)

/-- A command of a kind that has a sequence number from its entry on. -/
def Mach.numberEntry (m : Mach) (e : Ent) (k : Kind) (f : Cmd → Cmd) : Mach :=
  { (m.addCmd e k fun x => f { x with seq := m.nextSeq }) with nextSeq := m.nextSeq + 1 }

/-- FENCE: it holds every later command of its queue until every earlier one has committed (R382). -/
def execFence (ctx : Fin 4096) (q : Fin 16) (s : State) : Host.Outcome State Fault Refusal :=
  .next (entryRow s ctx.val q.val (·.op == 4) fun e m => m.numberEntry e .fence id)

/-- SIGNAL: its value is added to its flag at its commit (R396). -/
def execSignal (ctx : Fin 4096) (q : Fin 16) (s : State) : Host.Outcome State Fault Refusal :=
  .next (entryRow s ctx.val q.val (·.op == 5) fun e m =>
    m.numberEntry e .signal fun x => { x with log := [⟨1, e.fld 0x10 8, ⟨BitVec.ofNat 64 (e.fld 0x18 8), false⟩⟩] })

/-! ## Hyval WAIT (R442, R585, R639) -/

/-- The flag of a Hyval WAIT is read: the wait ends, or holds its queue; poison, or a flag that no longer translates, ends it
with POISONED (R639). -/
def Mach.pollWait (m : Mach) (x : Cmd) : Mach :=
  match m.flagAddr x.ctx x.waitVa with
  | none => m.finish x (if x.phase = .queued then .badParam else .poisoned) 0
  | some a =>
    let (f, m) := m.firmwareFlag x.ctx a
    if f.poison then m.finish x .poisoned 0
    else if (flagCompare x.waitCmp f.val x.waitVal).getD false then m.modCmd x fun y => { y with phase := .ended, overdue := [] }
    else m.modCmd x fun y => { y with phase := .waitHeld, waitSince := some (y.waitSince.getD m.now) }

/-- A wait of a queue that is due to be read: the first that nothing earlier holds. -/
def Mach.dueWait (m : Mach) (ctx q : Nat) : Option Cmd :=
  (m.queueCmds ctx q).find? fun x => x.kind == .wait && (x.phase == .queued || x.phase == .waitHeld) && (m.holder x (m.wordSpan ctx x.waitVa)).isNone

/-- HYVAL_WAIT: the entry takes its position, and its flag is read for the first time where nothing earlier holds it. -/
def Mach.hyvalWait (m : Mach) (e : Ent) : Mach :=
  let m := m.numberEntry e .wait fun x => { x with waitVa := e.fld 0x10 8, waitVal := BitVec.ofNat 64 (e.fld 0x18 8), waitCmp := e.fld 0x20 1, budgetUs := e.fld 0x24 4 }
  match m.cmdOf (m.nextSeq - 1) with
  | none => m
  | some x =>
    if x.waitCmp = 0 ∨ 5 < x.waitCmp then m.refuse x .badParam
    else if (m.holder x (m.wordSpan x.ctx x.waitVa)).isSome then m else m.pollWait x

def execHyvalWait (ctx : Fin 4096) (q : Fin 16) (s : State) : Host.Outcome State Fault Refusal :=
  .next (entryRow s ctx.val q.val (·.op == 6) fun e m => m.hyvalWait e)

/-- HYVAL_WAIT_RELEASE: the flag of the wait that holds a queue is read again; where the comparison holds, the later commands
are released. -/
def execHyvalWaitRelease (ctx : Fin 4096) (q : Fin 16) (s : State) : Host.Outcome State Fault Refusal :=
  .next (match s.m.dueWait ctx.val q.val with
    | some x => if s.dispatching = true ∧ (s.m.cx ctx.val).st = .enabled ∧ ((s.m.cx ctx.val).q q.val).stopped = none then s.withMach (s.m.pollWait x) else s
    | none => s)

/-! ## KILL_COMPLETE (R321, R435 to R439, R486) -/

/-- A killed command leaves a cluster: the cluster, its banks and its channels are free (R68, R191, R435). -/
def Mach.clearCluster (m : Mach) (x : Cmd) (c : Nat) : Mach :=
  let cl := m.cl c
  let mine := cl.cmd == some x.seq
  let m := if mine || (cl.cmd.isNone && cl.next == some x.seq) then
      m.occupy x (m.now - cl.boundAt) else m
  let m := m.modCl c fun k =>
    let k := if k.next == some x.seq then { k.unbind with runState := if k.cmd.isNone then 0 else k.runState } else k
    let k := { k with chans := k.chans.map fun (e : Nat × Chan) => if e.2.cmd == x.seq then (e.1, { e.2 with st := 0, cmd := 0, waiting := false, late := [] }) else e }
    if !mine then { k with boundAt := if k.cmd.isNone then m.now else k.boundAt } else
      let f := fun (b : Imem) => if b.st = .active then { b with st := .ready } else b
      { k with cmd := none, runState := if k.next.isSome then 1 else 0, boundAt := m.now, idleSince := m.now, imemA := f k.imemA, imemB := f k.imemB,
               reuse := false, idleFull := true, pend := [], passes := [], mldbs := [], mouts := [], feeds := [], slotBanks := [], loops := [], wait := none, miss := [], loadAt := [], volatile := [],
               frozen := 0, cleared := 0, idle := 0, ramp := if k.ramp = 1 then 2 else k.ramp, afu := { k.afu with st := 0, staged := [], touched := none } }
  let m := if mine then m.count 1 c 0x31 1 else m
  m.bindImem c

/-- The cores of a killed command return to `idle`; those of a load that was under way hold no code (R321). -/
def Mach.clearSpar (m : Mach) (x : Cmd) : Mach :=
  let set := x.img.coreSet ++ x.spars.flatMap (·.img.coreSet)
  let m := set.foldl (fun (m : Mach) sc =>
    let k := m.sparCore sc.1 sc.2
    if k.cmd ≠ x.seq ∨ k.st = .idle then m else
      let m := if k.st = .loading then m.modSpar sc.1 sc.2 fun y => { y with code := [], flips := [], digest := none } else m
      m.freeSpar sc.1 sc.2) m
  let m := ((set.map (·.1)).foldl addNew []).foldl (fun (m : Mach) s => m.modSt s fun k =>
    if k.loadFor && k.loadSet.any fun c => set.contains (s, c) then { k with loadSet := [] } else k) m
  m.disown fun o => o / 8192 == x.seq

/-- The units of a killed command are free, its requests that wait for an entry are dropped, its drafts are discarded, and its flits that wait are not sent (R390, R435, R555). -/
def Mach.clearCmd (m : Mach) (x : Cmd) : Mach :=
  let m := { m with memStacks := m.memStacks.map fun (e : Nat × Stack) => (e.1, { e.2 with
    turns := e.2.turns.filter fun t => ((m.cl t.cluster).chan t.chan).cmd != x.seq, waits := e.2.waits.filter fun r => r.seq != x.seq }) }
  let m := x.clusters.foldl (fun (m : Mach) c => m.clearCluster x c) m
  let m := if x.kind = .spar ∨ x.kind = .serve then m.clearSpar x else m
  let unsent := fun (f : Flit) => f.coll.toNat == x.coll && f.srcCtx.val == x.ctx && decide (1 ≤ f.op.toNat) && decide (f.op.toNat ≤ 5)
  let m := { m with engines := m.engines.filter fun e => e.cmd != x.seq,
                    shr := if x.peers = [] then m.shr else { m.shr with tx := dropWhere unsent m.shr.tx } }
  (m.discardDrafts x).modCx x.ctx fun c => { c with frames := c.frames - x.drafts.length }

/-- The fault register of the unit that a detail word names (R583). -/
def Mach.faultReg (m : Mach) (st : Status) (detail : Nat) : Word :=
  let u := detail % 65536
  let src := detail / 2 ^ 24
  if st = .afuFault then
    let a := (m.cl u).afu
    packWord [(56, a.faultCause % 256), (55, b2n a.faultValid), (24, a.faultReq % 65536), (0, a.faultPage % 2 ^ 24)]
  else if src = srcSpar then let k := m.st u; sparTrapWord k.trapCode k.trapCore k.trapUser k.trapPc k.trapValid
  else if src = srcMover then
    match (m.cl u).chans.find? (fun e => e.2.haltValid) with
    | some (_, c) => haltWord c.haltCause c.haltElem c.haltValid
    | none => 0
  else let c := m.cl u; trapWord c.trapCode c.trapSlot c.trapMask c.trapUser c.trapOff c.trapValid

/-- A deployment changed. -/
def Mach.modDep (m : Mach) (id : Nat) (f : Deployment → Deployment) : Mach :=
  { m with deps := match Tab.get none m.deps id with | some d => Tab.put none m.deps id (some (f d)) | none => m.deps }
def Mach.dep (m : Mach) (id : Nat) : Option Deployment := Tab.get none m.deps id

/-- A serve step is gone: with a status its deployment stops and is reported (R486, R583); otherwise a new batch is formed at
the next boundary. -/
def Mach.serveEnded (m : Mach) (x : Cmd) (why : Option (Status × Nat)) : Mach :=
  let id := x.q - 16
  let m := m.modDep id fun d => { d with stepCmd := none, boundaryAt := m.now, stopped := why.map (·.1), batch := [], tokens := [], grown := [], stageOn := false }
  match why with
  | some (st, detail) =>
    m.post .deployStopped (some x.ctx) uModule
      [BitVec.ofNat 64 id, BitVec.ofNat 64 (((m.dep id).map (·.step)).getD 0), BitVec.ofNat 64 st.code, m.faultReg st detail]
  | none => m

/-- KILL_COMPLETE: everything that a killed command held is free; by the cause it waits to be dispatched again, or its outcome is
posted (R436, R437, R439, R677). -/
def Mach.killComplete (m : Mach) (seq : Nat) : Mach :=
  match m.cmdOf seq with
  | none => m
  | some x =>
    if x.phase ≠ .killing then m else
      let m := m.clearCmd x
      match m.cmdOf seq with
      | none => m
      | some x =>
        let why := x.cause.getD .stop
        let m := if why.rerun then
            let m := m.chargeOverhead x.meters
            if x.kind = .serve then (m.dropCmd x).serveEnded x none else
              let n := if why = .preempt then x.preempts + 1 else x.preempts
              let m := m.modCmd x fun y => { y with phase := .queued, drafts := [], placed := [], meters := {}, cause := none, held := [], poisoned := false,
                                                    preempts := n, starving := y.starving || decide (8 ≤ n), overdue := [] }
              if why = .preempt ∧ n % 8 = 0 then m.post .starvation (some x.ctx) uModule [BitVec.ofNat 64 x.seq, BitVec.ofNat 64 (x.q * 2 ^ 32 + x.pos)] else m
          else
            let (st, detail) : Status × Nat := match why with | .fail st d => (st, d) | .disable => (.killed, 0) | _ => (.queueStopped, 0)
            let m := m.finish x st detail
            if x.kind = .serve then m.serveEnded x (match why with | .fail st d => some (st, d) | _ => none) else m
        m.settle x.ctx

def execKillComplete (seq : Nat) (s : State) : Host.Outcome State Fault Refusal := .next (s.withMach (s.m.killComplete seq))

/-! ## Evictions and swaps (R412 to R417) -/

/-- Commands of a context in flight on a cluster. -/
def Mach.flying (m : Mach) (ctx c : Nat) : List Cmd := m.cmds.filter fun x => x.ctx == ctx && x.inFlight && (x.clusters.contains c || x.more.any fun p => p.1 == c)

/-- A command is frozen on a sync wait on a cluster. -/
def Mach.frozenOn (m : Mach) (x : Cmd) (c : Nat) : Bool := ((m.cl c).frozen &&& srcSync) != 0 && (m.cl c).cmd == some x.seq

/-- The resident context of a slot is blocked: it has commands there, and each is frozen on a sync wait or held at dispatch behind a Hyval
WAIT (R414, log entry 74). -/
def Mach.slotBlocked (m : Mach) (c i : Nat) : Bool :=
  let s := (m.cl c).slot i
  s.st == 0 && s.ctx.any fun y =>
    ((m.flying y c) != [] || m.cmds.any fun x => x.ctx == y && m.behindWait x) && (m.flying y c).all fun x => m.frozenOn x c

/-- SWAP_COMPLETE: the incoming context holds the slot, whose window is zeroed; lines of the cluster cache stay (R412, R413). -/
def Mach.swapDone (m : Mach) (c i : Nat) : Mach :=
  let s := (m.cl c).slot i
  if s.st = 4 ∨ (s.st = 5 ∧ (s.ctx.any fun y => m.busyOn y c) = false) then
    m.modCl c fun k => { k.modSlot i (fun s => { ctx := s.incoming }) with windows := Tab.erase k.windows i }
  else m

def execSwapComplete (c : Fin 32) (slot : Fin 8) (s : State) : Host.Outcome State Fault Refusal :=
  .next (if s.dispatching = true then s.withMach (s.m.swapDone c.val slot.val) else s)

/-! ## Commit (R387, R396, R429 to R432, R641) -/

/-- The new word of a commit-log operation on a word. -/
def logResult (op : Nat) (old v : Word) : Word :=
  match op with
  | 3 => BitVec.ofNat 64 (accumulate 1 1 old.toNat v.toNat)
  | 4 => BitVec.ofNat 64 (old.toNat / 2 ^ 32 * 2 ^ 32 + accumulate 1 0 (old.toNat % 2 ^ 32) (v.toNat % 2 ^ 32) % 2 ^ 32)
  | 5 => if old.toNat < v.toNat then v else old
  | 6 => if v.toNat < old.toNat then v else old
  | 7 => v
  | _ => old + v

/-- The operations of a commit log (R72); an entry that the program has given another is performed with a free value (log entry 71). -/
def logOps : List Nat := [1, 2, 3, 4, 5, 6, 7]
def Mach.logValue (m : Mach) (op : Nat) (old v : Word) : Word × Mach := if logOps.contains op then (logResult op old v, m) else m.free 64

/-- One commit-log operation, at the word that holds its target; a target that does not translate is passed over. A target that
is poison or uncorrectable takes poison, which is reported (R641). -/
def Mach.performLog (m : Mach) (x : Cmd) (i : Nat) (e : LogE) : Mach :=
  match m.xlate x.ctx (e.va / 8 * 8) with
  | none => m
  | some a =>
    let (w, m) := m.readWord ⟨whoCommit, x.ctx, ((cellOf a).map stackOfCell).getD 0, x.seq⟩ a
    let (v, m) := m.logValue e.op w.val e.val.val
    let m := m.writeWord a ⟨v, w.poison⟩
    if w.poison then m.post .commitLogPoison (some x.ctx) (uStack (((cellOf a).map stackOfCell).getD 0)) [BitVec.ofNat 64 x.seq, BitVec.ofNat 64 e.va, BitVec.ofNat 64 i] else m

/-- Step 4 and step 5 of R387: the log, and behind it the completion flags. -/
def Mach.performLogs (m : Mach) (x : Cmd) : Mach :=
  ((x.log ++ x.dones.map fun d => (⟨1, d.1, ⟨d.2, false⟩⟩ : LogE)).zipIdx).foldl (fun (m : Mach) (e : LogE × Nat) => m.performLog x e.2 e.1) m

/-- The page-table entry of a draft's page cannot be read, so it does not change (R643). -/
def Mach.entryLost (m : Mach) (x : Cmd) (d : Draft) : Bool :=
  if d.alloc < 2 ^ 40 then ((m.cx x.ctx).alloc d.alloc).any fun a => a.lostPages.contains d.page
  else (Tab.get none m.deps ((d.alloc - 2 ^ 40) / 65536)).any fun p => (Tab.get none p.reqs ((d.alloc - 2 ^ 40) % 65536)).any fun r => r.lostKv.contains d.page

/-- A draft replaces its page (R387, step 1): in its allocation, whose old frame is released, or in the next generation of a KV
region, which is published at the next boundary (R495, R500). -/
def Mach.flip (m : Mach) (x : Cmd) (d : Draft) : Mach :=
  if m.entryLost x d then (m.release d.new).modCx x.ctx fun c => { c with frames := c.frames - 1 }
  else if d.alloc < 2 ^ 40 then
    let m := m.modCx x.ctx fun c => { c with
      allocs := match Tab.get none c.allocs d.alloc with
        | some a => Tab.put none c.allocs d.alloc (some { a with pages := modAt a.pages d.page fun _ => d.new })
        | none => c.allocs,
      frames := c.frames - (if m.frame d.old = .ctx x.ctx then 1 else 0) }
    if m.frame d.old = .ctx x.ctx then (m.setFrame d.new (.ctx x.ctx)).release d.old else m.setFrame d.new (.ctx x.ctx)
  else
    let k := d.alloc - 2 ^ 40
    (m.modDep (k / 65536) fun p => { p with reqs := match Tab.get none p.reqs (k % 65536) with
      | some r => Tab.put none p.reqs (k % 65536) (some { r with kvNext := some (Tab.put (0, 0) (r.kvNext.getD r.kv) d.page (1, d.new)) })
      | none => p.reqs }).setFrame d.new (.kv x.ctx)

/-- The words that a command's log and flags change. -/
def Mach.logWords (m : Mach) (x : Cmd) : List Nat := (x.log.map (·.va) ++ x.dones.map (·.1)).filterMap fun va => m.xlate x.ctx (va / 8 * 8)

/-- The rest of a commit, once the companion has given up the lines of the old pages and of the words that change: the log, the flags, and
the outcome (R387 steps 3 to 5, R396, R433); each operation is metered as a word written (R676, log entry 76). -/
def Mach.commitRest (m : Mach) (x : Cmd) : Mach :=
  match m.recallFirst x.oldFrames (m.logWords x) with
  | some m => m
  | none =>
    let m := m.performLogs x
    let x := { x with meters := x.meters.add (pathBytes 1 (8 * (x.log.length + x.dones.length))) }
    let m := if x.kind = .serve then m.modDep (x.q - 16) fun d => { d with stepCmd := none, postsDue := true } else m
    (m.finish x (if x.pred = some false then .skipped else .ok) 0).settle x.ctx

/-- The commit: the flips, from which on the command counts as committed, and the rest (R387 steps 1 and 2, R430, R432). -/
def Mach.commitNow (m : Mach) (x : Cmd) : Mach :=
  let m := x.drafts.foldl (fun (m : Mach) d => m.flip x d) m
  let y := { x with phase := .flipped, drafts := [], oldFrames := x.drafts.map (·.old) }
  (m.modCmd x fun _ => y).commitRest y

/-- A collective's conditions (R552): END sent to every other participant and acknowledged, END received from each. -/
def Cmd.collDone (x : Cmd) : Bool :=
  (List.range x.peers.length).all fun r => r == x.rank || (x.acks.contains r && x.endsIn.contains r)

/-- FENCE with its invalidate option: every line of its context leaves every cluster cache (R382, R662). -/
def Mach.invalidate (m : Mach) (ctx : Nat) : Mach :=
  m.clusters.foldl (fun (m : Mach) e =>
    let n := (e.2.cache.filter fun l => l.1 == ctx).length
    (m.modCl e.1 fun k => { k with cache := k.cache.filter fun l => l.1 != ctx }).count 1 e.1 0x13 n) m

/-- A FENCE or SIGNAL may be performed: its context is enabled and its queue runs, or it stands before the command that has stopped the
queue, or in a drain before a command that is dispatched (R406, R434). -/
def Mach.mayPerform (m : Mach) (x : Cmd) : Bool :=
  let c := m.cx x.ctx
  let k := c.q x.q
  (c.st == .enabled && (k.stopped.isNone || decide (x.pos < k.stopAt)))
    || (c.st == .draining && (m.queueCmds x.ctx x.q).any fun y => decide (x.pos < y.pos) && y.dispatched)

/-- COMMIT of a FENCE or SIGNAL at its turn: what its operands say. -/
def Mach.commitQueued (m : Mach) (x : Cmd) : Mach :=
  if m.mayPerform x = false then m
  else if x.kind = .fence then
    if 1 < x.fld 0x10 1 then m.refuse x .badParam
    else (if x.fld 0x10 1 = 1 then m.invalidate x.ctx else m).finish x .ok 0
  else
    let va := x.fld 0x10 8
    if va % 8 ≠ 0 then m.refuse x .badParam else if m.inGrain x.ctx va then m.refuse x .badImage else m.commitNow x

/-- COMMIT: every condition of R429 holds, and the command commits; one that has touched poison is refused (R640). A bound command
whose work has finished first sends what it has gathered and its END flits, at whatever position it stands (R552). -/
def Mach.commit (m : Mach) (seq : Nat) : Mach :=
  match m.cmdOf seq with
  | none => m
  | some x =>
    if x.phase = .ended ∧ x.kind ≠ .wait ∧ x.pred ≠ some false ∧ x.poisoned = false ∧ x.peers ≠ [] ∧ x.endSent = false then
      ((m.modCmd x fun y => { y with endSent := true }).sendRest x).sendAll x 5
    else if (m.earlier x) ≠ [] then m
    else if x.phase = .queued ∧ (x.kind = .fence ∨ x.kind = .signal) then m.commitQueued x
    else if x.phase = .flipped then m.commitRest x
    else if x.phase ≠ .ended then m
    else if x.kind = .wait then m.finish x .ok 0
    else if x.pred = some false then m.commitNow x
    else if x.poisoned then m.fail x .poisoned 0
    else if x.peers ≠ [] ∧ x.collDone = false then m
    else m.commitNow x

def execCommit (seq : Nat) (s : State) : Host.Outcome State Fault Refusal :=
  .next (if (s.aon.mode = .ready ∨ s.aon.mode = .run) ∧ s.m.running = true then s.withMach (s.m.commit seq) else s)

/-! ## Overdue waits (R308, R442, R443) -/

/-- The wait of a command that a unit has: flag address, value, comparison and since when; for a spar core, the earlier of its chain
wait and its edge wait that has not been reported, named by its start. Units are numbered as `sparUnit` says; a Hyval WAIT has unit 0. -/
def Mach.waitOf (m : Mach) (x : Cmd) (unit : Nat) : Option (Nat × Word × Nat × Nat) :=
  if x.kind = .wait then (if x.phase = .waitHeld ∧ unit = 0 then x.waitSince.map fun t => (x.waitVa, x.waitVal, x.waitCmp, t) else none)
  else match sparUnit x unit with
  | some (s, c) =>
    let k := m.sparCore s c
    if k.cmd = x.seq ∧ (k.st = .running ∨ k.st = .ending) then
      match [k.edgeSince, k.waitSince].filterMap fun w => w.filter fun t => !x.overdue.contains (unit, t) with
      | [] => none
      | t :: r => let t := r.foldl min t; some (t, 0, 0, t)
    else none
  | none =>
    let cl := m.cl unit
    if cl.cmd = some x.seq then cl.wait.map fun w => (w.va, w.val, w.cmp + 1, w.since) else none

/-- WAIT_BUDGET_EXPIRE: a wait has lasted for its budget, is reported once and enters the overdue set (R443). -/
def Mach.waitExpired (m : Mach) (seq unit : Nat) : Mach :=
  match m.cmdOf seq with
  | none => m
  | some x =>
    match m.waitOf x unit with
    | none => m
    | some (va, v, cmp, since) =>
      if x.overdue.any (fun o => o.1 == unit && o.2 == va) ∨ m.now < since + m.budgetOf x unit * 1000 then m else
        let core := sparUnit x unit
        let f : Word := if core.isSome then 0 else match m.flagAddr x.ctx va with
          | some a => ((m.reach a).map fun c => (m.decodeCell c).word.val).getD 0
          | none => 0
        let (u, m) : UnitId × Mach := match core with
          | some sc => (uSpar sc.1, m.modSt sc.1 fun k => { k with overdueSeen := true })
          | none => if x.kind = .wait then (uModule, m)
            else (uCluster unit, m.modCl unit fun k => { k with wait := k.wait.map fun w => { w with overdue := true } })
        (m.modCmd x fun y => { y with overdue := y.overdue ++ [(unit, va)] }).post .waitOverdue (some x.ctx) u
          [BitVec.ofNat 64 x.ctx, BitVec.ofNat 64 x.q, BitVec.ofNat 64 x.seq, BitVec.ofNat 64 unit,
           BitVec.ofNat 64 (if core.isSome then 0 else va), BitVec.ofNat 64 cmp, v, f]

def execWaitBudgetExpire (seq unit : Nat) (s : State) : Host.Outcome State Fault Refusal := .next (s.withMach (s.m.waitExpired seq unit))

/-- Whose budget a held request waits for: the collective's, or the command's own (R441). -/
def Mach.holdBudget (m : Mach) (x : Cmd) : Nat := if x.collUs ≠ 0 then x.collUs else m.budgetOf x 0

/-- How a held request is named in its event. -/
def Cause.request : Cause → Nat
  | .preempt => 0
  | .evict => 1
  | _ => 2

/-- PREEMPT_OVERDUE: a request held on an anchored command has waited longer than the budget, and is reported once; the hold has ended where
the command has failed (R441). -/
def execPreemptOverdue (seq : Nat) (s : State) : Host.Outcome State Fault Refusal :=
  .next (match s.m.cmdOf seq with
    | none => s
    | some x =>
      match x.held.find? fun h => !h.2.2 && decide (h.2.1 + s.m.holdBudget x * 1000 < s.m.now) with
      | none => s
      | some h =>
        if x.phase = .killing ∨ x.phase = .flipped then s else
          s.withMach ((s.m.modCmd x fun y => { y with held := y.held.map fun g => if g == h then (g.1, g.2.1, true) else g }).post .preemptOverdue (some x.ctx) uModule
            [BitVec.ofNat 64 x.seq, BitVec.ofNat 64 h.1.request, BitVec.ofNat 64 x.coll]))

/-- A mast command has run on a cluster for more than wcet_ac issue cycles at its clock of `f` MHz plus wcet_stall_ns, time frozen on
sync waits left out (R93). -/
def Cluster.pastWcet (cl : Cluster) (i : Img) (f : Nat) : Bool := decide (i.wcet * 1000 + i.stallNs * f < (cl.issueAc + cl.stallAc) * 1000)

/-- WCET_OVERRUN: a running command has spent more than its declared bound, and is reported once; it runs on (R93, R293, R421). -/
def execWcetOverrun (seq : Nat) (s : State) : Host.Outcome State Fault Refusal :=
  .next (match s.m.cmdOf seq with
    | none => s
    | some x =>
      let overran := if x.kind = .spar then decide (x.startedAt + x.img.wcet < s.m.now)
        else x.placed.any fun p => (s.m.cl p.1).cmd == some seq && (s.m.cl p.1).pastWcet p.2.2 (Config.clockMHz (s.level p.1))
      if x.phase = .running ∧ x.wcetReported = false ∧ overran = true then
        s.withMach ((s.m.modCmd x fun y => { y with wcetReported := true }).post .wcetOverrun (some x.ctx)
          (if x.kind = .spar then uSpar ((x.img.coreSet.headD (0, 0)).1) else uCluster (x.clusters.headD 0)) [BitVec.ofNat 64 seq, BitVec.ofNat 64 x.img.wcet])
      else s)

/-! ## Deadlock reports (R444 to R446) -/

/-- A command's name in the graph. -/
def Cmd.node (x : Cmd) : Nat := (x.ctx * 2 ^ 17 + x.q) * 2 ^ 32 + x.pos

/-- The overdue flag waits of a command: their flags; those that a queue stands behind at an overdue Hyval WAIT count for the
commands behind it. -/
def Mach.overdueFlags (m : Mach) (x : Cmd) : List Nat :=
  x.overdue.filterMap (fun o => if (sparUnit x o.1).isSome then none else some o.2)
    ++ if x.phase = .queued then (m.earlier x).flatMap (fun e => if e.kind = .wait ∧ e.phase = .waitHeld then e.overdue.map (·.2) else []) else []

/-- The log targets and the completion flag of an image, read as dispatch would read them. -/
def Mach.imageTargets (m : Mach) (ctx va : Nat) (logAt countAt : Nat) : List Nat :=
  let h := m.peekVa ctx va 256
  let n := min 256 (fld h countAt 2)
  let t := m.peekVa ctx (va + fld h logAt 4) (16 * n)
  fld h 0x38 8 :: (List.range n).map fun i => (parseLog t (16 * i)).va

/-- The flags that a command's log and completion flag target: of one that dispatch has not examined yet, as its entry and its images
name them (R444). -/
def Mach.targets (m : Mach) (x : Cmd) : List Nat :=
  let known := x.log.map (·.va) ++ x.dones.map (·.1)
  let va := fld x.entry 0x10 8
  if x.phase ≠ .queued ∨ x.seq ≠ 0 ∨ known ≠ [] then known else
    match x.kind with
    | .mast =>
      let n := min 16 (fld (m.peekVa x.ctx va 16) 0 1)
      let set := m.peekVa x.ctx (va + 16) (16 * n)
      (List.range n).flatMap fun i => m.imageTargets x.ctx (fld set (16 * i) 8) 0x54 0x58
    | .spar => m.imageTargets x.ctx va 0x50 0x4C
    | .move => [fld x.entry 0x30 8]
    | .coll => [fld (m.peekVa x.ctx va 128) 0x28 8]
    | _ => []

/-- The edges of the graph from a command: to where, and the flag of a wait (0 where it is held at dispatch, behind a FENCE, or by the
order of commits). -/
def Mach.edges (m : Mach) (x : Cmd) : List (Nat × Nat) :=
  let writers := (m.overdueFlags x).flatMap fun va =>
    let w := m.xlate x.ctx va
    (m.cmds.filter fun y => w.isSome && ((m.targets y).any fun t => t != 0 && m.xlate y.ctx (t / 8 * 8) == w)).map fun y => (y.node, va)
  let order := (m.earlier x).head?
  let held : Option Cmd := if x.phase = .ended ∨ (x.phase = .queued ∧ (x.kind = .fence ∨ x.kind = .signal)) then order
    else if x.phase = .queued then m.holder x (m.entryReads x) else none
  (writers ++ (held.map fun (e : Cmd) => (e.node, 0)).toList).eraseDups

/-- The simple cycles through `start` of a graph, over nodes not below it: each as (node, flag of its edge) in order. -/
def cyclesFrom (edges : Nat → List (Nat × Nat)) (start : Nat) : Nat → Nat → List (Nat × Nat) → List (List (Nat × Nat))
  | 0, _, _ => []
  | fuel + 1, at_, path =>
    (edges at_).flatMap fun e =>
      if e.1 = start then [path ++ [(at_, e.2)]]
      else if e.1 < start ∨ e.1 = at_ ∨ path.any (fun p => p.1 == e.1) = true then []
      else cyclesFrom edges start fuel e.1 (path ++ [(at_, e.2)])

/-- Every cycle of the graph. -/
def Mach.cycles (m : Mach) : List (List (Nat × Nat)) :=
  let edges := fun (n : Nat) => match m.cmds.find? (fun x => x.node == n) with | some x => m.edges x | none => []
  m.cmds.flatMap fun x => cyclesFrom edges x.node m.cmds.length x.node []

/-- DEADLOCK_SEARCH: one deadlock record for each cycle that has not been reported while it persists, naming up to 16 commands and
the flag of each edge (R445). -/
def Mach.deadlocks (m : Mach) : Mach :=
  let cs := m.cycles
  let names := cs.map fun c => c.map (·.1)
  let m := (cs.filter fun c => !m.reported.contains (c.map (·.1))).foldl (fun (m : Mach) c =>
    m.post .deadlock none uModule ((c.take 16).flatMap fun p => [BitVec.ofNat 64 p.1, BitVec.ofNat 64 p.2])) m
  { m with reported := names }

def execDeadlockSearch (s : State) : Host.Outcome State Fault Refusal :=
  .next (if s.dispatching = true then s.withMach s.m.deadlocks else s)

end Sys2Proof.Machine
end

