-- ==== Sys2Proof/Machine/Kv.lean ====
section
/-! DEFINITION. KV regions: their pages, generations and reference counts, prefix variants, the prefix tree, the host tier, and
the attention fetch unit (R487 to R519). -/
namespace Sys2Proof.Machine

/-! ## Geometry (R487, R489, R490) -/

/-- Base of the region of a request slot (R489). -/
def Deployment.regionVa (d : Deployment) (slot : Nat) : Nat := d.arena + slot * d.regionBytes

/-- The region page that holds positions of a block of a plane (R490): layer, plane (0 K, 1 V), head, page index. -/
def Deployment.pageAt (d : Deployment) (layer plane head i : Nat) : Nat := ((layer * 2 + plane) * d.heads + head) * d.planePages + i

/-- The region offset of a byte of an element (R490). -/
def Deployment.kvOffset (d : Deployment) (layer plane head pos i : Nat) : Nat :=
  d.pageAt layer plane head (pos / d.posPerPage) * 65536 + pos % d.posPerPage * (d.headDim * kvElem d.fmt) + i * kvElem d.fmt

/-- The pages at index `i` of every plane, in the order of R490. -/
def Deployment.blockPages (d : Deployment) (i : Nat) : List Nat := (List.range (d.layers * 2 * d.heads)).map fun p => p * d.planePages + i

/-- The pages that hold positions `a` to `b - 1`, every plane. -/
def Deployment.pagesOf (d : Deployment) (a b : Nat) : List Nat :=
  if b ≤ a then [] else
    (List.range d.planePages).flatMap fun i => if a / d.posPerPage ≤ i ∧ i * d.posPerPage < b then d.blockPages i else []

/-! ## Deployments and requests -/

/-- A request of a deployment; a request changed. -/
def Deployment.req (d : Deployment) (slot : Nat) : Option SReq := Tab.get none d.reqs slot
def Deployment.modReq (d : Deployment) (slot : Nat) (f : SReq → SReq) : Deployment :=
  match d.req slot with
  | some r => { d with reqs := Tab.put none d.reqs slot (some (f r)) }
  | none => d
def Mach.modReq (m : Mach) (id slot : Nat) (f : SReq → SReq) : Mach := m.modDep id fun d => d.modReq slot f
def Mach.req (m : Mach) (id slot : Nat) : Option SReq := (m.dep id).bind fun d => d.req slot

/-- The requests of a deployment with their slots, by slot. -/
def Deployment.live (d : Deployment) : List (Nat × SReq) := d.reqs.filterMap fun e => e.2.map fun r => (e.1, r)

/-! ## Reference counts (R497 to R499) -/

/-- A page table of a region: region page → kind (1 private, 2 shared, 3 host tier) and its frame or host page (R492). -/
abbrev KvTab := Tab (Nat × Nat)

/-- The frames that a table maps. -/
def kvFrames (t : KvTab) : List Nat := (t.filter fun e => e.2.1 == 1 || e.2.1 == 2).map (·.2.2)

/-- A count raised; a count lowered, with the release of a frame whose count reaches 0 (R498, R499); a count that cannot be read does
not change (R643). -/
def Mach.refUp (m : Mach) (f : Nat) : Mach := if m.lostRefs.contains f then m else { m with refs := Tab.upd 0 m.refs f (· + 1) }
def Mach.freeKv (m : Mach) (f : Nat) : Mach :=
  match m.frame f with
  | .kv x => if Tab.get 0 m.refs f = 0 then (m.release f).modCx x fun c => { c with frames := c.frames - 1 } else m
  | _ => m
def Mach.refDown (m : Mach) (f : Nat) : Mach :=
  if m.lostRefs.contains f then m else ({ m with refs := Tab.upd 0 m.refs f (· - 1) }).freeKv f

/-- Frames of a region's own table and generation record: none for a region without pages (R493, R496; log entry 32). -/
def Deployment.tableFrames (d : Deployment) (t : KvTab) : Nat := if t.isEmpty then 0 else ceilDiv d.regionPages 8192 + 1

/-- A table becomes the published generation of a region: its frames gain a reference, those of the generation before lose
theirs, and the context holds the table pages of the new one (R494 to R498). An entry that cannot be read does not change, nor does
anything of a region whose generation record cannot be read (R643). -/
def Mach.publish (m : Mach) (id slot : Nat) (t : KvTab) : Mach :=
  match m.dep id, m.req id slot with
  | some d, some r =>
    if r.lostGen then (kvFrames t).foldl Mach.freeKv (m.modReq id slot fun r => { r with kvNext := none }) else
    let t := r.lostKv.foldl (fun (t : KvTab) p => Tab.put (0, 0) t p (Tab.get (0, 0) r.kv p)) t
    let m := m.modReq id slot fun r => { r with kv := t, kvNext := none, gen := r.gen + 1 }
    let m := m.modCx d.ctx fun c => { c with frames := c.frames + d.tableFrames t - d.tableFrames r.kv }
    (kvFrames r.kv).foldl Mach.refDown ((kvFrames t).foldl Mach.refUp m)
  | _, _ => m

/-- Frames that the regions of a deployment hold or are about to: published and next generations, and the drafts of its running
step, each frame once (kv_page_limit, R447, R482). -/
def Mach.kvHeld (m : Mach) (id : Nat) : Nat :=
  match m.dep id with
  | none => 0
  | some d =>
    let own := d.live.flatMap fun e => kvFrames e.2.kv ++ kvFrames (e.2.kvNext.getD [])
    let steps := (m.cmds.filter fun x => x.q == 16 + id && x.ctx == d.ctx).flatMap fun x => (x.drafts.filter fun y => decide (2 ^ 40 ≤ y.alloc)).map (·.new)
    ((own ++ steps).foldl addNew ([] : List Nat)).length

/-- Frames that a draft could take now: in stacks in service, not in use, and in no block of the grain view (R236). -/
def Mach.freeCount (m : Mach) : Nat :=
  let ok := m.frames.filter fun e => m.stackOk (frameStack e.1)
  let blocks := ((ok.filter fun e => decide (2 ^ 24 ≤ e.1)).map fun e => frameBlock e.1).foldl addNew ([] : List (Nat × Nat × Nat))
  ((List.range 12).filter m.stackOk).length * 2 ^ 20 - 64 * blocks.length
    - (ok.filter fun e => decide (e.1 < 2 ^ 24) && !blocks.contains (frameBlock e.1)).length - m.ringFrames

/-- Room for `n` more frames for the regions of a deployment, `back` frames being on their way out: its kv_page_limit, its
context's page_limit, and frames. -/
def Mach.kvRoom (m : Mach) (id n back : Nat) : Bool :=
  match m.dep id with
  | none => false
  | some d =>
    let c := m.cx d.ctx
    let due := sumNat (d.live.map fun e => e.2.fromHost.length)
    decide (m.kvHeld id + due + n ≤ d.kvLimit) && (c.pageLimit == 0 || decide (c.frames + due + n ≤ c.pageLimit + back)) && decide (due + n ≤ m.freeCount + back)

/-- A word frame of any stack and colour, at a free choice (R479). -/
def Mach.takeAny (m : Mach) (use : FrameUse) : Option (Nat × Mach) :=
  let start := Config.freeChoice m.drawn % (12 * 2 ^ 20)
  let m := { m with drawn := m.drawn + 1 }
  match findFrom (fun i => m.available (i % (12 * 2 ^ 20))) (12 * 2 ^ 20) start with
  | some i => some (i % (12 * 2 ^ 20), m.setFrame (i % (12 * 2 ^ 20)) use)
  | none => none

/-! ## Host tier (R477 to R485) -/

/-- The pages of a region that only it maps, with their frames; a page that others map stays (R477). -/
def Mach.privatePages (m : Mach) (t : KvTab) : List (Nat × Nat) :=
  (t.filter fun e => (e.2.1 == 1 || e.2.1 == 2) && decide (Tab.get 0 m.refs e.2.2 ≤ 1)).map fun e => (e.1, e.2.2)

/-- Host-tier pages of a deployment that hold nothing: `n` of them from a free choice on; none where there are fewer. -/
def Deployment.tierFree (d : Deployment) (start : Nat) : Nat → List Nat → Option (List Nat)
  | 0, acc => some acc
  | n + 1, acc =>
    match findFrom (fun i => (Tab.get none d.tierUsed (i % d.tierPages)).isNone && !acc.contains (i % d.tierPages)) d.tierPages start with
    | some i => d.tierFree start n (acc ++ [i % d.tierPages])
    | none => none

/-- The private pages of a request begin to move to the host tier (R477, R483): its next generation names their host pages, and
their frames are in flight until their copies end. None where the host tier has no room. -/
def Mach.toTier (m : Mach) (id slot : Nat) : Option Mach :=
  match m.dep id, m.req id slot with
  | some d, some r =>
    let pages := m.privatePages r.kv
    match d.tierFree (Config.freeChoice m.drawn) pages.length [] with
    | none => none
    | some hosts =>
      let m := { m with drawn := m.drawn + 1 }
      let moves := pages.zip hosts
      let t := moves.foldl (fun (t : KvTab) e => Tab.put (0, 0) t e.1.1 (3, e.2)) r.kv
      let m := moves.foldl (fun (m : Mach) e => m.setFrame e.1.2 .transit) m
      let m := m.publish id slot t
      some ((m.modDep id fun d => { d with tierUsed := moves.foldl (fun (u : Tab (Option (Nat × Nat))) e => Tab.put none u e.2 (some (slot, e.1.1))) d.tierUsed }).modReq id slot
        fun r => { r with toHost := r.toHost ++ pages })
  | _, _ => none

/-- The host pages of a table. -/
def kvHosts (t : KvTab) : List (Nat × Nat) := (t.filter fun e => e.2.1 == 3).map fun e => (e.1, e.2.2)

/-- Companion memory as the module last wrote it; bytes never written read 0 (log entry 13). -/
def Mach.readComp (m : Mach) (addr n : Nat) : List Byte := (List.range n).map fun i => Tab.get 0 m.comp (addr + i)

/-- Whether every copy of a request to the host tier has ended. -/
def SReq.settled (r : SReq) : Bool := r.toHost.isEmpty

/-- Entries of an opcode that wait for a request complete. -/
def Mach.endTags (m : Mach) (id slot op : Nat) (st : Status) : Mach :=
  match m.dep id, m.req id slot with
  | some d, some r =>
    (r.tags.filter fun t => t.2.2.2 == op).foldl (fun (m : Mach) t => m.complete d.ctx t.1 t.2.1 op t.2.2.1 { st := st })
      (m.modReq id slot fun r => { r with tags := dropWhere (fun t => t.2.2.2 == op) r.tags })
  | _, _ => m

/-- HOST_TIER_COPY_DONE: the copy of a page ends: its bytes stand in the host tier, and its frame is released; after the last one a
PAUSE completes (R477, R483, R499). The bytes are metered as outbound Damger bytes of the context (R676), and their read by firmware's mover
to the overhead account (R677). -/
def Mach.tierCopied (m : Mach) (id slot page : Nat) : Mach :=
  match m.dep id, m.req id slot with
  | some d, some r =>
    match r.toHost.find? (fun e => e.1 == page) with
    | none => m
    | some (_, f) =>
      let host := (Tab.get (0, 0) r.kv page).2
      let ((b, _), m) := (m.firmwareAccess d.ctx (frameDpa f)).readBytes (firmwareAcc d.ctx) (frameDpa f) 65536
      let m := if (Tab.get (0, 0) r.kv page).1 = 3 then (m.writeComp (d.tierBase + host * 65536) b).chargeCtx d.ctx (pathBytes 7 65536) else m
      let m := ((m.chargeOverhead (pathBytes 0 65536)).release f).modCx d.ctx fun c => { c with frames := c.frames - 1 }
      let m := m.modReq id slot fun r => { r with toHost := dropWhere (fun e => e.1 == page) r.toHost }
      match m.req id slot with
      | none => m
      | some r =>
        if r.settled then m.endTags id slot 0x23 .ok else m
  | _, _ => m

def execHostTierCopyDone (dep : BitVec 16) (slot page : Nat) (s : State) : Host.Outcome State Fault Refusal :=
  .next (if s.dispatching = true then s.withMach (s.m.tierCopied dep.toNat slot page) else s)

/-- RESUME_PAGE_RETURN: a page returns into a fresh frame of any colour, where one is free, and its host page is free again; the
next generation maps it (R479, R484, R494). Its bytes are metered as those of a copy to the host tier are (R676, log entry 76). -/
def Mach.pageBack (m : Mach) (id slot page : Nat) : Mach :=
  match m.dep id, m.req id slot with
  | some d, some r =>
    let e := Tab.get (0, 0) (r.kvNext.getD r.kv) page
    if !r.fromHost.contains page || e.1 != 3 || !r.toHost.isEmpty then m else
      match m.takeAny (.kv d.ctx) with
      | none => m
      | some (f, m) =>
        let m := (m.firmwareAccess d.ctx (frameDpa f)).writeBytes (frameDpa f) (m.readComp (d.tierBase + e.2 * 65536) 65536) false
        let m := ((m.chargeOverhead (pathBytes 1 65536)).chargeCtx d.ctx (pathBytes 7 65536)).modCx d.ctx fun c => { c with frames := c.frames + 1 }
        let m := m.modDep id fun d => { d with tierUsed := Tab.put none d.tierUsed e.2 none }
        m.modReq id slot fun r => { r with kvNext := some (Tab.put (0, 0) (r.kvNext.getD r.kv) page (1, f)), fromHost := r.fromHost.erase page }
  | _, _ => m

def execResumePageReturn (dep : BitVec 16) (slot page : Nat) (s : State) : Host.Outcome State Fault Refusal :=
  .next (if s.dispatching = true then s.withMach (s.m.pageBack dep.toNat slot page) else s)

/-- Everything that a request holds goes: its host-tier pages, frames of a copy-back, and the references of its generation (R459,
R476, R480). Frames whose copies run are released as the copies end. -/
def Mach.dropRegion (m : Mach) (id slot : Nat) : Mach :=
  match m.req id slot with
  | none => m
  | some r =>
    let next := kvFrames (r.kvNext.getD [])
    let hosts := (kvHosts r.kv).map (·.2)
    let m := m.publish id slot []
    let m := next.foldl Mach.freeKv m
    (m.modDep id fun d => { d with tierUsed := hosts.foldl (fun (u : Tab (Option (Nat × Nat))) h => Tab.put none u h none) d.tierUsed }).modReq id slot
      fun r => { r with fromHost := [], kvLen := 0 }

/-! ## The prefix tree (R505 to R509) -/

/-- 64-bit FNV-1a over bytes, as the published function computes it. -/
def fnv1a (l : List Byte) : Nat := l.foldl (fun h b => Nat.xor h b.toNat * 0x100000001B3 % 2 ^ 64) 0xCBF29CE484222325

/-- The hash of a block (R506). -/
def blockHash (parent variant : Nat) (toks : List Nat) : Nat := fnv1a (leBytes 8 parent ++ leBytes 2 variant ++ toks.flatMap (leBytes 4))

/-- Tree matching applies to a request; a block of it is eligible; its tokens (R506). -/
def Deployment.matches (d : Deployment) (r : SReq) : Bool := d.treeVa != 0 && r.prefixLen % d.posPerPage == 0
def Deployment.eligible (d : Deployment) (r : SReq) (b : Nat) : Bool :=
  decide (r.prefixLen ≤ b * d.posPerPage) && decide (b * d.posPerPage + d.posPerPage ≤ r.prefixLen + r.promptLen - 1)
def Deployment.blockToks (d : Deployment) (r : SReq) (b : Nat) : List Nat := (r.prompt.drop (b * d.posPerPage - r.prefixLen)).take d.posPerPage

/-- The live children of a node; the child with a hash and variant. -/
def Deployment.children (d : Deployment) (n : Nat) : List (Nat × TNode) := d.tree.filterMap fun e => e.2.bind fun t => if e.1 ≠ 0 ∧ t.parent = n then some (e.1, t) else none
def Deployment.nodeHash (d : Deployment) (n : Nat) : Nat := ((Tab.get none d.tree n).map (·.hash)).getD 0

/-- Matching of a request block by block from a node on: the pages mapped, the blocks taken, the last node (R507). -/
def Deployment.matchFrom (d : Deployment) (r : SReq) : Nat → Nat → Nat → KvTab → Deployment × KvTab × Nat × Nat
  | 0, node, b, t => (d, t, node, b)
  | fuel + 1, node, b, t =>
    if !d.eligible r b then (d, t, node, b) else
      let toks := d.blockToks r b
      let h := blockHash (d.nodeHash node) r.variant toks
      match (d.children node).find? (fun e => e.2.hash == h && e.2.variant == r.variant) with
      | none => (d, t, node, b)
      | some (i, c) =>
        if c.toks ≠ toks then ({ d with treeCollisions := d.treeCollisions + 1 }, t, node, b) else
          let t := ((d.blockPages b).zip c.frames).foldl (fun (t : KvTab) e => Tab.put (0, 0) t e.1 (2, e.2)) t
          let d := { d with treeMatches := d.treeMatches + 1, tree := Tab.put none d.tree i (some { c with matches_ := satAdd 64 c.matches_ 1 }) }
          d.matchFrom r fuel i (b + 1) t

/-- The frames of a block in a generation, where it maps the block's pages all. -/
def Deployment.blockFrames (d : Deployment) (t : KvTab) (b : Nat) : Option (List Nat) :=
  let l := (d.blockPages b).map fun p => Tab.get (0, 0) t p
  if l.all (fun e => e.1 == 1 || e.1 == 2) then some (l.map (·.2)) else none

/-- Blocks that a request has completed are inserted under their parents, up to its valid length (R508). -/
def Deployment.insertFrom (d : Deployment) (slot : Nat) : Nat → Deployment
  | 0 => d
  | fuel + 1 =>
    match d.req slot with
    | none => d
    | some r =>
      let b := r.nextBlk
      if !d.matches r || !r.chain || !d.eligible r b || decide (r.kvLen < (b + 1) * d.posPerPage) then d else
        let toks := d.blockToks r b
        let h := blockHash (d.nodeHash r.node) r.variant toks
        let stop := d.modReq slot fun r => { r with chain := false }
        if (d.children r.node).any (fun e => e.2.hash == h && e.2.variant == r.variant && e.2.toks == toks) then stop else
          match findFrom (fun i => (Tab.get none d.tree i).isNone) (d.treeCap - 1) 1, d.blockFrames r.kv b with
          | none, _ => { stop with treeMisses := d.treeMisses + 1 }
          | _, none => stop
          | some i, some fs =>
            let n : TNode := { hash := h, parent := r.node, variant := r.variant, block := b, holder := slot, matches_ := 0, toks := toks, frames := fs }
            ({ d with tree := Tab.put none d.tree i (some n) }.modReq slot fun r => { r with node := i, nextBlk := b + 1 }).insertFrom slot fuel

/-- A node passes to the lowest slot whose generation maps its pages (R509); with none, it goes. -/
def Deployment.rehold (d : Deployment) : Deployment :=
  let keeps := fun (t : TNode) (e : Nat × SReq) => d.blockFrames e.2.kv t.block == some t.frames
  { d with tree := d.tree.filterMap fun e => match e.2 with
      | none => none
      | some t =>
        if e.1 = 0 then some e
        else if (d.req t.holder).any (fun r => keeps t (t.holder, r)) then some e
        else (d.live.find? (keeps t)).map fun x => (e.1, some { t with holder := x.1 }) }

/-- Nodes whose parent has gone are free, and the nodes below them (R509). -/
def Deployment.prune (d : Deployment) : Nat → Deployment
  | 0 => d
  | fuel + 1 =>
    let t := d.tree.filter fun e => e.2.any fun n => e.1 == 0 || (Tab.get none d.tree n.parent).isSome
    if t.length = d.tree.length then d else ({ d with tree := t }).prune fuel

/-- Requests whose chain ended at a node that has gone extend it no further. -/
def Deployment.unchain (d : Deployment) : Deployment :=
  { d with reqs := d.reqs.map fun e => (e.1, e.2.map fun r => if r.node ≠ 0 ∧ (Tab.get none d.tree r.node).isNone then { r with chain := false } else r) }

/-- The tree after a change of generations. -/
def Deployment.fixTree (d : Deployment) : Deployment := ((d.rehold).prune d.tree.length).unchain

/-- The bytes of a node in device memory (R505): a free one is zero. -/
def Deployment.nodeBytes (d : Deployment) (n : Nat) : List Byte :=
  match Tab.get none d.tree n with
  | none => List.replicate 64 0
  | some t =>
    let kids := (d.children n).map (·.1)
    let sibs := if n = 0 then [] else ((d.children t.parent).map (·.1)).filter fun i => decide (n < i)
    leBytes 8 t.hash ++ leBytes 4 t.parent ++ leBytes 4 (kids.headD 0xFFFFFFFF) ++ leBytes 4 (sibs.headD 0xFFFFFFFF) ++ leBytes 2 t.variant ++ leBytes 1 1
      ++ leBytes 1 0 ++ leBytes 4 t.block ++ leBytes 4 t.holder ++ leBytes 8 t.matches_ ++ leBytes 24 0

/-- The tree's memory brought from an old tree to the present one: nodes that differ, and the tokens of new ones (R505). -/
def Mach.writeTree (m : Mach) (old new : Deployment) : Mach :=
  if new.treeVa = 0 then m else
    let nodes := ((old.tree ++ new.tree).map (·.1)).foldl addNew ([] : List Nat)
    nodes.foldl (fun (m : Mach) n =>
      let m := if old.nodeBytes n = new.nodeBytes n then m else m.storeVa new.ctx (new.treeVa + n * 64) (new.nodeBytes n)
      match Tab.get none new.tree n with
      | some t => if (Tab.get none old.tree n).map (·.toks) = some t.toks then m
          else m.storeVa new.ctx (new.treeVa + new.treeCap * 64 + n * 4 * new.posPerPage) (t.toks.flatMap (leBytes 4))
      | none => m) m

/-! ## The attention fetch unit (R510 to R518) -/

/-- The groups of a launch on a cluster, in batch-block order. -/
def Deployment.launchGroups (d : Deployment) (i : Img) : List Group := i.groups.filterMap fun k => d.batch[k]?

/-- A fault of R518: its cause, request slot and region page. -/
structure AfuFault where
  cause : Nat
  slot : Nat
  page : Nat
  deriving DecidableEq, Repr

/-- One plane of positions `p` to `p + n - 1` of a member, as the generation in force maps it: only positions below kv_len are
read, the others are zero (R491, R514); a page of kind 0 or 3, or beyond the region, is a fault (R518). With it the bytes read, and those of them that cross the bridge. -/
def Mach.stagePlane (m : Mach) (a : Acc) (d : Deployment) (slot : Nat) (r : SReq) (layer plane head p n : Nat) :
    Except AfuFault (List Byte × List Bool × Meters) × Mach :=
  let w := d.headDim * kvElem d.fmt
  (List.range n).foldl (fun (acc : Except AfuFault (List Byte × List Bool × Meters) × Mach) t =>
    match acc.1 with
    | .error _ => acc
    | .ok (b, q, k) =>
      if r.kvLen ≤ p + t then (.ok (b ++ List.replicate w 0, q ++ List.replicate (w / 8) false, k), acc.2) else
        let page := d.pageAt layer plane head ((p + t) / d.posPerPage)
        let e := r.kvEntry page
        if d.regionPages ≤ page then (.error ⟨3, slot, page⟩, acc.2)
        else if e.1 = 0 then (.error ⟨1, slot, page⟩, acc.2)
        else if e.1 = 3 then (.error ⟨2, slot, page⟩, acc.2)
        else
          let ((x, y), m) := acc.2.readBytes a (frameDpa e.2 + (p + t) % d.posPerPage * w) w
          (.ok (b ++ x, q ++ y, (k.add (pathBytes 0 w)).add (bridgeBytes (dieOfCluster a.unit) (dieOfStack (frameStack e.2)) w)), m)) (.ok ([], [], {}), m)

/-- The part of one core of a block: K plane, V plane behind it (R513). -/
def Mach.stagePart (m : Mach) (a : Acc) (d : Deployment) (slot : Option Nat) (layer head p n : Nat) : Except AfuFault (List Byte × List Bool × Meters) × Mach :=
  match slot.bind fun s => (d.req s).map fun r => (s, r) with
  | none => (.ok ([], [], {}), m)
  | some (s, r) =>
    match m.stagePlane a d s r layer 0 head p n with
    | (.error f, m) => (.error f, m)
    | (.ok (k, kp, kb), m) =>
      match m.stagePlane a d s r layer 1 head p n with
      | (.error f, m) => (.error f, m)
      | (.ok (v, vp, vb), m) => (.ok (k ++ v, kp ++ vp, kb.add vb), m)

/-- A part laid into a block at a core's offset, with its poison. -/
def layPart (r : Ram) (c : Nat) (b : List Byte) (p : List Bool) : Ram :=
  p.zipIdx.foldl (fun (r : Ram) e => r.putWord (c * 8192 + e.2) ⟨BitVec.ofNat 64 (fld b (8 * e.2) 8), e.1⟩) r

/-- A block of a group for `cores` cores: one part for each member of a decode group; the one copy of a prefill group is read once and
stands as every core's part (R513, R515). -/
def Mach.stageBlock (m : Mach) (a : Acc) (d : Deployment) (g : Group) (cores layer head p : Nat) : Except AfuFault (Ram × Meters) × Mach :=
  if g.prefill then
    match m.stagePart a d (g.members.headD none) layer head p d.attnBlock with
    | (.error f, m) => (.error f, m)
    | (.ok (b, q, used), m) => (.ok ((List.range cores).foldl (fun (r : Ram) k => layPart r k b q) {}, used), m)
  else
    (List.range cores).foldl (fun (acc : Except AfuFault (Ram × Meters) × Mach) k =>
      match acc.1 with
      | .error _ => acc
      | .ok (r, used) =>
        match acc.2.stagePart a d (g.members.getD k none) layer head p d.attnBlock with
        | (.error f, m) => (.error f, m)
        | (.ok (b, q, n), m) => (.ok (layPart r k b q, used.add n), m)) (.ok ({}, {}), m)

/-- Layer, group, head and iteration of block `n` of a walk over `g` groups of `h` heads and `l` iterations (R510). -/
def walkAt (n g h l : Nat) : Nat × Nat × Nat × Nat := (n / (g * h * l), n / (h * l) % g, n / l % h, n % l)

/-- A fault of the AFU: sticky bits, the first fault's record, the event, and the end of the serve step (R486, R518). -/
def Mach.afuFails (m : Mach) (c : Nat) (x : Cmd) (f : AfuFault) : Mach :=
  let m := m.modCl c fun k => { k with afu :=
    if k.afu.faultValid then { k.afu with st := 3, faultSeen := true }
    else { k.afu with st := 3, faultSeen := true, faultValid := true, faultCause := f.cause, faultReq := f.slot, faultPage := f.page } }
  let m := m.post .afuFault (some x.ctx) (uCluster c) [packWord [(56, f.cause), (55, 1), (24, f.slot % 65536), (0, f.page % 2 ^ 24)], BitVec.ofNat 64 x.seq]
  m.fail x .afuFault (detailWord srcMast f.cause c)

/-- AFU_BLOCK_STAGED: the next block of the walk is staged in a free slot: block n + 3 only once block n or a later one has been
addressed (R510 to R518); a cluster that waits for it goes on. A poisoned word of it has its command touch poison (R640). -/
def Mach.afuStage (m : Mach) (c : Nat) : Mach :=
  let cl := m.cl c
  let u := cl.afu
  match cl.cmd.bind m.cmdOf, m.dep u.dep with
  | some x, some d =>
    match x.placed.find? (fun p => p.1 == c) with
    | none => m
    | some (_, _, img) =>
      let n := u.next
      if u.st = 0 ∨ u.st = 3 ∨ u.total ≤ n ∨ x.kind ≠ .serve then m
      else if 3 ≤ n ∧ (match u.touched with | some k => decide (k + 3 < n) | none => true) = true then m.modCl c fun k => { k with afu := { k.afu with st := 2 } }
      else
        let gs := d.launchGroups img
        let (l, gi, h, j) := walkAt n gs.length d.heads ((gs.headD ⟨false, 0, 0, [], 1, 0, 0⟩).loops)
        match gs[gi]? with
        | none => m
        | some g =>
          let a : Acc := ⟨whoAfu, x.ctx, c, x.seq⟩
          let layer := (d.attn.getD u.entry (0, 0)).1 + l
          match m.stageBlock a d g cl.phys.length layer h (j * d.attnBlock) with
          | (.error f, m) => m.afuFails c x f
          | (.ok (r, used), m) =>
            let m := if r.poison.any (·.2) then m.touchPoison x.seq (uCluster c) 0 else m
            let bytes := Tab.get 0 used.bytes 0
            let m := m.modCl c fun k =>
              let miss := dropWhere (· == (2, n)) k.miss
              let y := { k with afu := { k.afu with st := 1, next := n + 1, staged := Tab.put none k.afu.staged n (some r), bytes := (k.afu.bytes + bytes) % 2 ^ 64 }, miss := miss }
              if miss.isEmpty && !k.miss.isEmpty then y.clear srcCache else y
            (m.modCmd x fun y => { y with meters := y.meters.add used }).count 1 c 0x40 bytes
  | _, _ => m

def execAfuBlockStaged (c : Fin 32) (s : State) : Host.Outcome State Fault Refusal := .next (s.withMach (s.m.afuStage c.val))

end Sys2Proof.Machine
end

