-- ==== Sys2Proof/Machine/Sampling.lean ====
section
/-! DEFINITION. Sampling of a token from a row of FP32 logits, and the check of draft tokens (R465 to R467). -/
namespace Sys2Proof.Machine

/-- What sampling of a request goes by: temperature, top_k (0: no limit) and top_p. -/
structure SampleBy where
  temperature : BitVec 32
  topK : Nat
  topP : BitVec 32
  deriving DecidableEq, Repr

/-- An entry put into a list ordered by `before`, behind the entries that it does not precede. -/
def insertBy {α : Type} (before : α → α → Bool) (x : α) : List α → List α
  | [] => [x]
  | y :: r => if before x y then x :: y :: r else y :: insertBy before x r

/-- A list in the order of `before`, equal entries as they stood. -/
def orderBy {α : Type} (before : α → α → Bool) (l : List α) : List α := l.foldl (fun a x => insertBy before x a) []

/-- FP32 quotient, rounded to nearest even (log entry 33). -/
def fdiv32 (a b : Nat) : Nat :=
  match fp32.decode a, fp32.decode b with
  | .fin s m e, .fin t n f =>
    if n = 0 then (if m = 0 then fp32.nanBits else fp32.infBits (s != t))
    else fp32.roundFin .rne (s != t) (2 * (m * 2 ^ 64 / n) + b2n (m * 2 ^ 64 % n != 0)) (e - f - 65)
  | .inf s, .fin t _ _ => fp32.infBits (s != t)
  | .fin s _ _, .inf t => fp32.signed (s != t) 0
  | _, _ => fp32.nanBits

/-- An FP32 value that is at least 0 in units of 2^−149; 0 for any other. -/
def fpUnits (v : Nat) : Nat :=
  match fp32.decode v with
  | .fin false m e => if 0 ≤ e + 149 then m * 2 ^ (e + 149).toNat else 0
  | _ => 0

/-- One in those units. -/
def fpOne : Nat := 2 ^ 149

/-- Greedy choice: the index of the largest entry, the lowest among equals; a NaN never wins; none where every entry is one. -/
def argmax (row : List Nat) : Option Nat :=
  (row.zipIdx.foldl (fun (best : Option (Nat × Nat)) e =>
    if fp32.decode e.1 = .nan then best else
      match best with
      | none => some e
      | some b => if (fp32.decode b.1).lt (fp32.decode e.1) then some e else best) none).map (·.2)

/-- The weights that softmax gives kept entries (index, z): e^(z − max) by VEXP, NaN and −∞ weighing nothing (R465). -/
def softWeights (kept : List (Nat × Nat)) : List (Nat × Nat) :=
  let top := match argmax (kept.map (·.2)) with | some i => (kept.getD i (0, 0)).2 | none => 0
  kept.map fun e =>
    (e.1, if fp32.decode e.2 = .nan then 0
      else if (fp32.decode e.2).eq (fp32.decode top) then fpOne
      else fpUnits (exp32 (fadd fp32 e.2 (fp32.encode .rne (fp32.decode top).neg))))

/-- The entries kept at a temperature, by index with their weights in descending order, ties to lower indices: the top_k largest z,
then the shortest prefix whose cumulative p reaches top_p (R465). -/
def keptTokens (b : SampleBy) (row : List Nat) : List (Nat × Nat) :=
  let z := row.zipIdx.map fun e => (e.2, fdiv32 e.1 b.temperature.toNat)
  let byZ := orderBy (fun (x y : Nat × Nat) => (fp32.decode y.2).lt (fp32.decode x.2) || (fp32.decode x.2 != .nan && fp32.decode y.2 == .nan)) z
  let top := if b.topK = 0 then byZ else byZ.take b.topK
  let w := orderBy (fun (x y : Nat × Nat) => decide (y.2 < x.2) || (x.2 == y.2 && decide (x.1 < y.1))) (softWeights top)
  let total := sumNat (w.map (·.2))
  let n := (List.range w.length).find? fun n => decide (fpUnits b.topP.toNat * total ≤ sumNat ((w.take (n + 1)).map (·.2)) * fpOne)
  match n with | some n => w.take (n + 1) | none => w

/-- The first token in order at which the cumulative weight exceeds u of the total, u being `u` / 2^32; none where nothing weighs. -/
def drawFrom (u : Nat) (w : List (Nat × Nat)) : Option Nat :=
  let total := sumNat (w.map (·.2))
  ((List.range w.length).find? fun n => decide (u * total < sumNat ((w.take (n + 1)).map (·.2)) * 2 ^ 32)).bind fun n => (w[n]?).map (·.1)

/-- R465 on one row: greedy at temperature 0, else drawn with u. None where no entry can be chosen. -/
def sampleRow (b : SampleBy) (u : BitVec 32) (row : List (BitVec 32)) : Option Nat :=
  let row := row.map (·.toNat)
  if b.temperature.toNat % 2 ^ 31 = 0 then argmax row else drawFrom u.toNat (keptTokens b row)

/-- The probability of each entry under R465, as weights over a total: a greedy choice has all of it. -/
def rowWeights (b : SampleBy) (row : List (BitVec 32)) : List (Nat × Nat) :=
  let r := row.map (·.toNat)
  if b.temperature.toNat % 2 ^ 31 = 0 then (match argmax r with | some i => [(i, 1)] | none => []) else keptTokens b r

/-- The weight of an entry. -/
def weightOf (w : List (Nat × Nat)) (i : Nat) : Nat := ((w.find? fun e => e.1 == i).map (·.2)).getD 0

/-- What a draft phase proposes at a position: the token, its draft probability, and the draft distribution, in FP32. -/
abbrev DraftTok := Nat × BitVec 32 × List (BitVec 32)

/-- Acceptance of a draft under accept_rule 1: u ≤ min(1, p_t / p_d), exactly (R467). -/
def ratioAccepts (u : BitVec 32) (w : List (Nat × Nat)) (t : DraftTok) : Bool :=
  let total := sumNat (w.map (·.2))
  decide (u.toNat * fpUnits t.2.1.toNat * total ≤ 2 ^ 32 * weightOf w t.1 * fpOne)

/-- The weights max(0, p_t − p_d), in index order (R467). -/
def residual (w : List (Nat × Nat)) (pd : List (BitVec 32)) : List (Nat × Nat) :=
  let total := sumNat (w.map (·.2))
  pd.zipIdx.map fun e => (e.2, weightOf w e.2 * fpOne - fpUnits e.1.toNat * total)

/-- A draft token is accepted: under accept_rule 0 where it is the token sampled at its position, under accept_rule 1 by the ratio of its
probabilities (R467). -/
def acceptsDraft (rule : Nat) (b : SampleBy) (u : BitVec 32) (row : List (BitVec 32)) (t : DraftTok) : Bool :=
  if rule = 0 then sampleRow b u row == some t.1 else ratioAccepts u (rowWeights b row) t

/-- The tokens of a sequence from its target rows and drafts, checked in order (R467): `none` stands where no entry of a row can be
chosen. `draw` gives u for a position. At the first rejection, under either rule, the token comes from max(0, p_t − p_d), and checking stops. -/
def checkDrafts (rule : Nat) (b : SampleBy) (draw : Nat → BitVec 32) : (pos : Nat) → List (List (BitVec 32)) → List DraftTok → List (Option Nat)
  | _, [], _ => []
  | pos, row :: _, [] => [sampleRow b (draw pos) row]
  | pos, row :: rows, t :: ts =>
    if acceptsDraft rule b (draw pos) row t then some t.1 :: checkDrafts rule b draw (pos + 1) rows ts
    else [drawFrom (draw pos).toNat (orderBy (fun (x y : Nat × Nat) => decide (y.2 < x.2)) (residual (rowWeights b row) t.2.2))]

end Sys2Proof.Machine
end

