-- ==== Sys2Proof/Machine/Deploy.lean ====
section
/-! DEFINITION. The serving entries: DEPLOY, ADMIT, CANCEL, PAUSE, RESUME and UNDEPLOY, and the restart of a serve queue (R447 to
R457, R476 to R481, R487, R488, R504, R583). -/
namespace Sys2Proof.Machine

/-! ## DEPLOY (R447, R448, R487, R488) -/

/-- A record that an entry names: BAD_PARAM where it does not translate, POISONED where it reads as poison. -/
def Mach.takeRecord (m : Mach) (ctx va n : Nat) : Try (List Byte) :=
  match m.fetchVa ctx va n with
  | (none, m) => (.error .badParam, m)
  | (some (_, true), m) => (.error .poisoned, m)
  | (some (b, false), m) => (.ok b, m)

/-- The bucket edges of a descriptor: ascending, multiples of attn_block, the last at least max_seq_len, unused ones 0. -/
def edgesOk (b : List Byte) : Bool :=
  let n := fld b 0x0F 1
  let e := fun (i : Nat) => fld b (0x80 + 4 * i) 4
  ((List.range 16).all fun i => if i < n then e i % fld b 0x1A 2 == 0 && (i == 0 || decide (e (i - 1) < e i)) else e i == 0)
    && decide (0 < e 0) && decide (fld b 0x24 4 ≤ e (n - 1))

/-- The fields of a deployment descriptor within their ranges (R447). -/
def deployOk (c : Ctx) (ctx : Nat) (b : List Byte) : Bool :=
  fld b 0 4 == 0x4C504450 && fld b 4 2 == 1 && fld b 6 2 == ctx && (fld b 8 4 &&& (2 ^ 32 - 1 - c.clusterMask.toNat)) == 0
    && decide (fld b 0x0C 1 ≤ 2) && decide (fld b 0x0D 1 ≤ 8) && decide (fld b 0x0E 1 ≤ 1) && decide (1 ≤ fld b 0x0F 1) && decide (fld b 0x0F 1 ≤ 16)
    && decide (1 ≤ fld b 0x18 2) && decide (fld b 0x18 2 ≤ 64) && decide (16 ≤ fld b 0x1A 2) && decide (fld b 0x1A 2 ≤ 1024)
    && popcount 16 (fld b 0x1A 2) == 1 && decide (1 ≤ fld b 0x1C 4) && decide (fld b 0x1C 4 ≤ 16384) && decide (1 ≤ fld b 0x20 4)
    && decide (fld b 0x20 4 ≤ 4096) && decide (64 ≤ fld b 0x28 4) && decide (fld b 0x28 4 ≤ 8192) && fld b 0x28 4 % 64 == 0
    && decide (2 ≤ fld b 0x2C 4) && decide (fld b 0x2C 4 ≤ 524288) && decide (fld b 0x34 4 ≤ 10000) && decide (fld b 0x38 2 ≤ 1024)
    && zeros b 0x3A 2 && decide (fld b 0x3C 4 ≤ 65535) && (fld b 0x0C 1 != 0 || (fld b 0x3C 4 == 0 && fld b 0x40 8 == 0))
    && decide (256 ≤ fld b 0x50 4) && decide (fld b 0x50 4 ≤ 1048576) && popcount 32 (fld b 0x50 4) == 1 && zeros b 0x54 4
    && fld b 0x60 8 % 65536 == 0 && fld b 0x68 8 % 65536 == 0 && edgesOk b && fld b 0xD0 8 % 65536 == 0 && zeros b 0xD8 40

/-- A step table from its bytes, and its ranges: kinds, scopes, stages that do not fall, reserved bytes. -/
def parseSteps (b : List Byte) : List (Nat × Nat × Nat × Nat) :=
  (List.range (b.length / 32)).map fun i => (fld b (32 * i) 1, fld b (32 * i + 1) 1, fld b (32 * i + 2) 1, fld b (32 * i + 8) 8)
def stepsOk (b : List Byte) : Bool :=
  (List.range (b.length / 32)).all fun i =>
    (fld b (32 * i) 1 == 1 || fld b (32 * i) 1 == 2) && decide (fld b (32 * i + 1) 1 ≤ 3) && decide (fld b (32 * i + 2) 1 ≤ 63)
      && zeros b (32 * i + 3) 5 && zeros b (32 * i + 16) 16 && (i == 0 || decide (fld b (32 * i - 30) 1 ≤ fld b (32 * i + 2) 1))

/-- The fields of a KV geometry record within their ranges (R487), and the conditions of R488, for a deployment record that the
descriptor and the geometry give. -/
def geomOk (g : List Byte) (d : Deployment) : Bool :=
  fld g 0 4 == 0x4C504B47 && fld g 4 2 == 1 && [0, 2, 3, 8, 9].contains (fld g 6 1) && zeros g 7 1 && decide (1 ≤ d.layers) && decide (d.layers ≤ 128)
    && decide (1 ≤ d.heads) && decide (d.heads ≤ 64) && decide (1 ≤ d.qPerKv) && decide (d.qPerKv ≤ 16)
    && [128, 256, 512, 1024, 2048].contains (d.headDim * kvElem d.fmt) && zeros g 0x0E 2 && d.arena % 65536 == 0
    && (if d.treeVa = 0 then d.treeCap == 0 else decide (2 ≤ d.treeCap) && decide (d.treeCap ≤ 1048576)) && zeros g 0x24 28
    && (d.table.zipIdx.all fun e =>
          let a := d.attn.getD e.2 (0, 0)
          a.2 == 0 || (decide (a.1 + a.2 ≤ d.layers) && e.1.1 == 1))
    && decide (2 * d.attnBlock * (d.headDim * kvElem d.fmt) ≤ 65536) && decide (d.regionPages ≤ 2 ^ 24)
    && decide (d.arena + d.maxReq * d.regionBytes ≤ 2 ^ 52)

/-- A deployment from its descriptor, step table and geometry. -/
def parseDeploy (ctx : Nat) (b t g : List Byte) : Deployment :=
  { ctx := ctx, clusterMask := fld b 8 4, mode := fld b 0x0C 1, spec := fld b 0x0D 1, rule := fld b 0x0E 1, table := parseSteps t,
    attnBlock := fld b 0x1A 2, maxReq := fld b 0x1C 4, maxBatch := fld b 0x20 4, maxSeq := fld b 0x24 4, chunk := fld b 0x28 4, vocab := fld b 0x2C 4,
    wcetUs := fld b 0x30 4, fillUs := fld b 0x34 4, minRows := fld b 0x38 2, ringVa := fld b 0x48 8, ringLen := fld b 0x50 4, mirrorVa := fld b 0x58 8,
    tierBase := fld b 0x60 8, tierPages := fld b 0x68 8 / 65536, stops := ((List.range 4).map fun i => fld b (0x70 + 4 * i) 4).filter (· != 0xFFFFFFFF),
    edges := (List.range (fld b 0x0F 1)).map fun i => fld b (0x80 + 4 * i) 4, kvLimit := fld b 0xC0 8, fmt := fld g 6 1, layers := fld g 8 2,
    heads := fld g 0x0A 1, qPerKv := fld g 0x0B 1, headDim := fld g 0x0C 2, arena := fld g 0x10 8, treeVa := fld g 0x18 8, treeCap := fld g 0x20 4,
    attn := (List.range (t.length / 32)).map fun i => (fld g (0x40 + 4 * i) 2, fld g (0x42 + 4 * i) 2), batchVa := fld b 0xD0 8 }

/-- The images of a step table read and checked (R73, R310, R448). -/
def Mach.checkSteps (m : Mach) (ctx : Nat) (t : List (Nat × Nat × Nat × Nat)) : Try Unit :=
  (Try.each (fun (e : Nat × Nat × Nat × Nat) (m : Mach) =>
    if e.1 = 1 then (m.readImages ctx e.2.2.2 0).andThen fun _ m => (.ok (), m)
    else (m.readSpar ctx e.2.2.2 0).andThen fun _ m => (.ok (), m)) t m).andThen fun _ m => (.ok (), m)

/-- A frame that a prefix page list may name: one that the context holds (log entry 34). -/
def Mach.prefixFrame (m : Mach) (ctx dpa : Nat) : Bool :=
  dpa % 65536 == 0 && decide (dpa < 12 * 2 ^ 36) && (m.frame (frameOf dpa) == .ctx ctx || m.frame (frameOf dpa) == .kv ctx)

/-- One variant of the variant table: its address and count, and in prefix mode the frames of its page list (R452, R504). -/
def Mach.readVariant (m : Mach) (d : Deployment) (va i : Nat) : Try (Nat × Nat × List Nat) :=
  (m.takeRecord d.ctx (va + 16 * i) 16).andThen fun b m =>
  let a := fld b 0 8
  let n := fld b 8 8
  if d.mode = 1 then (.ok (a, n, []), m)
  else if i = 0 then (m.need (a == 0 && n == 0) .badParam).andThen fun _ m => (.ok (0, 0, []), m)
  else
    (m.need (decide (1 ≤ n) && decide (n < d.maxSeq)) .badParam).andThen fun _ m =>
    let k := d.layers * 2 * d.heads * ceilDiv n d.posPerPage
    (m.takeRecord d.ctx a (8 * k)).andThen fun l m =>
    let dpas := (List.range k).map fun j => fld l (8 * j) 8
    (m.need (dpas.all (m.prefixFrame d.ctx)) .badParam).andThen fun _ m => (.ok (a, n, dpas.map frameOf), m)

/-- A descriptor read and checked, with everything that it names. -/
def Mach.readDeploy (m : Mach) (ctx va : Nat) : Try Deployment :=
  (m.takeRecord ctx va 256).andThen fun b m =>
  (m.need (deployOk (m.cx ctx) ctx b) .badParam).andThen fun _ m =>
  (m.takeRecord ctx (fld b 0x10 8) (32 * fld b 0x18 2)).andThen fun t m =>
  (m.need (stepsOk t) .badParam).andThen fun _ m =>
  (m.takeRecord ctx (fld b 0xC8 8) 320).andThen fun g m =>
  let d := parseDeploy ctx b t g
  (m.need (geomOk g d) .badParam).andThen fun _ m =>
  (Try.each (fun i (m : Mach) => m.readVariant d (fld b 0x40 8) i) (if d.mode = 0 then [] else List.range (fld b 0x3C 4)) m).andThen fun vs m =>
  (m.checkSteps ctx d.table).andThen fun _ m =>
  (m.need (decide (sumNat (m.deps.map fun e => (e.2.map (·.maxReq)).getD 0) + d.maxReq ≤ 16384)) .tableFull).andThen fun _ m =>
    (.ok { d with variants := vs.map fun v => (v.1, v.2.1), prefixFrames := vs.map fun v => v.2.2 }, m)

/-- A deployment opens: its prefix variants map their frames (R497), and its tree has its root (R505). -/
def Mach.openDep (m : Mach) (id : Nat) (d : Deployment) : Mach :=
  let m := d.prefixFrames.foldl (fun (m : Mach) l => (l.foldl addNew ([] : List Nat)).foldl (fun (m : Mach) f => (m.setFrame f (.kv d.ctx)).refUp f) m) m
  let root : TNode := { hash := 0, parent := 0xFFFFFFFF, variant := 0, block := 0, holder := 0, matches_ := 0, toks := [], frames := [] }
  let n := if d.treeVa = 0 then d else { d with tree := [(0, some root)] }
  let n := { n with boundaryAt := m.now }
  { (m.writeTree d n) with deps := Tab.put none m.deps id (some n) }

/-- DEPLOY: the descriptor is read once and checked, and a free identifier is given (R447, R448). -/
def Mach.deploy (m : Mach) (e : Ent) : Mach :=
  match m.readDeploy e.ctx (e.fld 0x10 8) with
  | (.error st, m) => m.endEntry e { st := st }
  | (.ok d, m) =>
    match m.pick ((List.range 16384).filter fun i => (m.dep i).isNone) with
    | (some id, m) => (m.openDep id d).endEntry e { st := .ok, result := id }
    | (none, m) => m.endEntry e { st := .tableFull }

def execDeploy (ctx : Fin 4096) (q : Fin 16) (s : State) : Host.Outcome State Fault Refusal :=
  .next (entryRow s ctx.val q.val (·.op == 0x20) fun e m => m.deploy e)

/-! ## ADMIT (R455, R456) -/

/-- The deployment that an entry names, where the context has it and it is open to the entry. -/
def Mach.depOf (m : Mach) (ctx id : Nat) : Option Deployment := (m.dep id).bind fun d => if d.ctx = ctx then some d else none

/-- An ADMIT record within its ranges; L + prompt_len must leave a position to compute (log entry 34). -/
def admitOk (d : Deployment) (b : List Byte) : Bool :=
  let v := fld b 2 2
  let n := fld b 4 4
  let p := fp32.decode (fld b 0x24 4)
  (if d.mode = 0 then v == 0 else decide (v < d.variants.length)) && decide (1 ≤ n) && decide (n < d.maxSeq) && decide (1 ≤ fld b 0x10 4)
    && decide (fld b 0x10 4 ≤ d.maxSeq - n) && decide (fld b 0x1C 1 ≤ 3) && zeros b 0x1D 1 && decide (fld b 0x1E 2 ≤ 1024)
    && (FVal.fin false 0 0).lt p && !((FVal.fin false 1 0).lt p) && zeros b 0x38 8
    && decide ((if d.mode = 2 then (d.variants.getD v (0, 0)).2 else 0) + n < d.maxSeq)

/-- A request from its ADMIT record. -/
def parseAdmit (d : Deployment) (b : List Byte) (now : Nat) : SReq :=
  { id := 0, cancelOnMiss := bitAt (fld b 0x1C 1) 0, ignoreStop := bitAt (fld b 0x1C 1) 1, variant := fld b 2 2, promptLen := fld b 4 4,
    promptVa := fld b 8 8, prefixLen := if d.mode = 2 then (d.variants.getD (fld b 2 2) (0, 0)).2 else 0, maxNew := fld b 0x10 4, arrival := now,
    ttft := fld b 0x14 4, tbt := fld b 0x18 4, seed := BitVec.ofNat 64 (fld b 0x28 8), tag := BitVec.ofNat 64 (fld b 0x30 8),
    temperature := BitVec.ofNat 32 (fld b 0x20 4), topP := BitVec.ofNat 32 (fld b 0x24 4), topK := fld b 0x1E 2 }

/-- ADMIT: refused at once, or accepted until the boundary that applies it; its arrival is the time that it is read (R455, R456). -/
def Mach.takeAdmit (m : Mach) (e : Ent) : Mach :=
  match m.takeRecord e.ctx (e.fld 0x10 8) 64 with
  | (.error st, m) => m.endEntry e { st := st }
  | (.ok b, m) =>
    match m.depOf e.ctx (fld b 0 2) with
    | none => m.endEntry e { st := .deployState }
    | some d =>
      if d.closing.isSome then m.endEntry e { st := .deployState }
      else if !admitOk d b then m.endEntry e { st := .badParam }
      else if d.maxReq ≤ d.live.length + d.admits.length then m.endEntry e { st := .tableFull }
      else m.modDep (fld b 0 2) fun d => { d with admits := d.admits ++ [(e.q, e.tag, e.flags, parseAdmit d b m.now)] }

def execAdmit (ctx : Fin 4096) (q : Fin 16) (s : State) : Host.Outcome State Fault Refusal :=
  .next (entryRow s ctx.val q.val (·.op == 0x21) fun e m => m.takeAdmit e)

/-! ## CANCEL, PAUSE, RESUME (R476 to R481) -/

/-- The slot of a request identifier; REQ_UNKNOWN where no request has it. -/
def Deployment.slotOf (d : Deployment) (id : Nat) : Option (Nat × SReq) := (d.req (id % 65536)).bind fun r => if r.id = id then some (id % 65536, r) else none

/-- CANCEL: held for the next boundary. -/
def execCancel (ctx : Fin 4096) (q : Fin 16) (s : State) : Host.Outcome State Fault Refusal :=
  .next (entryRow s ctx.val q.val (·.op == 0x22) fun e m =>
    if (m.depOf e.ctx (e.fld 0x10 2)).isNone then m.endEntry e { st := .deployState }
    else m.modDep (e.fld 0x10 2) fun d => { d with cancels := d.cancels ++ [(e.q, e.tag, e.flags, e.fld 0x14 4)] })

/-- PAUSE: held for the next boundary, with a time to live within its range. -/
def execPause (ctx : Fin 4096) (q : Fin 16) (s : State) : Host.Outcome State Fault Refusal :=
  .next (entryRow s ctx.val q.val (·.op == 0x23) fun e m =>
    if e.fld 0x18 4 = 0 ∨ 86400000 < e.fld 0x18 4 then m.endEntry e { st := .badParam }
    else if (m.depOf e.ctx (e.fld 0x10 2)).isNone then m.endEntry e { st := .deployState }
    else m.modDep (e.fld 0x10 2) fun d => { d with pauses := d.pauses ++ [(e.q, e.tag, e.flags, e.fld 0x14 4, e.fld 0x18 4)] })

/-- RESUME: of a request that is not `paused`, or whose time to live has ended, it completes at once; otherwise the time to live
stops, and the next boundary applies it (R479 to R481). -/
def Mach.resume (m : Mach) (e : Ent) : Mach :=
  match m.depOf e.ctx (e.fld 0x10 2) with
  | none => m.endEntry e { st := .deployState }
  | some d =>
    match d.slotOf (e.fld 0x14 4) with
    | none => m.endEntry e { st := .reqUnknown }
    | some (_, r) =>
      if r.st ≠ .paused ∨ d.resumes.any (fun x => x.2.2.2 == r.id) = true then m.endEntry e { st := .reqState }
      else if r.ttlEnd ≤ m.now then m.endEntry e { st := .reqExpired }
      else m.modDep (e.fld 0x10 2) fun d => { d with resumes := d.resumes ++ [(e.q, e.tag, e.flags, r.id)] }

def execResume (ctx : Fin 4096) (q : Fin 16) (s : State) : Host.Outcome State Fault Refusal :=
  .next (entryRow s ctx.val q.val (·.op == 0x24) fun e m => m.resume e)

/-! ## UNDEPLOY and restart (R454, R583) -/

/-- UNDEPLOY: no further ADMIT is taken; in cancel mode every request is cancelled at the next boundary. -/
def Mach.undeploy (m : Mach) (e : Ent) (cancel : Bool) : Mach :=
  match m.depOf e.ctx (e.fld 0x10 2) with
  | none => m.endEntry e { st := .deployState }
  | some d =>
    if 1 < e.fld 0x12 1 then m.endEntry e { st := .badParam }
    else if d.closing.isSome then m.endEntry e { st := .deployState }
    else m.modDep (e.fld 0x10 2) fun d => { d with closing := some (e.q, e.tag, e.flags), cancelAll := cancel }

def execUndeployFinish (ctx : Fin 4096) (q : Fin 16) (s : State) : Host.Outcome State Fault Refusal :=
  .next (entryRow s ctx.val q.val (fun e => e.op == 0x25 && e.fld 0x12 1 != 1) fun e m => m.undeploy e false)
def execUndeployCancel (ctx : Fin 4096) (q : Fin 16) (s : State) : Host.Outcome State Fault Refusal :=
  .next (entryRow s ctx.val q.val (fun e => e.op == 0x25 && e.fld 0x12 1 == 1) fun e m => m.undeploy e true)

/-- HYV_SERVE_CTL_RESTART: the stop of a serve queue of the context ends; any other deployment is left alone (R583). -/
def execHyvServeCtlRestart (ctx : Fin 4096) (dep : BitVec 16) (s : State) : Host.Outcome State Fault Refusal :=
  .next (if s.servedFullWrite = true ∧ (s.m.depOf ctx.val dep.toNat).isSome = true then
    s.withMach (s.m.modDep dep.toNat fun d => { d with stopped := none }) else s)

end Sys2Proof.Machine
end

