-- ==== Sys2Proof/Machine/Boundary.lean ====
section
/-! DEFINITION. The step boundary: its twelve items, the shaping of a batch and the launch of a serve step (R449 to R454, R458 to
R464, R469 to R485, R495 to R509). -/
namespace Sys2Proof.Machine

/-! ## Deadlines (R471 to R475) -/

/-- The deadline of a request's next token; 0 where no target applies (R471, R474). -/
def SReq.deadline (r : SReq) : Nat :=
  if r.firstPost = 0 then (if r.ttft = 0 then 0 else r.arrival + r.ttft * 1000)
  else if r.tbt = 0 then 0
  else if r.lastPost + r.tbt * 1000 ≤ r.missedAt then r.missedAt + r.tbt * 1000 else r.lastPost + r.tbt * 1000

/-- Misses of a request at a boundary (R474): its TTFT deadline once, each of its TBT deadlines that have passed. -/
def SReq.misses (r : SReq) (now : Nat) : Nat :=
  let dl := r.deadline
  if dl = 0 ∨ now ≤ dl ∨ r.st = .done then 0
  else if r.firstPost = 0 then (if r.st ≠ .decode ∧ r.missedAt < dl then 1 else 0)
  else if r.st = .decode ∨ r.st = .swapped then ceilDiv (now - dl) (r.tbt * 1000) else 0

/-- A request with its misses counted: flags, and whether its deadline action is to cancel it (R475). -/
def SReq.missed (r : SReq) (now : Nat) : SReq :=
  if r.misses now = 0 then r else
    { r with ttftMissed := r.ttftMissed || r.firstPost == 0, cancelDue := r.cancelOnMiss,
             missedAt := if r.firstPost = 0 then r.deadline else r.deadline + (r.misses now - 1) * (r.tbt * 1000) }

/-- The misses of a boundary: counted to the context's serving meters. -/
def Mach.countMisses (m : Mach) (id : Nat) : Mach :=
  match m.dep id with
  | none => m
  | some d =>
    let n := sumNat (d.live.map fun e => e.2.misses m.now)
    (m.modDep id fun d => { d with reqs := d.reqs.map fun e => (e.1, e.2.map fun r => r.missed m.now) }).chargeCtx d.ctx { late := n }

/-! ## Token records (R468 to R470) -/

/-- A token record. -/
def tokenBytes (id tok pos index count flags now : Nat) (tag : Word) : List Byte :=
  leBytes 4 id ++ leBytes 4 tok ++ leBytes 4 pos ++ leBytes 1 index ++ leBytes 1 count ++ leBytes 2 flags ++ leBytes 8 now ++ leBytes 8 tag.toNat

/-- Room in the token ring of a deployment for `n` records; none where its index words cannot be read. -/
def Mach.tokenRoom (m : Mach) (d : Deployment) (n : Nat) : Option Nat × Mach :=
  match m.ringIndex d.ctx d.ringVa with
  | (some x, m) => (if n ≤ ringRoom d.ringLen x then some x.1 else none, m)
  | (none, m) => (none, m)

/-- A request ends with one final record without a token, where the ring has room (R469, R470): everything that it holds goes,
entries that wait for it complete with REQ_STATE, and it is `done`. -/
def Mach.endRequest (m : Mach) (id slot flags : Nat) : Option Mach :=
  match m.dep id, m.req id slot with
  | some d, some r =>
    match m.tokenRoom d 1 with
    | (none, _) => none
    | (some p, m) =>
      let m := m.ringWrite d.ctx d.ringVa d.ringLen p [tokenBytes r.id 0xFFFFFFFF (r.prefixLen + r.promptLen + r.generated) 0 1 (4 + flags) m.now r.tag]
      let m := (m.chargeCtx d.ctx { tokens := 1 }).dropRegion id slot
      let m := (m.endTags id slot 0x23 .reqState).endTags id slot 0x24 .reqState
      some (m.modReq id slot fun r => { r with st := .done, ttlEnd := 0, lastPost := m.now })
  | _, _ => none

/-! ## Items 1 and 2: retiring a step, freeing entries (R458, R495, R502, R503, R508) -/

/-- The positions by which the retired step extends a member. -/
def Deployment.growth (d : Deployment) (g : Group) (slot : Nat) : Nat :=
  if g.prefill then g.rows else ((d.grown.find? fun e => e.1 == slot).map (·.2)).getD 0

/-- The next generation without the pages that the step opened and no valid position lies in, and their frames (R503). -/
def Deployment.trim (d : Deployment) (r : SReq) (len : Nat) : KvTab × List Nat :=
  let t := r.kvNext.getD r.kv
  let bad := fun (e : Nat × Nat × Nat) => (Tab.get (0, 0) r.kv e.1).1 == 0 && decide (len ≤ e.1 % d.planePages * d.posPerPage)
  (dropWhere bad t, kvFrames (t.filter bad))

/-- One member of the retired step: its generation is published with its new valid length, and its state moves on. -/
def Mach.retireOne (m : Mach) (id : Nat) (g : Group) (slot : Nat) : Mach :=
  match m.dep id, m.req id slot with
  | some d, some r =>
    let len := r.kvLen + d.growth g slot
    let (t, gone) := d.trim r len
    let m := gone.foldl Mach.freeKv (m.publish id slot t)
    m.modReq id slot fun r =>
      let pre := if g.prefill then r.prefilled + g.rows else r.prefilled
      { r with kvLen := len, prefilled := pre, st := if r.st = .done then .done else if pre < r.promptLen then .prefill else .decode }
  | _, _ => m

/-- Item 1. -/
def Mach.retire (m : Mach) (id : Nat) : Mach :=
  match m.dep id with
  | none => m
  | some d =>
    let members := d.batch.flatMap fun g => (g.members.filterMap fun s => s).map fun s => (g, s)
    let m := members.foldl (fun (m : Mach) e => m.retireOne id e.1 e.2) m
    m.modDep id fun d =>
      let d := members.foldl (fun (d : Deployment) e => d.insertFrom e.2 d.planePages) d
      { d with batch := [], tokens := [], grown := [] }

/-- Item 2: entries of `done` requests are free once nothing of theirs is in flight to the host tier. -/
def Mach.freeDoneReqs (m : Mach) (id : Nat) : Mach :=
  match m.dep id with
  | none => m
  | some d =>
    (d.live.filter fun e => e.2.st == .done && e.2.toHost.isEmpty).foldl (fun (m : Mach) e =>
      (m.dropRegion id e.1).modDep id fun d => { d with reqs := Tab.put none d.reqs e.1 none }) m

/-- The prefix tree follows the generations (R509). -/
def Mach.followTree (m : Mach) (id : Nat) : Mach := m.modDep id Deployment.fixTree

/-! ## Items 3 to 6: cancellations, pauses, expiry, resumes (R459, R475 to R481) -/

/-- An entry held for a request: its slot, or the status that ends it. -/
def Mach.heldFor (m : Mach) (id reqId : Nat) : Except Status (Nat × SReq) :=
  match (m.dep id).bind fun d => d.slotOf reqId with
  | none => .error .reqUnknown
  | some (s, r) => if r.st = .done then .error .reqState else .ok (s, r)

/-- Item 3: CANCEL entries in arrival order, then every request of a deployment that is being cancelled, then deadline actions. -/
def Mach.cancels (m : Mach) (id : Nat) : Mach :=
  match m.dep id with
  | none => m
  | some d =>
    let m := m.modDep id fun d => { d with cancels := [] }
    let m := d.cancels.foldl (fun (m : Mach) e =>
      match m.heldFor id e.2.2.2 with
      | .error st => m.complete d.ctx e.1 e.2.1 0x22 e.2.2.1 { st := st }
      | .ok (s, _) =>
        match m.endRequest id s 8 with
        | some m => m.complete d.ctx e.1 e.2.1 0x22 e.2.2.1 { st := .ok }
        | none => m.modDep id fun d => { d with cancels := d.cancels ++ [e] }) m
    let all := fun (m : Mach) => ((m.dep id).map (·.live)).getD []
    let m := if d.cancelAll then ((all m).filter fun e => e.2.st != .done).foldl (fun (m : Mach) e => (m.endRequest id e.1 8).getD m) m else m
    ((all m).filter fun e => e.2.st != .done && e.2.cancelDue).foldl (fun (m : Mach) e =>
      match m.endRequest id e.1 24 with
      | some m => m.modReq id e.1 fun r => { r with byDeadline := true }
      | none => m) m

/-- Item 4, one PAUSE: the private pages start for the host tier, where they find room (R459, R477, R478). -/
def Mach.pauseOne (m : Mach) (id ctx : Nat) (e : Nat × Word × Nat × Nat × Nat) : Mach :=
  let fin := fun (m : Mach) (st : Status) => m.complete ctx e.1 e.2.1 0x23 e.2.2.1 { st := st }
  match m.heldFor id e.2.2.2.1 with
  | .error st => fin m st
  | .ok (s, r) =>
    if r.st = .paused ∨ r.st = .resuming then fin m .reqState else
      let m0 := match r.kvNext with | some t => m.publish id s t | none => m
      match m0.toTier id s with
      | none => fin m0 .hostTierFull
      | some m =>
        let m := m.modReq id s fun r =>
          { r with st := .paused, before := if r.st = .swapped then r.before else r.st, fromHost := [], ttlEnd := m.now + e.2.2.2.2 * 1000000 }
        match m.req id s with
        | some r => if r.settled then fin m .ok else m.modReq id s fun r => { r with tags := r.tags ++ [(e.1, e.2.1, e.2.2.1, 0x23)] }
        | none => m

/-- Item 4. -/
def Mach.pauses (m : Mach) (id : Nat) : Mach :=
  match m.dep id with
  | none => m
  | some d => d.pauses.foldl (fun (m : Mach) e => m.pauseOne id d.ctx e) (m.modDep id fun d => { d with pauses := [] })

/-- Item 5: `paused` requests whose time to live has ended, and that no RESUME has reached in time (R480). -/
def Mach.expire (m : Mach) (id : Nat) : Mach :=
  match m.dep id with
  | none => m
  | some d =>
    (d.live.filter fun e => e.2.st == .paused && decide (e.2.ttlEnd ≤ m.now) && !d.resumes.any fun x => x.2.2.2 == e.2.id).foldl (fun (m : Mach) e =>
      match m.endRequest id e.1 32 with
      | some m => m.post .pauseExpired (some d.ctx) uModule [BitVec.ofNat 64 id, BitVec.ofNat 64 e.2.id]
      | none => m) m

/-- A request whose pages are all back goes on in the state it held. -/
def Mach.rejoin (m : Mach) (id slot : Nat) : Mach :=
  match m.req id slot with
  | none => m
  | some r =>
    let m := match r.kvNext with | some t => m.publish id slot t | none => m
    (m.modReq id slot fun r => { r with st := r.before }).endTags id slot 0x24 .ok

/-- Item 6: RESUMEs that were read take effect, and requests whose last page has returned rejoin (R479). -/
def Mach.resumes (m : Mach) (id : Nat) : Mach :=
  match m.dep id with
  | none => m
  | some d =>
    let m := d.resumes.foldl (fun (m : Mach) e =>
      match m.heldFor id e.2.2.2 with
      | .ok (s, r) =>
        if r.st = .paused then m.modReq id s fun r =>
          { r with st := .resuming, ttlEnd := 0, fromHost := (kvHosts r.kv).map (·.1), tags := r.tags ++ [(e.1, e.2.1, e.2.2.1, 0x24)] }
        else m.complete d.ctx e.1 e.2.1 0x24 e.2.2.1 { st := .reqState }
      | .error st => m.complete d.ctx e.1 e.2.1 0x24 e.2.2.1 { st := st }) (m.modDep id fun d => { d with resumes := [] })
    (((m.dep id).map (·.live)).getD []).foldl (fun (m : Mach) e =>
      if e.2.st = .resuming ∧ e.2.fromHost.isEmpty ∧ e.2.toHost.isEmpty then m.rejoin id e.1 else m) m

/-! ## Item 7: swapped requests return (R484) -/

/-- `swapped` requests by arrival. -/
def Deployment.swapped (d : Deployment) : List (Nat × SReq) :=
  orderBy (fun (x y : Nat × SReq) => decide (x.2.arrival < y.2.arrival)) (d.live.filter fun e => e.2.st == .swapped)

/-- Item 7: the oldest first, while frames allow; one whose pages are all back rejoins. -/
def Mach.swapsBack (m : Mach) (id : Nat) : Mach :=
  match m.dep id with
  | none => m
  | some d =>
    (d.swapped.foldl (fun (acc : Bool × Mach) e =>
      let (go, m) := acc
      let hosts := (kvHosts (e.2.kvNext.getD e.2.kv)).map (·.1)
      if !e.2.toHost.isEmpty then (go, m)
      else if hosts.isEmpty then (go, m.rejoin id e.1)
      else if !e.2.fromHost.isEmpty ∨ go = false then (go, m)
      else if m.kvRoom id hosts.length 0 then (true, m.modReq id e.1 fun r => { r with fromHost := hosts })
      else (false, m)) (true, m)).2

/-! ## Item 8: admissions (R455, R458, R504, R507) -/

/-- The pages that a prefix variant maps into a region, as shared ones (R504). -/
def Deployment.prefixTab (d : Deployment) (r : SReq) : KvTab :=
  let n := ceilDiv r.prefixLen d.posPerPage
  if r.prefixLen = 0 then [] else
    (d.prefixFrames.getD r.variant []).zipIdx.foldl (fun (t : KvTab) e => Tab.put (0, 0) t (e.2 / n * d.planePages + e.2 % n) (2, e.1)) []

/-- A request with its identifier, seed, and what its prefix and the tree give it. -/
def Mach.admitOne (m : Mach) (id slot : Nat) (r : SReq) (prompt : List Nat) : Mach :=
  match m.dep id with
  | none => m
  | some d =>
    let gen := Tab.get 0 d.gens slot % 65535 + 1
    let rid := gen * 65536 + slot
    let r := { r with id := rid, prompt := prompt, seed := if r.seed = 0 then Config.derivedSeed rid r.arrival else r.seed, kvLen := r.prefixLen }
    let b0 := r.prefixLen / d.posPerPage
    let (d', t, node, b) := if d.matches r then d.matchFrom r d.planePages 0 b0 (d.prefixTab r) else (d, d.prefixTab r, 0, b0)
    let pre := (b - b0) * d.posPerPage
    let r := { r with prefilled := pre, kvLen := r.prefixLen + pre, node := node, nextBlk := b, st := if pre = 0 then .queued else .prefill }
    let m := m.modDep id fun _ => { d' with reqs := Tab.put none d'.reqs slot (some r), gens := Tab.put 0 d'.gens slot gen }
    m.publish id slot t

/-- Item 8: ADMIT entries in arrival order, up to the first that would break kv_page_limit; none while a request is `swapped`. -/
def Mach.admits (m : Mach) (id : Nat) : Mach :=
  match m.dep id with
  | none => m
  | some d =>
    if !d.swapped.isEmpty then m else
      (d.admits.foldl (fun (acc : Bool × Mach) e =>
        let (go, m) := acc
        let (q, tag, flags, r) := e
        let fin := fun (m : Mach) (o : Outcome1) => (m.modDep id fun d => { d with admits := d.admits.drop 1 }).complete d.ctx q tag 0x21 flags o
        match m.dep id with
        | none => acc
        | some d =>
          let news := (kvFrames (d.prefixTab r)).filter fun f => !(d.live.any fun x => (kvFrames x.2.kv).contains f)
          if go = false ∨ d.kvLimit < m.kvHeld id + news.length then (false, m) else
            match m.takeRecord d.ctx r.promptVa (4 * r.promptLen) with
            | (.error st, m) => (true, fin m { st := st })
            | (.ok b, m) =>
              match m.pick ((List.range d.maxReq).filter fun s => (d.req s).isNone) with
              | (none, m) => (false, m)
              | (some slot, m) =>
                let m := m.admitOne id slot r ((List.range r.promptLen).map fun i => fld b (4 * i) 4)
                (true, fin m { st := .ok, result := ((m.req id slot).map (·.id)).getD 0 })) (true, m)).2

/-! ## Item 9: the batch (R460) -/

/-- Rows of a request in a step: a prefill chunk, or 1 + spec_tokens. -/
def Deployment.rowsOf (d : Deployment) (r : SReq) : Nat := if r.prefilled < r.promptLen then min d.chunk (r.promptLen - r.prefilled) else 1 + d.spec

/-- Its context length after the step, and the bucket of that length. -/
def Deployment.lenAfter (d : Deployment) (r : SReq) : Nat := min d.maxSeq (r.kvLen + d.rowsOf r)
def Deployment.bucketOf (d : Deployment) (r : SReq) : Nat := (d.edges.findIdx? fun e => decide (d.lenAfter r ≤ e)).getD (d.edges.length - 1)

/-- R460's order: ascending deadline, then those without one by arrival. -/
def reqBefore (x y : Nat × SReq) : Bool :=
  let a := x.2.deadline
  let b := y.2.deadline
  if a ≠ 0 then b == 0 || decide (a < b) else b == 0 && decide (x.2.arrival < y.2.arrival)

/-- Item 9. -/
def Deployment.select (d : Deployment) : List (Nat × SReq) :=
  (orderBy reqBefore (d.live.filter fun e => e.2.st == .queued || e.2.st == .prefill || e.2.st == .decode)).take d.maxBatch

/-! ## Item 10: frames and victims (R482 to R485, R501) -/

/-- The pages that a request's step writes; each needs one frame. -/
def Deployment.stepPages (d : Deployment) (r : SReq) : List Nat := d.pagesOf r.kvLen (d.lenAfter r)

/-- Item 10: victims leave until the rest fit, latest arrival first; one for which the host tier has no room leaves the batch only. -/
def Mach.fitBatch (id : Nat) : Nat → Mach → List (Nat × SReq) → List (Nat × SReq) × Mach
  | 0, m, l => (l, m)
  | fuel + 1, m, l =>
    match m.dep id with
    | none => (l, m)
    | some d =>
      let need := sumNat (l.map fun e => (d.stepPages e.2).length)
      let back := sumNat (d.live.map fun e => e.2.toHost.length)
      if m.kvRoom id need back then (l, m) else
        let latest := fun (c : List (Nat × SReq)) => (orderBy (fun (x y : Nat × SReq) => decide (y.2.arrival < x.2.arrival)) c).head?
        match latest (l.filter fun e => e.2.st != .queued && m.privatePages e.2.kv != []) with
        | some e =>
          let rest := dropWhere (fun x => x.1 == e.1) l
          match m.toTier id e.1 with
          | some m => Mach.fitBatch id fuel (m.modReq id e.1 fun r => { r with st := .swapped, before := r.st }) rest
          | none => Mach.fitBatch id fuel (m.modDep id fun d => { d with exhausted := true }) rest
        | none =>
          match latest l with
          | some e => Mach.fitBatch id fuel (m.modDep id fun d => { d with exhausted := true }) (dropWhere (fun x => x.1 == e.1) l)
          | none => (l, m)

/-- One cache-exhausted event for a boundary at which frames ran out. -/
def Mach.reportExhausted (m : Mach) (id : Nat) : Mach :=
  match m.dep id with
  | some d => if d.exhausted then (m.modDep id fun d => { d with exhausted := false }).post .cacheExhausted (some d.ctx) uModule [BitVec.ofNat 64 id] else m
  | none => m

/-! ## Item 11: groups, clusters, the batch block (R461 to R464) -/

/-- A list cut into pieces of `n`. -/
def chunksOf {α : Type} (n : Nat) : Nat → List α → List (List α)
  | 0, _ => []
  | fuel + 1, l => if l.isEmpty then [] else l.take n :: chunksOf n fuel (l.drop n)

/-- The clusters of a deployment, and the least count of enabled cores among them. -/
def Deployment.clusters (d : Deployment) : List Nat := setBits 32 d.clusterMask
def Mach.leastCores (m : Mach) (d : Deployment) : Nat := (d.clusters.map fun c => (m.cl c).phys.length).foldl min 8

/-- The groups of a batch in the order in which equal weights are taken (R462, R463). -/
def Mach.formGroups (m : Mach) (d : Deployment) (l : List (Nat × SReq)) : List Group :=
  let n := max 1 (m.leastCores d)
  let loops := fun (b : Nat) => d.edges.getD b 0 / d.attnBlock
  let pre := (l.filter fun e => decide (e.2.prefilled < e.2.promptLen)).map fun e =>
    let b := d.bucketOf e.2
    ({ prefill := true, bucket := b, cluster := 0, members := [some e.1], loops := loops b, perCore := ceilDiv (d.rowsOf e.2) n, rows := d.rowsOf e.2 } : Group)
  let dec := (List.range d.edges.length).reverse.flatMap fun b =>
    (chunksOf n l.length (l.filter fun e => decide (e.2.promptLen ≤ e.2.prefilled) && d.bucketOf e.2 == b)).map fun g =>
      ({ prefill := false, bucket := b, cluster := 0, members := g.map fun e => some e.1, loops := loops b, perCore := 1 + d.spec, rows := 1 + d.spec } : Group)
  pre ++ dec

/-- The weight of a group (R463). -/
def Group.weight (g : Group) : Nat := g.loops * g.perCore

/-- A step-table entry applies to a group. -/
def entryFor (prefill : Bool) (e : Nat × Nat × Nat × Nat) : Bool := e.1 == 1 && e.2.1 == (if prefill then 2 else 1)

/-- Groups assigned in descending order of weight, each to the cluster with the least total so far that can hold its images; a
group that none can hold stays out. The totals add the weights of R463, whatever cores the cluster has that a group is assigned to (R462). -/
def Mach.assign (m : Mach) (d : Deployment) (can : Nat → Bool → Bool) (gs : List Group) : List Group :=
  ((orderBy (fun (x y : Group) => decide (y.weight < x.weight)) gs).foldl (fun (acc : List Group × Tab Nat) g =>
    let ok := d.clusters.filter fun c => can c g.prefill
    match ok.foldl (fun (b : Option Nat) c => match b with
        | none => some c
        | some x => if Tab.get 0 acc.2 c < Tab.get 0 acc.2 x then some c else some x) none with
    | none => acc
    | some c =>
      let n := (m.cl c).phys.length
      let w := g.weight
      let g := if g.prefill then { g with cluster := c, perCore := ceilDiv g.rows n }
        else { g with cluster := c, members := g.members ++ List.replicate (n - g.members.length) none }
      (acc.1 ++ [g], Tab.upd 0 acc.2 c (· + w))) (([] : List Group), ([] : Tab Nat))).1

/-- Groups in cluster order. -/
def inClusterOrder (gs : List Group) : List Group := orderBy (fun (x y : Group) => decide (x.cluster < y.cluster)) gs

/-- The sequence entries of a group as (request slot, rows). -/
def Group.seqs (g : Group) : List (Option Nat × Nat) := g.members.map fun s => (s, if s.isSome then g.rows else 0)

/-- The batch block of a step (R464). -/
def Deployment.batchBlock (d : Deployment) (gs : List Group) : List Byte :=
  let seqs := gs.flatMap Group.seqs
  let header := leBytes 8 d.step ++ leBytes 4 (sumNat (seqs.map (·.2))) ++ leBytes 4 seqs.length ++ leBytes 4 gs.length
    ++ leBytes 4 (0x140 + 16 * gs.length) ++ leBytes 40 0
  let clusters := (List.range 32).flatMap fun c =>
    leBytes 4 ((gs.findIdx? fun g => g.cluster == c).getD 0) ++ leBytes 4 (gs.filter fun g => g.cluster == c).length
  let groups := gs.zipIdx.flatMap fun e =>
    let g := e.1
    leBytes 1 (b2n g.prefill) ++ leBytes 1 g.bucket ++ leBytes 1 g.cluster ++ leBytes 1 (g.members.filter Option.isSome).length ++ leBytes 4 g.loops
      ++ leBytes 4 (sumNat ((gs.take e.2).map fun x => x.members.length)) ++ leBytes 4 g.perCore
  let entries := seqs.zipIdx.flatMap fun e =>
    match e.1.1.bind fun s => (d.req s).map fun r => (s, r) with
    | none => leBytes 32 0
    | some (s, r) =>
      let last := decide (r.prefilled < r.promptLen) && r.prefilled + e.1.2 == r.promptLen
      leBytes 4 r.id ++ leBytes 2 r.variant ++ leBytes 2 (b2n last) ++ leBytes 4 r.kvLen ++ leBytes 4 e.1.2
        ++ leBytes 4 (sumNat ((seqs.take e.2).map (·.2))) ++ leBytes 8 (d.regionVa s) ++ leBytes 1 (if r.prefilled < r.promptLen then 0 else d.spec) ++ leBytes 3 0
  header ++ clusters ++ groups ++ entries

/-- The address of a step's batch block. -/
def Deployment.blockVa (d : Deployment) : Nat := d.batchVa + 524288 * (d.step % 2)

/-! ## Launches of a stage (R449, R450, R510, R516) -/

/-- The argument block of a launch on a cluster. -/
def Deployment.argBlock (d : Deployment) (i : Img) (groups loops : Nat) : List Byte :=
  slice (leBytes 8 d.blockVa ++ leBytes 8 d.step ++ leBytes 8 groups ++ leBytes 8 loops) 0 i.args

/-- An image as a launch gives it to a cluster: its argument block, groups and walk. -/
def Deployment.launchImg (d : Deployment) (i : Img) (entry count : Nat) (groups : List Nat) : Img :=
  let gs := groups.filterMap fun k => d.batch[k]?
  let loops := (gs.map (·.loops)).headD 0
  { i with clusters := count, argBytes := d.argBlock i groups.length loops, entry := entry, groups := groups,
           walk := (d.attn.getD entry (0, 0)).2 * sumNat (gs.map fun g => d.heads * g.loops) }

/-- The checks of an image that is to run: loop bounds and handles; handle 0 names the AFU window where it is read (R516). -/
def Mach.checkLaunch (m : Mach) (ctx : Nat) (i : Img) : Try Unit :=
  (m.need (loopsOk i) .loopBound).andThen fun _ m =>
  (m.need (i.io.all fun e => (e.desc == 0 && e.mode == 1) || (m.descOf ctx e.desc).isSome) .staleDesc).andThen fun _ m =>
  (m.need (i.io.all fun e => (e.desc == 0 && e.mode == 1) || (m.descOf ctx e.desc).any fun d => d.space == 0 && d.grid.isNone) .badImage)

/-- A launch of a mast entry on clusters, each with the groups it gets. -/
def Mach.launchOn (m : Mach) (d : Deployment) (vs : List Variant) (entry : Nat) (l : List (Nat × List Nat)) : Try (List (Nat × Nat × Img)) :=
  Try.each (fun (e : (Nat × List Nat) × Nat) (m : Mach) =>
    match (m.cl e.1.1).select vs with
    | none => (.error .badImage, m)
    | some v =>
      let i := d.launchImg v.img entry l.length e.1.2
      (m.checkLaunch d.ctx i).andThen fun _ m => (.ok (e.1.1, e.2, i), m)) l.zipIdx m

/-- The groups of a batch on each cluster, where `p` holds. -/
def Deployment.groupsOn (d : Deployment) (p : Group → Bool) : List (Nat × List Nat) :=
  let l := (d.batch.zipIdx.filter fun e => p e.1).map fun e => (e.1.cluster, e.2)
  ((l.map (·.1)).foldl addNew ([] : List Nat)).map fun c => (c, (l.filter fun e => e.1 == c).map (·.2))

/-- The launches that a mast entry of a scope makes: (clusters with groups) of each. -/
def Deployment.launchSets (d : Deployment) (scope : Nat) : List (List (Nat × List Nat)) :=
  if scope = 1 then ((List.range d.edges.length).map fun b => d.groupsOn fun g => !g.prefill && g.bucket == b).filter fun l => !l.isEmpty
  else (d.batch.zipIdx.filter fun e => e.1.prefill).map fun e => [(e.1.cluster, [e.2])]

/-- What a stage launches: mast launches, spar images, completion flags. -/
structure StagePlan where
  mast : List (Nat × Nat × Img) := []
  spar : List Img := []
  dones : List (Nat × Word) := []
  deriving DecidableEq, Repr

/-- An image whose predicate is false is left out (R80 to R82; log entry 35). -/
def Mach.wanted (m : Mach) (ctx : Nat) (i : Img) : Try Bool :=
  m.predicate { seq := 0, ctx := ctx, q := 16, pos := 0, kind := .serve } i.predVa i.predOp i.predVal

/-- One mast entry of a stage planned. -/
def Mach.planMast (m : Mach) (d : Deployment) (k : Nat) (e : Nat × Nat × Nat × Nat) : Try StagePlan :=
  (m.readImages d.ctx e.2.2.2 0).andThen fun vs m =>
  match m.pick (vs.map (·.img)) with
  | (none, m) => (.ok {}, m)
  | (some first, m) =>
    (m.wanted d.ctx first).andThen fun ok m =>
    if !ok then (.ok {}, m) else
      let flags := doneOf first.doneVa first.doneAdd
      if e.2.1 = 0 ∨ e.2.1 = 3 then
        let fits := d.clusters.filter fun c => ((m.cl c).select vs).isSome
        let n := min (maxNat (vs.map fun v => v.img.clusters)) fits.length
        let (cs, m) := m.pickMany n fits
        (m.need (n != 0) .badImage).andThen fun _ m =>
        (m.launchOn d vs k (cs.map fun c => (c, []))).andThen fun l m => (.ok { mast := l, dones := flags }, m)
      else
        (Try.each (fun l (m : Mach) => m.launchOn d vs k l) (d.launchSets e.2.1) m).andThen fun ls m =>
          (.ok { mast := ls.flatten, dones := if ls.isEmpty then [] else flags }, m)

/-- How often an entry of a scope is launched: once, or once for each decode bucket or prefill group of the batch; scope 3 only where
spec_tokens is above 0 (R449). -/
def Deployment.launchCount (d : Deployment) (scope : Nat) : Nat :=
  if scope = 1 ∨ scope = 2 then (d.launchSets scope).length else if scope = 3 ∧ d.spec = 0 then 0 else 1

/-- A stage planned: every entry of it that applies (R449). -/
def Mach.planStage (m : Mach) (d : Deployment) (stage : Nat) : Try StagePlan :=
  (Try.each (fun (e : (Nat × Nat × Nat × Nat) × Nat) (m : Mach) =>
    if e.1.2.2.1 ≠ stage ∨ d.launchCount e.1.2.1 = 0 then
      (.ok ({} : StagePlan), m)
    else if e.1.1 = 1 then m.planMast d e.2 e.1
    else (m.readSpar d.ctx e.1.2.2.2 0).andThen fun i m =>
      (m.need (m.allLive d.ctx i.handles && i.io.all (m.bindingOk d.ctx i)) .badBinding).andThen fun _ m =>
      (m.wanted d.ctx i).andThen fun ok m => (.ok (if ok then { spar := List.replicate (d.launchCount e.1.2.1) i, dones := doneOf i.doneVa i.doneAdd } else ({} : StagePlan)), m)) d.table.zipIdx m).andThen
    fun l m => (.ok { mast := l.flatMap (·.mast), spar := l.flatMap (·.spar), dones := l.flatMap (·.dones) }, m)

/-- A serve queue stops with a status, and is reported (R486, R583). -/
def Mach.stopServe (m : Mach) (id : Nat) (st : Status) : Mach :=
  match m.dep id with
  | none => m
  | some d =>
    (m.modDep id fun d => { d with stopped := some st, batch := [], tokens := [], grown := [], stageOn := false }).post .deployStopped (some d.ctx) uModule
      [BitVec.ofNat 64 id, BitVec.ofNat 64 d.step, BitVec.ofNat 64 st.code, 0]

/-- The stages of a step table, rising, and the one after a stage. -/
def Deployment.nextStage (d : Deployment) (after : Option Nat) : Option Nat :=
  ((d.table.map fun e => e.2.2.1).filter fun s => after.all fun a => decide (a < s)).foldl (fun (b : Option Nat) s =>
    match b with | none => some s | some x => some (min x s)) none

/-- The clusters of a plan may be bound to the step: vacant or taken from BE commands, with residence for its context. -/
def Mach.stageOpen (m : Mach) (d : Deployment) (p : StagePlan) : Bool :=
  ((p.mast.map (·.1)).foldl addNew ([] : List Nat)).all fun c =>
    (m.mayUse d.ctx c) && m.canReside d.ctx c && (m.nextOpen c || m.preemptible c)

/-- A spar image of a stage takes its cores where they are all idle and no other context is granted their stacks (R316, R668); its log
follows those of the step's other images (R314). -/
def Mach.serveBind (m : Mach) (seq : Nat) (i : Img) : Mach :=
  match m.cmdOf seq with
  | none => m
  | some x =>
    if m.ctr.grants.any (fun g => g.ctx != x.ctx && (g.memStacks &&& i.stackMask) != 0) || !(i.coreSet.all fun sc => (m.sparCore sc.1 sc.2).st == .idle) then m
    else i.coreSet.foldl (fun (m : Mach) sc => m.modSpar sc.1 sc.2 fun k => { k with st := .bound, cmd := seq })
      (m.modCmd x fun y => { y with sparQ := y.sparQ.erase i, spars := y.spars ++ [⟨{ i with logBase := y.log.length }, false, []⟩], log := y.log ++ i.log })

/-- A spar image that holds its cores is loaded, given its pages, and started (R316). -/
def Mach.serveStart (m : Mach) (seq : Nat) (r : SparRun) : Mach :=
  match m.cmdOf seq with
  | none => m
  | some x =>
    let x := { x with img := r.img, argBlk := [] }
    let m := m.sparLoads x
    if !(x.img.coreSet.all fun sc => (m.sparCore sc.1 sc.2).st == .bound && (m.sparCore sc.1 sc.2).digest == some x.img.digest) then m else
      match m.recallFirst ((m.bindPages x).map fun p => p.2.1.frame) [] with
      | some m => m
      | none => (m.takePages x).startCores x

/-- The spar entries of a stage run at the same time, each as its cores become idle (R449). -/
def Mach.serveSpar (m : Mach) (x : Cmd) : Mach :=
  let m := x.sparQ.foldl (fun (m : Mach) i => m.serveBind x.seq i) m
  match m.cmdOf x.seq with
  | none => m
  | some y => (y.spars.filter fun r => !r.resolved).foldl (fun (m : Mach) r => m.serveStart x.seq r) m

/-- A stage starts: the first launch of each cluster is bound, further ones wait behind it, and its spar images take their cores (R449). -/
def Mach.startStage (m : Mach) (id : Nat) (x : Cmd) (p : StagePlan) : Mach :=
  let cs := (p.mast.map (·.1)).foldl addNew ([] : List Nat)
  let firsts := cs.filterMap fun c => p.mast.find? fun e => e.1 == c
  let rest := firsts.foldl (fun (l : List (Nat × Nat × Img)) e => l.erase e) p.mast
  let m := m.modCmd x fun y => { y with placed := firsts, more := rest, boundary := [], sparQ := p.spar, img := {}, dones := y.dones ++ p.dones }
  let m := m.modDep id fun d => { d with stageOn := true }
  match m.cmdOf x.seq with
  | some y => (cs.foldl (fun (m : Mach) c => m.bindCluster y c) m).serveSpar y
  | none => m

/-- The stage that is due starts, where its clusters are open; a stage that fails its checks ends the step (R486). -/
def Mach.tryStage (m : Mach) (id : Nat) (x : Cmd) : Mach :=
  match m.dep id with
  | none => m
  | some d =>
    if d.stageOn then m else
      match m.planStage d d.stage with
      | (.error st, m) => m.fail x st 0
      | (.ok p, m) => if m.stageOpen d p then m.startStage id x p else m

/-! ## Item 12: the launch (R451, R470, R500) -/

/-- The KV drafts of a step: a blank frame for a page that no generation maps, a copy of the same colour for a mapped one (R500); or the
frame of a page for which none is free, 0 where any would do. -/
def Mach.kvDrafts (m : Mach) (id seq : Nat) (d : Deployment) (l : List (Nat × SReq)) : Except Nat (List Draft × Mach) :=
  (l.flatMap fun e => (d.stepPages e.2).map fun p => (e.1, p, Tab.get (0, 0) e.2.kv p)).foldl (fun (acc : Except Nat (List Draft × Mach)) w =>
    match acc with
    | .error f => .error f
    | .ok (ds, m) =>
      let key := regionKey id w.1
      if w.2.2.1 = 1 ∨ w.2.2.1 = 2 then
        match m.takeOf (draftPool w.2.2.2) (.draft seq) with
        | some r => .ok (ds ++ [{ alloc := key, page := w.2.1, old := w.2.2.2, new := r.1, copying := true }], r.2)
        | none => .error w.2.2.2
      else match m.takeAny (.draft seq) with
        | some r => .ok (ds ++ [{ alloc := key, page := w.2.1, old := r.1, new := r.1, copying := false }], r.2)
        | none => .error 0) (.ok ([], m))

/-- The drafts of the outputs of the images that a step may run. -/
def Mach.outputWants (m : Mach) (d : Deployment) : Try (List Want) :=
  (Try.each (fun (e : Nat × Nat × Nat × Nat) (m : Mach) =>
    if e.1 = 1 then (m.readImages d.ctx e.2.2.2 0).andThen fun vs m => (.ok (vs.map (·.img)), m)
    else (m.readSpar d.ctx e.2.2.2 0).andThen fun i m => (.ok [i], m)) d.table m).andThen fun l m =>
    (.ok (((l.flatten.flatMap fun i => (i.io.filter fun e => e.mode != 1 && e.desc != 0).flatMap fun e => m.wantsOf d.ctx e.desc e.mode e.overlap).foldl
      (fun a w => addWant a w.1 w.2) []).map (·.1)), m)

/-- A sequence that is sampled: its slot, its logit rows, whether it is a decode sequence. -/
def Deployment.sampled (d : Deployment) : List (Nat × Nat × Bool) :=
  d.batch.flatMap fun g => (g.members.filterMap fun s => s).filterMap fun s =>
    match d.req s with
    | none => none
    | some r => if g.prefill then (if r.prefilled + g.rows = r.promptLen then some (s, 1, false) else none) else some (s, 1 + d.spec, true)

/-- A launch that waits for a draft frame or for page_limit. -/
def Mach.launchWaits (m : Mach) (id : Nat) (x : Cmd) (limit : Bool) (n : Nat) : Mach :=
  m.modDep id fun d => { d with wait := some ((d.wait.getD x).waitsFor m.now limit n) }

/-- Item 12: the step is admitted on every cluster of its mask, the ring has room for its records, the module holds fewer commands than it
may (R424), and every draft is taken: it is launched. Otherwise the batch is formed again at the next boundary, and where the reserve of the
window was short at the latest at the next window (R420); a step that exceeds the reserve itself stops the queue (R420, R451). -/
def Mach.launch (m : Mach) (id : Nat) (l : List (Nat × SReq)) (gs : List Group) : Mach :=
  match m.dep id with
  | none => m
  | some d =>
    let c := m.cx d.ctx
    let records := sumNat (({ d with batch := gs } : Deployment).sampled.map (·.2.1))
    match m.tokenRoom d records, m.outputWants d with
    | (none, m), _ => m
    | (some _, _), (.error st, m) => m.stopServe id st
    | (some _, _), (.ok wants, m) =>
      let seq := m.nextSeq
      let x : Cmd := { seq := seq, ctx := d.ctx, q := 16 + id, pos := d.step, kind := .serve, cls := 0, admitted := true, claimUs := d.wcetUs, startedAt := m.now }
      if c.reserve = 0 ∨ c.reserve < d.wcetUs then m.stopServe id .wcetExceedsReserve
      else if !(d.clusters.all fun k => decide (d.wcetUs ≤ m.leftC d.ctx k)) then m.modDep id fun d => { d with tried := true }
      else if maxInFlight ≤ m.holding then m
      else
        match m.kvDrafts id seq d l with
        | .error f => m.launchWaits id x false f
        | .ok (kd, m1) =>
          if !c.admits (kd.length + wants.length) then m.launchWaits id x true (kd.length + wants.length) else
            match m1.takeDrafts seq wants with
            | .error f => m.launchWaits id x false f
            | .ok (od, m) =>
              let ds := kd ++ od
              let m := m.copyDrafts ds
              let x := { x with drafts := ds, phase := if ds.any (·.copying) then Phase.copying else Phase.running }
              let m := { m with nextSeq := seq + 1, cmds := m.cmds ++ [x] }
              let m := m.modCx d.ctx fun c => { c with frames := c.frames + ds.length }
              let m := d.clusters.foldl (fun (m : Mach) k => m.modCl k fun y => { y with admittedUs := Tab.upd 0 y.admittedUs d.ctx (· + d.wcetUs) }) m
              let m := m.storeVa d.ctx d.blockVa (d.batchBlock gs)
              let m := m.modDep id fun d => { d with
                batch := gs, stepCmd := some seq, stage := (d.nextStage none).getD 0, stageOn := false, filling := false, wait := none, tried := false,
                reqs := d.reqs.map fun e => (e.1, e.2.map fun r => { r with bucket := ((gs.find? fun g => g.members.contains (some e.1)).map (·.bucket)).getD r.bucket }) }
              m.tryStage id x

/-! ## The boundary -/

/-- A request's entry as the mirror array holds it (R457). -/
def Deployment.mirrorBytes (d : Deployment) (slot : Nat) (r : SReq) : List Byte :=
  let st := match r.st with | .queued => 0 | .prefill => 1 | .decode => 2 | .paused => 3 | .resuming => 4 | .swapped => 5 | .done => 6
  leBytes 4 r.id ++ leBytes 1 st ++ leBytes 1 (b2n r.cancelOnMiss + 2 * b2n r.ignoreStop + 4 * b2n r.ttftMissed + 8 * b2n r.byDeadline) ++ leBytes 2 r.variant
    ++ leBytes 4 r.promptLen ++ leBytes 4 r.prefilled ++ leBytes 4 r.generated ++ leBytes 4 r.maxNew ++ leBytes 8 r.arrival ++ leBytes 8 r.firstPost
    ++ leBytes 8 r.lastPost ++ leBytes 8 r.deadline ++ leBytes 4 r.ttft ++ leBytes 4 r.tbt ++ leBytes 4 r.lateRecords ++ leBytes 4 r.accepted
    ++ leBytes 8 (d.regionVa slot) ++ leBytes 8 r.ttlEnd ++ leBytes 8 r.seed.toNat ++ leBytes 8 r.tag.toNat ++ leBytes 4 r.temperature.toNat
    ++ leBytes 4 r.topP.toNat ++ leBytes 2 r.topK ++ leBytes 1 r.bucket ++ leBytes 13 0

/-- Entries that have changed since they were last copied go to the mirror array. -/
def Mach.mirror (m : Mach) (id : Nat) : Mach :=
  match m.dep id with
  | none => m
  | some d =>
    d.live.foldl (fun (m : Mach) e =>
      let b := d.mirrorBytes e.1 e.2
      if Tab.get [] d.mirrored e.1 = b then m else
        (m.storeVa d.ctx (d.mirrorVa + 128 * e.1) b).modDep id fun d => { d with mirrored := Tab.put [] d.mirrored e.1 b }) m

/-- A deployment that is closing and holds nothing any more ends: the references of its prefix variants drop, and UNDEPLOY
completes (R454, R497). -/
def Mach.closeDep (m : Mach) (id : Nat) : Mach :=
  match m.dep id with
  | none => m
  | some d =>
    match d.closing with
    | none => m
    | some (q, tag, flags) =>
      if !d.live.isEmpty || !d.admits.isEmpty then m else
        let m := d.prefixFrames.foldl (fun (m : Mach) l => (l.foldl addNew ([] : List Nat)).foldl Mach.refDown m) m
        let left : List ((Nat × Word × Nat × Nat) × Nat) :=
          (d.cancels.map fun e => (e, 0x22)) ++ (d.pauses.map fun e => ((e.1, e.2.1, e.2.2.1, e.2.2.2.1), 0x23)) ++ (d.resumes.map fun e => (e, 0x24))
        let m := left.foldl (fun (m : Mach) e => m.complete d.ctx e.1.1 e.1.2.1 e.2 e.1.2.2.1 { st := .reqUnknown }) m
        ({ m with deps := Tab.put none m.deps id none }).complete d.ctx q tag 0x25 flags { st := .ok }

/-- Items 9 to 12, or the wait to fill (R461); a stopped queue launches nothing (R486). -/
def Mach.shape (m : Mach) (id : Nat) (mayFill : Bool) : Mach :=
  match m.dep id with
  | none => m
  | some d =>
    if d.stopped.isSome then m else
      let (l, m) := Mach.fitBatch id d.select.length m d.select
      let m := (m.followTree id).reportExhausted id
      match m.dep id with
      | none => m
      | some d =>
        let l := l.filterMap fun e => (d.req e.1).map fun r => (e.1, r)
        if l.isEmpty then m else
          let rows := sumNat (l.map fun e => d.rowsOf e.2)
          let far := l.all fun e => e.2.deadline == 0 || decide (m.now + (d.fillUs + d.wcetUs) * 1000 < e.2.deadline)
          let (wait, m) := if mayFill ∧ rows < d.minRows ∧ far = true then m.pick [true, false] else (some false, m)
          if wait = some true then m.modDep id fun d => { d with filling := true } else
            match Try.each (fun (e : Nat × Nat × Nat × Nat) (m : Mach) => (m.readImages d.ctx e.2.2.2 0).andThen fun vs m => (.ok (e, vs), m))
                (d.table.filter fun e => e.1 == 1 && (e.2.1 == 1 || e.2.1 == 2)) m with
            | (.error st, m) => m.stopServe id st
            | (.ok vs, m) =>
              let can := fun (c : Nat) (pre : Bool) => (vs.filter fun e => entryFor pre e.1).all fun e => ((m.cl c).select e.2).isSome
              let gs := inClusterOrder (m.assign d can (m.formGroups d l))
              let ran := l.filter fun e => gs.any fun g => g.members.contains (some e.1)
              if gs.isEmpty then m else m.launch id ran gs

/-- Items 1 to 8, with the tree and its memory kept in step. -/
def Mach.applyItems (m : Mach) (id : Nat) : Mach :=
  let m := ((m.retire id).freeDoneReqs id).followTree id
  let m := ((m.countMisses id).cancels id).pauses id
  let m := ((m.expire id).resumes id).swapsBack id
  (m.followTree id).admits id

/-- STEP_BOUNDARY: no step of the deployment runs, its records are posted, and it is not waiting to fill (R458). Entries that have changed go
to the mirror array as they stand after the records and again as the boundary leaves them, so that one which ends is seen `done` before its
entry is free (R457). -/
def Mach.boundary (m : Mach) (id : Nat) : Mach :=
  match m.dep id with
  | none => m
  | some d =>
    if (m.cx d.ctx).st ≠ .enabled ∨ d.stepCmd ≠ none ∨ d.postsDue = true ∨ d.filling = true then m else
      let m := ((m.modDep id fun d => { d with boundaryAt := m.now, tried := false }).mirror id).applyItems id
      let m := m.shape id true
      let m := match m.dep id with | some n => m.writeTree d n | none => m
      ((m.mirror id).closeDep id).settle d.ctx

def execStepBoundary (dep : BitVec 16) (s : State) : Host.Outcome State Fault Refusal :=
  .next (if s.dispatching = true then s.firmware (s.m.boundary dep.toNat) else s)

/-- FILL_WAIT_END: items 8 to 11 are repeated, and the batch is launched however few rows it has (R461). -/
def Mach.fillEnd (m : Mach) (id : Nat) : Mach :=
  match m.dep id with
  | none => m
  | some d =>
    if d.filling = false ∨ (m.cx d.ctx).st ≠ .enabled then m else
      let m := ((m.modDep id fun d => { d with filling := false }).admits id).shape id false
      let m := match m.dep id with | some n => m.writeTree d n | none => m
      m.mirror id

def execFillWaitEnd (dep : BitVec 16) (s : State) : Host.Outcome State Fault Refusal :=
  .next (if s.dispatching = true then s.firmware (s.m.fillEnd dep.toNat) else s)

/-! ## The stages of a step and its sampling (R449, R465 to R467) -/

/-- Every launch of the stage has finished. -/
def Cmd.stageDone (x : Cmd) : Bool := x.more.isEmpty && x.sparQ.isEmpty && x.spars.isEmpty && x.placed.all fun p => x.boundary.contains p.1

/-- The tokens of a step: sequence by sequence, from the rows and drafts that the stages have left (R465 to R467). A token that no
entry of its row can be is a free value. -/
def Mach.sampleStep (m : Mach) (d : Deployment) (logits : List (List (BitVec 32))) (drafts : List (List DraftTok)) :
    List (Nat × List Nat) × Mach :=
  let r := d.sampled.foldl (fun (acc : List (Nat × List Nat) × Mach × Nat × Nat) e =>
    match d.req e.1 with
    | none => acc
    | some q =>
      let rows := (List.range e.2.1).map fun i => logits.getD (acc.2.2.1 + i) []
      let by_ : SampleBy := ⟨q.temperature, q.topK, q.topP⟩
      let pos := q.prefixLen + q.promptLen + q.generated
      let ds := if e.2.2 then (drafts.getD acc.2.2.2 []).take d.spec else []
      let ts := checkDrafts d.rule by_ (Config.samplingDraw q.seed) pos rows ds
      let (toks, m) := ts.foldl (fun (a : List Nat × Mach) t =>
        match t with
        | some v => (a.1 ++ [v], a.2)
        | none => let (v, m) := a.2.free 32; (a.1 ++ [v.toNat % d.vocab], m)) ([], acc.2.1)
      (acc.1 ++ [(e.1, toks)], m, acc.2.2.1 + e.2.1, acc.2.2.2 + b2n e.2.2)) ([], m, 0, 0)
  (r.1, r.2.1)

/-- The records of a request's tokens: up to the last one, which ends it (R469): slot, token, position, index, count. -/
def Deployment.recordsOf (d : Deployment) (slot : Nat) (toks : List Nat) : List (Nat × Nat × Nat × Nat × Nat) :=
  match d.req slot with
  | none => []
  | some r =>
    let pos := r.prefixLen + r.promptLen + r.generated
    let ends := fun (i t : Nat) => (!r.ignoreStop && d.stops.contains t) || decide (r.maxNew ≤ r.generated + i + 1) || decide (d.maxSeq ≤ pos + i + 1)
    let n := match toks.zipIdx.find? (fun e => ends e.2 e.1) with | some e => e.2 + 1 | none => toks.length
    (toks.take n).zipIdx.map fun e => (slot, e.1, pos + e.2, e.2, n)

/-- SERVE_STAGE_DONE: a stage's launches and spar entries go on; when every one has finished, the next stage starts, and after the
last one the sampling phase runs and the step's work has ended (R449). -/
def Mach.stageDone (m : Mach) (id : Nat) (logits : List (List (BitVec 32))) (drafts : List (List DraftTok)) : Mach :=
  match m.dep id with
  | none => m
  | some d =>
    match d.stepCmd.bind m.cmdOf with
    | none => m
    | some x =>
      if x.phase ≠ .running then m
      else if d.stageOn = false then m.tryStage id x
      else if !x.stageDone then m.serveSpar x
      else match d.nextStage (some d.stage) with
        | some s => (m.modDep id fun d => { d with stage := s, stageOn := false }).tryStage id x
        | none =>
          let (l, m) := m.sampleStep d logits drafts
          let m := m.modDep id fun d => { d with
            tokens := l.flatMap fun e => d.recordsOf e.1 e.2,
            grown := (l.filter fun e => (d.req e.1).any fun r => decide (r.promptLen ≤ r.prefilled)).map fun e => (e.1, e.2.length) }
          m.modCmd x fun y => { y with phase := .ended, placed := [] }

def execServeStageDone (dep : BitVec 16) (logits : List (List (BitVec 32))) (drafts : List (List (Nat × BitVec 32 × List (BitVec 32)))) (s : State) :
    Host.Outcome State Fault Refusal :=
  .next (if s.dispatching = true then s.firmware (s.m.stageDone dep.toNat logits drafts) else s)

/-! ## Posting (R468 to R473) -/

/-- The flags of a token's record: first, late, last. -/
def recordFlags (d : Deployment) (now : Nat) (r : SReq) (t : Nat × Nat × Nat × Nat) : Nat :=
  let late := r.deadline != 0 && decide (r.deadline < now)
  let isLast := (!r.ignoreStop && d.stops.contains t.1) || decide (r.maxNew ≤ r.generated + t.2.2.1 + 1) || decide (d.maxSeq ≤ t.2.1 + 1)
  b2n (r.generated == 0 && t.2.2.1 == 0) + 2 * b2n late + 4 * b2n isLast

/-- A request after the records of a step: counts, times, verdict and state. -/
def SReq.posted (r : SReq) (now n accepted lastTok : Nat) (ended : Bool) : SReq :=
  let late := r.deadline != 0 && decide (r.deadline < now)
  { r with generated := r.generated + n, accepted := r.accepted + accepted, lateRecords := r.lateRecords + b2n late,
           ttftMissed := r.ttftMissed || (late && r.firstPost == 0), cancelDue := r.cancelDue || (late && r.cancelOnMiss),
           firstPost := if r.firstPost = 0 then now else r.firstPost, lastPost := now, lastTok := lastTok, st := if ended then .done else r.st }

/-- TOKEN_RECORD_POST: the records of a committed step are posted with one post time (R468); the serving meters count them and the
requests that are late (R472). -/
def Mach.postTokens (m : Mach) (id : Nat) : Mach :=
  match m.dep id with
  | none => m
  | some d =>
    if d.postsDue = false then m else
      match m.tokenRoom d d.tokens.length with
      | (none, m) => m
      | (some p, m) =>
        let recs : List (Nat × Nat × List Byte) := d.tokens.filterMap fun t => (d.req t.1).map fun r =>
          let x := recordFlags d m.now r t.2
          (t.1, x, tokenBytes r.id t.2.1 t.2.2.1 t.2.2.2.1 t.2.2.2.2 x m.now r.tag)
        let m := m.ringWrite d.ctx d.ringVa d.ringLen p (recs.map fun (e : Nat × Nat × List Byte) => e.2.2)
        let slots := (d.tokens.map (·.1)).foldl addNew ([] : List Nat)
        let lates := (slots.filter fun s => (d.req s).any fun r => r.deadline != 0 && decide (r.deadline < m.now) && (r.firstPost != 0 || decide (r.missedAt < r.deadline))).length
        let m := m.chargeCtx d.ctx { tokens := d.tokens.length, late := lates }
        let m := slots.foldl (fun (m : Mach) s =>
          let mine := recs.filter fun (e : Nat × Nat × List Byte) => e.1 == s
          m.modReq id s fun r => r.posted m.now mine.length (((d.grown.find? fun e => e.1 == s).map (·.2)).getD 1 - 1) ((((d.tokens.filter fun t => t.1 == s).getLast?).map (·.2.1)).getD 0) (mine.any fun (e : Nat × Nat × List Byte) => bitAt e.2.1 2)) m
        m.modDep id fun d => { d with postsDue := false, step := d.step + 1, boundaryAt := m.now }

def execTokenRecordPost (dep : BitVec 16) (s : State) : Host.Outcome State Fault Refusal :=
  .next (if s.dispatching = true then s.firmware (s.m.postTokens dep.toNat) else s)

end Sys2Proof.Machine
end

