-- ==== Sys2Proof/Machine/Wire.lean ====
section
/-! DEFINITION. A flit as it stands on the fibre: its words, its parity bits and its CRC-32 (R535, R536, R539). -/
namespace Sys2Proof
open Sys2Proof.Machine

/-- Header words 0 to 2 of a flit (R536). -/
def Flit.header (f : Flit) : List Word :=
  [packWord [(48, f.dst.toNat), (32, f.src.toNat), (16, f.seq.toNat), (8, f.op.toNat), (6, f.vc.val), (0, f.payload.length)],
   packWord [(52, f.dstCtx.val), (0, f.va.toNat)],
   packWord [(48, f.coll.toNat), (36, f.srcCtx.val), (0, f.aux.toNat)]]

/-- The even-parity bit of a word. -/
def evenParity (w : Word) : Bool := (List.range 64).foldl (fun p i => p != w.getLsbD i) false

/-- The parity bits of a flit: bit j for header or payload word j, higher bits 0 (R536). -/
def Flit.parityOf (f : Flit) : BitVec 32 :=
  BitVec.ofNat 32 (sumNat ((f.header ++ f.payload).zipIdx.map fun w => b2n (evenParity w.1) * 2 ^ w.2))

/-- The link word (R536). -/
def Flit.linkWord (f : Flit) : Word :=
  packWord [(48, f.ack.toNat), (44, f.credVc.toNat), (32, f.credShared.toNat), (0, f.parity.toNat)]

/-- The bytes of a flit before its CRC field, payload words that it does not use being 0 (R535; log entry 50). -/
def Flit.bytes (small : Bool) (f : Flit) : List Byte :=
  let words : List Word := f.header ++ f.payload ++ List.replicate ((if small then 11 else 27) - f.payload.length) 0 ++ [f.linkWord]
  words.flatMap fun w => leBytes 8 w.toNat

/-- One bit of a CRC-32 in the bit order of IEEE 802.3: the lowest bit first. -/
def crcBit (c : Nat) : Nat := if c % 2 = 1 then Nat.xor (c / 2) 0xEDB88320 else c / 2

/-- One byte of it. -/
def crcByte (c : Nat) (b : Byte) : Nat := crcBit (crcBit (crcBit (crcBit (crcBit (crcBit (crcBit (crcBit (Nat.xor c b.toNat))))))))

/-- CRC-32 of IEEE 802.3 (R539). -/
def crc32 (l : List Byte) : BitVec 32 := BitVec.ofNat 32 (Nat.xor (l.foldl crcByte 0xFFFFFFFF) 0xFFFFFFFF)

/-- A flit with its parity bits and its CRC, as it is sent. -/
def Flit.sealed (small : Bool) (f : Flit) : Flit :=
  let g := { f with parity := f.parityOf }
  { g with crc := crc32 (g.bytes small) }

/-- A received flit passes its parity bits and its CRC (R540). -/
def Flit.sound (small : Bool) (f : Flit) : Bool := f.parity == f.parityOf && f.crc == crc32 (f.bytes small)

end Sys2Proof
end

