-- ==== Sys2Proof/Machine/Fabric.lean ====
section
/-! DEFINITION. The shroud fabric: ports, credits, replay, forwarding, remote operations, training, link loss, and the stays
(R44, R520 to R551, R558 to R561). -/
namespace Sys2Proof.Machine

/-! ## Ports and their credits (R527, R532, R533, R536, R541) -/

/-- A port changed; there is none above 15. -/
def Mach.modPort (m : Mach) (p : Nat) (f : Port → Port) : Mach :=
  if p < 16 then { m with shr := { m.shr with ports := Tab.upd {} m.shr.ports p f } } else m

/-- A port that takes flits: `up`, or `closing` until its drain ends. -/
def Port.live (k : Port) : Bool := k.st == .up || (k.st == .closing && k.granted != 0)

/-- Payload words of a flit at most (R535), unacknowledged flits at most (R541). -/
def Port.maxWords (k : Port) : Nat := if k.small then 11 else 27
def Port.retryCap (k : Port) : Nat := if k.small then 32767 else 16384

/-- Payload bytes of a flit: those of WRITE, ACCUM and SIGNAL count (R538). -/
def flitBytes (f : Flit) : Nat := if 1 ≤ f.op.toNat ∧ f.op.toNat ≤ 3 then 8 * f.payload.length else 0

/-- Link control ops: consumed at the far end of the link (R538). -/
def linkOp (f : Flit) : Bool := f.op.toNat == 0 || f.op.toNat == 8 || f.op.toNat == 9

/-- A credit for a channel: of its reserve, else of the shared pool (R532, log entry 51); credit counts that cannot be read do not
change, so nothing that needs a credit is sent (R643). -/
def Port.takeCredit (k : Port) (vc : Nat) : Option Port :=
  if k.lostCredits then none
  else if 0 < Tab.get 0 k.reserve vc then some { k with reserve := Tab.upd 0 k.reserve vc (· - 1) }
  else if 0 < k.shared then some { k with shared := k.shared - 1 }
  else none

/-- The space of a received flit is freed: its credit is to be returned to its pool (R532). -/
def Port.giveBack (k : Port) (vc : Nat) (reserve : Bool) : Port :=
  if k.lostCredits then k
  else if reserve then { k with lent := Tab.upd 0 k.lent vc (· - 1), retVc := Tab.upd 0 k.retVc vc (· + 1) } else { k with retShared := k.retShared + 1 }

/-- What an acknowledgement at a time does: every flit up to the one of that number leaves the retry buffer (R541). -/
def Port.acked (k : Port) (now : Nat) (a : BitVec 16) : Port :=
  match k.retry.findIdx? (fun f => f.seq == a) with
  | none => k
  | some i => { k with retry := k.retry.drop (i + 1), lastAck := a, ackAt := now, txAcked := k.txAcked + sumNat ((k.retry.take (i + 1)).map flitBytes) }

/-- The credits that a link word returns (R536). -/
def Port.credited (k : Port) (f : Flit) : Port :=
  if k.lostCredits then k else
  { k with shared := k.shared + f.credShared.toNat,
           reserve := (List.range 4).foldl (fun (t : Tab Nat) v => Tab.upd 0 t v (· + b2n (f.credVc.getLsbD v))) k.reserve }

/-- A port whose training waited for its receive buffer to empty trains (R533). -/
def Port.tryTrain (k : Port) : Port := if k.st = .down ∧ k.trainDue = true ∧ k.rxQ = [] then { k with st := .training, trainDue := false } else k

/-! ## Remote operations at the receiver (R373, R548 to R552) -/

/-- The dispatched, uncommitted command of a context that is bound to a collective (R550). -/
def Mach.boundOf (m : Mach) (ctx coll : Nat) : Option Cmd :=
  m.cmds.find? fun x => x.ctx == ctx && x.coll == coll && x.peers != [] && (x.phase == .running || x.phase == .ended)

/-- The rank of a flit's source among the participants of a command. -/
def Cmd.rankOf (x : Cmd) (f : Flit) : Option Nat := x.peers.findIdx? fun p => p == (f.src.toNat, f.srcCtx.val)

/-- Reasons of a refusal (R550). -/
def nakNotBound : Nat := 1
def nakUnmapped : Nat := 2
def nakNotDraft : Nat := 3
def nakAborted : Nat := 4
def nakBadAcc : Nat := 5
def nakUnreachable : Nat := 6

/-- Where a WRITE or ACCUM of `n` bytes lands in the drafts of the receiving command, which are the pages of its output ranges
(R425), or the reason that refuses it. -/
def Mach.remoteTarget (m : Mach) (x : Cmd) (va n : Nat) : Except Nat Nat :=
  match m.pageOf x.ctx va with
  | none => .error nakUnmapped
  | some p =>
    if !p.writable then .error nakUnmapped
    else if va % 8 ≠ 0 ∨ 65536 < va % 65536 + n then .error nakNotDraft
    else match x.draftOf p with
      | some d => .ok (frameDpa d.new + va % 65536)
      | none => .error nakNotDraft

/-- The offsets of the elements of a format in an aligned word. -/
def elemOffs (fmt : Nat) : List Nat := (List.range (8 / elemBytes fmt)).map (· * elemBytes fmt)

/-- A word into which the elements of another at some offsets have been accumulated (R356). -/
def accumulateWord (op fmt : Nat) (offs : List Nat) (old new : Nat) : Nat :=
  let e := elemBytes fmt
  wordOf e old (offs.map fun o => (o, accumulate op fmt (old / 2 ^ (8 * o) % 2 ^ (8 * e)) (new / 2 ^ (8 * o) % 2 ^ (8 * e))))

/-- The fabric as a requester, on behalf of the receiving command. -/
def fabricAcc (x : Cmd) (p : Nat) : Acc := ⟨whoFabric, x.ctx, p, x.seq⟩

/-- Payload applied for a command, to its meters: the payload, the stack bytes that it writes, and those that an ACCUM reads (R676). -/
def Mach.applied (m : Mach) (x : Cmd) (f : Flit) : Mach :=
  let n := flitBytes f
  m.modCmd x fun y => { y with meters := ((y.meters.add (pathBytes 5 n)).add (pathBytes 1 n)).add (pathBytes 0 (if f.op.toNat = 2 then n else 0)) }

/-- A word written into a draft: whole, or only the elements that the step of a hardware collective brings (R550, R556). -/
def Mach.putWrite (m : Mach) (a : Nat) (w : Word) (part : Option (Nat × List Nat)) : Mach :=
  match part with
  | none => m.writeWord a ⟨w, false⟩
  | some (e, offs) =>
    if offs.length * e = 8 then m.writeWord a ⟨w, false⟩
    else offs.foldl (fun (m : Mach) o => m.writeBytes (a + o) (leBytes e (w.toNat / 2 ^ (8 * o) % 2 ^ (8 * e))) false) m

/-- Elements of a word accumulated into a draft; what meets a poisoned word stays poison, which the command has then touched
(R356, R358, R640). -/
def Mach.putAccum (m : Mach) (x : Cmd) (p a op fmt : Nat) (offs : List Nat) (w : Word) : Mach :=
  let (old, m) := m.readWord (fabricAcc x p) a
  let m := m.writeWord a ⟨BitVec.ofNat 64 (accumulateWord op fmt offs old.val.toNat w.toNat), old.poison⟩
  if old.poison then m.touchPoison x.seq (uPort p) (m.locAt a) else m

/-- The payload words of a flit applied one after another, with the elements that a hardware collective's step takes from each. -/
def Mach.eachWord (m : Mach) (x : Cmd) (f : Flit) (put : Mach → Nat → Word → Option (Nat × List Nat) → Mach) : Mach :=
  f.payload.zipIdx.foldl (fun (m : Mach) w =>
    match m.engineTakes x (x.rankOf f) f.op.toNat (f.va.toNat / 8 + w.2) with
    | some (h, offs) => (put m w.2 w.1 (some (elemBytes (((m.engineOf x.seq).map (·.fmt)).getD 0), offs))).modEngine x.seq fun e =>
        { e with rcv := Tab.upd 0 e.rcv h (· + 1) }
    | none => put m w.2 w.1 none) m

/-- WRITE: the payload goes into the receiving command's draft. -/
def Mach.remoteWrite (m : Mach) (x : Cmd) (f : Flit) : Except Nat Mach :=
  match m.remoteTarget x f.va.toNat (8 * f.payload.length) with
  | .error r => .error r
  | .ok dpa => .ok ((m.eachWord x f fun m i w part => m.putWrite (dpa + 8 * i) w part).applied x f)

/-- ACCUM: each element is accumulated into the draft. -/
def Mach.remoteAccum (m : Mach) (x : Cmd) (p : Nat) (f : Flit) : Except Nat Mach :=
  let op := bits f.aux.toNat 7 4
  let fmt := bits f.aux.toNat 3 0
  match m.remoteTarget x f.va.toNat (8 * f.payload.length) with
  | .error r => .error r
  | .ok dpa =>
    if !accPair op fmt then .error nakBadAcc else
      .ok ((m.eachWord x f fun m i w part => m.putAccum x p (dpa + 8 * i) op fmt ((part.map (·.2)).getD (elemOffs fmt)) w).applied x f)

/-- SIGNAL: payload word 0 is added to the flag in place (R395, R396). -/
def Mach.remoteSignal (m : Mach) (x : Cmd) (f : Flit) : Except Nat Mach :=
  match m.flagAddr x.ctx f.va.toNat, m.pageOf x.ctx f.va.toNat with
  | some _, some p =>
    if !p.writable then .error nakUnmapped
    else .ok ((m.performLog x 0 ⟨1, f.va.toNat, ⟨f.payload.headD 0, false⟩⟩).applied x f)
  | _, _ => .error nakUnmapped

/-- An answer to a flit: from its receiver to its sender, on channel 3. -/
def Mach.answerFlit (m : Mach) (f : Flit) (op aux : Nat) : Mach :=
  m.queueFlit (m.flit f.src.toNat op 3 f.srcCtx.val 0 f.coll.toNat f.dstCtx.val aux [])

/-- A flit for this module applied, or the reason that refuses it (R549, R550, R552, R557). -/
def Mach.applyFlit (m : Mach) (p : Nat) (f : Flit) : Except Nat Mach :=
  let ctx := f.dstCtx.val
  let coll := f.coll.toNat
  let op := f.op.toNat
  if decide (op ≤ 5) && (m.cx ctx).colls.any (fun r => r.1 == coll && r.2.2) then .error nakAborted
  else if op = 4 then .ok (m.modCx ctx fun c => { c with readySeen := addNew c.readySeen (coll, f.src.toNat, f.srcCtx.val) })
  else match m.boundOf ctx coll with
    | none => if op ≤ 5 then .error nakNotBound else .ok m
    | some x =>
      match op with
      | 1 => m.remoteWrite x f
      | 2 => m.remoteAccum x p f
      | 3 => m.remoteSignal x f
      | 5 => .ok ((match x.rankOf f with | some r => m.modCmd x fun y => { y with endsIn := addNew y.endsIn r } | none => m).answerFlit f 6 0)
      | 6 => .ok (match x.rankOf f with | some r => m.modCmd x fun y => { y with acks := addNew y.acks r } | none => m)
      | 7 => .ok (m.fail x .collectiveFailed (detailWord srcFabric (f.aux.toNat % 256) p))
      | _ => .ok m

/-- A flit refused: its payload is counted, and a NACK names the reason to its source (R550). -/
def Mach.refuseFlit (m : Mach) (p : Nat) (f : Flit) (reason : Nat) : Mach :=
  (m.modPort p fun k => { k with rxRefused := k.rxRefused + flitBytes f }).answerFlit f 7 reason

/-- A flit for this module that port `p` has received. -/
def Mach.deliver (m : Mach) (p : Nat) (f : Flit) : Mach :=
  match m.applyFlit p f with
  | .ok m => m.modPort p fun k => { k with rxApplied := k.rxApplied + flitBytes f }
  | .error r => m.refuseFlit p f r

/-- The recall that a remote signal on a line of the companion waits for (R396, R567). -/
def Mach.signalRecall (m : Mach) (f : Flit) : Option Mach :=
  if f.op.toNat = 3 then (match m.flagAddr f.dstCtx.val f.va.toNat with | some a => m.recallFirst [] [a] | none => none) else none

/-- The flits that a port holds: those for this module are applied in order, up to one that waits for a recall; those whose route
is gone are refused; the others wait to be sent on (R534, R545, R559). -/
def Mach.drainRx (m : Mach) (p : Nat) : Mach :=
  let l := (m.port p).rxQ
  let m := m.modPort p fun k => { k with rxQ := [] }
  let (m, _) := l.foldl (fun (acc : Mach × Bool) e =>
    let m := acc.1
    let f := e.1
    let keep := fun (m : Mach) => m.modPort p fun k => { k with rxQ := k.rxQ ++ [e] }
    let gone := fun (m : Mach) => m.modPort p fun k => k.giveBack f.vc.val e.2
    if f.dst = m.shr.node then
      if acc.2 then (keep m, true)
      else match m.signalRecall f with
        | some m => (keep m, true)
        | none => (gone (m.deliver p f), false)
    else if m.reachable f.dst.toNat then (keep m, acc.2)
    else (gone (m.refuseFlit p f nakUnreachable), acc.2)) (m, false)
  m.modPort p Port.tryTrain

/-- Every port's held flits looked at again: after a loss, a recall or a change of routes. -/
def Mach.drainAll (m : Mach) : Mach := (List.range 16).foldl (fun (m : Mach) p => m.drainRx p) m

/-! ## Receiving (R539 to R541, R558) -/

/-- A flit that fails FEC, CRC or parity at a port that takes flits: it is discarded, with every later one until the resent flit comes,
which a REPLAY_REQ names (R540). -/
def Mach.badFlit (m : Mach) (p : Nat) : Mach :=
  if (m.port p).live = false then m else
    m.modPort p fun k =>
      let k := { k with discarded := satAdd 32 k.discarded 1, discarding := true }
      if k.outQ.any (fun g => g.op == 8) then k
      else { k with outQ := k.outQ ++ [m.flit k.partner.toNat 8 0 0 k.inSeq.toNat 0 0 0 []], replayTries := k.replayTries + 1 }

/-- A flit received at port `p`: one whose parity or CRC is wrong is bad; out of order it is discarded; in order it acknowledges, returns credits, and is
applied, held for forwarding or refused. -/
def Mach.receive (m : Mach) (p : Nat) (f : Flit) : Mach :=
  let k := m.port p
  if k.live = false ∨ k.maxWords < f.payload.length then m
  else if f.sound k.small = false then m.badFlit p
  else if f.seq ≠ k.inSeq then m.modPort p fun k => { k with discarded := satAdd 32 k.discarded 1 }
  else
    let own := decide (Tab.get 0 k.lent f.vc.val < 8)
    let m := m.modPort p fun k =>
      let k := (k.acked m.now f.ack).credited f
      let k := { k with inSeq := k.inSeq + 1, discarding := false, replayTries := 0, rxBytes := k.rxBytes + flitBytes f,
                        lent := if own then Tab.upd 0 k.lent f.vc.val (· + 1) else k.lent }
      if linkOp f then
        let k := k.giveBack f.vc.val own
        if f.op.toNat = 8 then
          let n := f.va.setWidth 16
          { k with replayFrom := if k.retry.any (fun g => g.seq == n) then some n else none, replays := satAdd 32 k.replays 1 }
        else k
      else { k with rxQ := k.rxQ ++ [(f, own)] }
    m.drainRx p

/-- The row of a received flit of an op. -/
def recvRow (op p : Nat) (f : Flit) (s : State) : State := if f.op.toNat = op then s.withMach (s.m.receive p f) else s

def execRemoteWrite (p : Fin 16) (f : Flit) (s : State) : Host.Outcome State Fault Refusal := .next (recvRow 1 p.val f s)
def execRemoteAccum (p : Fin 16) (f : Flit) (s : State) : Host.Outcome State Fault Refusal := .next (recvRow 2 p.val f s)
def execRemoteSignal (p : Fin 16) (f : Flit) (s : State) : Host.Outcome State Fault Refusal := .next (recvRow 3 p.val f s)
def execReady (p : Fin 16) (f : Flit) (s : State) : Host.Outcome State Fault Refusal := .next (recvRow 4 p.val f s)
def execEndFlit (p : Fin 16) (f : Flit) (s : State) : Host.Outcome State Fault Refusal := .next (recvRow 5 p.val f s)
def execE2eAck (p : Fin 16) (f : Flit) (s : State) : Host.Outcome State Fault Refusal := .next (recvRow 6 p.val f s)
def execNack (p : Fin 16) (f : Flit) (s : State) : Host.Outcome State Fault Refusal := .next (recvRow 7 p.val f s)
def execIdle (p : Fin 16) (f : Flit) (s : State) : Host.Outcome State Fault Refusal := .next (recvRow 0 p.val f s)

/-- REPLAY_REQ: on a shroud port, every unacknowledged flit from the one named is sent again, in order (R540); on the Damger link
(p = 16) a replay is answered likewise and counted (R563). -/
def execReplayReq (p : Fin 17) (f : Flit) (s : State) : Host.Outcome State Fault Refusal :=
  .next (if p.val = 16 then
      (if s.m.dmg.up then s.withMach { s.m with dmg := { s.m.dmg with replays := satAdd 32 s.m.dmg.replays 1 } } else s)
    else recvRow 8 p.val f s)

/-- BAD_FLIT: a flit arrives that fails its checks (R540); the Damger link (p = 16) replays it in transport that software does not see
(R563). -/
def execBadFlit (p : Fin 17) (s : State) : Host.Outcome State Fault Refusal :=
  .next (if p.val = 16 then s else s.withMach (s.m.badFlit p.val))

/-! ## Sending (R532, R536, R537, R541, R545 to R549) -/

/-- A flit leaves through a port on a channel: it takes a credit, the next link_seq and a place in the retry buffer, and carries an
acknowledgement and returned credits; none without a credit or room (R541). -/
def Mach.transmit (m : Mach) (p : Nat) (f : Flit) (vc : Nat) : Option Mach :=
  let k := m.port p
  if k.st ≠ .up ∨ k.retryCap ≤ k.retry.length then none else
    match k.takeCredit vc with
    | none => none
    | some k =>
      let mask := sumNat ((List.range 4).map fun v => if 0 < Tab.get 0 k.retVc v then 2 ^ v else 0)
      let sh := min k.retShared 4095
      let g : Flit := { f with seq := k.outSeq, vc := Fin.ofNat 4 vc, ack := k.inSeq - 1, credVc := BitVec.ofNat 4 mask, credShared := BitVec.ofNat 12 sh }
      let g := g.sealed k.small
      some (m.modPort p fun _ => { k with
        outSeq := k.outSeq + 1, retShared := k.retShared - sh, retVc := (List.range 4).foldl (fun (t : Tab Nat) v => Tab.upd 0 t v (· - 1)) k.retVc,
        ackAt := if k.retry = [] then m.now else k.ackAt, retry := k.retry ++ [g], txBytes := k.txBytes + flitBytes g })

/-- The channel on which a flit leaves through the routing entry for its destination (R546). -/
def Mach.channel (m : Mach) (f : Flit) : Nat :=
  if f.op.toNat = 6 ∨ f.op.toNat = 7 then 3
  else if f.vc.val = 2 ∨ (Tab.get 0 m.shr.routes f.dst.toNat).getLsbD 6 = true then 2 else 1

/-- Two flits keep their order: the same source, destination and kind of channel, and for this module's own the same collective
(R547, R549). -/
def sameStream (a b : Flit) : Bool :=
  a.src == b.src && a.dst == b.dst && a.coll == b.coll && a.srcCtx == b.srcCtx && (decide (6 ≤ a.op.toNat) == decide (6 ≤ b.op.toNat))

/-- The flits of a list that no earlier one of their stream stands before, with their places. -/
def firstOfStreams (order : Flit → Flit → Bool) (l : List Flit) : List (Nat × Flit) :=
  (l.zipIdx.filter fun x => !(l.take x.2).any (order x.1)).map fun x => (x.2, x.1)

/-- Forwarded flits of one source to one destination keep their order on each kind of channel (R547). -/
def sameRoute (a b : Flit) : Bool := a.src == b.src && a.dst == b.dst && (decide (6 ≤ a.op.toNat) == decide (6 ≤ b.op.toNat))

/-- Data goes to a participant only after its READY has come (R549). -/
def Mach.mayLeave (m : Mach) (f : Flit) : Bool :=
  let op := f.op.toNat
  !(op == 1 || op == 2 || op == 3 || op == 5) || (m.cx f.srcCtx.val).readySeen.contains (f.coll.toNat, f.dst.toNat, f.dstCtx.val)

/-- What may leave through port `p` now: place 16 and the index of an own flit, or a port that holds it and its index there. -/
def Mach.candidates (m : Mach) (p : Nat) : List (Nat × Nat × Flit) :=
  let routed := fun (f : Flit) => m.route f.dst.toNat == some p
  let own := (firstOfStreams sameStream m.shr.tx).filter fun x => m.mayLeave x.2 && (x.2.dst == m.shr.node || routed x.2)
  own.map (fun x => (16, x.1, x.2)) ++ (List.range 16).flatMap fun q =>
    ((firstOfStreams sameRoute ((m.port q).rxQ.map (·.1))).filter fun x => x.2.dst != m.shr.node && routed x.2).map fun x => (q, x.1, x.2)

/-- The first payload words of a flit, as many as a port's flits hold, and the rest as a flit behind them. -/
def splitFlit (n : Nat) (f : Flit) : Flit × Option Flit :=
  if f.payload.length ≤ n then (f, none)
  else ({ f with payload := f.payload.take n }, some { f with payload := f.payload.drop n, va := f.va + BitVec.ofNat 52 (8 * n) })

/-- An entry of a list replaced, or taken out. -/
def replaceAt {α : Type} (l : List α) (i : Nat) (x : Option α) : List α :=
  match x with
  | some a => modAt l i fun _ => a
  | none => l.eraseIdx i

/-- The payload that has left is counted: this module's own to its command, a forwarded flit's to the overhead account (R558,
R676, R677). -/
def Mach.countSent (m : Mach) (q : Nat) (f : Flit) : Mach :=
  let x := pathBytes 4 (flitBytes f)
  if q = 16 then
    match m.boundOf f.srcCtx.val f.coll.toNat with
    | some c => m.modCmd c fun y => { y with meters := y.meters.add x }
    | none => m.chargeCtx f.srcCtx.val x
  else (m.modPort q fun k => { k with rxForwarded := k.rxForwarded + flitBytes f }).chargeOverhead x

/-- A candidate leaves; one of this module for itself is delivered here (R545). -/
def Mach.sendCand (m : Mach) (p : Nat) (c : Nat × Nat × Flit) : Option Mach :=
  let (q, i, f) := c
  if q = 16 ∧ f.dst = m.shr.node then
    match m.signalRecall f with
    | some m => some m
    | none => some (({ m with shr := { m.shr with tx := m.shr.tx.eraseIdx i } }).deliver 16 f)
  else
    let (g, rest) := splitFlit (m.port p).maxWords f
    match m.transmit p g (m.channel f) with
    | none => none
    | some m =>
      let m := m.countSent q g
      some (if q = 16 then { m with shr := { m.shr with tx := replaceAt m.shr.tx i rest } }
        else m.modPort q fun k =>
          let own := ((k.rxQ[i]?).map (·.2)).getD false
          let k := { k with rxQ := replaceAt k.rxQ i (rest.map fun r => (r, own)) }
          if rest.isSome then k else (k.giveBack f.vc.val own).tryTrain)

/-- The next flit to resend after one of a number. -/
def nextResend (l : List Flit) (n : BitVec 16) : Option (BitVec 16) :=
  match l.findIdx? (fun f => f.seq == n) with
  | some i => (l[i + 1]?).map (·.seq)
  | none => none

/-- FLIT_SEND: a port sends the next flit of a replay, else a waiting REPLAY_REQ, else one that may leave, at a free choice. A closing
port still resends, but sends nothing new (R540, R560). -/
def Mach.flitSend (m : Mach) (p : Nat) : Mach :=
  let k := m.port p
  match (if k.live then k.replayFrom else none), (if k.st = .up then k.outQ else []) with
  | some n, _ => m.modPort p fun k => { k with replayFrom := nextResend k.retry n }
  | none, f :: r => match m.transmit p f 0 with | some m => m.modPort p fun k => { k with outQ := r } | none => m
  | none, [] =>
    match (m.candidates p).filter fun c => (m.sendCand p c).isSome with
    | [] => m
    | l => match m.pick l with
      | (some c, m) => (m.sendCand p c).getD m
      | (none, m) => m

def execFlitSend (p : Fin 16) (s : State) : Host.Outcome State Fault Refusal := .next (s.withMach (s.m.flitSend p.val))

/-- LINK_IDLE_TIMER: a port that has nothing else to send sends an IDLE (R537, R541). -/
def execLinkIdleTimer (p : Fin 16) (s : State) : Host.Outcome State Fault Refusal :=
  let k := s.m.port p.val
  .next (if k.replayFrom.isSome || k.outQ != [] || ((s.m.candidates p.val).any fun c => (s.m.sendCand p.val c).isSome) then s
    else s.withMach ((s.m.transmit p.val (s.m.flit k.partner.toNat 0 0 0 0 0 0 0 []) 0).getD s.m))

/-! ## Link loss (R533, R542, R559, R561) -/

/-- A port loses its link for a reason: what is unacknowledged is counted as dropped, its credits are void, the loss is recorded and
reported, and held flits that it was to carry are refused. -/
def Mach.loseLink (m : Mach) (p reason : Nat) (next : PortSt) : Mach :=
  let k := m.port p
  let m := m.modPort p fun k =>
    { k with st := next, reason := reason, lossSeen := true, ackSeqLoss := k.lastAck, rxSeqLoss := k.inSeq - 1,
             dropBytes := k.dropBytes + sumNat (k.retry.map flitBytes), retry := [], granted := 0, shared := 0, reserve := [], retShared := 0,
             retVc := [], lent := [], outQ := [], replayFrom := none, discarding := false, replayTries := 0 }
  (m.post .linkLost none (uPort p)
    [BitVec.ofNat 64 p, BitVec.ofNat 64 reason, BitVec.ofNat 64 k.lastAck.toNat, BitVec.ofNat 64 (k.inSeq - 1).toNat]).drainAll

/-- LINK_LOSS: light, FEC lock or the replay limit: 8 requests of one link_seq, or 100 µs with unacknowledged flits and no advance of
ack_seq (R542). -/
def execLinkLoss (p : Fin 16) (reason : Fin 8) (s : State) : Host.Outcome State Fault Refusal :=
  let k := s.m.port p.val
  .next (if k.live = true ∧ 1 ≤ reason.val ∧ reason.val ≤ 3 ∧ (reason.val = 3 → 8 ≤ k.replayTries ∨ k.retry ≠ [] ∧ k.ackAt + 100000 ≤ s.m.now) then
    s.withMach (s.m.loseLink p.val reason.val (if k.st = .closing then .closing else .down)) else s)

/-! ## Training (R526, R530, R531) -/

/-- The largest of 8, 4, 2 and 1 that is not above a number, 0 of 0. -/
def waveCount (n : Nat) : Nat := if 8 ≤ n then 8 else if 4 ≤ n then 4 else if 2 ≤ n then 2 else n

/-- Four times the stopping distance of a mode: wavelengths, rate (0: 25 B/ns each, halved at 1, halved again at 2), round trip in
ns (R531). -/
def stopping4 (waves rate rtt : Nat) : Nat := waves * (100 / 2 ^ rate) * (rtt + 500)

/-- The first mode from one on that passes the test of R531: fewer wavelengths, then lower rates. -/
def fitMode (rtt : Nat) : Nat → Nat → Nat → Option (Nat × Nat)
  | 0, _, _ => none
  | fuel + 1, w, r =>
    if w = 0 ∨ 3 ≤ r then none
    else if stopping4 w r rtt ≤ 4 * 4194304 then some (w, r)
    else if 1 < w then fitMode rtt fuel (w / 2) r
    else fitMode rtt fuel w (r + 1)

/-- What training settles on, within the configuration record's limits of the port (R531, R700, R702). -/
def Mach.settleMode (m : Mach) (p : Nat) (t : PortTraining) : Option (Nat × Nat) :=
  let lim := Tab.get 0 m.shr.limits p
  if bits lim 1 0 = 3 ∨ m.shr.deadEngines.getLsbD (p / 2) = true then none
  else fitMode t.rttNs 8 (waveCount (min t.waves (bits lim 5 2))) (max t.rate.val (bits lim 1 0))

/-- A port `up` in a mode, with every credit of its far end (R532, R533); a rate above 50 Gb/s has its FEC (R530). -/
def Port.upIn (k : Port) (t : PortTraining) (w r : Nat) : Port :=
  let g := if t.small then 32767 else 16384
  { k with st := .up, partner := t.partner, rate := r, waves := w, fec := t.fec || t.rate != 2, small := t.small, rtt := t.rttNs,
           stopBytes := ceilDiv (stopping4 w r t.rttNs) 4, granted := g, shared := g - 32,
           reserve := (List.range 4).foldl (fun (l : Tab Nat) v => Tab.put 0 l v 8) [], retShared := 0, retVc := [], lent := [], outSeq := 0, inSeq := 0,
           lastAck := 0xFFFF, retry := [], outQ := [], lostCredits := false, discarding := false, replayFrom := none, replayTries := 0, trainDue := false, wasUp := true }

/-! ## The stays (R522 to R529, R560) -/

def Mach.stay (m : Mach) (i : Nat) : Nat := Tab.get 0 m.shr.stays i
def Mach.setStay (m : Mach) (i v : Nat) : Mach := { m with shr := { m.shr with stays := Tab.put 0 m.shr.stays i v } }

/-- The command pending on a position ends: its outcome is posted. -/
def Mach.endStay (m : Mach) (i : Nat) (st : Status) (res : Word) : Mach :=
  match Tab.get none m.shr.stayTags i with
  | some (tag, op) =>
    ({ m with shr := { m.shr with stayTags := Tab.erase m.shr.stayTags i, openMask := Tab.erase m.shr.openMask i } }).postOutcome tag op st res
  | none => m

/-- The ports of a position that a pending STAY_OPEN trains. -/
def Mach.openPorts (m : Mach) (i : Nat) : List Nat := (setBits 2 (Tab.get 0 m.shr.openMask i)).map (2 * i + ·)

/-- A STAY_OPEN is pending on a position. -/
def Mach.opening (m : Mach) (i : Nat) : Bool := (Tab.get none m.shr.stayTags i).any fun t => t.2 == 0x20

/-- A pending STAY_OPEN fails at a port: the stay closes, also one that stood open and whose ports were to be retrained, and both ports
go dark (R44, R525, R528; log entry 55). -/
def Mach.openFailed (m : Mach) (i p : Nat) : Mach :=
  if !m.opening i then m else
    let m := [2 * i, 2 * i + 1].foldl (fun (m : Mach) q =>
      if (m.port q).live then m.loseLink q 6 .dark else m.modPort q fun k => { k with st := .dark, trainDue := false, wasUp := false }) m
    (m.setStay i 0).endStay i .trainFailed (BitVec.ofNat 64 p)

/-- A pending STAY_OPEN whose ports are all `up` within 45 ms of its acceptance completes with OK; one whose last port comes later has
failed (R528, R529). -/
def Mach.openDone (m : Mach) (i p : Nat) : Mach :=
  if m.opening i && (m.openPorts i).all fun p => (m.port p).st == .up then
    (if m.now ≤ Tab.get 0 m.shr.openedAt i + 45000000 then (m.setStay i 2).endStay i .ok 0 else m.openFailed i p)
  else m

/-- PORT_TRAINING_COMPLETE: training settles a mode that passes R531 and the port is `up`, or it fails: the port is `down`, and a
STAY_OPEN that waits for it fails. -/
def Mach.trained (m : Mach) (p : Nat) (r : Option PortTraining) : Mach :=
  if (m.port p).st ≠ .training then m else
    match r.bind fun t => (m.settleMode p t).map fun x => (t, x) with
    | some (t, w, rate) => (m.modPort p fun k => k.upIn t w rate).openDone (p / 2) p
    | none =>
      let m := if (m.port p).wasUp then m.loseLink p 6 .down else m.modPort p fun k => { k with st := .down }
      m.openFailed (p / 2) p

def execPortTrainingComplete (p : Fin 16) (r : Option PortTraining) (s : State) : Host.Outcome State Fault Refusal :=
  .next (s.withMach (s.m.trained p.val r))

/-- TRAIN: a port that is `down`, its receive buffer empty, answers training that its far end initiates (R530, R533). -/
def execTrain (p : Fin 16) (s : State) : Host.Outcome State Fault Refusal :=
  .next (if (s.m.port p.val).st = .down then s.withMach (s.m.modPort p.val fun k => ({ k with trainDue := true }).tryTrain) else s)

/-- A port sets out to train; one that is `up` first loses its link (R529). -/
def Mach.initiate (m : Mach) (p : Nat) : Mach :=
  let m := if (m.port p).live then m.loseLink p 5 .down else m
  m.modPort p fun k => if k.st = .training then k else ({ k with st := .down, trainDue := true }).tryTrain

/-- STAY_OPEN: the position and a mask of its ports; a closed stay opens and both ports train, an open position retrains the ports
of its mask (R528, R529). -/
def execStayOpen (s : State) : Host.Outcome State Fault Refusal :=
  .next (adminRow s 0x20 (fun _ => true) fun a s =>
    let i := fld a.args 0 1
    let mask := fld a.args 1 1
    if ¬(i < 8 ∧ 1 ≤ mask ∧ mask ≤ 3 ∧ zeros a.args 2 46 = true) then s.answer a .badParam 0
    else if s.m.shr.node = 0xFFFF then s.answer a .noNodeId 0
    else if s.m.stay i = 1 ∨ s.m.stay i = 3 ∨ (Tab.get none s.m.shr.stayTags i).isSome = true ∨ s.m.hyv.pendFull = true then s.answer a .busy 0
    else
      let ports := if s.m.stay i = 0 then [2 * i, 2 * i + 1] else (setBits 2 mask).map (2 * i + ·)
      let m := if s.m.stay i = 0 then s.m.setStay i 1 else s.m
      let m := { m with shr := { m.shr with
        stayTags := Tab.put none m.shr.stayTags i (some (a.tag, 0x20)),
        openMask := Tab.put 0 m.shr.openMask i (if s.m.stay i = 0 then 3 else mask), openedAt := Tab.put 0 m.shr.openedAt i m.now } }
      (s.withMach (ports.foldl (fun (m : Mach) p => m.initiate p) m)).answer a .pending 0)

/-- STAY_OPEN_TIMEOUT: 45 ms after acceptance a port is not up (R528). -/
def execStayOpenTimeout (pos : Fin 8) (s : State) : Host.Outcome State Fault Refusal :=
  let i := pos.val
  .next (if s.m.opening i = true ∧ Tab.get 0 s.m.shr.openedAt i + 45000000 ≤ s.m.now then
    match (s.m.openPorts i).find? (fun p => (s.m.port p).st != .up) with
    | some p => s.withMach (s.m.openFailed i p)
    | none => s
  else s)

/-- STAY_CLOSE: the ports of the position drain (R560). -/
def execStayClose (s : State) : Host.Outcome State Fault Refusal :=
  .next (adminRow s 0x21 (fun _ => true) fun a s =>
    let i := fld a.args 0 1
    if ¬(i < 8 ∧ zeros a.args 1 47 = true) then s.answer a .badParam 0
    else if s.m.stay i = 1 ∨ s.m.stay i = 3 ∨ (Tab.get none s.m.shr.stayTags i).isSome = true then s.answer a .busy 0
    else if s.m.stay i = 0 then s.answer a .ok 0
    else if s.m.hyv.pendFull then s.answer a .busy 0
    else
      let m := [2 * i, 2 * i + 1].foldl (fun (m : Mach) p => m.modPort p fun k =>
        if k.st = .up then { k with st := .closing } else { k with st := .down, trainDue := false }) (s.m.setStay i 3)
      let m := { m with shr := { m.shr with
        stayTags := Tab.put none m.shr.stayTags i (some (a.tag, 0x21)), openMask := Tab.erase m.shr.openMask i,
        openedAt := Tab.put 0 m.shr.openedAt i m.now } }
      (s.withMach m.drainAll).answer a .pending 0)

/-- STAY_CLOSE_DRAIN_END: every flit is acknowledged, or 1 ms has passed and what is left is counted (R559, R560). -/
def execStayCloseDrainEnd (pos : Fin 8) (s : State) : Host.Outcome State Fault Refusal :=
  let i := pos.val
  let ports := [2 * i, 2 * i + 1]
  .next (if s.m.stay i = 3 ∧ Tab.get 0 s.m.shr.openMask i = 0 ∧
      ((ports.all fun p => (s.m.port p).retry == []) || decide (Tab.get 0 s.m.shr.openedAt i + 1000000 ≤ s.m.now)) = true then
    let m := ports.foldl (fun (m : Mach) p => if (m.port p).live then m.loseLink p 4 .closing else m) s.m
    s.withMach { m with shr := { m.shr with openMask := Tab.put 0 m.shr.openMask i 1 } }
  else s)

/-- STAY_CLOSED: the stay has closed; its ports are `dark` with reason STAY_CLOSE, and STAY_CLOSE completes (R560). -/
def execStayClosed (pos : Fin 8) (s : State) : Host.Outcome State Fault Refusal :=
  let i := pos.val
  .next (if s.m.stay i = 3 ∧ Tab.get 0 s.m.shr.openMask i = 1 then
    let m := [2 * i, 2 * i + 1].foldl (fun (m : Mach) p => m.modPort p fun k => { k with st := .dark, reason := 4, wasUp := false, trainDue := false }) (s.m.setStay i 0)
    s.withMach (m.endStay i .ok 0)
  else s)

/-! ## The node identifier (R544) -/

/-- Some port is `training`, `up` or `closing`. -/
def Mach.nodeLocked (m : Mach) : Bool := (List.range 16).any fun p => (m.port p).st == .training || (m.port p).st == .up || (m.port p).st == .closing

/-- SHR_NODE_ID_WRITE: the identifier of the module, unless a port is in use. -/
def execShrNodeIdWrite (v : Word) (s : State) : Host.Outcome State Fault Refusal :=
  .next (if s.servedFullWrite = true ∧ s.m.nodeLocked = false then s.withMach { s.m with shr := { s.m.shr with node := v.setWidth 16 } } else s)

end Sys2Proof.Machine
end

