-- ==== Sys2Proof/Machine/Collectives.lean ====
section
/-! DEFINITION. COLLECTIVE and ABORT_COLLECTIVE, and the expiry of a collective's budget (R548 to R557). -/
namespace Sys2Proof.Machine

/-! ## COLLECTIVE (R553, R555, R556) -/

/-- The record's fields within their ranges (R553). -/
def collOk (b : List Byte) : Bool :=
  let kind := fld b 6 1
  let n := fld b 0x0A 2
  fld b 0 4 == 0x4C50434C && fld b 4 2 == 1 && decide (kind ≤ 4) && decide (fld b 7 1 ≤ 1) && fld b 8 2 != 0 && decide (2 ≤ n) && decide (n ≤ 4096)
    && decide (fld b 0x0C 2 < n) && (if kind = 4 then decide (fld b 0x0E 2 < n) else fld b 0x0E 2 == 0)
    && (if kind = 1 ∨ kind = 2 then decide (1 ≤ fld b 0x10 1) && decide (fld b 0x10 1 ≤ 3) else fld b 0x10 1 == 0)
    && (if kind = 0 then fld b 0x11 1 == 0 else fld b 0x11 1 == 1 || fld b 0x11 1 == 2) && zeros b 0x12 2
    && decide (1 ≤ fld b 0x14 4) && decide (fld b 0x14 4 ≤ 10000000) && zeros b 0x3C 68

/-- A peer list whose reserved bits are 0. -/
def peersOk (l : List Byte) : Bool := (List.range (l.length / 4)).all fun i => decide (fld l (4 * i + 3) 1 < 16)

/-- What makes a hardware kind's descriptors unfit, none where they are fit: local word-view descriptors of stack memory with the
same count and format, one to read and one to write, the latter mapped (R553, log entry 50). -/
def Mach.collShape (m : Mach) (x : Cmd) (b : List Byte) : Option Status :=
  match m.descOf x.ctx (fld b 0x18 4), m.descOf x.ctx (fld b 0x1C 4) with
  | some s, some d =>
    let plain := fun (y : Desc) => y.grid.isNone && y.space == 0 && y.view == 0
    if !(plain s && plain d && s.use == 1 && d.use != 1 && s.fmt == d.fmt && m.elemCount x.ctx s == m.elemCount x.ctx d) then some .shape
    else if (fld b 6 1 = 1 ∨ fld b 6 1 = 2) ∧ accPair (fld b 0x10 1) d.fmt = false then some .badAcc
    else if !(match (m.cx x.ctx).alloc d.alloc with
      | some a => (d.touched a).all fun t => ((m.cx x.ctx).vaOf d.alloc (t.1 * 65536)).isSome
      | none => false) then some .badParam
    else none
  | _, _ => some .staleDesc

/-- The checks of a COLLECTIVE command, in their order; its record with the peer list behind it. One that runs again stands registered
from its first dispatch (R438). -/
def Mach.checkColl (m : Mach) (x : Cmd) : Try (List Byte) :=
  (m.takeRecord x.ctx (x.fld 0x10 8) 128).andThen fun b m =>
  (m.need (collOk b) .badParam).andThen fun _ m =>
  (m.takeRecord x.ctx (fld b 0x20 8) (4 * fld b 0x0A 2)).andThen fun l m =>
  (m.need (peersOk l && (x.again || !(m.cx x.ctx).colls.any fun r => r.1 == fld b 8 2 && !r.2.2)) .badParam).andThen fun _ m =>
  (m.need (!(fld b 0x28 8 != 0 && m.inGrain x.ctx (fld b 0x28 8))) .badImage).andThen fun _ m =>
  if fld b 6 1 = 0 then (.ok (b ++ l), m) else
    match m.collShape x b with
    | some st => (.error st, m)
    | none =>
      (m.need ((collPeers (b ++ l)).all fun p => m.reachable p.1) .linkDown).andThen fun _ m => (.ok (b ++ l), m)

/-- A collective registered with its record, peer list and queue. -/
def Mach.register (m : Mach) (x : Cmd) (b : List Byte) : Mach :=
  m.modCx x.ctx fun c => { c with colls := (c.colls.filter fun r => r.1 != fld b 8 2) ++ [(fld b 8 2, b ++ leBytes 1 x.q, false)] }

/-- The command as its record describes it. -/
def collCmd (x : Cmd) (b : List Byte) : Cmd :=
  let x := { x with cls := fld b 7 1, dones := doneOf (fld b 0x28 8) (BitVec.ofNat 64 (fld b 0x30 8)) }
  if fld b 6 1 = 0 then x else
    { x with coll := fld b 8 2, anchored := true, srcH := fld b 0x18 4, dstH := fld b 0x1C 4, reads := [fld b 0x18 4, fld b 0x1C 4],
             peers := collPeers b, rank := fld b 0x0C 2, collUs := fld b 0x14 4 }

/-- The stacks that a descriptor's pages lie in. -/
def Mach.descStacks (m : Mach) (ctx h : Nat) : List Nat :=
  match m.localDesc ctx h with
  | none => []
  | some d => match (m.cx ctx).alloc d.alloc with
    | none => []
    | some a => (d.touched a).foldl (fun l t => match a.page t.1 with | some f => addNew l (frameStack f) | none => l) []

/-- A hardware kind is admitted, gets its drafts, is registered and dispatched, or stays queued (R419, R420, R428, R556). -/
def Mach.placeColl (m : Mach) (after : After) (x : Cmd) (b : List Byte) : Mach :=
  let c := m.cx x.ctx
  let memStacks := (m.descStacks x.ctx x.srcH ++ m.descStacks x.ctx x.dstH).foldl addNew []
  let cost := fld b 0x38 4
  let lc := x.cls == 0
  if lc && !x.costTried && (c.reserve == 0 || decide (c.reserve < cost)) then m.refuse x .wcetExceedsReserve
  else
    let m := m.modCmd x fun y => { y with costTried := true }
    if (!lc && after m x) || (lc && !(memStacks.all fun k => decide (cost ≤ m.leftS x.ctx k))) then m else
      match m.draftsFor x m.nextSeq (((m.wantsOf x.ctx x.dstH 2 false).foldl (fun l w => addWant l w.1 w.2) []).map (·.1)) with
      | .error m => m
      | .ok (ds, m) =>
        let seq := m.nextSeq
        let eng : Engine := { cmd := seq, kind := fld b 6 1, n := fld b 0x0A 2, rank := fld b 0x0C 2, root := fld b 0x0E 2, accOp := fld b 0x10 1,
                              fmt := ((m.liveDesc x.ctx x.dstH).map (·.fmt)).getD 0, dirs := fld b 0x11 1, src := x.srcH, dst := x.dstH,
                              elems := ((m.liveDesc x.ctx x.dstH).map fun d => m.elemCount x.ctx d).getD 0, at_ := [] }
        let m := (m.enter x fun y => { (collCmd y b) with
          drafts := ds, phase := if ds.any (·.copying) then .copying else .running, admitted := lc, pred := some true, startedAt := m.now,
          claimUs := if lc then cost else 0 }).register x b
        let m := { m with engines := m.engines ++ [eng] }
        let m := if lc then memStacks.foldl (fun (m : Mach) k => m.modSt k fun s => { s with admittedUs := Tab.upd 0 s.admittedUs x.ctx (· + cost) }) m else m
        match m.cmdOf seq with
        | some y => if y.phase = .copying then m else m.startEngine y
        | none => m

/-- The first COLLECTIVE command of a queue that waits: a custom kind registers and has then ended; a hardware kind is itself the
bound command (R548). -/
def Mach.collDispatch (m : Mach) (after : After) (ctx q : Nat) : Mach :=
  match m.firstQueued ctx q .coll with
  | none => m
  | some x =>
    if !m.mayDispatch x || (m.holder x (m.collReads x)).isSome then m else
      match m.checkColl x with
      | (.error st, m) => m.refuse x st
      | (.ok b, m) =>
        let y := collCmd x b
        let m := m.modCmd x fun z => z.examined { y with coll := z.coll }
        if (m.holder y []).isSome then m
        else if fld b 6 1 = 0 then
          ((m.modCmd x fun z => collCmd z b).enter x fun z => { z with phase := .ended, pred := some true }).register x b
        else m.placeColl after y b

/-! ## ABORT_COLLECTIVE (R557) -/

/-- The commands of a context that are bound to a collective and have not committed. -/
def Mach.boundAll (m : Mach) (ctx coll : Nat) : List Cmd :=
  m.cmds.filter fun x => x.ctx == ctx && x.coll == coll && x.peers != [] && x.dispatched

/-- The bound command is killed at once with ABORTED, and later flits of the collective are refused (R555, R557). -/
def Mach.abortColl (m : Mach) (e : Ent) : Mach :=
  let coll := e.fld 0x10 2
  if coll = 0 then m.endEntry e { st := .badParam } else
    let m := m.modCx e.ctx fun c => { c with colls := c.colls.map fun r => if r.1 = coll then (r.1, r.2.1, true) else r }
    let m := (m.boundAll e.ctx coll).foldl (fun (m : Mach) x =>
      if x.again then (m.endQueued x .aborted).stopQueue x.ctx x.q x.pos .aborted else m.fail x .aborted 0) m
    m.endEntry e { st := .ok }

def execAbortCollective (ctx : Fin 4096) (q : Fin 16) (s : State) : Host.Outcome State Fault Refusal :=
  .next (entryRow s ctx.val q.val (·.op == 0x31) fun e m => m.abortColl e)

/-! ## The budget (R554, R561) -/

/-- The step that an engine stands at, for the report. -/
def Mach.collStep (m : Mach) (seq : Nat) : Nat := match m.engineOf seq with | some e => (e.place 0).1 | none => 0

/-- COLLECTIVE_BUDGET_EXPIRE: the budget of a dispatched command's collective has passed and R552 does not hold: it fails where a
participant cannot be reached, and is otherwise reported once and waits on. -/
def Mach.collExpired (m : Mach) (seq : Nat) : Mach :=
  match m.cmdOf seq with
  | none => m
  | some x =>
    if x.peers = [] ∨ (x.phase ≠ .running ∧ x.phase ≠ .ended) ∨ m.now < x.dispatchAt + x.collUs * 1000 ∨ (x.endSent = true ∧ x.collDone = true) then m
    else match x.peers.find? (fun p => !m.reachable p.1) with
      | some p => m.fail x .collectiveFailed (detailWord srcFabric 0 ((m.route p.1).getD 0))
      | none =>
        if x.collSeen then m else
          let waits := ((List.range x.peers.length).filter fun r => r != x.rank && !(x.acks.contains r && x.endsIn.contains r)).map fun r => (x.peers.getD r (0, 0)).1
          (m.modCmd x fun y => { y with collSeen := true }).post .collectiveOverdue (some x.ctx) uModule
            (BitVec.ofNat 64 x.coll :: BitVec.ofNat 64 (m.collStep seq) :: waits.map (BitVec.ofNat 64))

def execCollectiveBudgetExpire (seq : Nat) (s : State) : Host.Outcome State Fault Refusal := .next (s.withMach (s.m.collExpired seq))

end Sys2Proof.Machine
end

