-- ==== Sys2Proof/Machine/Contexts.lean ====
section
/-! DEFINITION. The admin commands of contexts, the drain, and TIME_PROBE (R401 to R410, R575, R589). -/
namespace Sys2Proof.Machine

/-! ## CTX_CREATE (R401, R402) -/

/-- The parameter block within its ranges. -/
def ctxOk (b : List Byte) : Bool :=
  let loc := fld b 2 1
  decide (fld b 0 2 < 4096) && decide (loc ≤ 1) && (if loc = 1 then decide (fld b 3 1 ≤ 31) else fld b 3 1 == 0) && fld b 4 4 != 0
    && decide (fld b 8 2 < 4096) && decide (1 ≤ fld b 0x0A 1) && decide (fld b 0x0A 1 ≤ 16) && zeros b 0x0B 1 && decide (fld b 0x0C 2 ≤ 900)
    && decide (1 ≤ fld b 0x0E 2) && decide (fld b 0x0E 2 ≤ 1000) && decide (1 ≤ fld b 0x10 4) && decide (fld b 0x10 4 ≤ 10000000)
    && zeros b 0x14 4 && zeros b 0x20 32

/-- A context from its parameter block: `created`, with empty tables and rings. -/
def newCtx (b : List Byte) : Ctx :=
  { st := .created, locality := fld b 2 1 == 1, home := fld b 3 1, clusterMask := BitVec.ofNat 32 (fld b 4 4), stackMask := BitVec.ofNat 12 (fld b 8 2),
    queues := fld b 0x0A 1, reserve := fld b 0x0C 2, weight := fld b 0x0E 2, budgetUs := fld b 0x10 4, pageLimit := fld b 0x18 8 }

def execCtxCreate (s : State) : Host.Outcome State Fault Refusal :=
  .next (adminRow s 0x01 (fun _ => true) fun a s =>
    let i := fld a.payload 0 2
    if !ctxOk a.payload then s.answer a .badParam 0
    else if (s.m.cx i).st ≠ .absent ∨ (s.m.cx i).destroying.isSome = true then s.answer a .ctxState 0
    else (s.withMach (s.m.setCx i { newCtx a.payload with suspended := (s.m.cx i).suspended })).answer a .ok 0)

/-! ## CTX_ENABLE (R403, R404, R410, R670) -/

/-- The context number of an admin command, and the range checks that its arguments share. -/
def Admin.ctx (a : Admin) : Nat := fld a.args 0 2
def Admin.ctxOk (a : Admin) (used : Nat) : Bool := decide (fld a.args 0 2 < 4096) && zeros a.args used (48 - used)

/-- The LC reserves of the enabled contexts, this one among them, exceed 900 on one of its clusters or stacks (R403). -/
def Mach.overcommits (m : Mach) (i : Nat) : Bool :=
  let c := m.cx i
  let on := m.ctxs.filter fun e => e.2.st == .enabled && e.1 != i
  ((List.range 32).any fun k => c.clusterMask.getLsbD k && decide (900 < c.reserve + sumNat ((on.filter fun e => e.2.clusterMask.getLsbD k).map fun e => e.2.reserve)))
    || (List.range 12).any fun k => c.stackMask.getLsbD k && decide (900 < c.reserve + sumNat ((on.filter fun e => e.2.stackMask.getLsbD k).map fun e => e.2.reserve))

/-- The share of cluster time that a context starts with when it is enabled: not behind the least of the contexts that are enabled (R422, log
entry 74). -/
def Mach.startShare (m : Mach) (c : Ctx) : Nat :=
  match (m.ctxs.filter fun e => e.2.st == .enabled).map fun e => e.2.beNs / e.2.weight with
  | [] => c.beNs
  | a :: l => max c.beNs (c.weight * l.foldl min a)

/-- A context becomes `enabled`, with a new accounting session (R404), where R403 and R670 allow. What it was charged since its last close
record stays with it (R677). -/
def Mach.enable (m : Mach) (i : Nat) : Status × Mach :=
  if m.overcommits i then (.lcOvercommit, m)
  else if m.grantedAgainst i then (.grantLcConflict, m)
  else (.ok, m.modCx i fun c => { c with st := .enabled, session := c.session + 1, sessionAt := m.now, active := true, beNs := m.startShare c })

/-- The module is in `RUN` while some context is enabled or draining, and in `READY` otherwise (R718). -/
def State.runMode (s : State) : State :=
  let busy := s.m.ctxs.any fun e => e.2.st == .enabled || e.2.st == .draining
  if s.aon.mode = .ready ∧ busy = true then { s with aon := { s.aon with mode := .run } }
  else if s.aon.mode = .run ∧ busy = false then { s with aon := { s.aon with mode := .ready } }
  else s

def execCtxEnable (s : State) : Host.Outcome State Fault Refusal :=
  .next (adminRow s 0x02 (fun _ => true) fun a s =>
    let i := a.ctx
    let c := s.m.cx i
    if !a.ctxOk 2 then s.answer a .badParam 0
    else match c.st with
      | .absent => s.answer a .ctxState 0
      | .enabled => s.answer a .ok 0
      | .draining =>
        if c.enable.isSome then s.answer a .ctxState 0
        else if s.m.hyv.pendFull then s.answer a .busy 0
        else (s.withMach (s.m.modCx i fun c => { c with enable := some a.tag })).answer a .pending 0
      | _ =>
        let (st, m) := s.m.enable i
        ((s.withMach m).answer a st 0).runMode)

/-! ## CTX_DISABLE and the drain (R402, R406 to R410) -/

/-- Every command of a context that is dispatched and not committed is killed; one that was to run again ends at once (R406, R407). -/
def Mach.killAll (m : Mach) (i : Nat) : Mach :=
  (m.cmds.filter fun x => x.ctx == i && x.dispatched).foldl (fun (m : Mach) x => if x.again then m.endQueued x .killed else m.kill m.cmds.length x .disable) m

/-- CTX_DISABLE in a mode. -/
def disableRow (s : State) (kill : Bool) : State :=
  adminRow s 0x03 (fun a => (fld a.args 2 1 == 1) == kill) fun a s =>
    let i := a.ctx
    if !a.ctxOk 3 ∨ 1 < fld a.args 2 1 then s.answer a .badParam 0
    else match (s.m.cx i).st with
      | .absent => s.answer a .ctxState 0
      | .created | .disabled => s.answer a .ok 0
      | _ =>
        if s.m.hyv.pendFull then s.answer a .busy 0 else
          let m := s.m.modCx i fun c => { c with st := .draining, disables := c.disables ++ [a.tag] }
          (s.withMach (if kill then m.killAll i else m)).answer a .pending 0

def execCtxDisableFinish (s : State) : Host.Outcome State Fault Refusal := .next (disableRow s false)
def execCtxDisableKill (s : State) : Host.Outcome State Fault Refusal := .next (disableRow s true)

/-- The drain completes: the session closes, the resident slots and grants of the context are free, and it is `disabled`; the
outcomes of its disables are posted, then that of a pending enable (R408, R410, R670). -/
def Mach.drained (m : Mach) (i : Nat) : Mach :=
  let c := m.cx i
  let m := (m.closeSession i).endGrants i
  let m := (List.range 32).foldl (fun (m : Mach) k => m.modCl k fun cl =>
    { cl with slots := cl.slots.filter fun (e : Nat × Slot) => e.2.ctx != some i && e.2.incoming != some i,
              windows := cl.windows.filter fun (e : Nat × Ram) => (cl.slot e.1).ctx != some i }) m
  let m := m.modCx i fun c => { c with st := .disabled, disables := [], enable := none }
  let m := c.disables.foldl (fun (m : Mach) t => m.postOutcome t 0x03 .ok 0) m
  match c.enable with
  | none => m
  | some t => let (st, m) := m.enable i; m.postOutcome t 0x02 st 0

def execDrainComplete (ctx : Fin 4096) (s : State) : Host.Outcome State Fault Refusal :=
  .next (if (s.m.cx ctx.val).st = .draining ∧ s.dispatching = true ∧ (s.m.cmds.any fun x => x.ctx == ctx.val && x.dispatched) = false then
    (s.withMach (s.m.drained ctx.val)).runMode else s)

/-! ## CTX_DESTROY (R402, R405) -/

/-- CTX_DESTROY: the number is `absent` at once, and answered when the last frame has been released. -/
def execCtxDestroy (s : State) : Host.Outcome State Fault Refusal :=
  .next (adminRow s 0x04 (fun _ => true) fun a s =>
    let i := a.ctx
    if !a.ctxOk 2 then s.answer a .badParam 0
    else if (s.m.cx i).st ≠ .created ∧ (s.m.cx i).st ≠ .disabled then s.answer a .ctxState 0
    else if s.m.hyv.pendFull then s.answer a .busy 0
    else (s.withMach (s.m.modCx i fun c => { c with st := .absent, destroying := some a.tag })).answer a .pending 0)

/-- The frames that a context holds: of its allocations, its regions, and copies to the host tier under way. -/
def Mach.framesOf (m : Mach) (i : Nat) : List Nat :=
  let moving := m.deps.flatMap fun e => match e.2 with
    | some d => if d.ctx = i then d.live.flatMap fun r => r.2.toHost.map (·.2) else []
    | none => []
  (m.frames.filter fun e => e.2 == .ctx i || e.2 == .kv i).map (·.1) ++ moving

/-- CTX_DESTROY_COMPLETE: the companion gives up its lines, every frame is released, and with it every mapping, descriptor, ring,
deployment and host-tier page; the number may be used again. -/
def Mach.destroyed (m : Mach) (i : Nat) (tag : Word) : Mach :=
  let frames := m.framesOf i
  match m.recallFirst frames [] with
  | some m => m
  | none =>
    let m := { m with deps := m.deps.filter fun e => e.2.all fun (d : Deployment) => d.ctx != i, cmds := dropWhere (fun x => x.ctx == i) m.cmds }
    let m := { m with refs := m.refs.filter fun e => !frames.contains e.1 }
    let m := frames.foldl Mach.release m
    let m := m.clusters.foldl (fun (m : Mach) e => m.modCl e.1 fun k => { k with cache := k.cache.filter fun l => l.1 != i }) m
    (m.setCx i { session := (m.cx i).session, suspended := (m.cx i).suspended }).postOutcome tag 0x04 .ok 0

def execCtxDestroyComplete (ctx : Fin 4096) (s : State) : Host.Outcome State Fault Refusal :=
  .next (match (s.m.cx ctx.val).destroying with
    | some tag => if s.dispatching = true then s.withMach (s.m.destroyed ctx.val tag) else s
    | none => s)

/-! ## TIME_PROBE (R589) -/

/-- TIME_PROBE: t_a and t_b as the link captures them in module time. -/
def execTimeProbe (tA tB : Nat) (s : State) : Host.Outcome State Fault Refusal :=
  .next (adminRow s 0x40 (fun _ => true) fun a s =>
    (s.withMach { s.m with hyv := { s.m.hyv with timeA := BitVec.ofNat 64 tA, timeB := BitVec.ofNat 64 tB } }).answer a .ok 0)

end Sys2Proof.Machine
end

