-- ==== Sys2Proof/Machine/Damger.lean ====
section
/-! DEFINITION. The Damger link: retraining, loss, the companion's requests, and recalls (R562 to R568). -/
namespace Sys2Proof.Machine

/-- DAMGER_TRAINING: a lost link answers retraining that the companion initiates, within the configuration record's limit (R562,
R564, R702). -/
def execDamgerTraining (r : Option (Nat × Bool)) (s : State) : Host.Outcome State Fault Refusal :=
  .next (if s.aon.mode.powered = true ∧ s.aon.mode ≠ .boot ∧ s.m.dmg.up = false then { s with m := s.m.damgerTrained (damgerWithin s.sec.record r) } else s)

/-- DAMGER_LINK_LOSS: the loss is reported, and the inbound requests in flight are discarded and counted (R564). -/
def execDamgerLinkLoss (inFlight : Nat) (s : State) : Host.Outcome State Fault Refusal :=
  .next (if s.m.dmg.up = false then s else
    let n := inFlight + s.m.dmg.heldAcc.length
    let m := { s.m with dmg := { s.m.dmg with up := false, lossSeen := true, dropped := satAdd 32 s.m.dmg.dropped n, heldAcc := [] } }
    let s := s.withMach (m.post .damgerLoss none uDamger [BitVec.ofNat 64 n])
    { s with aon := s.aon.raise 1 })

/-- A tagged request that arrives: its replies stand alone. -/
def inboundRow (s : State) (x : Inbound) : State :=
  if s.servedFull = true then s.withMach (({ s.m with dmg := { s.m.dmg with replies := [] } }).inbound x) else s

def execDamgerInboundRead (tag : Fin 4096) (va : BitVec 52) (len : Nat) (keep : Bool) (s : State) : Host.Outcome State Fault Refusal :=
  .next (inboundRow s ⟨tag.val, va.toNat, none, len, keep⟩)
def execDamgerInboundWrite (tag : Fin 4096) (va : BitVec 52) (data : List Byte) (s : State) : Host.Outcome State Fault Refusal :=
  .next (inboundRow s ⟨tag.val, va.toNat, some data, data.length, false⟩)

/-- LINE_RECALL_COMPLETE: the companion gives up a recalled line; what it had changed is written, and what waited for the line may
go on (R567). -/
def Mach.recalled (m : Mach) (dpa : Nat) (dirty : Option (List Byte)) : Mach :=
  let l := dpa / 64
  if !m.dmg.recalls.contains l then m else
    let m := { m with dmg := { m.dmg with recalls := m.dmg.recalls.filter (· != l), dir := m.dmg.dir.filter (· != l) } }
    let m := match dirty with
      | some b => (m.writeBytes (lineDpa l) (slice b 0 64) false).superseded (frameOf (lineDpa l))
      | none => m
    m.drainAll.serveHeld

def execLineRecallComplete (dpa : BitVec 44) (dirty : Option (List Byte)) (s : State) : Host.Outcome State Fault Refusal :=
  .next (s.withMach (s.m.recalled dpa.toNat dirty))

end Sys2Proof.Machine
end

