-- ==== Sys2Proof/Machine/Power.lean ====
section
/-! DEFINITION. The governor, thermal model, hardware trip and margin plan (R593 to R623), and the division of
energy among accounts (R678). -/
namespace Sys2Proof.Machine

/-! ## Levels (R599, R604 to R606) -/

/-- Nodes that govern a cluster: its own, the stacks near to it, its die's engines, its zone, the package (R607). -/
def nodesOfCluster (c : Nat) : List Nat :=
  [c] ++ (Config.nearStacks c).map (· + 32) ++ (List.range 4).map (fun i => 44 + 4 * (c / 16) + i) ++ [52 + 2 * (c / 16), 56]

/-- Nodes that govern a stack. -/
def nodesOfStack (k : Nat) : List Nat :=
  [32 + k] ++ (List.range 4).map (fun i => 44 + 4 * (k / 6) + i) ++ [53 + 2 * (k / 6), 56]

/-- The highest thermal floor of a list of nodes. -/
def Pwr.thermal (p : Pwr) (ns : List Nat) : Nat := maxNat (ns.map fun n => (Tab.get ({} : Node) p.nodes n).floor)

/-- A cluster's top level: of the plan, or as raised for the rest of the power cycle (R619, R622). -/
def Pwr.top (p : Pwr) (c : Nat) : Nat := max (Tab.get 0 p.topC c) (Tab.get 0 p.topRaised c)

/-- The level of a cluster and of a stack as the largest of their floors (R599); 7 while the clamp holds (R601). -/
def Pwr.wantC (p : Pwr) (c : Nat) : Nat :=
  if p.clamp then 7 else min 7 (max (max p.floor (p.thermal (nodesOfCluster c))) (max p.hostNow (p.top c)))
def Pwr.wantS (p : Pwr) (k : Nat) : Nat :=
  if p.clamp then 7 else min 7 (max (max p.floor (p.thermal (nodesOfStack k))) p.hostNow)

/-- Which floor set a level: 0 power, 1 thermal, 2 host, 3 top, 4 the clamp. -/
def Pwr.floorOf (p : Pwr) (ns : List Nat) (l : Nat) : Nat :=
  if p.clamp then 4 else if p.floor = l then 0 else if p.thermal ns = l then 1 else if p.hostNow = l then 2 else 3

/-- A reef event: the unit, the old and new levels and the floor that set the new one (R606). -/
def postReef (m : Mach) (u : UnitId) (old new why : Nat) : Mach :=
  m.post .reef none u [BitVec.ofNat 64 (u.cls * 65536 + u.idx), BitVec.ofNat 64 old, BitVec.ofNat 64 new, BitVec.ofNat 64 why]

/-- When a slew is over: the voltage has settled and the clock has slewed for 2 µs (R40, R604). -/
def Slew.ends (x : Slew) : Nat := x.since + x.settle + 2000

/-- The clock in kHz that a slew has reached: linear over its 2 µs. -/
def Slew.reached (x : Slew) (now : Nat) : Nat :=
  let t := min 2000 (now - (x.since + x.settle))
  (x.start * (2000 - t) + x.target * t) / 2000

/-- The ARITH clock of a cluster in kHz: that of its level, or what a slew in progress has reached (R40, R604). -/
def Pwr.clockKHz (p : Pwr) (c now : Nat) : Nat :=
  match Tab.get none p.slewing c with
  | some x => x.reached now
  | none => Config.clockMHz (Tab.get 0 p.levelC c) * 1000

/-- A change of a cluster to level `new`: a slower clock slews at once, a faster one when the voltage has settled, within 28 µs;
either begins at the frequency reached (R604). -/
def Pwr.slew (p : Pwr) (c new now : Nat) : Slew :=
  { since := now, start := p.clockKHz c now, target := Config.clockMHz new * 1000,
    settle := if Tab.get 0 p.levelC c < new then 0 else Config.settleTime c now % 28001 }

/-- REEF_STEP on cluster `c`: where its level changes, the slew begins and a reef event is posted (R604, R606). -/
def reefCluster (s : State) (c : Nat) : State :=
  let old := Tab.get 0 s.pwr.levelC c
  let new := s.pwr.wantC c
  if old = new then s else
    { s with pwr := { s.pwr with levelC := Tab.put 0 s.pwr.levelC c new, slewing := Tab.put none s.pwr.slewing c (some (s.pwr.slew c new s.m.now)) },
             m := postReef s.m (uCluster c) old new (s.pwr.floorOf (nodesOfCluster c) new) }

/-- REEF_STEP on stack `k`: its token pool is resized at once (R333, R605, R606). -/
def reefStack (s : State) (k : Nat) : State :=
  let old := Tab.get 0 s.pwr.levelS k
  let new := s.pwr.wantS k
  if old = new then s else
    { s with pwr := { s.pwr with levelS := Tab.put 0 s.pwr.levelS k new },
             m := postReef (s.m.modSt k fun x => { x with pool := Config.quotaPool new }) (uStack k) old new (s.pwr.floorOf (nodesOfStack k) new) }

/-- Every cluster and stack takes the level of its floors. -/
def applyLevels (s : State) : State :=
  let t := (List.range 12).foldl reefStack ((List.range 32).foldl reefCluster s)
  s.withMach t.m |> fun u => { u with pwr := t.pwr }

/-! ## Input power (R595, R598, R600 to R602) -/

/-- POWER_SAMPLE: a 10 µs sample of the input. Its energy is never lost; above 1,760 W the power floor rises at once
and again every 100 µs (R598, R600). -/
def execPowerSample (watts mv energyUj : Nat) (s : State) : Host.Outcome State Fault Refusal :=
  .next (if s.aon.mode = .off then s else
    let p := s.pwr
    let hot := if 1760 < watts then p.hotSamples + 1 else 0
    let p := { p with
      inputMv := mv, goodSince := if 40000 ≤ mv ∧ mv ≤ 48000 then some (p.goodSince.getD s.m.now) else none, faultSeen := p.faultSeen || decide (mv < 40000) || decide (48000 < mv),
      energyUj := if p.running then p.energyUj + energyUj else p.energyUj,
      energyHeld := if p.running then p.energyHeld else p.energyHeld + energyUj,
      sumW := p.sumW + watts, samples := p.samples + 1, hotSamples := hot,
      overSamples := if 1800 < watts then p.overSamples + 1 else 0 }
    if p.running ∧ hot % 10 = 1 then applyLevels { s with pwr := { p with floor := min 7 (p.floor + 1) } }
    else { s with pwr := p })

/-- The cap in force: PWR_CAP, or below 44 V 40 A at the measured voltage where that is lower (R595). -/
def Pwr.cap (p : Pwr) : Nat := if p.inputMv < 44000 then min p.capNow (40 * p.inputMv / 1000) else p.capNow

/-- The power floor at the end of a 1 ms window (R600), and the windows at or below 95 % of the cap in a row. -/
def Pwr.evalFloor (p : Pwr) : Pwr :=
  let p := { p with capNow := p.capW, hostNow := p.hostFloor }
  let calm := if 100 * p.sumW ≤ 95 * p.cap * p.samples then p.calmWindows + 1 else 0
  let floor := if p.cap * p.samples < p.sumW then min 7 (p.floor + 1) else if calm = 10 then p.floor - 1 else p.floor
  { p with floor := floor, calmWindows := if calm = 10 then 0 else calm, lastW := p.sumW / p.samples, sumW := 0, samples := 0 }

/-- POWER_FLOOR_EVAL: at the end of a window the floor moves and every unit takes its level (R599, R600, R602). -/
def execPowerFloorEval (s : State) : Host.Outcome State Fault Refusal :=
  .next (if s.pwr.running ∧ 0 < s.pwr.samples then applyLevels { s with pwr := s.pwr.evalFloor } else s)

/-- POWER_CLAMP: the input has exceeded 1,800 W for 50 µs, five samples; AON sets every unit to level 7 (R601). -/
def execPowerClamp (s : State) : Host.Outcome State Fault Refusal :=
  .next (if s.aon.mode.powered ∧ s.pwr.clamp = false ∧ 5 ≤ s.pwr.overSamples then
    let s := applyLevels { s with pwr := { s.pwr with clamp := true, clampSince := s.m.now, clampSeen := true } }
    s.withMach (s.m.post .powerClamp none uModule [BitVec.ofNat 64 s.pwr.overSamples])
  else s)

/-- CLAMP_RELEASE: after 1 ms AON returns control with the power floor at 7 (R601). -/
def execClampRelease (s : State) : Host.Outcome State Fault Refusal :=
  .next (if s.pwr.clamp ∧ s.pwr.clampSince + 1000000 ≤ s.m.now then
    applyLevels { s with pwr := { s.pwr with clamp := false, floor := 7, overSamples := 0 } }
  else s)

/-- PWR_CAP written: an out-of-range cap is taken as the nearer limit (R602). -/
def Pwr.writeCap (p : Pwr) (v : Word) : Pwr :=
  { p with capW := max 600 (min 1600 (bits v.toNat 15 4)), hostFloor := bits v.toNat 2 0 }

/-- PWR_CAP_WRITE (R602). -/
def execPwrCapWrite (v : Word) (s : State) : Host.Outcome State Fault Refusal :=
  .next (if s.servedFullWrite then { s with pwr := s.pwr.writeCap v } else s)

/-- REEF_SLEW_DONE: the voltage change and the clock slew of a cluster's level change complete, once their time has passed (R604). -/
def execReefSlewDone (c : Fin 32) (s : State) : Host.Outcome State Fault Refusal :=
  .next (if (Tab.get none s.pwr.slewing c.val).any (fun x => decide (x.ends ≤ s.m.now)) then
    { s with pwr := { s.pwr with slewing := Tab.put none s.pwr.slewing c.val none } }
  else s)

/-! ## Energy (R597, R678, R679) -/

/-- The activity that a context claims in a zone, and the whole activity of the zone. -/
def zoneClaim (cl : List (Fin 4 × Option (Fin 4096) × Nat)) (z : Nat) (x : Nat) : Nat :=
  sumNat ((cl.filter fun e => e.1.val == z && e.2.1.any (·.val == x)).map (·.2.2))
def zoneActivity (cl : List (Fin 4 × Option (Fin 4096) × Nat)) (z : Nat) : Nat :=
  sumNat ((cl.filter fun e => e.1.val == z).map (·.2.2))

/-- The contexts that claim activity, each once. -/
def claimants (cl : List (Fin 4 × Option (Fin 4096) × Nat)) : List Nat :=
  cl.foldl (fun l e => match e.2.1 with | some x => addNew l x.val | none => l) []

/-- A context's share of the zones' energy: ⌊E × a_c / A⌋ of each (R678). -/
def energyShare (zones : List Nat) (cl : List (Fin 4 × Option (Fin 4096) × Nat)) (x : Nat) : Nat :=
  sumNat ((List.range 4).map fun z => if zoneActivity cl z = 0 then 0 else zones.getD z 0 * zoneClaim cl z x / zoneActivity cl z)

/-- ESTIMATOR_SCALING: each zone's estimators are scaled to its measured energy, and the input energy measured since
the last scaling is divided among the contexts and the overhead account (R597, R678). Zone energies above the
input's cannot be measured. -/
def execEstimatorScaling (zones : List Nat) (claims : List (Fin 4 × Option (Fin 4096) × Nat)) (s : State) : Host.Outcome State Fault Refusal :=
  .next (
    let zs := (List.range 4).map fun z => zones.getD z 0
    let input := s.pwr.energyUj - s.pwr.energyCharged
    if s.pwr.running ∧ sumNat zs ≤ input then
      let xs := claimants claims
      let m := xs.foldl (fun m x => m.chargeCtx x { energy := energyShare zs claims x }) s.m
      let rest := input - sumNat (xs.map (energyShare zs claims))
      { s with
        pwr := { s.pwr with energyCharged := s.pwr.energyCharged + input,
                            zoneScale := (List.range 4).foldl (fun t z => Tab.put (0, 0) t z (zs.getD z 0, zoneActivity claims z)) [] },
        m := m.chargeOverhead { energy := rest } }
    else s)

/-! ## Thermal model (R607 to R610) -/

/-- The clusters and the stacks that a node governs (R607). -/
def clustersOfNode (n : Nat) : List Nat := (List.range 32).filter fun c => (nodesOfCluster c).contains n
def stacksOfNode (n : Nat) : List Nat := (List.range 12).filter fun k => (nodesOfStack k).contains n

/-- The highest level that any unit governed by a node holds. -/
def Pwr.levelUnder (p : Pwr) (n : Nat) : Nat :=
  max (maxNat ((clustersOfNode n).map (Tab.get 0 p.levelC))) (maxNat ((stacksOfNode n).map (Tab.get 0 p.levelS)))

/-- A node after a rule fired: max(floor, L) + n, at most 7 (R609, R610). -/
def Node.raise (x : Node) (l n : Nat) : Node := { x with floor := min 7 (max x.floor l + n) }

/-- A node's rise over the last `n` updates, in °C × 16; where it has been updated less often, since its first. -/
def Node.rise (x : Node) (n : Nat) : Int :=
  match x.hist with
  | [] => 0
  | h :: _ => h - (match x.hist[n]? with | some v => v | none => x.hist.getLastD h)

/-- One update of a node: its temperature, the value the governor uses (for a stack the higher of model and sensor,
R608), then rules A, B, C and decay in turn (R609). The count is how often a rule met a floor already at 7 (R610). -/
def updateNode (x : Node) (temp used : Int) (l : Nat) : Node × Nat :=
  let x := { x with temp := temp, hist := (used :: x.hist).take 201, restA := x.restA - 1, restB := x.restB - 1, restC := x.restC - 1 }
  let a := x.restA = 0 ∧ 48 < x.rise 200
  let b := x.restB = 0 ∧ 32 < x.rise 50
  let c := x.restC = 0 ∧ 1600 ≤ used
  let x1 : Node := if a then { x.raise l 1 with restA := 200 } else x
  let x2 : Node := if b then { x1.raise l 2 with restB := 50 } else x1
  let x3 : Node := if c then { x2.raise l 1 with restC := 50 } else x2
  let full := b2n (decide a && x.floor == 7) + b2n (decide b && x1.floor == 7) + b2n (decide c && x2.floor == 7)
  if ¬a ∧ ¬b ∧ ¬c ∧ used < 1520 ∧ x.rise 200 < 16 then
    if x3.quiet = 1000 then ({ x3 with floor := x3.floor - 1, quiet := 1 }, full) else ({ x3 with quiet := x3.quiet + 1 }, full)
  else ({ x3 with quiet := 0 }, full)

/-- One node of a model update, with its reef-exhausted and model-divergence events (R608, R610). -/
def updateNodeIn (tempsQ4 : List Int) (s : State) (n : Nat) : State :=
  let t := tempsQ4.getD n 0
  let sensor : Int := (((s.m.st (n - 32)).temp : Nat) : Int) * 16
  let isStack := decide (32 ≤ n) && decide (n < 44)
  let used := if isStack then max t sensor else t
  let l := s.pwr.levelUnder n
  let (x, full) := updateNode (Tab.get {} s.pwr.nodes n) t used l
  let p := { s.pwr with nodes := Tab.put {} s.pwr.nodes n x, exhaustedSeen := s.pwr.exhaustedSeen || decide (0 < full) }
  let m := (List.range full).foldl (fun m _ => m.post .reefExhausted none uModule [BitVec.ofNat 64 n]) s.m
  let d : Nat := if isStack && decide (t + 80 < sensor) then Tab.get 0 p.diverging n + 1 else 0
  let p := { p with diverging := Tab.put 0 p.diverging n d }
  if d = 10000 then
    { s with pwr := { p with divergenceSeen := true }, m := m.post .modelDivergence none (uStack (n - 32)) [BitVec.ofNat 64 (n - 32)] }
  else { s with pwr := p, m := m }

/-- THERMAL_MODEL_UPDATE: the 57 nodes take their new temperatures, the rules move their floors, and every unit takes
its level (R599, R607 to R610). -/
def execThermalModelUpdate (tempsQ4 : List Int) (coolant : Nat) (s : State) : Host.Outcome State Fault Refusal :=
  .next (if s.pwr.running ∧ tempsQ4.length = 57 then
    let t := (List.range 57).foldl (updateNodeIn tempsQ4) { s with pwr := { s.pwr with coolant := coolant } }
    applyLevels { s.withMach t.m with pwr := t.pwr }
  else s)

/-! ## The hardware trip (R614 to R617) -/

/-- HARDWARE_TRIP: the fatal trip record is written, the rails but AON go off, the stays close, and the module enters
`TRIPPED`; the third trip within 24 h locks it (R615, R617). -/
def State.trip (s : State) (cause node : Nat) : State :=
  let times := (s.m.now :: s.aon.tripTimes).take 3
  let a := { s.aon with tripTimes := times, lastCause := cause, lastNode := node, trippedAt := s.m.now, tripLow := true }
  let s := { s with aon := ({ a with locked := a.locked || decide (a.tripCount s.m.now = 3) } : Aon).raise 32 }
  (s.withMach (s.m.post .thermalTrip none uModule [BitVec.ofNat 64 cause, BitVec.ofNat 64 node])).railsOff .tripped

/-- Whether a coarse node has risen more than 10 °C over every 0.1 ms window of the last 1 ms, 20 updates (R614). -/
def fastRise (h : List Int) : Bool :=
  decide (21 ≤ h.length) && (List.range 19).all fun i => decide (160 < h.getD i 0 - h.getD (i + 2) 0)

/-- The trip condition that holds, as cause and node or stack, in the order of R614. -/
def tripCause (hist : List (List Int)) (dram : List Nat) : Option (Nat × Nat) :=
  match (List.range 12).find? (fun n => decide (1840 ≤ (hist.getD n []).headD 0)) with
  | some n => some (1, n)
  | none => match (List.range 12).find? (fun n => fastRise (hist.getD n [])) with
    | some n => some (2, n)
    | none => ((List.range 12).find? fun k => decide (105 ≤ dram.getD k 0)).map fun k => (3, k)

/-- TRIP_MODEL_UPDATE: AON updates its 12 coarse nodes and trips the module on any condition of R614 while its rails
are on. -/
def execTripModelUpdate (coarseQ4 : List Int) (dram : List Nat) (s : State) : Host.Outcome State Fault Refusal :=
  .next (if s.aon.mode = .off ∨ coarseQ4.length ≠ 12 then s else
    let hist := (List.range 12).map fun n => (coarseQ4.getD n 0 :: s.aon.coarse.getD n []).take 21
    let s := { s with aon := { s.aon with coarse := hist } }
    match tripCause hist dram with
    | some (c, n) => if s.aon.mode.powered then s.trip c n else s
    | none => s)

/-- REGULATOR_OVERTEMP: cause 4, at the coarse node of the zone (R614). -/
def execRegulatorOvertemp (zone : Fin 4) (s : State) : Host.Outcome State Fault Refusal :=
  .next (if s.aon.mode.powered then s.trip 4 (10 + zone.val / 2) else s)

/-- COOLING_ENTRY: the rails are below 0.1 V (R615). -/
def execCoolingEntry (s : State) : Host.Outcome State Fault Refusal :=
  .next (if s.aon.mode = .tripped then { s with aon := { s.aon with mode := .cooling } } else s)

/-- COOLING_EXIT: every coarse node is at or below 60 °C and 60 s have passed; THERM_TRIP_L is deasserted, and the module
enters `STANDBY`, or `BOOT` where MOD_EN is asserted and it is not locked (R616, R617). -/
def execCoolingExit (modEn : Bool) (s : State) : Host.Outcome State Fault Refusal :=
  .next (if s.aon.mode = .cooling ∧ (s.aon.coarse.all fun h => decide (h.headD 0 ≤ 960)) = true ∧ s.aon.trippedAt + 60 * 10 ^ 9 ≤ s.m.now then
    let s := { s with aon := { s.aon with mode := .standby, tripLow := false, modEn := modEn } }
    if modEn ∧ s.aon.locked = false ∧ s.aon.resetLow = false then s.toBoot else s
  else s)

/-! ## Margin plan (R619 to R623) -/

/-- A rebuild that became due at `due` starts unless one is in progress. -/
def Pwr.startRebuild (p : Pwr) (due : Nat) : Pwr :=
  if p.planState ≠ 0 then p
  else { p with planState := 1, planDone := [], newTop := [], newMv := [], newStack := [], newLaser := [], planDueAt := due }

/-- PLAN_REQUEST: PWR_PLAN.request written 1 (R620). -/
def execPlanRequest (s : State) : Host.Outcome State Fault Refusal :=
  .next (if s.servedFullWrite ∧ s.pwr.running then { s with pwr := s.pwr.startRebuild s.m.now } else s)

/-- Powered time of the plan in use, in ns. -/
def Pwr.planAge (p : Pwr) (now : Nat) : Nat := p.planCarry + (now - p.planMadeAt)

/-- PLAN_REBUILD_START: 168 powered hours have passed since the last plan, and the rebuild was due when they had (R620, R621). -/
def execPlanRebuildStart (s : State) : Host.Outcome State Fault Refusal :=
  .next (if s.pwr.running ∧ 168 * 3600 * 10 ^ 9 ≤ s.pwr.planAge s.m.now then
    { s with pwr := s.pwr.startRebuild (s.m.now - (s.pwr.planAge s.m.now - 168 * 3600 * 10 ^ 9)) } else s)

/-- What the monitors report with a measurement: entries of the new plan, and an event of severity error for each condition
of R623. -/
def planMonitors (s : State) (r : PlanReport) : State :=
  let p := r.memStacks.foldl (fun p e => { p with newStack := Tab.put (0, 0) p.newStack e.1.val (e.2.1, e.2.2.1) }) s.pwr
  let p := r.lasers.foldl (fun p e => { p with newLaser := Tab.put (0, 0) p.newLaser e.1 e.2 }) p
  let bad := (r.memStacks.filter fun e => e.2.2.2 || decide (e.2.2.1 < 20)).map fun e => uStack e.1.val
  let hot := (r.lasers.filter fun e => decide (90 < e.2.2)).map fun e => (⟨9, e.1⟩ : UnitId)
  let m := (bad ++ hot).foldl (fun m u => m.post .marginError none u [BitVec.ofNat 64 (u.cls * 65536 + u.idx)]) s.m
  { s with pwr := { p with marginSeen := p.marginSeen || !(bad ++ hot).isEmpty } }.withMach m

/-- Enabled clusters. -/
def Mach.enabledClusters (m : Mach) : List Nat := (List.range 32).filter fun c => (m.cl c).enabled

/-- The clusters, stacks and lasers whose entry of the new plan differs from the plan in use. -/
def Pwr.planChanges (p : Pwr) (enabled : List Nat) : List Nat × List Nat × List Nat :=
  (enabled.filter fun c => Tab.get 0 p.topC c != Tab.get 0 p.newTop c || Tab.get [] p.planMv c != Tab.get [] p.newMv c,
   (p.newStack.filter fun e => Tab.get (0, 0) p.planStack e.1 != e.2).map (·.1),
   (p.newLaser.filter fun e => Tab.get (0, 0) p.planLaser e.1 != e.2).map (·.1))

/-- Units as a mask, from the 64th number `w` on. -/
def unitMask (l : List Nat) (w : Nat) : Word := BitVec.ofNat 64 (sumNat ((l.filter fun n => n / 64 == w).map fun n => 2 ^ (n % 64)))

/-- The new plan in use. -/
def Pwr.planApplied (p : Pwr) (enabled : List Nat) (now : Nat) : Pwr :=
  { p with
    topC := enabled.foldl (fun t c => Tab.put 0 t c (Tab.get 0 p.newTop c)) p.topC,
    planMv := enabled.foldl (fun t c => Tab.put [] t c (Tab.get [] p.newMv c)) p.planMv,
    planStack := p.newStack.foldl (fun t e => Tab.put (0, 0) t e.1 e.2) p.planStack,
    planLaser := p.newLaser.foldl (fun t e => Tab.put (0, 0) t e.1 e.2) p.planLaser,
    planState := 0, planDone := [], newTop := [], newMv := [], newStack := [], newLaser := [], planMadeAt := now, planCarry := 0, planSeeded := true }

/-- PLAN_COMPLETE: the new plan is written and applied, and one margin-plan event lists the units whose entry has
changed, as a mask of clusters, one of stacks and 12 of lasers (R621; the layout is the model's, log entry 28). -/
def planComplete (s : State) : State :=
  let ch := s.pwr.planChanges s.m.enabledClusters
  applyLevels ({ s with pwr := s.pwr.planApplied s.m.enabledClusters s.m.now }.withMach
    (s.m.post .marginPlan none uModule (unitMask ch.1 0 :: unitMask ch.2.1 0 :: (List.range 12).map (unitMask ch.2.2))))

/-- PLAN_MEASUREMENT: an enabled cluster with no command in flight for 2 ms is measured, unless a command that needs it
abandons the measurement; with the last one the plan is complete (R620, R621, R623). -/
def execPlanMeasurement (c : Fin 32) (top : Fin 8) (abandoned : Bool) (r : PlanReport) (s : State) : Host.Outcome State Fault Refusal :=
  .next (
    let x := s.m.cl c.val
    if s.pwr.running ∧ s.pwr.planState ≠ 0 ∧ x.enabled ∧ x.cmd = none ∧ x.next = none ∧ x.idleSince + 2000000 ≤ s.m.now ∧ abandoned = false then
      let p := { s.pwr with newTop := Tab.put 0 s.pwr.newTop c.val top.val, planDone := addNew s.pwr.planDone c.val,
                            newMv := Tab.put [] s.pwr.newMv c.val r.mv }
      let s := planMonitors { s with pwr := p } r
      if s.m.enabledClusters.all (s.pwr.planDone.contains ·) then planComplete s else s
    else s)

/-- PLAN_OVERDUE: 24 h after a rebuild became due it has not completed; the old plan is kept (R621). -/
def execPlanOverdue (s : State) : Host.Outcome State Fault Refusal :=
  .next (if s.pwr.running ∧ s.pwr.planState = 1 ∧ s.pwr.planDueAt + 24 * 3600 * 10 ^ 9 ≤ s.m.now then
    { s with pwr := { s.pwr with planState := 2 } }.withMach (s.m.post .planOverdue none uModule [BitVec.ofNat 64 s.pwr.planDone.length])
  else s)

/-- MARGIN_WARNING: slack below the threshold for 1 ms raises the cluster's top level above its current level for the
rest of the power cycle, and a rebuild starts (R622). -/
def execMarginWarning (c : Fin 32) (s : State) : Host.Outcome State Fault Refusal :=
  .next (if s.pwr.running then
    let l := Tab.get 0 s.pwr.levelC c.val
    let p := { s.pwr with topRaised := Tab.put 0 s.pwr.topRaised c.val (max (Tab.get 0 s.pwr.topRaised c.val) (min 7 (l + 1))), marginSeen := true }
    applyLevels ({ s with pwr := p.startRebuild s.m.now }.withMach (s.m.post .marginWarning none (uCluster c.val) [BitVec.ofNat 64 l]))
  else s)

end Sys2Proof.Machine
end

