-- ==== Sys2Proof/Machine/Recorder.lean ====
section
/-! DEFINITION. The rows of inlay entries and the recorder's registers with effects (R644 to R649, R655, R657, R658). -/
namespace Sys2Proof.Machine

/-! ## INLAY_ARM (R644 to R649) -/

/-- INLAY_ARM: refused, put to wait with PENDING, or carried out at once (R648, R649). -/
def State.inlayRow (s : State) (a : Admin) (refusal : Option Status) : State :=
  match refusal with
  | some st => s.answer a st 0
  | none =>
    if s.m.inlayWaits a.args then
      if s.m.hyv.pendFull then s.answer a .busy 0
      else (s.withMach { s.m with inlayWait := s.m.inlayWait ++ [a] }).answer a .pending 0
    else
      let (st, i, m) := s.m.inlayNow a.args
      (s.withMach m).answer a st (BitVec.ofNat 64 i)

/-- INLAY_ARM with action 0. -/
def execInlayArm (s : State) : Host.Outcome State Fault Refusal :=
  .next (adminRow s 0x11 (fun a => !isDisarm a.args) fun a s =>
    if !inlayOk a.args then s.answer a .badParam 0 else s.inlayRow a (s.m.armRefusal (inlayArgs a.args)))

/-- INLAY_ARM with action 1: the spare line goes back, and the entry is free. -/
def execInlayDisarm (s : State) : Host.Outcome State Fault Refusal :=
  .next (adminRow s 0x11 (fun a => isDisarm a.args) fun a s =>
    if !inlayOk a.args then s.answer a .badParam 0 else s.inlayRow a (s.m.disarmRefusal (inlayArgs a.args)))

/-- INLAY_ARM_COMPLETE: the first waiting request whose page is owned no more, or whose cluster runs nothing, is carried out. -/
def execInlayArmComplete (s : State) : Host.Outcome State Fault Refusal :=
  .next (match s.m.inlayWait.find? (fun a => !s.m.inlayWaits a.args) with
    | none => s
    | some a => if s.dispatching then s.withMach (s.m.inlayDone a) else s)

/-! ## The recorder (R655, R657, R658) -/

/-- EVR_LATCH: the five counts are latched in one instant; a suspended recorder keeps its last ones (R643). -/
def execEvrLatch (s : State) : Host.Outcome State Fault Refusal :=
  .next (if s.servedFullWrite = true then s.withMach { s.m with evr := s.m.evr.latch } else s)

/-- The flash record in a place of the ring of 16,384. -/
def Evr.flashAt (r : Evr) (j : Nat) : Option Rec :=
  (r.flash.zipIdx.find? fun e => (r.flashWritten + flashRing - 1 - e.2) % flashRing == j).map (·.1)

/-- EVR_WINDOW_COPY: the 256 flash records from 256 × base on stand in the aperture, and busy clears (R657). -/
def Evr.copyWindow (r : Evr) : Evr :=
  { r with windowBusy := false, aperture := (List.range 256).map fun i => r.flashAt (256 * (r.window.toNat % 64) + i) }

def execEvrWindowCopy (s : State) : Host.Outcome State Fault Refusal :=
  .next (if s.m.evr.windowBusy = true then s.withMach { s.m with evr := s.m.evr.copyWindow } else s)

/-- The events, for finding one by its code. -/
def allEvents : List Ev :=
  [.selftestFail, .mastFault, .sparFault, .dramCe, .dramUe, .sramCe, .sramUe, .scraperLap, .scraperOverdue, .inlayChanged, .transportPoison,
   .commitLogPoison, .bookkeepingUe, .moverHalt, .commandPoisoned, .deployStopped, .acctRingFull, .updateStaged, .updateFallback, .configRejected,
   .fwHang, .rollbackRaised, .bootMeasured, .draftWait, .pageLimit, .swapBlocked, .starvation, .preemptOverdue, .waitOverdue, .deadlock, .wcetOverrun,
   .widthLowered, .spareUnusable, .inputFault, .powerClamp, .reef, .reefExhausted, .modelDivergence, .thermalTrip, .marginPlan, .planOverdue,
   .marginWarning, .marginError, .pauseExpired, .cacheExhausted, .linkLost, .collectiveOverdue, .damgerLoss, .doorbellInvalid, .inboundSuperseded,
   .inboundRefused, .afuFault, .firmwareFault]
def eventOf (code : Nat) : Option Ev := allEvents.find? fun e => e.code == code

/-- A code's burst and rate set: its tokens are what they were, up to the new burst; nothing changes for severity error and above. -/
def Evr.setLimit (r : Evr) (now : Nat) (e : Ev) (burst rate : Nat) : Evr :=
  if 4 ≤ e.sev then r else
    let b := (r.bucket e).refill now
    r.setBucket e { b with burst := burst, rate := rate, level := min b.level (burst * token) }

/-- EVR_CODE_LIMIT_WRITE: b and r of the selected code (R655). -/
def execEvrCodeLimitWrite (v : Word) (s : State) : Host.Outcome State Fault Refusal :=
  .next (match eventOf s.m.evr.codeSel.toNat with
    | none => s
    | some e =>
      if s.servedFullWrite = true then s.withMach { s.m with evr := s.m.evr.setLimit s.m.now e (bits v.toNat 63 48) (bits v.toNat 47 32) } else s)

end Sys2Proof.Machine
end

