-- ==== Sys2Proof/Machine/Window.lean ====
section
/-! DEFINITION. The control window as it reads (R9, R569, R571): the identity and status block, and the value of every
register that the chapters lay out, made of the state. -/
namespace Sys2Proof.Machine

/-- The 64-bit word at offset `o` of a block of bytes. -/
def wordAt (b : List Byte) (o : Nat) : Word := BitVec.ofNat 64 (fld b o 8)

/-- Nibbles of a word, entry `n` at bits [4n + 3:4n]. -/
def nibbles (n : Nat) (f : Nat → Nat) : Word := packWord ((List.range n).map fun i => (4 * i, f i % 16))

/-! ## Identity and status block (R571) -/

/-- The number of a module state (R571, PWR_SB_STATE). -/
def Mode.code : Mode → Nat
  | .off => 0 | .standby => 1 | .boot => 2 | .train => 3 | .selftest => 4 | .hold => 5 | .ready => 6 | .run => 7
  | .tripped => 8 | .cooling => 9

def Cluster.identity (k : Cluster) : List Byte :=
  leBytes 4 (b2n k.enabled * 2 ^ 31 + k.phys.length * 2 ^ 24 + k.coreMask.toNat * 2 ^ 16 + k.width)

/-- The image of the slot that this boot runs: empty in ROM. -/
def Sec.bootImage (x : Sec) : List Byte := if x.bootSlot < 2 then (x.slot x.bootSlot).image else []

/-- The block; the slot number of a boot from ROM is that of SEC_STATUS (log entry 40). -/
def State.identityBlock (s : State) : List Byte :=
  leBytes 4 0x4C504944 ++ leBytes 2 1 ++ leBytes 1 hyvalMin ++ leBytes 1 hyvalMax ++ leBytes 4 s.aon.mode.code
    ++ leBytes 4 s.aon.holdReason.toNat ++ leBytes 8 s.m.now ++ leBytes 8 s.aon.idLo.toNat ++ leBytes 8 s.aon.idHi.toNat
    ++ leBytes 4 (imgVersion s.sec.bootImage) ++ leBytes 20 s.sec.bootSlot
    ++ (List.range 32).flatMap (fun c => (s.m.cl c).identity)
    ++ (List.range 12).flatMap (fun k => leBytes 1 (if (s.m.st k).ok then (s.m.st k).bin else 0xFF))
    ++ leBytes 4 (b2n s.m.dmg.half * 4096 + s.m.dmg.pairs * 256 + s.m.dmg.version) ++ leBytes 8 (s.m.totalFrames * 65536)

/-! ## Mailbox, log ring, doorbell pages (R572 to R583, R590 to R592, R671) -/

def PendE.bytes (e : PendE) : List Byte :=
  leBytes 8 e.tag.toNat ++ leBytes 8 e.result.toNat ++ leBytes 8 e.doneNs ++ leBytes 2 e.st.code ++ leBytes 1 e.op ++ leBytes 5 0

def Hyv.reg (h : Hyv) (o : Nat) : Word :=
  if o < 0x80 then BitVec.ofNat 64 (leNat ((List.range 8).map fun i => Tab.get 0 h.area (o + i)))
  else if 0x800 ≤ o ∧ o < 0xC00 then
    match Tab.get none h.pqMem ((o - 0x800) / 32) with
    | some e => wordAt e.bytes (o % 32)
    | none => 0
  else match o with
    | 0x088 => packWord [(63, b2n h.latched.isSome), (32, h.status.code), (24, h.statusOp)]
    | 0x090 => h.result
    | 0x098 => h.version.setWidth 64
    | 0x0A0 => packWord [(8, h.pqTail), (0, h.pqHead)]
    | 0x0A8 => h.timeA
    | 0x0B0 => h.timeB
    | 0x0C0 => h.traceMask.setWidth 64
    | 0x0C8 => (h.traceMask >>> 64).setWidth 64
    | 0x0D0 => h.fwTrace
    | 0x0D8 => BitVec.ofNat 64 h.logProd
    | 0x0E0 => BitVec.ofNat 64 h.traceDrops
    | _ => 0

def LogRec.bytes (r : LogRec) : List Byte :=
  leBytes 8 r.seq ++ leBytes 8 r.time ++ leBytes 1 r.source ++ leBytes 1 r.kind ++ leBytes 2 r.code ++ leBytes 2 r.ctx ++ leBytes 1 r.cluster
    ++ slice (r.payload.flatMap fun w => leBytes 8 w.toNat) 0 41

/-- The log ring window: record i at slot i mod 16,384 (R590). -/
def Hyv.logWord (h : Hyv) (o : Nat) : Word :=
  match Tab.get none h.logs (o / 64) with
  | some r => wordAt r.bytes (o % 64)
  | none => 0

def CtxSt.code : CtxSt → Nat
  | .absent => 0 | .created => 1 | .enabled => 2 | .draining => 3 | .disabled => 4

/-- HYV_Q_STATUS: stopped, held by a WAIT or FENCE that has not ended, or running. -/
def Mach.queueStatus (m : Mach) (ctx q : Nat) : Word :=
  let k := (m.cx ctx).q q
  let mine := m.cmds.filter fun x => x.ctx == ctx && x.q == q
  let held := mine.any fun x => x.kind == .fence || (x.kind == .wait && x.phase != .ended)
  packWord [(48, match k.stopped with | some st => st.code | none => 0), (46, if k.stopped.isSome then 2 else b2n held),
    (0, (mine.filter (·.inFlight)).length)]

/-- HYV_SERVE_CTL: the deployment that deploy_id selects. -/
def Mach.serveStatus (m : Mach) (ctx : Nat) : Word :=
  let id := (m.cx ctx).serveSel.toNat
  match m.depOf ctx id with
  | none => packWord [(0, id)]
  | some d => match d.stopped with
    | some st => packWord [(48, 2), (32, st.code), (0, id)]
    | none => packWord [(48, 1), (0, id)]

/-- A doorbell page; that of an `absent` context, and queues that it has not, read 0 (R578). -/
def Mach.pageReg (m : Mach) (ctx o : Nat) : Word :=
  let c := m.cx ctx
  if c.st = .absent then 0
  else if o < 0x400 then
    let k := c.q (o / 0x40)
    if c.queues ≤ o / 0x40 then 0 else match o % 0x40 with
      | 0x00 => BitVec.ofNat 64 k.sqTail
      | 0x08 => BitVec.ofNat 64 k.sqHead
      | 0x10 => BitVec.ofNat 64 k.cqTail
      | 0x18 => BitVec.ofNat 64 k.cqHead
      | 0x20 => m.queueStatus ctx (o / 0x40)
      | _ => 0
  else if 0xC10 ≤ o ∧ o < 0xC30 then Tab.get 0x400 c.user.samples ((o - 0xC10) / 8)
  else match o with
    | 0x600 => m.serveStatus ctx
    | 0x800 => BitVec.ofNat 64 c.st.code
    | 0xC00 => packWord [(48, c.user.drops), (31, b2n c.user.denied), (0, c.user.sel.toNat)]
    | 0xC08 => if m.mayRead ctx c.user.sel.toNat then BitVec.ofNat 64 (m.liveOf c.user.sel.toNat) else 0
    | _ => 0

/-! ## PWR, THM, EVR, CTR, ACT, SEC -/

def Pwr.reg (p : Pwr) (now o : Nat) : Word :=
  match o with
  | 0x00 => packWord [(48, p.inputMv % 65536), (32, p.lastW % 65536), (16, p.floor), (11, b2n p.clamp), (10, b2n p.clampSeen), (9, b2n p.faultSeen)]
  | 0x08 => packWord [(4, p.capW), (0, p.hostFloor)]
  | 0x10 => nibbles 16 fun i => Tab.get 0 p.levelC i
  | 0x18 => nibbles 16 fun i => Tab.get 0 p.levelC (16 + i)
  | 0x20 => nibbles 12 fun i => Tab.get 0 p.levelS i
  | 0x28 => nibbles 16 p.top
  | 0x30 => nibbles 16 fun i => p.top (16 + i)
  | 0x38 => packWord [(61, p.planState), (40, p.planDone.length), (0, p.planAge now / (3600 * 10 ^ 9) % 2 ^ 32)]
  | 0x40 => BitVec.ofNat 64 p.energyUj
  | _ => 0

def Node.word (x : Node) : Word :=
  packWord [(32, (BitVec.ofInt 16 x.temp).toNat), (16, (BitVec.ofInt 16 (x.rise 200)).toNat), (8, x.floor)]

def State.thmReg (s : State) (o : Nat) : Word :=
  if 0x100 ≤ o ∧ o < 0x100 + 8 * 57 then (Tab.get ({} : Node) s.pwr.nodes ((o - 0x100) / 8)).word
  else match o with
    | 0x00 => packWord [(56, s.pwr.coolant % 256), (48, (BitVec.ofInt 8 (s.pwr.hottest.2 / 16)).toNat), (40, s.pwr.hottest.1), (3, b2n s.pwr.exhaustedSeen),
        (2, b2n s.pwr.divergenceSeen), (1, b2n s.pwr.marginSeen), (0, b2n s.pwr.running)]
    | 0x40 => packWord [(56, s.aon.lastCause % 256), (52, s.aon.lastNode % 16), (48, min 3 (s.aon.tripCount s.m.now)), (1, b2n s.aon.locked)]
    | _ => 0

/-- Snapshot words that a code uses (R660); those the manual does not give are a free value (log entry 4). -/
def Ev.words : Ev → Nat
  | .selftestFail => 4 | .mastFault => 6 | .sparFault => 4 | .dramCe => 5 | .dramUe => 5 | .sramCe => 4 | .sramUe => 4 | .scraperLap => 2
  | .scraperOverdue => 2 | .inlayChanged => 4 | .transportPoison => 4 | .commitLogPoison => 3 | .bookkeepingUe => 3 | .moverHalt => 5
  | .commandPoisoned => 3
  | e => (Config.eventWords e.index).val

/-- The 16 words of a record (R654). -/
def Rec.words (r : Rec) : List Word :=
  [BitVec.ofNat 64 r.time,
   packWord [(48, r.ev.code), (36, r.ctx.getD 0), (35, b2n r.ctx.isSome), (32, r.sev), (28, r.unit.cls), (20, r.unit.idx % 256), (4, r.seq % 65536), (0, 1)]]
    ++ r.snap

/-- The record that the aperture shows at place `i` (R657). -/
def Evr.shown (r : Evr) (i : Nat) : Option Rec :=
  if bitAt r.window.toNat 6 then (r.aperture[i]?).getD none
  else if 256 * (r.window.toNat % 64) + i < evrSlots then Tab.get none r.slots (256 * (r.window.toNat % 64) + i) else none

def Evr.codeInfo (r : Evr) : Word :=
  match eventOf r.codeSel.toNat with
  | none => 0
  | some e => packWord [(32, (r.bucket e).suppressed), (29, e.sev), (25, e.words), (24, 1)]

def Evr.codeLimit (r : Evr) : Word :=
  match eventOf r.codeSel.toNat with
  | none => 0
  | some e => packWord [(48, (r.bucket e).burst), (32, (r.bucket e).rate)]

def Evr.reg (r : Evr) (o : Nat) : Word :=
  if 0x8000 ≤ o then (match r.shown ((o - 0x8000) / 128) with | some x => x.words.getD (o % 128 / 8) 0 | none => 0)
  else match o with
    | 0x00 => packWord [(48, r.held.length), (32, r.seq % 65536), (16, (r.held.filter fun e => decide (4 ≤ e.2.sev) && !e.2.persisted).length),
        (2, b2n r.suspended), (1, b2n r.flashFault)]
    | 0x10 => BitVec.ofNat 64 (r.latched.getD 0 0)
    | 0x18 => BitVec.ofNat 64 (r.latched.getD 1 0)
    | 0x20 => BitVec.ofNat 64 (r.latched.getD 2 0)
    | 0x28 => BitVec.ofNat 64 (r.latched.getD 3 0)
    | 0x30 => BitVec.ofNat 64 (r.latched.getD 4 0)
    | 0x40 => packWord [(9, b2n r.windowBusy), (8, b2n (bitAt r.window.toNat 6)), (0, r.window.toNat % 64)]
    | 0x48 => r.codeSel.setWidth 64
    | 0x50 => r.codeInfo
    | 0x58 => r.codeLimit
    | 0x60 => packWord [(32, r.flashOver), (0, r.flashWritten)]
    | _ => 0

def Ctr.reg (c : Ctr) (o : Nat) : Word :=
  let key := fun (base : Nat) => ctrKey (bits c.sel.toNat 19 16) (bits c.sel.toNat 15 8) ((o - base) / 8)
  if 0x1000 ≤ o ∧ o < 0x1800 then BitVec.ofNat 64 (Tab.get 0 c.live (key 0x1000))
  else if 0x2000 ≤ o ∧ o < 0x2800 then BitVec.ofNat 64 (Tab.get 0 c.snap (key 0x2000))
  else match o with
    | 0x00 => c.sel.setWidth 64
    | 0x08 => packWord [(32, c.freezes), (1, b2n c.done)]
    | 0x10 => BitVec.ofNat 64 c.freezeTime
    | _ => 0

def Mach.actReg (m : Mach) (o : Nat) : Word :=
  let c := m.ctr
  match o with
  | 0x00 => c.ringBase.setWidth 64 <<< 16
  | 0x08 => BitVec.ofNat 64 c.ringSize
  | 0x10 => BitVec.ofNat 64 c.prod
  | 0x18 => BitVec.ofNat 64 c.head
  | 0x20 => packWord [(8, m.suspendedCounts.toNat), (1, b2n c.fullSeen), (0, b2n c.enable)]
  | 0x28 => c.framesA
  | 0x30 => c.framesB
  | 0x38 => c.hostTier
  | _ => 0

/-- SEC_SLOT_A and SEC_SLOT_B: 0 when empty or invalid. -/
def FwSlot.versions (f : FwSlot) : Word :=
  if f.shown = 0 ∨ f.shown = 3 then 0 else packWord [(32, imgVersion f.image), (0, imgSecurity f.image)]

def Sec.reg (x : Sec) (o : Nat) : Word :=
  match o with
  | 0x00 => packWord [(32, imgSecurity x.bootImage), (23, b2n x.trialBoot), (22, b2n x.fallback), (21, b2n x.recovery), (18, x.sel.next),
      (16, if x.bootSlot < 2 ∨ x.recovery then x.bootSlot else 0), (8, x.stageState), (0, x.stagePct)]
  | 0x08 => packWord [(32, x.fwMin), (0, x.cfgMin)]
  | 0x10 => x.slotA.versions
  | 0x18 => x.slotB.versions
  | 0x20 => packWord [(4, b2n x.sel.lastGood.isSome), (2, x.slotB.shown), (0, x.slotA.shown)]
  | 0x28 => packWord [(32, recVersion x.record), (0, recVersion x.staged)]
  | 0x30 => BitVec.ofNat 64 x.bootCount
  | _ => 0

/-! ## Clusters -/

def Core.reg (x : Core) (k : Cluster) (o : Nat) : Word :=
  match o with
  | 0x00 => packWord [(48, x.usable), (40, k.width), (32, 64 - x.usable), (12, k.ramp), (9, b2n (!k.passes.isEmpty)), (8, b2n x.poisonSeen), (0, min 255 k.arrayIdle)]
  | 0x08 => x.bypass
  | 0x10 => packWord [(24, x.selfResult), (16, x.selfFailed), (8, x.selfClass), (0, b2n x.selfDone)]
  | 0x18 => packWord ((List.range 4).map fun i => (16 * i, match Tab.get none x.inlay i with | some (l, _) => 32768 + l % 32768 | none => 0))
  | _ => 0

def Chan.reg (x : Chan) (o : Nat) : Word :=
  match o with
  | 0x00 => x.statusWord
  | 0x08 => haltWord x.haltCause x.haltElem x.haltValid
  | _ => 0

def Afu.reg (x : Afu) (o : Nat) : Word :=
  match o with
  | 0x00 => packWord [(32, x.next % 2 ^ 24), (21, (x.staged.filter fun e => e.2.isSome).length), (18, x.st), (0, b2n x.faultSeen)]
  | 0x08 => packWord [(56, x.faultCause), (55, b2n x.faultValid), (24, x.faultReq % 65536), (0, x.faultPage % 2 ^ 24)]
  | 0x10 => BitVec.ofNat 64 x.bytes
  | _ => 0

def bankCode : Bank3 → Nat
  | .empty => 0 | .loading => 1 | .ready => 2 | .armed => 3 | .active => 4

def Cluster.seqReg (k : Cluster) (o : Nat) : Word :=
  match o with
  | 0x00 => k.statusWord
  | 0x10 => packWord [(62, b2n (k.loadReg.getLsbD 58)), (0, k.loadReg.toNat % 2 ^ 58)]
  | 0x18 => packWord [(24, k.loadStatus), (9, b2n k.loadBusy), (8, b2n (k.imemB.st == .active)), (7, b2n k.reuse), (4, bankCode k.imemB.st), (0, bankCode k.imemA.st)]
  | 0x20 => k.freezeWord
  | 0x28 => BitVec.ofNat 64 k.issueAc
  | 0x30 => BitVec.ofNat 64 k.freezeAc
  | 0x38 => trapWord k.trapCode k.trapSlot k.trapMask k.trapUser k.trapOff k.trapValid
  | _ => 0

/-- CTX_SLOT: free, idle, running, blocked, swapping in or evicting. -/
def Mach.slotWord (m : Mach) (c i : Nat) : Word :=
  let x := (m.cl c).slot i
  let st := if x.st ≠ 0 then x.st else if x.ctx = none then 0 else if m.slotIdle c i then 1 else if m.slotBlocked c i then 3 else 2
  packWord [(63, b2n x.ctx.isSome), (60, st), (48, (x.ctx.orElse fun _ => x.incoming).getD 0), (0, x.lastUs % 2 ^ 48)]

def Mach.ctxReg (m : Mach) (c o : Nat) : Word :=
  let k := m.cl c
  let mine := m.cmds.filter fun x => x.clusters.contains c
  if o < 0x40 then m.slotWord c (o / 8) else match o with
    | 0x40 => packWord [(32, k.swaps), (16, k.evictions % 65536), (0, b2n k.swapBlocked)]
    | 0x48 => packWord [(32, sumNat (m.ctxs.map fun e => if e.2.st = .enabled ∧ e.2.clusterMask.getLsbD c then e.2.reserve else 0)), (0, sumNat (k.admittedUs.map (·.2)))]
    | 0x50 => packWord [(8, min 255 (sumNat (mine.map fun x => (x.overdue.filter fun w => w.1 == c).length))), (0, b2n (mine.any fun x => !x.held.isEmpty))]
    | _ => 0

def Mach.clusterReg (m : Mach) (c o : Nat) : Word :=
  let k := m.cl c
  if o < 0x1000 then k.seqReg o
  else if o < 0x1800 then (k.core ((o - 0x1000) / 0x100)).reg k (o % 0x100)
  else if 0x2000 ≤ o ∧ o < 0x2200 then (k.chan ((o - 0x2000) / 0x40)).reg (o % 0x40)
  else if 0x3000 ≤ o ∧ o < 0x4000 then k.afu.reg (o - 0x3000)
  else if 0x4000 ≤ o ∧ o < 0x5000 then m.ctxReg c (o - 0x4000)
  else 0

/-! ## Stacks -/

/-- Requests queued in a stack's banks. -/
def Stack.reqs (x : Stack) : List Req := x.banks.flatMap (·.2.reqs)
def Req.isLc (q : Req) : Bool := lcRead q.r

def CeLoc.info (e : CeLoc) : Word := packWord [(48, min 65535 e.count), (0, e.lastUs % 2 ^ 48)]

def Inlay.word (e : Inlay) : Word := packWord [(63, 1), (59, e.die), (53, e.bank), (37, e.row), (33, e.line), (29, e.spare)]

/-- A stack controller's registers; `on` says whether the scrapers run (R634). -/
def Mach.mcReg (m : Mach) (on : Bool) (s o : Nat) : Word :=
  let x := m.st s
  if 0x180 ≤ o ∧ o < 0x1C0 then (match Tab.get none x.inlay ((o - 0x180) / 8) with | some e => e.word | none => 0)
  else if 0x200 ≤ o ∧ o < 0x400 then
    match Tab.get none x.ces ((o - 0x200) / 16) with
    | some e => if o % 16 = 0 then e.loc else e.info
    | none => 0
  else match o with
    | 0x000 => packWord [(48, x.temp % 256), (36, x.bin), (34, (x.intervals m.now).rate), (0, x.channelOk.toNat)]
    | 0x008 => packWord [(32, x.forced), (3, b2n x.reachedFour), (0, maxNat (x.banks.map (·.2.postponed)))]
    | 0x010 => packWord [(36, (x.reqs.filter fun q => !q.isLc).length), (22, (x.reqs.filter (·.isLc)).length),
        (10, (x.reqs.filter fun q => m.ownedAt q.r.dpa.toNat).length % 4096), (0, b2n x.backpressure)]
    | 0x100 => packWord [(32, x.ceCount), (16, x.ueCount), (0, x.poisonReads)]
    | 0x108 => packWord [(32, x.ceReplaced), (0, (x.ces.filter fun e => e.2.isSome).length)]
    | 0x110 => packWord [(32, x.lapMs % 2 ^ 32), (16, x.laps), (0, b2n (on && x.ok))]
    | _ => 0

def Stack.turnerReg (x : Stack) (o : Nat) : Word :=
  match o with
  | 0x00 => packWord [(24, min 255 (x.turns.map fun t => (t.cluster, t.chan)).eraseDups.length), (1, b2n x.turnPoison), (0, b2n (!x.turns.isEmpty))]
  | _ => 0

def Stack.sparReg (x : Stack) (o : Nat) : Word :=
  match o with
  | 0x00 => x.sparStatus
  | 0x08 => packWord [(44, x.loadLen), (0, x.loadSrc)]
  | 0x10 => packWord [(62, b2n x.loadBound), (16, x.loadMask), (5, x.loadLast), (0, x.loadFirst)]
  | 0x18 => packWord [(24, x.loadStatus), (0, b2n (!x.loadSet.isEmpty))]
  | 0x20 => sparTrapWord x.trapCode x.trapCore x.trapUser x.trapPc x.trapValid
  | _ => 0

def Mach.stackReg (m : Mach) (on : Bool) (s o : Nat) : Word :=
  if o < 0x1000 then m.mcReg on s o else if o < 0x2000 then (m.st s).turnerReg (o - 0x1000)
  else if o < 0x3000 then (m.st s).sparReg (o - 0x2000) else 0

/-! ## Shroud and Damger -/

def PortSt.code : PortSt → Nat
  | .dark => 0 | .down => 1 | .training => 2 | .up => 3 | .closing => 4

def Port.reg (p : Port) (o : Nat) : Word :=
  match o with
  | 0x00 => packWord [(48, p.partner.toNat), (45, p.st.code), (41, p.reason), (40, b2n p.lossSeen), (38, p.rate), (34, p.waves), (33, b2n p.fec), (32, b2n p.small),
      (16, p.ackSeqLoss.toNat), (0, p.rxSeqLoss.toNat)]
  | 0x08 => packWord [(40, p.rtt % 2 ^ 24), (16, p.stopBytes % 2 ^ 24), (0, p.granted % 65536)]
  | 0x10 => BitVec.ofNat 64 p.txBytes
  | 0x18 => BitVec.ofNat 64 p.txAcked
  | 0x20 => BitVec.ofNat 64 p.dropBytes
  | 0x28 => BitVec.ofNat 64 p.rxBytes
  | 0x30 => BitVec.ofNat 64 p.rxApplied
  | 0x38 => BitVec.ofNat 64 p.rxForwarded
  | 0x40 => BitVec.ofNat 64 p.rxRefused
  | 0x48 => packWord [(32, p.replays), (0, p.discarded)]
  | _ => 0

def Mach.shrReg (m : Mach) (o : Nat) : Word :=
  if 0x10000 ≤ o ∧ o < 0x20000 then BitVec.ofNat 64 (leNat ((List.range 8).map fun i => Tab.get 0 m.shr.routes (o - 0x10000 + i)))
  else if 0x20000 ≤ o ∧ o < 0x21000 then (m.port ((o - 0x20000) / 0x100)).reg (o % 0x100)
  else match o with
    | 0x00 => packWord [(16, b2n m.nodeLocked), (0, m.shr.node.toNat)]
    | 0x08 => nibbles 8 fun i => Tab.get 0 m.shr.stays i
    | _ => 0

def Dmg.reg (d : Dmg) (o : Nat) : Word :=
  match o with
  | 0x00 => packWord [(8, d.version), (5, d.pairs), (4, b2n d.half), (3, b2n d.up), (2, b2n d.lossSeen)]
  | 0x08 => packWord [(32, d.replays), (0, d.dropped)]
  | _ => 0

/-! ## The window (R9, R569) -/

/-- The value of the register at an 8 B offset: none outside every listed range; an offset that no register has reads 0 (R9). -/
def State.reg (s : State) (o : Nat) : Option Word :=
  if o < 0x1000 then some (wordAt s.identityBlock o)
  else if o < 0x2000 then some (s.m.hyv.reg (o - 0x1000))
  else if o < 0x100000 then none
  else if o < 0x110000 then some (s.pwr.reg s.m.now (o - 0x100000))
  else if o < 0x120000 then some (s.thmReg (o - 0x110000))
  else if o < 0x130000 then some (s.m.evr.reg (o - 0x120000))
  else if o < 0x140000 then some (s.m.ctr.reg (o - 0x130000))
  else if o < 0x150000 then some (s.m.actReg (o - 0x140000))
  else if o < 0x160000 then some (s.sec.reg (o - 0x150000))
  else if o < 0x400000 then none
  else if o < 0x500000 then some (s.m.hyv.logWord (o - 0x400000))
  else if o < 0x1000000 then none
  else if o < 0x2000000 then some (s.m.pageReg ((o - 0x1000000) / 0x1000) (o % 0x1000))
  else if o < 0x2200000 then some (s.m.clusterReg ((o - 0x2000000) / 0x10000) (o % 0x10000))
  else if o < 0x3000000 then none
  else if o < 0x30C0000 then some (s.m.stackReg (decide (s.aon.mode = .ready ∨ s.aon.mode = .run)) ((o - 0x3000000) / 0x10000) (o % 0x10000))
  else if o < 0x3800000 then none
  else if o < 0x3840000 then some (s.m.shrReg (o - 0x3800000))
  else if o < 0x3900000 then none
  else if o < 0x3901000 then some (s.m.dmg.reg (o - 0x3900000))
  else none

/-! ## The sideband as it reads (R726 to R729) -/

/-- The 8 bytes that a sideband read returns from an offset: the AON registers, and those of R729; an offset that is not listed reads 0, and
the fields of PWR_STATUS that PWR computes read 0 while it does not run. -/
def State.sideband (s : State) (off : Nat) : Word :=
  match off with
  | 0x0000 => packWord [(32, s.aon.holdReason.toNat), (17, b2n s.aon.modEn), (16, b2n s.aon.resetLow), (8, b2n s.aon.i3c), (0, s.aon.mode.code)]
  | 0x0008 => s.aon.alert.setWidth 64
  | 0x0010 => s.aon.alertMask.setWidth 64
  | 0x0018 => s.aon.idLo
  | 0x0020 => s.aon.idHi
  | 0x0040 => s.thmReg 0x00
  | 0x0048 => s.thmReg 0x40
  | 0x0050 => ({ s.pwr with lastW := if s.pwr.running then s.pwr.lastW else 0, floor := if s.pwr.running then s.pwr.floor else 0 } : Pwr).reg s.m.now 0x00
  | 0x0058 => s.pwr.reg s.m.now 0x40
  | _ => 0

/-- What a sideband read returns: the register at the offset that the latest write set (R728); nothing is served in `OFF`. -/
def State.sidebandRead (s : State) : Option Word := if s.aon.mode = .off then none else some (s.sideband s.aon.sbOffset.toNat)

/-- The outputs that the board sees, true where the pin is low: ALERT_L, THERM_TRIP_L, and PRESENT_L, which is tied low (R726). -/
def State.alertLow (s : State) : Bool := decide (s.aon.alert &&& s.aon.alertMask ≠ 0)
def State.thermTripLow (s : State) : Bool := s.aon.tripLow
def State.presentLow (_ : State) : Bool := true

end Sys2Proof.Machine
end

