-- ==== Sys2Proof/Machine/Registers.lean ====
section
/-! DEFINITION. REGISTER_WRITE: a write of 4 B or 8 B in the control window, which acts on each field as its type says
(R7, R8, R569, R570), with the registers that have a row of their own acting as that row. -/
namespace Sys2Proof.Machine

/-- A write as it reaches a register of 8 B: the word written, with zeros where it writes nothing, for the fields that act on a 1;
and the register as the write leaves its RW fields. -/
structure RegWrite where
  one : Word
  rw : Word

/-- A write of 4 B leaves the other half of its register as it was (R569; log entry 41). -/
def RegWrite.of (old : Word) (off size : Nat) (v : Word) : RegWrite :=
  if size = 8 then ⟨v, v⟩
  else if off % 8 = 0 then ⟨(v.setWidth 32).setWidth 64, (old &&& 0xFFFFFFFF00000000#64) ||| (v.setWidth 32).setWidth 64⟩
  else ⟨(v.setWidth 32).setWidth 64 <<< 32, (old &&& 0xFFFFFFFF#64) ||| ((v.setWidth 32).setWidth 64 <<< 32)⟩

/-- The bytes that a write stores, and the offset of the first. -/
def RegWrite.bytes (off size : Nat) (v : Word) : List (Nat × Byte) := (leBytes size v.toNat).zipIdx.map fun e => (off + e.2, e.1)

/-! ## Mailbox (R572, R573, R588, R592) -/

/-- The command area as HYV_ADMIN_GO latches it (R572). An opcode that R575 does not list has no row of its own: it is answered
BAD_OPCODE at once (R587; DEDUCED, log entry 26). -/
def Hyv.latch (h : Hyv) : Hyv :=
  if h.latched.isSome then h else
    let b := (List.range 0x80).map fun i => Tab.get (0 : Byte) h.area i
    let a : Admin := ⟨fld b 0 1, zeros b 1 7, wordAt b 8, slice b 0x10 48, slice b 0x40 64⟩
    if adminOps.contains a.op then { h with latched := some a } else h.answer a.op .badOpcode 0

def Hyv.writeReg (h : Hyv) (o size : Nat) (raw : Word) (v : RegWrite) : Hyv :=
  if o < 0x80 then { h with area := (RegWrite.bytes o size raw).foldl (fun (t : Tab Byte) e => Tab.put 0 t e.1 e.2) h.area }
  else match o / 8 * 8 with
    | 0x080 => if v.one.getLsbD 0 then h.latch else h
    | 0x098 => if h.version = 0 ∧ hyvalMin ≤ bits v.rw.toNat 7 0 ∧ bits v.rw.toNat 7 0 ≤ hyvalMax then { h with version := v.rw.setWidth 8 } else h
    | 0x0A0 => { h with pqHead := bits v.rw.toNat 5 0 }
    | 0x0C0 => { h with traceMask := ((h.traceMask >>> 64) <<< 64) ||| v.rw.setWidth 128 }
    | 0x0C8 => { h with traceMask := (h.traceMask.setWidth 64).setWidth 128 ||| (v.rw.setWidth 128 <<< 64) }
    | 0x0D0 => { h with fwTrace := v.rw }
    | _ => h

/-! ## Power, thermal, recorder, counters -/

def State.writePwr (s : State) (o : Nat) (v : RegWrite) : State :=
  match o with
  | 0x00 => { s with pwr := { s.pwr with clampSeen := s.pwr.clampSeen && !v.one.getLsbD 10, faultSeen := s.pwr.faultSeen && !v.one.getLsbD 9 } }
  | 0x08 => { s with pwr := s.pwr.writeCap v.rw }
  | 0x38 => if v.one.getLsbD 63 ∧ s.pwr.running then { s with pwr := s.pwr.startRebuild s.m.now } else s
  | _ => s

def State.writeThm (s : State) (o : Nat) (v : RegWrite) : State :=
  match o with
  | 0x00 => { s with pwr := { s.pwr with exhaustedSeen := s.pwr.exhaustedSeen && !v.one.getLsbD 3,
                                         divergenceSeen := s.pwr.divergenceSeen && !v.one.getLsbD 2, marginSeen := s.pwr.marginSeen && !v.one.getLsbD 1 } }
  | 0x40 => if v.one.getLsbD 0 then { s with aon := s.aon.clearTrip } else s
  | _ => s

def Evr.writeReg (r : Evr) (now o : Nat) (v : RegWrite) : Evr :=
  match o with
  | 0x00 => { r with flashFault := r.flashFault && !v.one.getLsbD 1 }
  | 0x08 => if v.one.getLsbD 0 then r.latch else r
  | 0x40 => { r with window := BitVec.ofNat 7 (bits v.rw.toNat 8 8 * 64 + bits v.rw.toNat 5 0), windowBusy := v.rw.getLsbD 8 }
  | 0x48 => { r with codeSel := v.rw.setWidth 16 }
  | 0x58 => match eventOf r.codeSel.toNat with
    | none => r
    | some e => r.setLimit now e (bits v.rw.toNat 63 48) (bits v.rw.toNat 47 32)
  | _ => r

def Mach.writeCtr (m : Mach) (o : Nat) (v : RegWrite) : Mach :=
  match o with
  | 0x00 => { m with ctr := { m.ctr with sel := BitVec.ofNat 20 (bits v.rw.toNat 19 8 * 256) } }
  | 0x08 => if v.one.getLsbD 0 then m.ctrFreeze else m
  | _ => m

def Ctr.writeAct (c : Ctr) (o : Nat) (v : RegWrite) : Ctr :=
  match o with
  | 0x00 => { c with ringBase := (v.rw >>> 16).setWidth 48 }
  | 0x08 => if c.enable = false then { c with ringSize := bits v.rw.toNat 31 0 } else c
  | 0x18 => { c with head := v.rw.toNat }
  | 0x20 => { c with fullSeen := c.fullSeen && !v.one.getLsbD 1, enable := v.rw.getLsbD 0 }
  | _ => c

/-! ## Doorbell pages (R577, R578, R582, R583, R671, R673) -/

/-- A sampling slot written: it samples from the next multiple of its period on (R673, R674). -/
def UserCtr.program (u : UserCtr) (slot : Nat) (w : Word) (live : Nat → Nat) : UserCtr :=
  { u with samples := Tab.put 0x400 u.samples slot w, sampled := Tab.put 0 u.sampled slot (live (bits w.toNat 59 40) / bits w.toNat 39 0) }

def Mach.writeQueue (m : Mach) (ctx q o : Nat) (v : RegWrite) : Mach :=
  match o with
  | 0x00 => m.doorbell ctx q (bits v.rw.toNat 31 0)
  | 0x18 => m.modCx ctx fun c => c.modQ q fun k => { k with cqHead := bits v.rw.toNat 31 0 }
  | 0x28 => if v.one.getLsbD 0 then m.modCx ctx fun c => c.modQ q fun k => { k with stopped := none } else m
  | _ => m

/-- HYV_SERVE_CTL: deploy_id, and the end of the stop of the queue that the write names (R583). -/
def Mach.writeServe (m : Mach) (ctx : Nat) (v : RegWrite) : Mach :=
  let id := bits v.rw.toNat 15 0
  let m := m.modCx ctx fun c => { c with serveSel := BitVec.ofNat 16 id }
  if v.one.getLsbD 63 = true ∧ (m.depOf ctx id).isSome = true then m.modDep id fun d => { d with stopped := none } else m

def Mach.writePage (m : Mach) (ctx o : Nat) (v : RegWrite) : Mach :=
  if (m.cx ctx).st = .absent then m
  else if o < 0x400 then (if o / 0x40 < (m.cx ctx).queues then m.writeQueue ctx (o / 0x40) (o % 0x40) v else m)
  else if 0xC10 ≤ o ∧ o < 0xC30 then
    m.modCx ctx fun c => { c with user := c.user.program ((o - 0xC10) / 8) (v.rw &&& 0x8FFFFFFFFFFFFFFF#64) m.liveOf }
  else match o with
    | 0x600 => m.writeServe ctx v
    | 0xC00 => m.modCx ctx fun c => { c with user := { c.user with sel := v.rw.setWidth 20, denied := c.user.denied && !v.one.getLsbD 31 } }
    | _ => m

/-! ## Clusters and stacks -/

def Mach.writeSeq (m : Mach) (w : Master) (c : Nat) (o : Nat) (v : RegWrite) : Mach :=
  match o with
  | 0x10 => if (match w with | .control n => n.val == c | _ => false) then m.writeImemLoad c v.rw else m
  | 0x20 => m.modCl c fun k => { k with seen := k.seen &&& ~~~(v.one >>> 8).setWidth 4 }
  | 0x38 => m.modCl c fun k => { k with trapValid := k.trapValid && !v.one.getLsbD 20 }
  | _ => m

def Mach.writeCluster (m : Mach) (w : Master) (c o : Nat) (v : RegWrite) : Mach :=
  if o < 0x1000 then m.writeSeq w c o v
  else if o < 0x1800 then
    (if o % 0x100 = 0 then m.modCl c fun k => k.modCore ((o - 0x1000) / 0x100) fun x => { x with poisonSeen := x.poisonSeen && !v.one.getLsbD 8 } else m)
  else if 0x2000 ≤ o ∧ o < 0x2200 then
    (if o % 0x40 = 8 then m.modCl c fun k => k.modChan ((o - 0x2000) / 0x40) fun x => { x with haltValid := x.haltValid && !v.one.getLsbD 55 } else m)
  else match o with
    | 0x3000 => m.modCl c fun k => { k with afu := { k.afu with faultSeen := k.afu.faultSeen && !v.one.getLsbD 0 } }
    | 0x3008 => m.modCl c fun k => { k with afu := { k.afu with faultValid := k.afu.faultValid && !v.one.getLsbD 55 } }
    | 0x4040 => m.modCl c fun k => { k with swapBlocked := k.swapBlocked && !v.one.getLsbD 0 }
    | _ => m

def Mach.writeStack (m : Mach) (w : Master) (s o : Nat) (v : RegWrite) : Mach :=
  match o with
  | 0x0008 => m.modSt s fun x => { x with reachedFour := x.reachedFour && !v.one.getLsbD 3 }
  | 0x0010 => m.modSt s fun x => { x with backpressure := x.backpressure && !v.one.getLsbD 0 }
  | 0x0108 => m.modSt s fun x => { x with ces := if v.one.getLsbD 6 then [] else x.ces }
  | 0x1000 => m.modSt s fun x => { x with turnPoison := x.turnPoison && !v.one.getLsbD 1 }
  | 0x2000 => m.modSt s fun x => { x with holdSeen := x.holdSeen && !v.one.getLsbD 1, overdueSeen := x.overdueSeen && !v.one.getLsbD 0 }
  | 0x2008 => m.modSt s fun x => { x with loadLen := bits v.rw.toNat 55 44, loadSrc := bits v.rw.toNat 43 0 }
  | 0x2010 => m.writeSparLoad s w v.rw
  | 0x2020 => m.modSt s fun x => { x with trapValid := x.trapValid && !v.one.getLsbD 30 }
  | _ => m

/-! ## Shroud and Damger -/

/-- Route entries, one byte each: valid, dateline and port; waiting flits follow the new routes (R545). -/
def Mach.writeRoutes (m : Mach) (off size : Nat) (raw : Word) : Mach :=
  ({ m with shr := { m.shr with routes := (RegWrite.bytes off size raw).foldl (fun (t : Tab (BitVec 8)) e => Tab.put 0 t e.1 (e.2 &&& 0xCF#8)) m.shr.routes } } : Mach).drainAll

def Mach.writeShr (m : Mach) (off size : Nat) (raw : Word) (v : RegWrite) : Mach :=
  let o := off / 8 * 8
  if 0x10000 ≤ o ∧ o < 0x20000 then m.writeRoutes (off - 0x10000) size raw
  else if 0x20000 ≤ o ∧ o < 0x21000 ∧ o % 0x100 = 0 then
    { m with shr := { m.shr with ports := Tab.upd {} m.shr.ports ((o - 0x20000) / 0x100) fun p => { p with lossSeen := p.lossSeen && !v.one.getLsbD 40 } } }
  else if o = 0 ∧ m.nodeLocked = false then { m with shr := { m.shr with node := v.rw.setWidth 16 } }
  else m

/-! ## The write (R569) -/

/-- The blocks that are served while only SEC runs: identity, mailbox and SEC (R718). -/
def earlyBlock (o : Nat) : Bool := decide (o < 0x2000) || (decide (0x150000 ≤ o) && decide (o < 0x160000))

/-- The write of a register of a listed range; `o` is its 8 B offset. -/
def State.writeReg (s : State) (w : Master) (off size : Nat) (raw : Word) (v : RegWrite) : State :=
  let o := off / 8 * 8
  let m := s.m
  if o < 0x1000 then s
  else if o < 0x2000 then s.withMach { m with hyv := m.hyv.writeReg (off - 0x1000) size raw v }
  else if o < 0x110000 then s.writePwr (o - 0x100000) v
  else if o < 0x120000 then s.writeThm (o - 0x110000) v
  else if o < 0x130000 then s.withMach { m with evr := m.evr.writeReg m.now (o - 0x120000) v }
  else if o < 0x140000 then s.withMach (m.writeCtr (o - 0x130000) v)
  else if o < 0x150000 then s.withMach { m with ctr := m.ctr.writeAct (o - 0x140000) v }
  else if o < 0x1000000 then s
  else if o < 0x2000000 then s.withMach (m.writePage ((o - 0x1000000) / 0x1000) (o % 0x1000) v)
  else if o < 0x3000000 then s.withMach (m.writeCluster w ((o - 0x2000000) / 0x10000) (o % 0x10000) v)
  else if o < 0x3800000 then s.withMach (m.writeStack w ((o - 0x3000000) / 0x10000) (o % 0x10000) v)
  else if o < 0x3900000 then s.withMach (m.writeShr (off - 0x3800000) size raw v)
  else if o = 0x3900000 then s.withMach { m with dmg := { m.dmg with lossSeen := m.dmg.lossSeen && !v.one.getLsbD 2 } }
  else s

/-- The companion is answered; a master of the module's own is not. -/
def State.replyTo (s : State) (w : Master) (r : Reply) : State := if w = .companion then s.withMach (s.m.reply r) else s

/-- A write that the master can make in this state: the companion over a trained link behind its memory writes (R570), firmware and control cores while they run. -/
def State.admits (s : State) (w : Master) (off : Nat) : Bool :=
  if w = .companion then (if earlyBlock off then s.servedWrite else s.servedFullWrite) else s.aon.mode.powered && s.sec.procsUp

/-- REGISTER_WRITE (R7, R569): performed, or answered with an error response that changes nothing. -/
def execRegisterWrite (w : Master) (offset : BitVec 26) (size : Nat) (v : Word) (s : State) : Host.Outcome State Fault Refusal :=
  let off := offset.toNat
  .next (if s.admits w off = false then s else
    match s.reg (off / 8 * 8) with
    | none => s.replyTo w .error
    | some old =>
      if (size ≠ 4 ∧ size ≠ 8) ∨ off % size ≠ 0 then s.replyTo w .error
      else (s.writeReg w off size v (RegWrite.of old off size v)).replyTo w .done)

end Sys2Proof.Machine
end

