-- ==== Sys2Proof/Machine/Schedule.lean ====
section
/-! DEFINITION. The order in which commands are dispatched, the dispatch of a queue, admission windows and evictions (R415 to R424, R439,
R553). -/
namespace Sys2Proof.Machine

/-! ## The order of dispatch (R422, R439) -/

/-- The first command of a kind in a queue is dispatched where it can be. -/
def Mach.dispatch (m : Mach) (after : After) (lv : Nat → Nat) (k : Kind) (ctx q : Nat) : Mach :=
  match k with
  | .mast => m.mastDispatch after lv ctx q
  | .spar => m.sparDispatch after ctx q
  | .move => m.moveDispatch after ctx q
  | .coll => m.collDispatch after ctx q
  | _ => m

/-- The class under which a queued command would be dispatched now, were it not for the order among commands; none where it would not be. -/
def Mach.wouldGo (m : Mach) (lv : Nat → Nat) (y : Cmd) : Option Nat :=
  if y.phase ≠ .queued then none else
    ((m.dispatch (fun _ _ => false) lv y.kind y.ctx y.q).cmds.find? fun z => sameCmd z y && z.phase != .queued).map (·.cls)

/-- An LC command, or the stage of a serve step, could be placed now rather than a BE command. -/
def Mach.lcGoes (m : Mach) (lv : Nat → Nat) (x : Cmd) : Bool :=
  m.cmds.any fun y => (!sameCmd y x && m.wouldGo lv y == some 0) || (y.kind == .serve && y.phase == .running && (m.dep (y.q - 16)).any fun d =>
    !d.stageOn && ((m.tryStage (y.q - 16) y).dep (y.q - 16)).any (·.stageOn))

/-- Cluster time that the BE commands of a context have had, those that run among them (R422). -/
def Mach.beTime (m : Mach) (ctx : Nat) : Nat :=
  (m.cx ctx).beNs + sumNat ((m.clusters.filter fun e => ((e.2.cmd.bind m.cmdOf).any fun x => x.ctx == ctx && x.cls == 1)).map fun e => m.now - e.2.boundAt)

/-- A BE mast command of another context, which has had less of its share, could be placed now (R422, log entry 74). -/
def Mach.fairer (m : Mach) (lv : Nat → Nat) (x : Cmd) : Bool :=
  x.kind == .mast && m.cmds.any fun y => y.ctx != x.ctx && y.kind == .mast
    && decide (m.beTime y.ctx * (m.cx x.ctx).weight < m.beTime x.ctx * (m.cx y.ctx).weight) && m.wouldGo lv y == some 1

/-- A starving BE command of the context, which nothing in its queue holds, goes first (R439). -/
def Mach.starved (m : Mach) (x : Cmd) : Bool :=
  !x.starving && m.cmds.any fun y => y.ctx == x.ctx && y.starving && y.phase == .queued && y.cls == 1 && !sameCmd y x && m.mayDispatch y
    && (m.holder y (m.entryReads y)).isNone

/-- A BE command goes after an LC command that could be placed, after a starving command of its context, and after a command of a context
that has had less of its share (R422, R439). -/
def Mach.goesAfter (lv : Nat → Nat) : After := fun m x => m.lcGoes lv x || m.starved x || m.fairer lv x

/-! ## The rows of dispatch (R73, R316, R366, R553) -/

/-- A dispatch from a queue, by the firmware. -/
def State.dispatchRow (s : State) (k : Kind) (ctx q : Nat) : State :=
  if s.dispatching = true then s.firmware (s.m.dispatch (Mach.goesAfter s.level) s.level k ctx q) else s

def execMastDispatch (ctx : Fin 4096) (q : Fin 16) (s : State) : Host.Outcome State Fault Refusal := .next (s.dispatchRow .mast ctx.val q.val)
def execSparDispatch (ctx : Fin 4096) (q : Fin 16) (s : State) : Host.Outcome State Fault Refusal := .next (s.dispatchRow .spar ctx.val q.val)
def execMoveDispatch (ctx : Fin 4096) (q : Fin 16) (s : State) : Host.Outcome State Fault Refusal := .next (s.dispatchRow .move ctx.val q.val)

/-- COLLECTIVE: the entry takes its queue position, and its command is dispatched where nothing holds it (R553, R585). -/
def execCollective (ctx : Fin 4096) (q : Fin 16) (s : State) : Host.Outcome State Fault Refusal :=
  .next ((entryRow s ctx.val q.val (·.op == 0x30) fun e m => m.queueEntry e .coll).dispatchRow .coll ctx.val q.val)

/-! ## Admission windows (R418, R420) -/

/-- The queues that hold LC commands which have been tried. -/
def Mach.triedQueues (m : Mach) : List (Nat × Nat × Kind) :=
  (m.cmds.filter fun x => x.phase == .queued && x.costTried).foldl (fun l x => addNew l (x.ctx, x.q, x.kind)) []

/-- ADMISSION_WINDOW: a window of 1 ms starts; what was claimed is free, and queued LC commands and launches are tried again. -/
def Mach.window (m : Mach) (lv : Nat → Nat) : Mach :=
  let m := { m with windowAt := m.now / 1000000 * 1000000, clusters := m.clusters.map fun (e : Nat × Cluster) => (e.1, { e.2 with admittedUs := [] }),
                    memStacks := m.memStacks.map fun (e : Nat × Stack) => (e.1, { e.2 with admittedUs := [] }) }
  let m := m.triedQueues.foldl (fun (m : Mach) (t : Nat × Nat × Kind) => m.dispatch (Mach.goesAfter lv) lv t.2.2 t.1 t.2.1) m
  (m.deps.filter fun e => e.2.any fun d => d.tried).foldl (fun (m : Mach) e => m.boundary e.1) m

def execAdmissionWindow (s : State) : Host.Outcome State Fault Refusal :=
  .next (if s.dispatching = true ∧ s.m.windowAt + 1000000 ≤ s.m.now then s.firmware (s.m.window s.level) else s)

/-! ## Evictions (R414 to R417) -/

/-- A serve step whose stage waits for its clusters: what it would launch there. -/
def Mach.stageDue (m : Mach) (x : Cmd) : List Nat :=
  if x.kind ≠ .serve ∨ x.phase ≠ .running then [] else
    match m.dep (x.q - 16) with
    | none => []
    | some d => if d.stageOn then [] else match (m.planStage d d.stage).1 with
      | .ok p => p.mast.map (·.1)
      | .error _ => []

/-- A context with a dispatchable command waits for a slot on a cluster (R415). -/
def Mach.wantsSlot (m : Mach) (ctx c : Nat) : Bool :=
  m.mayUse ctx c && !(m.cl c).holds ctx && (m.openSlot c).isNone && m.cmds.any fun x => x.ctx == ctx &&
    ((x.phase == .queued && (x.kind == .mast || x.kind == .move) && m.mayDispatch x && (m.holder x (m.entryReads x)).isNone) || (m.stageDue x).contains c)

/-- SLOT_EVICTION: every resident context of a cluster is blocked while another waits; the one longest without an issue and without
an anchored command is evicted, its commands killed for a re-run, or the swap is reported blocked (R415 case 3, R416). -/
def Mach.evict (m : Mach) (c ctx : Nat) : Mach :=
  let slots := List.range 8
  if m.wantsSlot ctx c = false ∨ slots.all (m.slotBlocked c) = false then m else
    let free := slots.filter fun i => match ((m.cl c).slot i).ctx with
      | some y => !(m.flying y c).any fun x => m.anchoredNow x
      | none => false
    match oldestSlot (m.cl c) free with
    | none => (m.modCl c fun k => { k with swapBlocked := true }).post .swapBlocked (some ctx) (uCluster c) [BitVec.ofNat 64 c, BitVec.ofNat 64 ctx]
    | some i =>
      let gone := match ((m.cl c).slot i).ctx with | some y => m.flying y c | none => []
      let m := m.modCl c fun k => { k.modSlot i (fun s => { s with st := 5, incoming := some ctx }) with
        swaps := satAdd 32 k.swaps 1, evictions := satAdd 16 k.evictions 1 }
      gone.foldl (fun (m : Mach) x => m.kill m.cmds.length x .evict) m

def execSlotEviction (c : Fin 32) (ctx : Fin 4096) (s : State) : Host.Outcome State Fault Refusal :=
  .next (if s.dispatching = true then s.withMach (s.m.evict c.val ctx.val) else s)

end Sys2Proof.Machine
end

