-- ==== Sys2Proof/Machine/Upsets.lean ====
section
/-! DEFINITION. Errors in storage and the requests that come with them (R247, R249, R627, R630, R643). -/
namespace Sys2Proof.Machine

/-! ## Bookkeeping memory (R643) -/

/-- BOOKKEEPING_UE: the kind of the item and its location, in the order of R643, and the suspended count, in the order of R685 (the
numbers are the model's, log entry 70). -/
def Mach.postBook (m : Mach) (kind loc count : Nat) : Mach :=
  m.post .bookkeepingUe none uModule [BitVec.ofNat 64 kind, BitVec.ofNat 64 loc, BitVec.ofNat 64 count]

/-- The count of device frames reported as suspended. -/
def Mach.suspendFrames (m : Mach) : Mach := { m with ctr := { m.ctr with reported := m.ctr.reported ||| 16 } }

/-- The entry of a page cannot be read from now on; a page of 2 MiB has one entry for its 32 parts. -/
def Alloc.losePage (a : Alloc) (i : Nat) : Alloc :=
  let n := a.pageSize / 65536
  { a with lostPages := (List.range n).foldl (fun l j => addNew l (i / n * n + j)) a.lostPages }

/-- The reference count of a frame cannot be read: a frame that is free or blank leaves its free list now, another when it is
released. -/
def Mach.loseRefs (m : Mach) (f : Nat) : Mach :=
  let m := { m with lostRefs := addNew m.lostRefs f }
  if m.frame f = .free ∨ m.frame f = .blank then m.setFrame f .lost else m

/-- What an uncorrectable word in bookkeeping memory does to its item, beside the report. -/
def Mach.loseItem (m : Mach) (x : BookItem) : Mach :=
  match x with
  | .page c h i => (m.modCx c.val fun k => { k with allocs := k.allocs.map fun e => if e.1 = h then (e.1, e.2.map fun a => a.losePage i) else e }).suspendFrames
  | .kv d slot i => (m.modReq d.toNat slot fun r => { r with lostKv := addNew r.lostKv i }).suspendFrames
  | .gen d slot => (m.modReq d.toNat slot fun r => { r with lostGen := true }).suspendFrames
  | .refs f => (m.loseRefs f).suspendFrames
  | .credits p => m.modPort p.val fun k => { k with lostCredits := true }
  | .meters (some c) g => m.modCx c.val fun k => { k with suspended := k.suspended ||| BitVec.ofNat 7 (2 ^ g.val) }
  | .meters none g => { m with ctr := { m.ctr with suspended := m.ctr.suspended ||| BitVec.ofNat 7 (2 ^ g.val) } }
  | .recorder => { m with evr := { m.evr with suspended := true } }

/-- The three words of the report. -/
def bookWords (x : BookItem) : Nat × Nat × Nat :=
  match x with
  | .page c h i => (0, c.val * 2 ^ 52 + h % 2 ^ 20 * 2 ^ 32 + i % 2 ^ 32, 1)
  | .kv d slot i => (1, d.toNat * 2 ^ 48 + slot % 2 ^ 16 * 2 ^ 32 + i % 2 ^ 32, 1)
  | .gen d slot => (2, d.toNat * 2 ^ 48 + slot % 2 ^ 16 * 2 ^ 32, 1)
  | .refs f => (3, f, 1)
  | .credits p => (4, p.val, 0)
  | .meters c g => (5, (match c with | some c => c.val | none => 0xFFFF) * 8 + g.val, 3)
  | .recorder => (6, 0, 4)

/-- An uncorrectable word in bookkeeping memory: the item changes no more and the loss is posted (R643). -/
def Mach.bookLost (m : Mach) (x : BookItem) : Mach := let w := bookWords x; (m.loseItem x).postBook w.1 w.2.1 w.2.2

/-- An error strikes stored bits. -/
def Mach.strike (m : Mach) (x : Strike) : Mach :=
  match x with
  | .cluster c site e => m.modCl c.val fun k => k.upset (site, e)
  | .spar s k site e => m.modSt s.val fun y => y.sparUpset k.val (site, e)
  | .book i => m.bookLost i

/-- MEMORY_REQUEST: what errors have struck stands so from now on, and the request takes its entry or waits (R247, R249). -/
def execMemoryRequest (r : MemReq) (s : State) : Host.Outcome State Fault Refusal :=
  .next (if s.aon.mode.powered = true then s.withMach ((r.strikes.foldl Mach.strike s.m).memoryRequest r) else s)

end Sys2Proof.Machine
end

