-- ==== Sys2Proof/Machine/Dispatch.lean ====
section
/-! DEFINITION. The effect of each command on everything but the queue: one arm per row of the table. -/
namespace Sys2Proof.Machine

/-- The command's effect by the manual's rules. -/
def exec (i : Instr) (s : State) : Host.Outcome State Fault Refusal :=
  match i with
  | .inputPowerApplied => Sys2Proof.Machine.execInputPowerApplied s
  | .inputPowerLost => Sys2Proof.Machine.execInputPowerLost s
  | .inputFault mv => Sys2Proof.Machine.execInputFault mv s
  | .modEnDeassert => Sys2Proof.Machine.execModEnDeassert s
  | .resetLAssert => Sys2Proof.Machine.execResetLAssert s
  | .standbyExit => Sys2Proof.Machine.execStandbyExit s
  | .bootSequence b => Sys2Proof.Machine.execBootSequence b s
  | .trainComplete r => Sys2Proof.Machine.execTrainComplete r s
  | .selftestComplete t => Sys2Proof.Machine.execSelftestComplete t s
  | .fwHang p => Sys2Proof.Machine.execFwHang p s
  | .sidebandWrite pecOk data => Sys2Proof.Machine.execSidebandWrite pecOk data s
  | .entdaa => Sys2Proof.Machine.execEntdaa s
  | .rstdaa => Sys2Proof.Machine.execRstdaa s
  | .thmTripClear => Sys2Proof.Machine.execThmTripClear s
  | .powerSample watts mv energyUj => Sys2Proof.Machine.execPowerSample watts mv energyUj s
  | .powerFloorEval => Sys2Proof.Machine.execPowerFloorEval s
  | .powerClamp => Sys2Proof.Machine.execPowerClamp s
  | .clampRelease => Sys2Proof.Machine.execClampRelease s
  | .pwrCapWrite v => Sys2Proof.Machine.execPwrCapWrite v s
  | .estimatorScaling zones claims => Sys2Proof.Machine.execEstimatorScaling zones claims s
  | .reefSlewDone c => Sys2Proof.Machine.execReefSlewDone c s
  | .thermalModelUpdate tempsQ4 coolant => Sys2Proof.Machine.execThermalModelUpdate tempsQ4 coolant s
  | .tripModelUpdate coarseQ4 dram => Sys2Proof.Machine.execTripModelUpdate coarseQ4 dram s
  | .regulatorOvertemp zone => Sys2Proof.Machine.execRegulatorOvertemp zone s
  | .coolingEntry => Sys2Proof.Machine.execCoolingEntry s
  | .coolingExit modEn => Sys2Proof.Machine.execCoolingExit modEn s
  | .planRequest => Sys2Proof.Machine.execPlanRequest s
  | .planRebuildStart => Sys2Proof.Machine.execPlanRebuildStart s
  | .planMeasurement c top abandoned r => Sys2Proof.Machine.execPlanMeasurement c top abandoned r s
  | .planOverdue => Sys2Proof.Machine.execPlanOverdue s
  | .marginWarning c => Sys2Proof.Machine.execMarginWarning c s
  | .memoryRequest r => Sys2Proof.Machine.execMemoryRequest r s
  | .bankSlot st d b => Sys2Proof.Machine.execBankSlot st d b s
  | .refreshDue st d b => Sys2Proof.Machine.execRefreshDue st d b s
  | .beRequestAged st d b => Sys2Proof.Machine.execBeRequestAged st d b s
  | .mcSensorRead st temp => Sys2Proof.Machine.execMcSensorRead st temp s
  | .scraperVisit st d b => Sys2Proof.Machine.execScraperVisit st d b s
  | .scraperOverdue st => Sys2Proof.Machine.execScraperOverdue st s
  | .turnerBlock st => Sys2Proof.Machine.execTurnerBlock st s
  | .blankFillDone dpa => Sys2Proof.Machine.execBlankFillDone dpa s
  | .mcCeClear st => Sys2Proof.Machine.execMcCeClear st s
  | .seqImemLoad c m v => Sys2Proof.Machine.execSeqImemLoad c m v s
  | .imemLoadDone c => Sys2Proof.Machine.execImemLoadDone c s
  | .commandBoundary c => Sys2Proof.Machine.execCommandBoundary c s
  | .commandFirstBundle c => Sys2Proof.Machine.execCommandFirstBundle c s
  | .issueCycle c => Sys2Proof.Machine.execIssueCycle c s
  | .waitRepoll c => Sys2Proof.Machine.execWaitRepoll c s
  | .cacheMissFill c => Sys2Proof.Machine.execCacheMissFill c s
  | .unfurlEnd c => Sys2Proof.Machine.execUnfurlEnd c s
  | .arrayFurl c => Sys2Proof.Machine.execArrayFurl c s
  | .scratchpadBankArbitration c parityErr => Sys2Proof.Machine.execScratchpadBankArbitration c parityErr s
  | .feederUnderflow c => Sys2Proof.Machine.execFeederUnderflow c s
  | .sparIssue st k => Sys2Proof.Machine.execSparIssue st k s
  | .rowStepEnd st k => Sys2Proof.Machine.execRowStepEnd st k s
  | .cntResult st k => Sys2Proof.Machine.execCntResult st k s
  | .edgeBitsArrive st k => Sys2Proof.Machine.execEdgeBitsArrive st k s
  | .chainWordArrive st k up => Sys2Proof.Machine.execChainWordArrive st k up s
  | .atomicBlockStart st k => Sys2Proof.Machine.execAtomicBlockStart st k s
  | .sparCoreRelease st k => Sys2Proof.Machine.execSparCoreRelease st k s
  | .sparImemLoad st m v => Sys2Proof.Machine.execSparImemLoad st m v s
  | .sparImemLoadDone st => Sys2Proof.Machine.execSparImemLoadDone st s
  | .moverTransfer c n => Sys2Proof.Machine.execMoverTransfer c n s
  | .afuBlockStaged c => Sys2Proof.Machine.execAfuBlockStaged c s
  | .mastDispatch ctx q => Sys2Proof.Machine.execMastDispatch ctx q s
  | .sparDispatch ctx q => Sys2Proof.Machine.execSparDispatch ctx q s
  | .moveDispatch ctx q => Sys2Proof.Machine.execMoveDispatch ctx q s
  | .draftCopyDone seq page => Sys2Proof.Machine.execDraftCopyDone seq page s
  | .draftWaitEvent ctx q => Sys2Proof.Machine.execDraftWaitEvent ctx q s
  | .pageLimitEvent ctx q => Sys2Proof.Machine.execPageLimitEvent ctx q s
  | .admissionWindow => Sys2Proof.Machine.execAdmissionWindow s
  | .killComplete seq => Sys2Proof.Machine.execKillComplete seq s
  | .slotEviction c ctx => Sys2Proof.Machine.execSlotEviction c ctx s
  | .swapComplete c slot => Sys2Proof.Machine.execSwapComplete c slot s
  | .commit seq => Sys2Proof.Machine.execCommit seq s
  | .waitBudgetExpire seq unit => Sys2Proof.Machine.execWaitBudgetExpire seq unit s
  | .preemptOverdue seq => Sys2Proof.Machine.execPreemptOverdue seq s
  | .deadlockSearch => Sys2Proof.Machine.execDeadlockSearch s
  | .wcetOverrun seq => Sys2Proof.Machine.execWcetOverrun seq s
  | .hyvalWaitRelease ctx q => Sys2Proof.Machine.execHyvalWaitRelease ctx q s
  | .drainComplete ctx => Sys2Proof.Machine.execDrainComplete ctx s
  | .ctxDestroyComplete ctx => Sys2Proof.Machine.execCtxDestroyComplete ctx s
  | .sqTailDoorbell ctx q tail => Sys2Proof.Machine.execSqTailDoorbell ctx q tail s
  | .hyvQRestart ctx q => Sys2Proof.Machine.execHyvQRestart ctx q s
  | .hyvServeCtlRestart ctx deploy => Sys2Proof.Machine.execHyvServeCtlRestart ctx deploy s
  | .hyvVersionWrite v => Sys2Proof.Machine.execHyvVersionWrite v s
  | .launchMast ctx q => Sys2Proof.Machine.execLaunchMast ctx q s
  | .launchSpar ctx q => Sys2Proof.Machine.execLaunchSpar ctx q s
  | .move ctx q => Sys2Proof.Machine.execMove ctx q s
  | .fence ctx q => Sys2Proof.Machine.execFence ctx q s
  | .signal ctx q => Sys2Proof.Machine.execSignal ctx q s
  | .hyvalWait ctx q => Sys2Proof.Machine.execHyvalWait ctx q s
  | .alloc ctx q => Sys2Proof.Machine.execAlloc ctx q s
  | .free ctx q => Sys2Proof.Machine.execFree ctx q s
  | .map ctx q => Sys2Proof.Machine.execMap ctx q s
  | .unmap ctx q => Sys2Proof.Machine.execUnmap ctx q s
  | .descCreate ctx q => Sys2Proof.Machine.execDescCreate ctx q s
  | .descDestroy ctx q => Sys2Proof.Machine.execDescDestroy ctx q s
  | .deploy ctx q => Sys2Proof.Machine.execDeploy ctx q s
  | .admitEntry ctx q => Sys2Proof.Machine.execAdmit ctx q s
  | .cancel ctx q => Sys2Proof.Machine.execCancel ctx q s
  | .pause ctx q => Sys2Proof.Machine.execPause ctx q s
  | .resume ctx q => Sys2Proof.Machine.execResume ctx q s
  | .undeployFinish ctx q => Sys2Proof.Machine.execUndeployFinish ctx q s
  | .undeployCancel ctx q => Sys2Proof.Machine.execUndeployCancel ctx q s
  | .collective ctx q => Sys2Proof.Machine.execCollective ctx q s
  | .abortCollective ctx q => Sys2Proof.Machine.execAbortCollective ctx q s
  | .ctxCreate => Sys2Proof.Machine.execCtxCreate s
  | .ctxEnable => Sys2Proof.Machine.execCtxEnable s
  | .ctxDisableFinish => Sys2Proof.Machine.execCtxDisableFinish s
  | .ctxDisableKill => Sys2Proof.Machine.execCtxDisableKill s
  | .ctxDestroy => Sys2Proof.Machine.execCtxDestroy s
  | .grantCounters => Sys2Proof.Machine.execGrantCounters s
  | .grantRevoke => Sys2Proof.Machine.execGrantRevoke s
  | .grantComplete ctx => Sys2Proof.Machine.execGrantComplete ctx s
  | .inlayArm => Sys2Proof.Machine.execInlayArm s
  | .inlayDisarm => Sys2Proof.Machine.execInlayDisarm s
  | .inlayArmComplete => Sys2Proof.Machine.execInlayArmComplete s
  | .stayOpen => Sys2Proof.Machine.execStayOpen s
  | .stayOpenTimeout pos => Sys2Proof.Machine.execStayOpenTimeout pos s
  | .stayClose => Sys2Proof.Machine.execStayClose s
  | .stayCloseDrainEnd pos => Sys2Proof.Machine.execStayCloseDrainEnd pos s
  | .stayClosed pos => Sys2Proof.Machine.execStayClosed pos s
  | .updateStage kind => Sys2Proof.Machine.execUpdateStage kind s
  | .updateStageComplete package flashOk => Sys2Proof.Machine.execUpdateStageComplete package flashOk s
  | .updateSelect => Sys2Proof.Machine.execUpdateSelect s
  | .updateConfirm => Sys2Proof.Machine.execUpdateConfirm s
  | .attest => Sys2Proof.Machine.execAttest s
  | .attestComplete => Sys2Proof.Machine.execAttestComplete s
  | .timeProbe tA tB => Sys2Proof.Machine.execTimeProbe tA tB s
  | .ackHold => Sys2Proof.Machine.execAckHold s
  | .stepBoundary dep => Sys2Proof.Machine.execStepBoundary dep s
  | .fillWaitEnd dep => Sys2Proof.Machine.execFillWaitEnd dep s
  | .serveStageDone dep logits drafts => Sys2Proof.Machine.execServeStageDone dep logits drafts s
  | .tokenRecordPost dep => Sys2Proof.Machine.execTokenRecordPost dep s
  | .hostTierCopyDone dep slot page => Sys2Proof.Machine.execHostTierCopyDone dep slot page s
  | .resumePageReturn dep slot page => Sys2Proof.Machine.execResumePageReturn dep slot page s
  | .flitSend p => Sys2Proof.Machine.execFlitSend p s
  | .linkIdleTimer p => Sys2Proof.Machine.execLinkIdleTimer p s
  | .badFlit p => Sys2Proof.Machine.execBadFlit p s
  | .remoteWrite p f => Sys2Proof.Machine.execRemoteWrite p f s
  | .remoteAccum p f => Sys2Proof.Machine.execRemoteAccum p f s
  | .remoteSignal p f => Sys2Proof.Machine.execRemoteSignal p f s
  | .ready p f => Sys2Proof.Machine.execReady p f s
  | .endFlit p f => Sys2Proof.Machine.execEndFlit p f s
  | .e2eAck p f => Sys2Proof.Machine.execE2eAck p f s
  | .nack p f => Sys2Proof.Machine.execNack p f s
  | .replayReq p f => Sys2Proof.Machine.execReplayReq p f s
  | .idle p f => Sys2Proof.Machine.execIdle p f s
  | .train p => Sys2Proof.Machine.execTrain p s
  | .portTrainingComplete p r => Sys2Proof.Machine.execPortTrainingComplete p r s
  | .linkLoss p reason => Sys2Proof.Machine.execLinkLoss p reason s
  | .collectivePartSend seq => Sys2Proof.Machine.execCollectivePartSend seq s
  | .collectiveBudgetExpire seq => Sys2Proof.Machine.execCollectiveBudgetExpire seq s
  | .shrNodeIdWrite v => Sys2Proof.Machine.execShrNodeIdWrite v s
  | .damgerTraining r => Sys2Proof.Machine.execDamgerTraining r s
  | .damgerLinkLoss inFlight => Sys2Proof.Machine.execDamgerLinkLoss inFlight s
  | .damgerInboundRead tag va len keep => Sys2Proof.Machine.execDamgerInboundRead tag va len keep s
  | .damgerInboundWrite tag va data => Sys2Proof.Machine.execDamgerInboundWrite tag va data s
  | .eventPersist flashOk => Sys2Proof.Machine.execEventPersist flashOk s
  | .evrLatch => Sys2Proof.Machine.execEvrLatch s
  | .evrWindowCopy => Sys2Proof.Machine.execEvrWindowCopy s
  | .evrCodeLimitWrite v => Sys2Proof.Machine.execEvrCodeLimitWrite v s
  | .ctrFreeze => Sys2Proof.Machine.execCtrFreeze s
  | .freezeDone => Sys2Proof.Machine.execFreezeDone s
  | .sampleRecord ctx slot where_ unit => Sys2Proof.Machine.execSampleRecord ctx slot where_ unit s
  | .ctrUserValueRead ctx => Sys2Proof.Machine.execCtrUserValueRead ctx s
  | .frameMsTick => Sys2Proof.Machine.execFrameMsTick s
  | .accountingInterval => Sys2Proof.Machine.execAccountingInterval s
  | .registerWrite m offset size v => Sys2Proof.Machine.execRegisterWrite m offset size v s
  | .lineRecallComplete dpa dirty => Sys2Proof.Machine.execLineRecallComplete dpa dirty s

end Sys2Proof.Machine
end

