-- ==== Sys2Proof/Safety.lean ====
section
/-! DEFINITION. The terms in which statements speak of the module: a command that completes, the state that a command leaves
alone, the rails down, and the invariants that every step keeps. -/
namespace Sys2Proof.Machine

/-- The command `c` at `s` answers a next state, of which `P` holds. -/
def Completes (c : Instr) (s : State) (P : State → Prop) : Prop := ∃ t, exec c s = .next t ∧ P t

/-- The command `c` at `s` answers `s` itself: its condition does not hold. -/
def Unchanged (c : Instr) (s : State) : Prop := exec c s = .next s

/-- Everything but the core domains and the alert bits of the records that they stored is as it was. -/
def CoreOnly (s t : State) : Prop := t = s.withMach t.m

/-- Nothing but the power domain has changed. -/
def PowerOnly (s t : State) : Prop := t = { s with pwr := t.pwr }

/-- Nothing but stack `k`, cluster `c`, context `x`, the stacks or the clusters, or the mailbox and log has changed. -/
def OnlyStack (k : Nat) (s t : State) : Prop :=
  t = { s with m := { s.m with memStacks := t.m.memStacks } } ∧ ∀ j, j ≠ k → t.m.st j = s.m.st j
def OnlyCluster (c : Nat) (s t : State) : Prop :=
  t = { s with m := { s.m with clusters := t.m.clusters } } ∧ ∀ j, j ≠ c → t.m.cl j = s.m.cl j
def OnlyCtx (x : Nat) (s t : State) : Prop :=
  t = { s with m := { s.m with ctxs := t.m.ctxs } } ∧ ∀ j, j ≠ x → t.m.cx j = s.m.cx j
def OnlyHyv (s t : State) : Prop := t = { s with m := { s.m with hyv := t.m.hyv } }

/-- Every cluster and stack holds the level of its floors (R599). -/
def State.Leveled (s : State) : Prop :=
  (∀ c < 32, Tab.get 0 s.pwr.levelC c = s.pwr.wantC c) ∧ (∀ k < 12, Tab.get 0 s.pwr.levelS k = s.pwr.wantS k)

/-- Nothing but the power domain, the recorder with its alert bits, and the stacks' token pools has changed. -/
def GovernorOnly (s t : State) : Prop :=
  t = { s with pwr := t.pwr, aon := { s.aon with alert := t.aon.alert, ibi := t.aon.ibi },
               m := { s.m with evr := t.m.evr, memStacks := t.m.memStacks } }
    ∧ ∀ k, t.m.st k = { s.m.st k with pool := (t.m.st k).pool }

/-- The rails but AON are off in state `mode` (R615, R721): no processor runs, module memory, commands, contexts, clusters, stacks, ports
and the inlay are as they come up, and what AON and flash hold has been kept. -/
def RailsDown (mode : Mode) (s t : State) : Prop :=
  t.aon.mode = mode ∧ t.aon.pgood = false ∧ t.aon.holdReason = 0
    ∧ t.sec.running = false ∧ t.sec.procsUp = false ∧ t.sec.stage = none ∧ t.pwr.running = false ∧ t.m.running = false
    ∧ t.m.mem = {} ∧ t.m.cmds = [] ∧ t.m.ctxs = [] ∧ t.m.clusters = [] ∧ t.m.memStacks = [] ∧ t.m.shr = {} ∧ t.m.dmg = {}
    ∧ t.m.now = s.m.now ∧ t.m.ctr.live = s.m.ctr.live ∧ t.m.evr.flash = s.m.evr.flash
    ∧ t.sec.sel = s.sec.sel ∧ t.sec.slotA = s.sec.slotA.kept ∧ t.sec.slotB = s.sec.slotB.kept ∧ t.sec.record = s.sec.record
    ∧ t.sec.fwMin = s.sec.fwMin ∧ t.sec.cfgMin = s.sec.cfgMin ∧ t.pending = s.pending

/-- A submission entry has been copied: its queue's head, room and positions have advanced by one, and no other queue has changed (R577, R579). -/
def EntryTaken (e : Ent) (s t : State) : Prop :=
  ∀ x j, (t.m.cx x).q j = if x = e.ctx ∧ j = e.q then
      { (s.m.cx x).q j with sqHead := (((s.m.cx x).q j).sqHead + 1) % 2 ^ 32, unposted := ((s.m.cx x).q j).unposted + 1,
                            nextPos := ((s.m.cx x).q j).nextPos + 1 }
    else (s.m.cx x).q j

/-- A submission entry has been copied and completed with an outcome: its completion entry is posted, unless its flags suppress it with OK
(R579, R580, R584). -/
def EntryPosted (e : Ent) (o : Outcome1) (s t : State) : Prop :=
  let k := (s.m.cx e.ctx).q e.q
  (t.m.cx e.ctx).q e.q = { k with sqHead := (k.sqHead + 1) % 2 ^ 32, nextPos := k.nextPos + 1,
                                  cqTail := if o.st = .ok ∧ bitAt e.flags 0 = true then k.cqTail else (k.cqTail + 1) % 2 ^ 32 }
    ∧ (if o.st = .ok ∧ bitAt e.flags 0 = true then (t.m.cx e.ctx).rings = (s.m.cx e.ctx).rings else
        ringBytes (t.m.cx e.ctx).rings (cqOffset e.q k.cqTail) 32 = cqBytes s.m.now e.tag e.op (k.cqTail / 4096 % 2 == 0) o)

/-- The mailbox command has been answered: it is no longer latched, and status, opcode and result are set (R573). -/
def Answered (a : Admin) (st : Status) (res : Word) (s t : State) : Prop :=
  t.m.hyv.latched = none ∧ t.m.hyv.status = st ∧ t.m.hyv.statusOp = a.op ∧ t.m.hyv.result = res
    ∧ t.m.hyv.outstanding = s.m.hyv.outstanding + (if st = .pending then 1 else 0)

/-- The admin command latched in the mailbox is `a`, of opcode `op`; its processor runs, and nothing refuses it before its own checks
(R572, R575). -/
def State.Latched (s : State) (op : Nat) (a : Admin) : Prop :=
  s.m.hyv.latched = some a ∧ a.op = op ∧ adminOwnerUp s op = true ∧ adminRefusal s a = none

/-- The entry at the head of a queue is `e`, of opcode `op`, well formed (R584), no earlier entry holds it (R585), and for a command the module
holds fewer than it may (R424). -/
def State.Head (s : State) (ctx q op : Nat) (e : Ent) : Prop :=
  s.headEntry ctx q = some e ∧ e.op = op ∧ e.bad = false ∧ (commandOps.contains op = true ∨ bitAt e.flags 1 = false ∨ ((s.m.cx ctx).q q).unposted = 0)
    ∧ (commandOps.contains op = true → s.m.holding < maxInFlight)

/-- The levels, floors and cap of the governor lie in their ranges (R599, R602, R610, R619). -/
def Pwr.Legal (p : Pwr) : Prop :=
  600 ≤ p.capW ∧ p.capW ≤ 1600 ∧ 600 ≤ p.capNow ∧ p.capNow ≤ 1600 ∧ p.hostFloor ≤ 7 ∧ p.hostNow ≤ 7 ∧ p.floor ≤ 7
    ∧ (∀ n, (Tab.get ({} : Node) p.nodes n).floor ≤ 7)
    ∧ (∀ c, Tab.get 0 p.levelC c ≤ 7) ∧ (∀ k, Tab.get 0 p.levelS k ≤ 7)
    ∧ (∀ c, Tab.get 0 p.topC c ≤ 7) ∧ (∀ c, Tab.get 0 p.topRaised c ≤ 7) ∧ (∀ c, Tab.get 0 p.newTop c ≤ 7)

/-- hold_reason is 0 outside `HOLD` (R571, PWR_SB_STATE), PGOOD is asserted only while the rails are on, and the firmware processors and
the governor run only then (R718). -/
def State.ModeLegal (s : State) : Prop :=
  (s.aon.mode ≠ .hold → s.aon.holdReason = 0)
    ∧ (s.aon.mode.powered = false → s.aon.pgood = false ∧ s.sec.running = false ∧ s.sec.procsUp = false ∧ s.pwr.running = false)
    ∧ s.aon.tripTimes.length ≤ 3

/-- The boot selector names slots, and a trial is none, due or attempted (R690). -/
def Selector.Legal (x : Selector) : Prop := x.next ≤ 1 ∧ x.trial ≤ 2 ∧ (∀ g, x.lastGood = some g → g ≤ 1)

/-- A legal selector, kept so by what makes a slot last_good: a boot that leaves `BOOT` without failure runs a slot, and failures are
recorded only from the end of `TRAIN` until `HOLD` is left. -/
def State.BootLegal (s : State) : Prop :=
  s.sec.sel.Legal ∧ (s.aon.mode = .train ∨ s.aon.mode = .selftest → s.sec.bootSlot ≤ 1)
    ∧ (s.aon.failed ≠ [] → (s.aon.mode = .selftest ∨ s.aon.mode = .hold) ∧ s.sec.bootSlot ≤ 1)

/-- The values of the replay-protected area have not gone down (R690, R698, R701). -/
def Sec.NoLower (a b : Sec) : Prop := a.fwMin ≤ b.fwMin ∧ a.cfgMin ≤ b.cfgMin ∧ a.raWrites ≤ b.raWrites

/-- The recorder's conservation, which holds while its counts are not suspended (R643, R658): records produced are stored, overwritten or
dropped. -/
def Evr.Conserves (r : Evr) : Prop := r.produced = r.held.length + r.overwritten + r.droppedFull + r.droppedRate

end Sys2Proof.Machine
end

