-- ==== Sys2Proof/Certificates/Slice0/Obligations.lean ====
section
/-! DEFINITION. What the provers are to show of the module: each statement is a named proposition. -/
open Sys2Proof Sys2Proof.Machine

/-- Right after reset: STANDBY with the rails off, no command waiting, nothing in module memory, every cap and floor at its reset value, and
every invariant of this file. -/
def Obligations.ResetIsInStandby : Prop :=
  State.reset.aon.mode = .standby ∧ State.reset.aon.pgood = false ∧ State.reset.pending = [] ∧ State.reset.m.mem.wf = true
    ∧ (∀ w, State.reset.m.mem.decode w = ⟨⟨0, false⟩, .clean, 0⟩) ∧ State.reset.pwr.capW = 1600 ∧ State.reset.pwr.hostFloor = 0
    ∧ State.reset.m.hyv.version = 0 ∧ State.reset.m.shr.node = 0xFFFF ∧ State.reset.aon.alertMask = 0x7F
    ∧ (∀ x, (State.reset.m.cx x).st = .absent) ∧ (∀ p, (State.reset.m.port p).st = .dark)
    ∧ State.reset.ModeLegal ∧ State.reset.pwr.Legal ∧ State.reset.BootLegal ∧ State.reset.m.evr.Conserves

/-- A step takes the front command and answers its effect with the queue's rest; on an empty queue the module idles for one cycle of its
100 MHz clock (the model's choice, log entry 12). -/
def Obligations.StepTakesTheFront : Prop :=
  (∀ (c : Instr) (rest : List Instr) (s : State),
    step (s.withPending (c :: rest)) = exec c (s.withPending rest) ∧ (s.pending = c :: rest → step s = exec c (s.withPending rest)))
  ∧ (∀ s : State, s.pending = [] →
    ∃ t, step s = .next t ∧ t.m.now = s.m.now + (if s.aon.mode = .off then 0 else 10) ∧ t = { s with m := { s.m with now := t.m.now } })

/-- Every command completes in every state, leaves the commands that wait alone, and does the same whatever waits behind it. -/
def Obligations.CommandsIgnoreTheQueue : Prop :=
  (∀ (c : Instr) (s : State), ∃ t, exec c s = .next t ∧ t.pending = s.pending)
  ∧ (∀ (c : Instr) (s t : State) (q : List Instr), exec c s = .next t → exec c (s.withPending q) = .next (t.withPending q))

/-- MOD_EN, RESET_L and the input power: the rails go off in every state but `OFF`, `TRIPPED` and `COOLING`, where only the pin moves; input power
applied, lost and out of range. -/
def Obligations.PinsAndInputPower : Prop :=
  (∀ s : State,
    (s.aon.mode ≠ .off → s.aon.mode ≠ .tripped → s.aon.mode ≠ .cooling →
      Completes .modEnDeassert s (fun t => RailsDown .standby s t ∧ t.aon.modEn = false ∧ t.aon.resetLow = s.aon.resetLow
        ∧ t.aon.tripTimes = s.aon.tripTimes ∧ t.aon.locked = s.aon.locked ∧ t.aon.lastCause = s.aon.lastCause)
      ∧ Completes .resetLAssert s (fun t => RailsDown .standby s t ∧ t.aon.resetLow = true ∧ t.aon.modEn = s.aon.modEn
        ∧ t.aon.tripTimes = s.aon.tripTimes ∧ t.aon.locked = s.aon.locked ∧ t.aon.lastCause = s.aon.lastCause))
    ∧ (s.aon.mode = .tripped ∨ s.aon.mode = .cooling →
      exec .modEnDeassert s = .next { s with aon := { s.aon with modEn := false } }
      ∧ exec .resetLAssert s = .next { s with aon := { s.aon with resetLow := true } }))
  ∧ (∀ (s : State) (mv : Nat),
    (s.aon.mode = .off → Completes .inputPowerApplied s fun t =>
      t.aon.mode = .standby ∧ t.aon.locked = false ∧ t.aon.alert = 0 ∧ t.aon.alertMask = 0x7F ∧ t.aon.sbOffset = 0
        ∧ t = { s with aon := t.aon })
    ∧ (Completes .inputPowerLost s fun t =>
      t.aon = { mode := .off, modEn := s.aon.modEn, resetLow := s.aon.resetLow } ∧ t.m = { drawn := s.m.drawn, evr := { flash := s.m.evr.flash } }
        ∧ t.pwr.energyUj = 0 ∧ t.pwr.topRaised = [] ∧ t.pwr.topC = s.pwr.topC ∧ t.sec.running = false ∧ t.sec.sel = s.sec.sel
        ∧ t.sec.slotA = s.sec.slotA.kept ∧ t.sec.slotB = s.sec.slotB.kept ∧ t.sec.record = s.sec.record ∧ t.sec.fwMin = s.sec.fwMin ∧ t.pending = s.pending)
    ∧ (s.aon.mode ≠ .off → mv < 36000 ∨ 52000 < mv → Completes (.inputFault mv) s fun t =>
      t.pwr.inputMv = mv ∧ t.pwr.faultSeen = true ∧ t.aon.alert.getLsbD 4 = true
        ∧ (s.aon.mode ≠ .tripped → s.aon.mode ≠ .cooling → RailsDown .standby s t)
        ∧ (s.aon.mode = .tripped ∨ s.aon.mode = .cooling → t.aon.mode = s.aon.mode ∧ CoreOnly { s with pwr := t.pwr, aon := t.aon } t)))

/-- The way up: `STANDBY` to `BOOT`, `BOOT` to `TRAIN` or `HOLD`, `TRAIN` to `SELFTEST`, `SELFTEST` to `READY` or `HOLD`. -/
def Obligations.StartUpSequence : Prop :=
  ∀ (s : State) (b : BootInput) (r : TrainResult) (t : SelfTest),
    (s.aon.mode = .standby → s.aon.locked = false → (∃ g, s.pwr.goodSince = some g ∧ g + 100000000 ≤ s.m.now) → Completes .standbyExit s fun u =>
      u.aon = { s.aon with mode := .boot, modEn := true, resetLow := false }
        ∧ u.sec = { s.sec with running := true, bootCount := s.sec.bootCount + 1 } ∧ u = { s with aon := u.aon, sec := u.sec })
    ∧ (s.aon.mode = .boot → Completes (.bootSequence b) s fun u =>
      u.aon.pgood = true
        ∧ (b.flashOk = false → u.aon.mode = .hold ∧ u.aon.holdReason = holdWord 0x14 uModule ∧ u.m.dmg.up = b.damger.isSome)
        ∧ (b.flashOk = true → b.pufOk = false → u.aon.mode = .hold ∧ u.aon.holdReason = holdWord 0x13 uModule ∧ u.m.dmg.up = b.damger.isSome)
        ∧ (b.flashOk = true → b.pufOk = true →
            (u.aon.mode = .train ∧ u.sec.procsUp = true ∧ u.pwr.running = true)
              ∨ (u.aon.mode = .hold ∧ u.sec.procsUp = s.sec.procsUp ∧ (u.m.dmg.up = b.damger.isSome)
                  ∧ (u.aon.holdReason = holdWord 0x10 uModule ∧ u.sec.recovery = true ∨ u.aon.holdReason = holdWord 0x11 uModule
                      ∨ u.aon.holdReason = holdWord 0x12 uModule))))
    ∧ (s.aon.mode = .train → Completes (.trainComplete r) s fun u =>
      u.aon.mode = .selftest ∧ u.m.dmg.up = (damgerWithin s.sec.record r.damger).isSome
        ∧ (∀ k < 12, (u.m.st k).ok = (bitAt (recStackMask s.sec.record) k && !(s.aon.excluded.contains (uStack k)) && ((r.bins[k]?).getD none).isSome))
        ∧ u.m.clusters = s.m.clusters ∧ u.m.mem = s.m.mem ∧ u = { s with aon := { s.aon with mode := .selftest, failed := u.aon.failed }, m := u.m })
    ∧ (s.aon.mode = .selftest → Completes (.selftestComplete t) s fun u =>
      u.aon.failed = s.aon.failed ++ selfTestFailures s t
        ∧ (u.aon.failed = [] → u.aon.mode = .ready ∧ u.sec.sel.trial = (if s.sec.booted then s.sec.sel.trial else 0))
        ∧ (∀ f rest, u.aon.failed = f :: rest → u.aon.mode = .hold ∧ u.aon.holdReason = holdWord f.1 f.2)
        ∧ (∀ c < 32, (u.m.cl c).enabled = (clusterTested s t c (s.m.cl c)).enabled ∧ (u.m.cl c).width = (clusterTested s t c (s.m.cl c)).width)
        ∧ u.m.mem = s.m.mem ∧ u.pwr = s.pwr ∧ u.pending = s.pending)

/-- Sideband writes set the offset and write the register there; ENTDAA and RSTDAA switch the protocol; THM_TRIP.clear releases the lock;
a processor that misses its heartbeat stops and nothing else does. -/
def Obligations.SidebandAndHeartbeat : Prop :=
  ∀ (s : State) (pec : Bool) (data : List Byte) (p : FwProc),
    (s.aon.mode ≠ .off → pec = true ∨ s.aon.i3c = true → data.length = 2 → Completes (.sidebandWrite pec data) s fun t =>
      t = { s with aon := { s.aon with sbOffset := BitVec.ofNat 16 (fld data 0 2) } })
    ∧ (s.aon.mode ≠ .off → pec = true ∨ s.aon.i3c = true → data.length = 10 → Completes (.sidebandWrite pec data) s fun t =>
      t.aon.sbOffset = BitVec.ofNat 16 (fld data 0 2)
        ∧ t.aon.alert = (if fld data 0 2 = 0x0008 then s.aon.alert &&& ~~~(BitVec.ofNat 7 (fld data 2 8)) else s.aon.alert)
        ∧ t.aon.alertMask = (if fld data 0 2 = 0x0010 then BitVec.ofNat 7 (fld data 2 8) else s.aon.alertMask)
        ∧ t.aon.tripTimes = (if fld data 0 2 = 0x0048 ∧ bitAt (fld data 2 8) 0 = true then [] else s.aon.tripTimes)
        ∧ t.aon.locked = (if fld data 0 2 = 0x0048 ∧ bitAt (fld data 2 8) 0 = true then false else s.aon.locked)
        ∧ t.aon.mode = s.aon.mode ∧ t.sec = s.sec ∧ t.m = s.m ∧ t.pending = s.pending)
    ∧ (s.aon.mode ≠ .off → data.length ≠ 2 → data.length ≠ 10 → Unchanged (.sidebandWrite pec data) s)
    ∧ (pec = false → s.aon.i3c = false → Unchanged (.sidebandWrite pec data) s)
    ∧ (s.aon.mode ≠ .off → exec .entdaa s = .next { s with aon := { s.aon with i3c := true } }
        ∧ exec .rstdaa s = .next { s with aon := { s.aon with i3c := false } }
        ∧ exec .thmTripClear s = .next { s with aon := { s.aon with tripTimes := [], locked := false } })
    ∧ ((p = .sec → s.sec.running = true) → (p ≠ .sec → s.sec.procsUp = true) → p ∉ s.sec.hung → Completes (.fwHang p) s fun t =>
        t.sec.hung = s.sec.hung ++ [p] ∧ t.aon.alert.getLsbD 3 = true ∧ t.aon.mode = s.aon.mode
          ∧ t.sec.running = (s.sec.running && decide (p ≠ .sec)) ∧ t.pwr.running = (s.pwr.running && decide (p ≠ .pwr))
          ∧ t.m.running = (s.m.running && decide (p ≠ .sched)) ∧ t.sec.procsUp = s.sec.procsUp
          ∧ (∀ c, (t.m.cl c).ctlHung = ((s.m.cl c).ctlHung || decide (∃ n, p = .ctl n ∧ n.val = c)))
          ∧ t.m.cmds = s.m.cmds ∧ t.m.mem = s.m.mem ∧ t.m.ctxs = s.m.ctxs)

/-- A written cap outside 600 W to 1,600 W is the nearer limit, and it takes effect at the next evaluation. -/
def Obligations.CapTakesEffectAtEvaluation : Prop :=
  ∀ (s : State) (v : Word),
    (s.servedFullWrite = true → Completes (.pwrCapWrite v) s fun t =>
      t.pwr.capW = (if bits v.toNat 15 4 < 600 then 600 else if 1600 < bits v.toNat 15 4 then 1600 else bits v.toNat 15 4)
        ∧ t.pwr.hostFloor = bits v.toNat 2 0 ∧ t.pwr.capNow = s.pwr.capNow ∧ t.pwr.hostNow = s.pwr.hostNow
        ∧ t = { s with pwr := { s.pwr with capW := t.pwr.capW, hostFloor := t.pwr.hostFloor } })
    ∧ (s.pwr.running = true → 0 < s.pwr.samples → Completes .powerFloorEval s fun t =>
      t.pwr.capNow = s.pwr.capW ∧ t.pwr.hostNow = s.pwr.hostFloor)

/-- No energy sample is lost, and samples taken while PWR does not run are added when it resumes. -/
def Obligations.EnergyNeverLost : Prop :=
  ∀ (s : State) (w mv e : Nat) (b : BootInput),
    (s.aon.mode ≠ .off → s.pwr.running = true → Completes (.powerSample w mv e) s fun t =>
      t.pwr.energyUj = s.pwr.energyUj + e ∧ t.pwr.energyHeld = s.pwr.energyHeld)
    ∧ (s.aon.mode ≠ .off → s.pwr.running = false → Completes (.powerSample w mv e) s fun t =>
      t.pwr.energyUj = s.pwr.energyUj ∧ t.pwr.energyHeld = s.pwr.energyHeld + e)
    ∧ (s.aon.mode = .boot → Completes (.bootSequence b) s fun t =>
      (t.pwr.running = s.pwr.running ∧ t.pwr.energyUj = s.pwr.energyUj ∧ t.pwr.energyHeld = s.pwr.energyHeld)
        ∨ (t.pwr.running = true ∧ t.pwr.energyUj = s.pwr.energyUj + s.pwr.energyHeld ∧ t.pwr.energyHeld = 0))

/-- Samples, evaluation, clamp and its release: how the power floor moves, and that every unit then takes the level of its floors. -/
def Obligations.GovernorSetsLevels : Prop :=
  ∀ (s : State) (w mv e : Nat) (c : Fin 32),
    (s.aon.mode ≠ .off → Completes (.powerSample w mv e) s fun t =>
      t.pwr.inputMv = mv ∧ t.pwr.sumW = s.pwr.sumW + w ∧ t.pwr.samples = s.pwr.samples + 1
        ∧ t.pwr.goodSince = (if 40000 ≤ mv ∧ mv ≤ 48000 then some (s.pwr.goodSince.getD s.m.now) else none)
        ∧ t.pwr.hotSamples = (if 1760 < w then s.pwr.hotSamples + 1 else 0) ∧ t.pwr.overSamples = (if 1800 < w then s.pwr.overSamples + 1 else 0)
        ∧ t.pwr.floor = (if s.pwr.running = true ∧ t.pwr.hotSamples % 10 = 1 then min 7 (s.pwr.floor + 1) else s.pwr.floor)
        ∧ (s.pwr.running = true → t.pwr.hotSamples % 10 = 1 → t.Leveled) ∧ GovernorOnly s t)
    ∧ (s.pwr.running = true → 0 < s.pwr.samples → Completes .powerFloorEval s fun t =>
      t.pwr.samples = 0 ∧ t.pwr.sumW = 0 ∧ t.pwr.lastW = s.pwr.sumW / s.pwr.samples ∧ t.Leveled ∧ GovernorOnly s t
        ∧ (t.pwr.cap * s.pwr.samples < s.pwr.sumW → t.pwr.floor = min 7 (s.pwr.floor + 1))
        ∧ (s.pwr.sumW ≤ t.pwr.cap * s.pwr.samples → t.pwr.floor = s.pwr.floor ∨ (t.pwr.floor = s.pwr.floor - 1 ∧ 9 ≤ s.pwr.calmWindows)))
    ∧ (s.aon.mode.powered = true → s.pwr.clamp = false → 5 ≤ s.pwr.overSamples → Completes .powerClamp s fun t =>
      t.pwr.clamp = true ∧ t.pwr.clampSince = s.m.now ∧ t.pwr.clampSeen = true
        ∧ (∀ i < 32, Tab.get 0 t.pwr.levelC i = 7) ∧ (∀ k < 12, Tab.get 0 t.pwr.levelS k = 7) ∧ GovernorOnly s t
        ∧ (∀ i < 32, Tab.get 0 s.pwr.levelC i < 7 →
            Tab.get none t.pwr.slewing i = some ⟨s.m.now, s.pwr.clockKHz i s.m.now, 0, Config.clockMHz 7 * 1000⟩))
    ∧ (s.pwr.clamp = true → s.pwr.clampSince + 1000000 ≤ s.m.now → Completes .clampRelease s fun t =>
      t.pwr.clamp = false ∧ t.pwr.floor = 7 ∧ t.Leveled ∧ GovernorOnly s t)
    ∧ ∀ x, Tab.get none s.pwr.slewing c.val = some x →
      (x.ends ≤ s.m.now → Completes (.reefSlewDone c) s fun t =>
        Tab.get none t.pwr.slewing c.val = none ∧ t.pwr.clockKHz c.val t.m.now = Config.clockMHz (Tab.get 0 s.pwr.levelC c.val) * 1000
          ∧ (∀ d, d ≠ c.val → Tab.get none t.pwr.slewing d = Tab.get none s.pwr.slewing d)
          ∧ t = { s with pwr := { s.pwr with slewing := t.pwr.slewing } })
      ∧ (s.m.now < x.ends → Unchanged (.reefSlewDone c) s)

/-- The thermal model's update of its 57 nodes, and the energy of the zones divided among the contexts, the rest of the input's to the
device-overhead account; a suspended energy meter keeps its value. -/
def Obligations.ThermalModelAndEnergy : Prop :=
  ∀ (s : State) (temps : List Int) (coolant : Nat) (zones : List Nat) (claims : List (Fin 4 × Option (Fin 4096) × Nat)),
    (s.pwr.running = true → temps.length = 57 → Completes (.thermalModelUpdate temps coolant) s fun t =>
      t.pwr.coolant = coolant ∧ t.Leveled ∧ GovernorOnly s t
        ∧ ∀ n < 57, Tab.get ({} : Node) t.pwr.nodes n =
            (updateNode (Tab.get {} s.pwr.nodes n) (temps.getD n 0)
              (if 32 ≤ n ∧ n < 44 then max (temps.getD n 0) ((((s.m.st (n - 32)).temp : Nat) : Int) * 16) else temps.getD n 0)
              (s.pwr.levelUnder n)).1)
    ∧ (s.pwr.running = true → zones.length = 4 → sumNat zones ≤ s.pwr.energyUj - s.pwr.energyCharged →
        Completes (.estimatorScaling zones claims) s fun t =>
      t.pwr.energyCharged = s.pwr.energyCharged + (s.pwr.energyUj - s.pwr.energyCharged)
        ∧ (∀ x : Fin 4096, (∃ e ∈ claims, e.2.1 = some x) →
            (t.m.cx x.val).meters.energy = (s.m.cx x.val).meters.energy + (if (s.m.cx x.val).suspended.getLsbD 5 then 0 else energyShare zones claims x.val))
        ∧ t.m.ctr.overhead.energy = s.m.ctr.overhead.energy + (if s.m.ctr.suspended.getLsbD 5 then 0
            else s.pwr.energyUj - s.pwr.energyCharged - sumNat ((claimants claims).map (energyShare zones claims)))
        ∧ (∀ x, (∀ e ∈ claims, ∀ y, e.2.1 = some y → y.val ≠ x) → t.m.cx x = s.m.cx x)
        ∧ t = { s with pwr := t.pwr, m := { s.m with ctxs := t.m.ctxs, ctr := { s.m.ctr with overhead := t.m.ctr.overhead } } })

/-- The hardware trip: the four causes, `COOLING`, and the way back. -/
def Obligations.HardwareTrip : Prop :=
  ∀ (s : State) (coarse : List Int) (dram : List Nat) (zone : Fin 4) (modEn : Bool),
    let hist := (List.range 12).map fun n => (coarse.getD n 0 :: s.aon.coarse.getD n []).take 21
    (s.aon.mode ≠ .off → coarse.length = 12 → Completes (.tripModelUpdate coarse dram) s fun t =>
      t.aon.coarse = hist
        ∧ (tripCause hist dram = none ∨ s.aon.mode.powered = false → t = { s with aon := { s.aon with coarse := hist } })
        ∧ (∀ c n, tripCause hist dram = some (c, n) → s.aon.mode.powered = true →
            RailsDown .tripped s t ∧ t.aon.tripLow = true ∧ t.aon.lastCause = c ∧ t.aon.lastNode = n ∧ t.aon.trippedAt = s.m.now
              ∧ t.aon.tripTimes = (s.m.now :: s.aon.tripTimes).take 3 ∧ t.aon.alert.getLsbD 5 = true
              ∧ (t.aon.locked = true ↔ s.aon.locked = true ∨ t.aon.tripCount s.m.now = 3)))
    ∧ (s.aon.mode.powered = true → Completes (.regulatorOvertemp zone) s fun t =>
        RailsDown .tripped s t ∧ t.aon.tripLow = true ∧ t.aon.lastCause = 4 ∧ t.aon.trippedAt = s.m.now
          ∧ t.aon.tripTimes = (s.m.now :: s.aon.tripTimes).take 3)
    ∧ (s.aon.mode = .tripped → exec .coolingEntry s = .next { s with aon := { s.aon with mode := .cooling } })
    ∧ (s.aon.mode = .cooling → (∀ h ∈ s.aon.coarse, h.headD 0 ≤ 960) → s.aon.trippedAt + 60 * 10 ^ 9 ≤ s.m.now →
        Completes (.coolingExit modEn) s fun t =>
          t.aon.tripLow = false ∧ t.aon.modEn = modEn ∧ t.m = s.m ∧ t.pwr = s.pwr ∧ t.aon.tripTimes = s.aon.tripTimes
            ∧ t.aon.mode = (if modEn = true ∧ s.aon.locked = false ∧ s.aon.resetLow = false then .boot else .standby))

/-- The margin plan: requests, the weekly rebuild, measurements, the overdue event and warnings. -/
def Obligations.MarginPlan : Prop :=
  ∀ (s : State) (c : Fin 32) (top : Fin 8) (r : PlanReport),
    (s.servedFullWrite = true → s.pwr.running = true → s.pwr.planState = 0 → exec .planRequest s =
      .next { s with pwr := { s.pwr with planState := 1, planDone := [], newTop := [], newMv := [], newStack := [], newLaser := [], planDueAt := s.m.now } })
    ∧ (s.pwr.running = true → s.pwr.planState = 0 → 168 * 3600 * 10 ^ 9 ≤ s.pwr.planCarry + (s.m.now - s.pwr.planMadeAt) →
        exec .planRebuildStart s = .next { s with pwr := { s.pwr with
          planState := 1, planDone := [], newTop := [], newMv := [], newStack := [], newLaser := [],
          planDueAt := s.m.now - (s.pwr.planCarry + (s.m.now - s.pwr.planMadeAt) - 168 * 3600 * 10 ^ 9) } })
    ∧ (s.pwr.running = true → s.pwr.planState ≠ 0 → (s.m.cl c.val).enabled = true → (s.m.cl c.val).cmd = none → (s.m.cl c.val).next = none →
        (s.m.cl c.val).idleSince + 2000000 ≤ s.m.now → Completes (.planMeasurement c top false r) s fun t =>
          (∃ d, d < 32 ∧ (s.m.cl d).enabled = true ∧ d ∉ addNew s.pwr.planDone c.val ∧ t.pwr.planState = s.pwr.planState
              ∧ t.pwr.planDone = addNew s.pwr.planDone c.val ∧ Tab.get 0 t.pwr.newTop c.val = top.val ∧ t.pwr.topC = s.pwr.topC ∧ t.pwr.planMv = s.pwr.planMv)
            ∨ (t.pwr.planState = 0 ∧ t.pwr.planMadeAt = s.m.now ∧ t.pwr.planSeeded = true ∧ Tab.get 0 t.pwr.topC c.val = top.val ∧ t.Leveled))
    ∧ (s.pwr.running = true → s.pwr.planState = 1 → s.pwr.planDueAt + 24 * 3600 * 10 ^ 9 ≤ s.m.now → Completes .planOverdue s fun t =>
        t.pwr = { s.pwr with planState := 2 } ∧ CoreOnly { s with pwr := t.pwr } t ∧ t.m = { s.m with evr := t.m.evr })
    ∧ (s.pwr.running = true → Completes (.marginWarning c) s fun t =>
        Tab.get 0 t.pwr.topRaised c.val = max (Tab.get 0 s.pwr.topRaised c.val) (min 7 (Tab.get 0 s.pwr.levelC c.val + 1))
          ∧ t.pwr.marginSeen = true ∧ (s.pwr.planState = 0 → t.pwr.planState = 1 ∧ t.pwr.planDueAt = s.m.now) ∧ t.Leveled ∧ GovernorOnly s t)

/-- Requests queue by class or wait at their requester for an entry, age after 10 µs, and are served in a bank's slot. -/
def Obligations.ControllerRequests : Prop :=
  ∀ (s : State) (r : MemReq) (cell : Nat) (k : Fin 12) (d : Fin 16) (b : Fin 64) (q : Req) (v : Word),
    let bank := (s.m.st k.val).bank (64 * d.val + b.val)
    (s.aon.mode.powered = true → r.strikes = [] → s.m.mayWrite r = true → s.m.reach (r.dpa.toNat / 8 * 8) = some cell →
        (s.m.st (stackOfCell cell)).entries (bankKey cell / 32) (lcRead r) < (if lcRead r then 16 else 112) →
        Completes (.memoryRequest r) s fun t =>
          ((t.m.st (stackOfCell cell)).bank (bankKey cell)).reqs =
              ((s.m.st (stackOfCell cell)).bank (bankKey cell)).reqs ++ [⟨r, s.m.now, false⟩]
            ∧ (∀ i, i ≠ stackOfCell cell → t.m.st i = s.m.st i)
            ∧ (∀ i, i ≠ bankKey cell → (t.m.st (stackOfCell cell)).bank i = (s.m.st (stackOfCell cell)).bank i)
            ∧ t = { s with m := { s.m with memStacks := t.m.memStacks, ctr := t.m.ctr } })
    ∧ (s.aon.mode.powered = true → r.strikes = [] → s.m.mayWrite r = true → s.m.reach (r.dpa.toNat / 8 * 8) = some cell →
        (if lcRead r then 16 else 112) ≤ (s.m.st (stackOfCell cell)).entries (bankKey cell / 32) (lcRead r) →
        Completes (.memoryRequest r) s fun t =>
          t.m.st (stackOfCell cell) = { s.m.st (stackOfCell cell) with backpressure := true, waits := (s.m.st (stackOfCell cell)).waits ++ [r] }
            ∧ (∀ i, i ≠ stackOfCell cell → t.m.st i = s.m.st i)
            ∧ (r.who ≠ .mover → t.m.clusters = s.m.clusters)
            ∧ (r.who = .mover → ∀ e ∈ (t.m.cl r.unit).chans, e.2.cmd = r.seq → e.2.st ≠ 1)
            ∧ t = { s with m := { s.m with memStacks := t.m.memStacks, clusters := t.m.clusters } })
    ∧ (s.aon.mode.powered = true → r.strikes = [] → s.m.reach (r.dpa.toNat / 8 * 8) = some cell → s.m.mayWrite r = false → Unchanged (.memoryRequest r) s)
    ∧ (bank.reqs.find? (fun q => !lcRead q.r && !q.aged && decide (q.at_ + 10000 ≤ s.m.now)) = some q →
        Completes (.beRequestAged k d b) s fun t =>
          ((t.m.st k.val).bank (64 * d.val + b.val)).reqs = bank.reqs.map (fun y => if y = q then { y with aged := true } else y)
            ∧ OnlyStack k.val s t ∧ ∀ i, i ≠ 64 * d.val + b.val → (t.m.st k.val).bank i = (s.m.st k.val).bank i)
    ∧ (s.aon.mode.powered = true → s.m.bankFree k.val (64 * d.val + b.val) = true → s.m.inBlock k.val (64 * d.val + b.val) = false → 4 ≤ bank.postponed →
        Completes (.bankSlot k d b) s fun t =>
          ((t.m.st k.val).bank (64 * d.val + b.val)) = { bank.passSlot false with postponed := bank.postponed - 1, freeAt := s.m.now + 117 }
            ∧ (t.m.st k.val).forced = satAdd 32 (s.m.st k.val).forced 1 ∧ (∀ i, i ≠ k.val → t.m.st i = s.m.st i)
            ∧ t = { s with m := { s.m with memStacks := t.m.memStacks, ctr := t.m.ctr } })
    ∧ (s.aon.mode.powered = true → s.m.bankFree k.val (64 * d.val + b.val) = true → s.m.inBlock k.val (64 * d.val + b.val) = false → bank.postponed = 0 →
        (∀ i ∈ banksOfCore (coreOfBank (64 * d.val + b.val)), ((s.m.st k.val).bank i).hold = false) → bank.hold = false → bank.due = false →
        bank.reqs = [q] → q.r.data = some v → q.r.upset = 0 → q.r.lost = none → s.m.ownedAt q.r.dpa.toNat = false → (s.m.st k.val).waits = [] →
        ((s.m.st k.val).core (coreOfBank (64 * d.val + b.val))).steps = [] → (s.m.st k.val).ctlOpen (64 * d.val + b.val) = true →
        s.m.reach (q.r.dpa.toNat / 8 * 8) = some cell → Completes (.bankSlot k d b) s fun t =>
          ((t.m.st k.val).bank (64 * d.val + b.val)) = { bank with reqs := [], sinceCtl := 0, owed := bank.owed - 1, freeAt := s.m.now + 16 }
            ∧ t.m.mem = s.m.mem.putWord (s.m.cellKey cell / 8) ⟨v, false⟩
            ∧ t = { s with m := { s.m with memStacks := t.m.memStacks, mem := t.m.mem } })

/-- Refresh, sensors, the scraper, blank fills and the correctable-address table of a stack. -/
def Obligations.RefreshAndScraper : Prop :=
  ∀ (s : State) (k : Fin 12) (d : Fin 16) (b : Fin 64) (temp : Nat) (dpa : BitVec 44),
    let bank := (s.m.st k.val).bank (64 * d.val + b.val)
    let n := (s.m.st k.val).intervals s.m.now
    (s.aon.mode.powered = true → s.m.stackOk k.val = true → Completes (.refreshDue k d b) s fun t =>
        (bank.dueAt ≠ some n.intervalAt → (t.m.st k.val).bank (64 * d.val + b.val) =
              { bank with due := true, dueAt := some n.intervalAt, postponed := if bank.due then min 4 (bank.postponed + 1) else bank.postponed }
            ∧ ∀ i, i ≠ 64 * d.val + b.val → (t.m.st k.val).bank i = (s.m.st k.val).bank i)
          ∧ (bank.dueAt = some n.intervalAt → (t.m.st k.val).banks = (s.m.st k.val).banks)
          ∧ (t.m.st k.val).rate = n.rate ∧ OnlyStack k.val s t)
    ∧ (s.aon.mode.powered = true → s.m.stackOk k.val = true → (∀ g, (s.m.st k.val).sensorAt = some g → g + 10000 ≤ s.m.now) →
        Completes (.mcSensorRead k temp) s fun t =>
          (t.m.st k.val).temp = temp ∧ (t.m.st k.val).sensorAt = some s.m.now ∧ refreshBand temp ≤ (t.m.st k.val).rateNext
            ∧ (n.rate ≤ refreshBand temp → (t.m.st k.val).rate = n.rate) ∧ (t.m.st k.val).rate ≤ n.rate
            ∧ ((∀ g, (t.m.st k.val).coolA = some g → s.m.now < g + 10000000) → (∀ g, (t.m.st k.val).coolB = some g → s.m.now < g + 10000000) →
                n.rate ≤ 2 → (t.m.st k.val).rate = n.rate)
            ∧ ((∃ g, (t.m.st k.val).coolA = some g ∧ g + 10000000 ≤ s.m.now) → (t.m.st k.val).rate = 0)
            ∧ (t.m.st k.val).banks = (s.m.st k.val).banks ∧ OnlyStack k.val s t)
    ∧ (∀ g, (s.m.st k.val).sensorAt = some g → s.m.now < g + 10000 → Unchanged (.mcSensorRead k temp) s)
    ∧ ((s.aon.mode = .ready ∨ s.aon.mode = .run) → s.m.stackOk k.val = true → bank.scraped < scrapeRows → bank.nextVisit ≤ s.m.now →
        s.m.slotEmpty k.val (64 * d.val + b.val) = true → Completes (.scraperVisit k d b) s fun t =>
          ((t.m.st k.val).bank (64 * d.val + b.val)).nextVisit = s.m.now + 1000
            ∧ (((t.m.st k.val).bank (64 * d.val + b.val)).scraped = bank.scraped + 1
                ∨ (((t.m.st k.val).bank (64 * d.val + b.val)).scraped = 0 ∧ (t.m.st k.val).laps = satAdd 16 (s.m.st k.val).laps 1))
            ∧ CoreOnly s t ∧ t.m = { s.m with memStacks := t.m.memStacks, mem := t.m.mem, evr := t.m.evr, ctr := t.m.ctr })
    ∧ ((s.aon.mode = .ready ∨ s.aon.mode = .run) → (s.m.st k.val).overdueLap = false → 86400 * 10 ^ 9 < s.m.now - (s.m.st k.val).lapAt →
        Completes (.scraperOverdue k) s fun t =>
          t.m.st k.val = { s.m.st k.val with overdueLap := true } ∧ CoreOnly s t ∧ t.m = { s.m with memStacks := t.m.memStacks, evr := t.m.evr })
    ∧ (s.servedFullWrite = true → Completes (.mcCeClear k) s fun t => t.m.st k.val = { s.m.st k.val with ces := [] } ∧ OnlyStack k.val s t)
    ∧ (s.m.frame (frameOf dpa.toNat) = .blank → s.m.heldLines [frameOf dpa.toNat] [] = [] → s.m.frameInUse (frameOf dpa.toNat) = false →
        s.m.firmwareTokens (frameOf dpa.toNat) = true → Completes (.blankFillDone dpa) s fun t =>
        t.m.frame (frameOf dpa.toNat) = .free ∧ (∀ c, ∀ l ∈ (t.m.cl c).cache, frameOf l.2.1 ≠ frameOf dpa.toNat) ∧ (∀ f, f ≠ frameOf dpa.toNat → t.m.frame f = s.m.frame f)
          ∧ (∀ row ∈ frameRows (frameOf dpa.toNat), ∀ i < 128, t.m.mem.decode (s.m.cellKey (row + 8 * i) / 8) = ⟨⟨0, false⟩, .clean, 0⟩)
          ∧ (∀ w, w ∉ (frameRows (frameOf dpa.toNat)).flatMap s.m.rowKeys → t.m.mem.decode w = s.m.mem.decode w)
          ∧ t = { s with m := { s.m with mem := t.m.mem, frames := t.m.frames, ctr := t.m.ctr, clusters := t.m.clusters } })

/-- The array's ramps, freezes that end, and underflow. -/
def Obligations.FreezesAndRamps : Prop :=
  ∀ (s : State) (c : Fin 32) (x : Cmd) (img : Img) (w : WaitSt) (a : Nat) (k : Nat) (rest : List (Nat × Nat)),
    ((s.m.cl c.val).ramp = 1 → 48 ≤ (s.m.cl c.val).rampAc → Completes (.unfurlEnd c) s fun t =>
        t.m.cl c.val = { (s.m.cl c.val).clear srcUnfurl with ramp := 2 } ∧ OnlyCluster c.val s t)
    ∧ ((s.m.cl c.val).ramp = 2 → 256 ≤ (s.m.cl c.val).arrayIdle → Completes (.arrayFurl c) s fun t =>
        t.m.cl c.val = { s.m.cl c.val with ramp := 3, rampAc := 0 } ∧ OnlyCluster c.val s t)
    ∧ ((s.m.cl c.val).runState = 2 → (s.m.cl c.val).underflow = true → Completes (.feederUnderflow c) s fun t =>
        (t.m.cl c.val).runState = 3 ∧ (t.m.cl c.val).frozen = (s.m.cl c.val).frozen ||| srcFeeder ∧ OnlyCluster c.val s t)
    ∧ (s.m.running' c.val = some (x, img) → (s.m.cl c.val).wait = some w → (s.m.cl c.val).frozen = srcSync → (s.m.cl c.val).runState = 3 →
        s.m.flagAddr x.ctx w.va = some a → (s.m.reach (a / 8 * 8)).any (fun cell => (s.m.decodeCell cell).kind == .clean) = true →
        (∀ cell, s.m.reach (a / 8 * 8) = some cell → flagCompare (w.cmp + 1) (s.m.decodeCell cell).word.val w.val = some true) →
        Completes (.waitRepoll c) s fun t =>
          (t.m.cl c.val).runState = 2 ∧ (t.m.cl c.val).frozen = 0 ∧ (t.m.cl c.val).wait = none ∧ (t.m.cl c.val).pc = (s.m.cl c.val).pc
            ∧ t = { s with m := { s.m with clusters := t.m.clusters, cmds := t.m.cmds } })
    ∧ (s.m.running' c.val = some (x, img) → (s.m.cl c.val).miss = (k, a) :: rest → k ≠ 2 → s.m.ownedAt a = false →
        s.m.requestOpen .mastSlot c.val (a / 64) = false → (∀ p ∈ (s.m.cl c.val).pend, p.storesLine a = false) → Completes (.cacheMissFill c) s fun t =>
          (t.m.cl c.val).miss = rest ∧ (rest = [] → (t.m.cl c.val).frozen = (s.m.cl c.val).frozen &&& ~~~srcCache)
            ∧ (k = 0 → ∃ b p, (x.ctx, a, b, p) ∈ (t.m.cl c.val).cache) ∧ (k ≠ 0 → ∃ b p, (a, b, p) ∈ (t.m.cl c.val).volatile) ∧ t.m.mem = s.m.mem ∧ (t.m.cl c.val).pc = (s.m.cl c.val).pc ∧ CoreOnly s t)

/-- One ac of a cluster: a frozen one counts it and moves nothing else, an idle issue cycle passes, a bundle of idle slots advances the program,
and the reads of an ac are granted once. -/
def Obligations.IssueCycles : Prop :=
  ∀ (s : State) (c : Fin 32) (x : Cmd) (img : Img) (b : Bundle) (err : BitVec 8),
    let cl := s.m.cl c.val
    let m := (s.m.modCl c.val Cluster.acStart).landSpads c.val cl.issueAc x
    (s.m.running' c.val = some (x, img) → cl.runState = 3 → cl.pend = [] → ¬(cl.ramp = 1 ∧ 48 ≤ cl.rampAc) → Completes (.issueCycle c) s fun t =>
        (t.m.cl c.val).freezeAc = cl.freezeAc + 1 ∧ (t.m.cl c.val).issueAc = cl.issueAc ∧ (t.m.cl c.val).pc = cl.pc ∧ (t.m.cl c.val).g = cl.g
          ∧ (t.m.cl c.val).p = cl.p ∧ (t.m.cl c.val).cores = cl.cores ∧ (t.m.cl c.val).passes = cl.passes ∧ (t.m.cl c.val).loops = cl.loops
          ∧ (t.m.cl c.val).pend = [] ∧ (∀ j, j ≠ c.val → t.m.cl j = s.m.cl j)
          ∧ t = { s with m := { s.m with clusters := t.m.clusters, ctr := t.m.ctr } })
    ∧ (s.m.running' c.val = some (x, img) → cl.runState = 2 → cl.underflow = false → 0 < cl.idle → cl.pend = [] → cl.passes = [] → cl.mouts = [] →
        Completes (.issueCycle c) s fun t =>
          (t.m.cl c.val).idle = cl.idle - 1 ∧ (t.m.cl c.val).issueAc = cl.issueAc + 1 ∧ (t.m.cl c.val).pc = cl.pc ∧ (t.m.cl c.val).g = cl.g
            ∧ (∀ j, j ≠ c.val → t.m.cl j = s.m.cl j) ∧ t.m.mem = s.m.mem ∧ CoreOnly s t)
    ∧ (s.m.running' c.val = some (x, img) → cl.runState = 2 → cl.underflow = false → cl.idle = 0 → cl.lastSeen = false →
        bundleAt ((m.cl c.val).bank.text.take img.code.length) (m.cl c.val).pc = some b → (m.cl c.val).bank.flips = [] →
        m.bundleTrap c.val cl.issueAc x img b = none → b.slot 1 = none → b.slot 2 = none → b.slot 3 = none → b.slot 4 = none → b.slot 5 = none →
        (m.cl c.val).frozen = 0 → Completes (.issueCycle c) s fun t =>
          (t.m.cl c.val).pc = ((m.cl c.val).advance b).pc ∧ (t.m.cl c.val).loops = ((m.cl c.val).advance b).loops
            ∧ (t.m.cl c.val).idle = b.idle ∧ (t.m.cl c.val).issueAc = (m.cl c.val).issueAc + 1 ∧ CoreOnly s t)
    ∧ (cl.granted = false → cl.feeds = [] → Completes (.scratchpadBankArbitration c err) s fun t =>
        (t.m.cl c.val).granted = true ∧ (t.m.cl c.val).feeds = [] ∧ OnlyCluster c.val s t)

/-- Instruction-memory loads of a cluster, its command boundary and the first bundle of the next command. -/
def Obligations.InstructionMemory : Prop :=
  ∀ (s : State) (c : Fin 32) (v : Word) (x : Cmd) (img : Img) (rank slot : Nat),
    let cl := s.m.cl c.val
    let bank := v.getLsbD 62
    let code := Cluster.loadCheck s.m cl bank (bits v.toNat 57 44) (bits v.toNat 43 0)
    let read := s.m.readBytes (firmwareAcc 0) (cl.imem bank).src (64 * (cl.imem bank).lines)
    (s.aon.mode.powered = true → v.getLsbD 63 = true → Completes (.seqImemLoad c (.control c) v) s fun t =>
        (t.m.cl c.val).loadStatus = code
          ∧ (code = 0 → (t.m.cl c.val).imem bank = { st := .loading, lines := bits v.toNat 57 44, src := bits v.toNat 43 0 })
          ∧ (code ≠ 0 → (t.m.cl c.val).imem bank = cl.imem bank) ∧ (t.m.cl c.val).loadLatest = (if code = 0 then some bank else none) ∧ (t.m.cl c.val).imem (!bank) = cl.imem (!bank) ∧ OnlyCluster c.val s t)
    ∧ (∀ w, w ≠ .control c → Unchanged (.seqImemLoad c w v) s)
    ∧ ((cl.imem bank).st = .loading → (cl.imem (!bank)).st ≠ .loading → cl.next = none → read.1.2.any id = false →
        Completes (.imemLoadDone c) s fun t =>
          (t.m.cl c.val).imem bank = { st := .ready, code := read.1.1, digest := some (codeDigest read.1.1) }
            ∧ (t.m.cl c.val).imem (!bank) = cl.imem (!bank) ∧ (t.m.cl c.val).loadStatus = cl.loadStatus ∧ t.m.mem = s.m.mem ∧ t.m.cmds = s.m.cmds ∧ CoreOnly s t)
    ∧ (s.m.running' c.val = some (x, img) → cl.runState = 2 → cl.lastSeen = true → cl.drained ≤ cl.issueAc →
        (∀ e ∈ cl.chans, e.2.cmd = x.seq → e.2.st ≠ 1 ∧ e.2.st ≠ 2) → x.more = [] → Completes (.commandBoundary c) s fun t =>
          (t.m.cl c.val).cmd = none ∧ (t.m.cl c.val).runState = (if (t.m.cl c.val).next.isSome then 1 else 0) ∧ (t.m.cl c.val).pend = []
            ∧ (∃ y ∈ t.m.cmds, sameCmd y x = true ∧ c.val ∈ y.boundary) ∧ CoreOnly s t)
    ∧ (cl.next.bind s.m.cmdOf = some x → x.placed.find? (fun p => p.1 == c.val) = some (c.val, rank, img) → cl.slotOf x.ctx = some slot →
        cl.cmd = none → cl.runState ≠ 4 → x.phase = .running → cl.imemA.st = .armed ∨ cl.imemB.st = .armed ∨ cl.reuse = true ∨ cl.codeBound.isSome = true →
        (cl.slot slot).st = 0 → (if rank = 0 then x.moves else []).length ≤ cl.freeChans.length → Completes (.commandFirstBundle c) s fun t =>
          ∃ m : Mach, (m.cl c.val).cmd = some x.seq ∧ (m.cl c.val).next = none ∧ (m.cl c.val).runState = 2 ∧ (m.cl c.val).pc = 0
            ∧ (m.cl c.val).arrayIdle = (if cl.idleFull then 256 else cl.arrayIdle)
            ∧ (m.cl c.val).gv 1 = ⟨BitVec.ofNat 64 rank, false⟩ ∧ (m.cl c.val).gv 2 = ⟨BitVec.ofNat 64 img.clusters, false⟩
            ∧ (m.cl c.val).gv 3 = ⟨BitVec.ofNat 64 cl.phys.length, false⟩ ∧ (m.cl c.val).p = [] ∧ (m.cl c.val).pend = []
            ∧ (∀ k ∈ cl.phys, ((m.cl c.val).core k).v = [] ∧ ((m.cl c.val).core k).acc = [] ∧ ((m.cl c.val).core k).spad = (cl.core k).spad)
            ∧ t = s.withMach (m.ac c.val))

/-- A scalar instruction of a running spar core, the ends of row steps, counts and chain words that arrive, edge bits, the start of an atomic block,
and the release of a core's pages. -/
def Obligations.SparCoresAndRowSteps : Prop :=
  (∀ (s : State) (k : Fin 12) (c : Fin 512) (x : Cmd) (w : Word) (u : Step) (r v : Nat) (p : Bool) (q : List (Nat × Nat × Bool)) (y : PWord) (ys : List PWord),
    let core := s.m.sparCore k.val c.val
    let i := kword w.toNat
    (s.m.sparCmd k.val c.val = some x → core.st = .running → x.phase = .running → core.code[core.pc]? = some w → core.flips = [] → i.illegal = false →
        0x20 ≤ bits w.toNat 63 58 → bits w.toNat 63 58 ≤ 0x28 → core.isBusy i.rs1 = false → core.isBusy i.rs2 = false → core.isBusy i.rd = false →
        (∀ e ∈ core.k, e.2.poison = false) → Completes (.sparIssue k c) s fun t =>
          (∀ j, (t.m.sparCore k.val c.val).kv j =
              if j = i.rd ∧ j ≠ 0 then ⟨sparAlu i.op (core.kv i.rs1).val (core.kv i.rs2).val, false⟩ else core.kv j)
            ∧ (t.m.sparCore k.val c.val).pc = core.pc + 1 ∧ (t.m.sparCore k.val c.val).dmem = core.dmem
            ∧ (∀ j, j ≠ c.val → t.m.sparCore k.val j = s.m.sparCore k.val j) ∧ OnlyStack k.val s t)
    ∧ (core.edgeWait = false → core.cur = [u] → Completes (.rowStepEnd k c) s fun t =>
        (t.m.sparCore k.val c.val).cur = [] ∧ (∀ b ∈ stepBanks c.val u.tgt, ((t.m.st k.val).bank b).busy = none)
          ∧ (u.op = 10 → u.k ≠ 0 → (t.m.sparCore k.val c.val).kv u.k = u.kval ∧ (t.m.sparCore k.val c.val).isBusy u.k = false)
          ∧ (u.atomic = false → (t.m.st k.val).held = (s.m.st k.val).held - u.tokens)
          ∧ t.m.mem = s.m.mem ∧ (∀ j, j ≠ k.val → t.m.st j = s.m.st j) ∧ CoreOnly s t)
    ∧ (core.cnt = (r, v, p) :: q → Completes (.cntResult k c) s fun t =>
        (t.m.sparCore k.val c.val).cnt = q ∧ Tab.get {} (t.m.sparCore k.val c.val).k r = ⟨BitVec.ofNat 64 v, p⟩
          ∧ Tab.get false (t.m.sparCore k.val c.val).busy r = false ∧ (t.m.sparCore k.val c.val).pc = core.pc ∧ OnlyStack k.val s t)
    ∧ (s.m.sparCmd k.val c.val = some x → s.m.neighbour x k.val c.val true = some (c.val + 1) → core.outHi = y :: ys →
        (s.m.sparCore k.val (c.val + 1)).inLo.length < 4 → Completes (.chainWordArrive k c true) s fun t =>
          (t.m.sparCore k.val c.val).outHi = ys
            ∧ (t.m.sparCore k.val (c.val + 1)).inLo = (s.m.sparCore k.val (c.val + 1)).inLo ++ [y] ∧ OnlyStack k.val s t)
    ∧ (s.m.sparCmd k.val c.val = some x → s.m.neighbour x k.val c.val false = some (c.val - 1) → 0 < c.val → core.outLo = y :: ys →
        (s.m.sparCore k.val (c.val - 1)).inHi.length < 4 → Completes (.chainWordArrive k c false) s fun t =>
          (t.m.sparCore k.val c.val).outLo = ys
            ∧ (t.m.sparCore k.val (c.val - 1)).inHi = (s.m.sparCore k.val (c.val - 1)).inHi ++ [y] ∧ OnlyStack k.val s t)
    ∧ (s.m.sparCmd k.val c.val = some x → core.st = .ending → core.steps = [] → core.cur = [] → x.phase = .running →
        x.released.contains (k.val * 512 + c.val) = false → Completes (.sparCoreRelease k c) s fun t =>
          (∀ f, ownerId x.seq k.val c.val ∉ Tab.get [] t.m.owned f) ∧ CoreOnly s t))
  ∧ (∀ (s : State) (k : Fin 12) (c : Fin 512) (x : Cmd) (u : Step) (o : Nat) (ops : List Nat) (us : List Step) (e : Nat × Nat × Nat) (es : List (Nat × Nat × Nat)),
    let core := s.m.sparCore k.val c.val
    (s.m.sparCmd k.val c.val = some x → core.edgeWait = true → core.cur = u :: us → u.ops = o :: ops →
        (if lshUp o then core.edgeLo else core.edgeHi) = e :: es → Completes (.edgeBitsArrive k c) s fun t =>
          (if lshUp o then (t.m.sparCore k.val c.val).edgeLo else (t.m.sparCore k.val c.val).edgeHi) = es ∧ CoreOnly s t
            ∧ (e.1 ≠ 2 ^ lshM o → (t.m.st k.val).trapValid = true)
            ∧ (e.1 = 2 ^ lshM o → (t.m.sparCore k.val c.val).cur.length = core.cur.length))
    ∧ (s.m.sparCmd k.val c.val = some x → core.steps = u :: us → x.phase = .running → 0 < u.blk → u.blk ≤ core.steps.length → core.blockRun = 0 →
        core.edgeWait = false →
        (∀ b ∈ (setBits 2 (blockMask (core.steps.take u.blk))).map fun i => 2 * c.val + i,
          s.m.bankFree k.val b = true ∧ ((s.m.st k.val).bank b).due = false ∧ ((s.m.st k.val).bank b).postponed = 0 ∧ ((s.m.st k.val).bank b).reqs = []) →
        (s.m.st k.val).held + (setBits 2 (blockMask (core.steps.take u.blk))).length ≤ (s.m.st k.val).pool → Completes (.atomicBlockStart k c) s fun t =>
          ∃ m : Mach, (m.st k.val).held = (s.m.st k.val).held + (setBits 2 (blockMask (core.steps.take u.blk))).length
            ∧ (m.sparCore k.val c.val).blockRun = u.blk ∧ (m.sparCore k.val c.val).blockBanks = blockMask (core.steps.take u.blk)
            ∧ (∀ j, j ≠ k.val → m.st j = s.m.st j) ∧ m = { s.m with memStacks := m.memStacks } ∧ t = s.withMach (m.startStep k.val c.val x u)))

/-- Loads of spar instruction memory: accepted with the set moved to `loading`, refused with a status, and their end. -/
def Obligations.SparLoads : Prop :=
  ∀ (s : State) (k : Fin 12) (w : Master) (v : Word),
    let st := s.m.st k.val
    let cores := (setBits 16 (bits v.toNat 31 16)).flatMap fun d =>
      ((List.range 32).filter fun j => decide (bits v.toNat 4 0 ≤ j) && decide (j ≤ bits v.toNat 9 5)).map fun j => 32 * d + j
    let code := s.m.sparLoadCheck k.val cores (bitAt v.toNat 62) st.loadLen st.loadSrc
    let read := s.m.readBytes (firmwareAcc 0) st.loadNow.2 (8 * st.loadNow.1)
    let free := (s.m.cmds.filter fun x => x.kind == .spar && x.phase == .copying && !x.resolved && bitAt x.img.stackMask k.val) = []
    (s.aon.mode.powered = true → w ≠ .companion → bitAt v.toNat 63 = true → Completes (.sparImemLoad k w v) s fun t =>
        (t.m.st k.val).loadStatus = code
          ∧ (code = 0 → (t.m.st k.val).loadSet = cores ∧ ∀ c ∈ cores, (t.m.sparCore k.val c).st = .loading)
          ∧ (code ≠ 0 → (t.m.st k.val).loadSet = st.loadSet ∧ (t.m.st k.val).spar = st.spar) ∧ OnlyStack k.val s t)
    ∧ Unchanged (.sparImemLoad k .companion v) s
    ∧ (st.loadSet ≠ [] → st.loadFor = false → read.1.2.any id = false → free → Completes (.sparImemLoadDone k) s fun t =>
          (t.m.st k.val).loadSet = [] ∧ (t.m.st k.val).loadStatus = (if st.loadLatest then 0 else st.loadStatus) ∧ t.m.mem = s.m.mem ∧ CoreOnly s t
            ∧ (∀ c ∈ st.loadSet, (t.m.sparCore k.val c).st = .idle ∧ (t.m.sparCore k.val c).code = codeWords read.1.1
                ∧ (t.m.sparCore k.val c).flips = [] ∧ (t.m.sparCore k.val c).digest = some (codeDigest read.1.1))
            ∧ ∀ c, c ∉ st.loadSet → t.m.sparCore k.val c = s.m.sparCore k.val c)
    ∧ (st.loadSet ≠ [] → st.loadFor = false → read.1.2.any id = true → free → Completes (.sparImemLoadDone k) s fun t =>
          (t.m.st k.val).loadSet = [] ∧ (t.m.st k.val).loadStatus = (if st.loadLatest then 5 else st.loadStatus) ∧ t.m.mem = s.m.mem ∧ CoreOnly s t
            ∧ ∀ c ∈ st.loadSet, (t.m.sparCore k.val c).st = .idle ∧ (t.m.sparCore k.val c).code = [] ∧ (t.m.sparCore k.val c).digest = none)

/-- One transfer of a mover channel: a block handed to a turner, or the elements whose scratchpad accesses find their ports; a block of a
turner, and a staged block. -/
def Obligations.MoversAndStaging : Prop :=
  ∀ (s : State) (c : Fin 32) (n : Fin 8) (x : Cmd) (a d : Desc) (k : Nat) (cell : Nat) (whole : Bool) (j : Fin 12) (b : Turn) (y : Cmd) (dep : Deployment) (img : Img) (rank : Nat),
    let ch := (s.m.cl c.val).chan n.val
    let cl := s.m.cl c.val
    let els := (List.range (if a.view = 1 then 1024 / 2 ^ a.turn else 128 / elemBytes a.fmt)).map (· + ch.first) |>.filter fun i => decide (i < ch.limit)
    let got := cl.grantEls (els.map fun el => (el, (moveCores cl a d ch.core).flatMap (s.m.spadUses (moverAcc x c.val) c.val x a d el))) []
    let run := (s.m.modCl c.val fun k => k.usePorts got.2).moveRun (moverAcc x c.val) c.val n.val x a d ch.core got.1
    let core := if a.space = 1 then ch.core else ch.sub
    (s.m.cmdOf ch.cmd = some x → s.m.liveDesc x.ctx ch.src = some a → s.m.liveDesc x.ctx ch.dst = some d → ch.st = 1 → x.phase = .running →
        ch.waiting = false → s.m.moveHeld x a d = false → ch.turner = true → ceilDiv ch.first 8192 * 8192 < ch.limit →
        s.m.grainBlock x a d (ceilDiv ch.first 8192) core = some (k, cell, whole) → Completes (.moverTransfer c n) s fun t =>
          (t.m.st k).turns = (s.m.st k).turns ++ [⟨c.val, n.val, ceilDiv ch.first 8192, core⟩] ∧ ((t.m.cl c.val).chan n.val) = { ch with waiting := true }
            ∧ t = { s with m := { s.m with memStacks := t.m.memStacks, clusters := t.m.clusters } })
    ∧ (s.m.cmdOf ch.cmd = some x → s.m.liveDesc x.ctx ch.src = some a → s.m.liveDesc x.ctx ch.dst = some d → ch.st = 1 → x.phase = .running →
        ch.waiting = false → s.m.moveHeld x a d = false → ch.turner = false → a.view ≠ 1 ∨ d.grid.isSome = true → got.1 ≠ [] → run.2.2.1 = none → Completes (.moverTransfer c n) s fun t =>
          ((t.m.cl c.val).chan n.val).done = ((run.2.2.2).cl c.val |>.chan n.val).done + run.1 ∧ ((((run.2.2.2).cl c.val).chan n.val).late = [] → t.m.mem = run.2.2.2.mem)
            ∧ CoreOnly s t)
    ∧ ((s.m.st j.val).turns.find? (fun w => !s.m.turnHeld w) = some b → s.m.cmdOf ((s.m.cl b.cluster).chan b.chan).cmd = some x →
        s.m.liveDesc x.ctx ((s.m.cl b.cluster).chan b.chan).src = some a → s.m.liveDesc x.ctx ((s.m.cl b.cluster).chan b.chan).dst = some d →
        Completes (.turnerBlock j) s fun t => (t.m.st j.val).turns = (s.m.st j.val).turns.erase b ∧ ((t.m.cl b.cluster).chan b.chan).waiting = false ∧ CoreOnly s t)
    ∧ (cl.cmd.bind s.m.cmdOf = some y → s.m.dep cl.afu.dep = some dep → y.placed.find? (fun p => p.1 == c.val) = some (c.val, rank, img) →
        cl.afu.st ≠ 0 → cl.afu.st ≠ 3 → cl.afu.next < cl.afu.total → y.kind = .serve → 3 ≤ cl.afu.next →
        cl.afu.touched = none ∨ cl.afu.touched.any (fun k => decide (k + 3 < cl.afu.next)) = true → Completes (.afuBlockStaged c) s fun t =>
          (t.m.cl c.val).afu = { cl.afu with st := 2 } ∧ OnlyCluster c.val s t)
    ∧ (cl.cmd.bind s.m.cmdOf = some y → s.m.dep cl.afu.dep = some dep → y.placed.find? (fun p => p.1 == c.val) = some (c.val, rank, img) →
        cl.afu.st ≠ 0 → cl.afu.st ≠ 3 → cl.afu.next < cl.afu.total → y.kind = .serve →
        cl.afu.next < 3 ∨ cl.afu.touched.any (fun k => decide (cl.afu.next ≤ k + 3)) = true →
        (walkAt cl.afu.next (dep.launchGroups img).length dep.heads (((dep.launchGroups img).headD ⟨false, 0, 0, [], 1, 0, 0⟩).loops)).2.1 < (dep.launchGroups img).length →
        Completes (.afuBlockStaged c) s fun t => CoreOnly s t ∧ t.m.mem = s.m.mem ∧
          (((t.m.cl c.val).afu.next = cl.afu.next + 1 ∧ (t.m.cl c.val).afu.st = 1 ∧ (Tab.get none (t.m.cl c.val).afu.staged cl.afu.next).isSome = true)
            ∨ ((t.m.cl c.val).afu.st = 3 ∧ (t.m.cl c.val).afu.faultSeen = true)))

/-- A mast command that passes its checks, whose predicate is true and for which clusters and drafts are found is dispatched under the next
sequence number and bound as the next command of each of its clusters. -/
def Obligations.MastCommandPlaced : Prop :=
  ∀ (s : State) (ctx : Fin 4096) (q : Fin 16) (x : Cmd) (p : MastPlan) (m1 m2 m3 m4 : Mach) (cs : List Nat) (ds : List Draft),
    let x1 : Cmd := { x with coll := x.fld 0x2A 2 }
    let x2 : Cmd := { x1 with pred := some true }
    let cost := fun (c : Nat) => mastCost p.img (Config.clockMHz (s.level c))
    let mB := m1.modCmd x1 fun z => z.examined (x1.planned p)
    let m2' := (m2.modCmd x1 fun y => { y with pred := some true }).modCmd x2 fun y => { y with costTried := true }
    s.dispatching = true → s.m.firstQueued ctx.val q.val .mast = some x → s.m.mayDispatch x1 = true → s.m.holder x1 (s.m.mastReads x1) = none →
    (s.m.modCmd x1 fun y => { y with coll := x1.coll }).checkMast x1 = (.ok p, m1) →
    mB.holder (x1.planned p) (mB.flagSpan x.ctx p.img.predVa) = none →
    mB.predicate x1 p.img.predVa p.img.predOp p.img.predVal = (.ok true, m2) →
    (p.img.cls ≠ 0 ∨ x.costTried = true) → (p.img.cls = 0 ∨ Mach.goesAfter s.level m2' x2 = false) →
    m2'.chooseClusters p.img.cls p.img.clusters (p.cands.filter fun c =>
      (!(p.img.cls == 0) || decide (cost c ≤ m2'.leftC x.ctx c)) && m2'.canReside x.ctx c) = (some cs, m3) →
    m3.draftsFor x2 m3.nextSeq (m3.wants (x2.planned p)) = .ok (ds, m4) → 0 < m4.nextSeq → (∃ z ∈ m4.cmds, sameCmd z x = true) →
    (∀ z ∈ m4.cmds, z.seq = m4.nextSeq → sameCmd z x = true) → m4.fwHeld = false →
    Completes (.mastDispatch ctx q) s fun t =>
      t.m.nextSeq = m4.nextSeq + 1 ∧ (∀ c ∈ cs, (t.m.cl c).next = some m4.nextSeq) ∧ cs.length = p.img.clusters
        ∧ (∃ z ∈ t.m.cmds, sameCmd z x = true ∧ z.seq = m4.nextSeq ∧ z.placed = cs.zipIdx.map (fun e => (e.1, e.2, p.img)) ∧ z.img = p.img)
        ∧ t.m.mem = m4.mem ∧ CoreOnly s t

/-- A spar command whose cores all hold its code gets its drafts and pages and starts on all its cores; one that waits, passes its checks and
finds its cores idle is bound to them under the next sequence number. -/
def Obligations.SparCommandBound : Prop :=
  (∀ (s : State) (ctx : Fin 4096) (q : Fin 16) (x : Cmd) (ds : List Draft) (m1 : Mach),
    s.dispatching = true → (s.m.queueCmds ctx.val q.val).find? (fun x => x.kind == .spar && x.phase == .copying && !x.resolved) = some x →
    (∀ sc ∈ x.img.coreSet, (s.m.sparCore sc.1 sc.2).st = .bound ∧ (s.m.sparCore sc.1 sc.2).digest = some x.img.digest) →
    s.m.recallFirst ((s.m.bindPages x).map fun p => p.2.1.frame) [] = none →
    s.m.draftsFor x x.seq ((((s.m.bindPages x).filter fun p => p.2.2 != 1).foldl (fun l p => addWant l p.2.1 p.2.2) []).map (·.1)) = .ok (ds, m1) →
    ds.any (·.copying) = false → s.m.fwHeld = false →
    Completes (.sparDispatch ctx q) s fun t =>
      (∀ e ∈ x.img.coreSet.zipIdx, (t.m.sparCore e.1.1 e.1.2).st = .running ∧ (t.m.sparCore e.1.1 e.1.2).cmd = x.seq ∧ (t.m.sparCore e.1.1 e.1.2).pc = 0
          ∧ (t.m.sparCore e.1.1 e.1.2).code = (s.m.sparCore e.1.1 e.1.2).code
          ∧ (t.m.sparCore e.1.1 e.1.2).kv 1 = ⟨BitVec.ofNat 64 e.2, false⟩ ∧ (t.m.sparCore e.1.1 e.1.2).kv 2 = ⟨BitVec.ofNat 64 x.img.coreSet.length, false⟩
          ∧ (t.m.sparCore e.1.1 e.1.2).kv 3 = ⟨BitVec.ofNat 64 (e.1.1 * 512 + e.1.2), false⟩
          ∧ (t.m.sparCore e.1.1 e.1.2).dmem = ({} : Ram).write 0 (slice x.argBlk 0 2048) false)
        ∧ (∃ z ∈ t.m.cmds, sameCmd z x = true ∧ z.phase = .running ∧ z.resolved = true ∧ z.drafts = ds) ∧ t.m.mem = m1.mem ∧ CoreOnly s t)
  ∧ (∀ (s : State) (ctx : Fin 4096) (q : Fin 16) (x : Cmd) (i : Img) (b : Bound) (m1 m2 : Mach),
    let x1 : Cmd := { x with coll := x.fld 0x2A 2 }
    let x2 : Cmd := { x1 with pred := some true }
    let mB := m1.modCmd x1 fun z => z.examined (x1.asSpar i b)
    let m2' := (m2.modCmd x1 fun y => { y with pred := some true }).modCmd x2 fun y => { y with costTried := true }
    s.dispatching = true → (s.m.queueCmds ctx.val q.val).find? (fun x => x.kind == .spar && x.phase == .copying && !x.resolved) = none →
    s.m.firstQueued ctx.val q.val .spar = some x → s.m.mayDispatch x1 = true → s.m.holder x1 (s.m.sparReads x1) = none →
    (s.m.modCmd x1 fun y => { y with coll := x1.coll }).checkSpar x1 = (.ok (i, b), m1) →
    mB.holder (x1.asSpar i b) (mB.flagSpan x.ctx i.predVa) = none →
    mB.predicate x1 i.predVa i.predOp i.predVal = (.ok true, m2) → i.cls ≠ 0 → Mach.goesAfter s.level m2' x2 = false → m2.fwHeld = false →
    m2.ctr.grants.any (fun g => g.ctx != x.ctx && (setBits 12 i.stackMask).any fun k => bitAt g.memStacks k) = false →
    (∀ sc ∈ i.coreSet, (m2.sparCore sc.1 sc.2).st = .idle) →
    Completes (.sparDispatch ctx q) s fun t =>
      t.m.nextSeq = m2.nextSeq + 1 ∧ (∀ sc ∈ i.coreSet, (t.m.sparCore sc.1 sc.2).cmd = m2.nextSeq ∧ (t.m.sparCore sc.1 sc.2).st ≠ .idle) ∧ CoreOnly s t)

/-- A move that passes its checks on a cluster of the free choice is dispatched there, its elements divided among its channels (R366). -/
def Obligations.MoveCommandStarted : Prop :=
  ∀ (s : State) (ctx : Fin 4096) (q : Fin 16) (x0 : Cmd) (o : List (Nat × List Nat)) (b : Bound) (m1 m2 m3 m4 : Mach) (c slot : Nat) (ds : List Draft) (a d : Desc),
    let x := x0.asMove
    let x2 : Cmd := { x with pred := some true }
    let y : Cmd := { x2 with placed := [(c, 0, {})], ownersL := o, peers := b.1, rank := b.2.1, collUs := b.2.2 }
    let mA := s.m.modCmd x fun y => y.examined x
    let m2' := m2.modCmd x fun y => { y with pred := some true }
    s.dispatching = true → s.m.firstQueued ctx.val q.val .move = some x0 → mA.mayDispatch x = true → mA.holder x (mA.moveReads x) = none →
    mA.checkMove x = (.ok (o, b), m1) →
    m1.predicate x (x.fld 0x20 8) (x.fld 0x1C 1) (BitVec.ofNat 64 (x.fld 0x28 8)) = (.ok true, m2) →
    (x.cls ≠ 0 ∨ (m2'.cx x.ctx).reserve ≠ 0) → (x.cls ≠ 1 ∨ Mach.goesAfter s.level m2' x2 = false) → m2'.pick (m2'.moveClusters x2) = (some c, m3) →
    m3.draftsFor x2 m3.nextSeq (m3.wants x2) = .ok (ds, m4) → 0 < m4.nextSeq → (∃ z ∈ m4.cmds, sameCmd z x = true) →
    (∀ z ∈ m4.cmds, z.seq ≠ m4.nextSeq) → m4.fwHeld = false → (m4.cl c).slotOf x.ctx = some slot → x.movers ≤ (m4.cl c).freeChans.length → 0 < x.movers →
    m4.liveDesc x.ctx x.srcH = some a → m4.liveDesc x.ctx x.dstH = some d →
    Completes (.moveDispatch ctx q) s fun t =>
      t.m.nextSeq = m4.nextSeq + 1
        ∧ (∃ z ∈ t.m.cmds, sameCmd z x = true ∧ z.seq = m4.nextSeq ∧ z.placed = y.placed
            ∧ z.phase = (if ds.any (·.copying) then Phase.copying else Phase.running) ∧ z.srcH = x.srcH ∧ z.dstH = x.dstH)
        ∧ (∀ e < m4.moveCount x.ctx a d, ∃ n < 8, ((t.m.cl c).chan n).st = 1 ∧ ((t.m.cl c).chan n).cmd = m4.nextSeq ∧ ((t.m.cl c).chan n).src = x.srcH
            ∧ ((t.m.cl c).chan n).dst = x.dstH ∧ ((t.m.cl c).chan n).first ≤ e ∧ e < ((t.m.cl c).chan n).limit)
        ∧ (∀ j, j ≠ c → t.m.cl j = m4.cl j) ∧ t.m.mem = m4.mem ∧ CoreOnly s t

/-- Draft copies that end, waits of a dispatch that are reported, and a new admission window. -/
def Obligations.DraftsAndWindows : Prop :=
  ∀ (s : State) (seq page : Nat) (x : Cmd) (d : Draft) (ctx : Fin 4096) (q : Fin 16),
    (s.m.cmdOf seq = some x → x.drafts[page]? = some d → d.copying = true → x.phase = .copying → s.m.firmwareTokens d.new = true →
        (modAt x.drafts page fun d => { d with copying := false }).any (·.copying) = true →
        Completes (.draftCopyDone seq page) s fun t =>
          (∃ z ∈ t.m.cmds, sameCmd z x = true ∧ z.phase = .copying
              ∧ z.drafts = modAt x.drafts page (fun d => { d with copying := false }) ∧ z.meters.spar = x.meters.spar + 64)
            ∧ t = { s with m := { s.m with cmds := t.m.cmds, ctr := t.m.ctr } })
    ∧ (s.m.cmdOf seq = some x → x.drafts[page]? = some d → d.copying = true → x.phase = .copying → s.m.firmwareTokens d.new = true →
        (modAt x.drafts page fun d => { d with copying := false }).any (·.copying) = false → x.kind ≠ .spar → s.m.engineOf seq = none →
        Completes (.draftCopyDone seq page) s fun t =>
          (∃ z ∈ t.m.cmds, sameCmd z x = true ∧ z.phase = .running)
            ∧ t = { s with m := { s.m with cmds := t.m.cmds, ctr := t.m.ctr, shr := t.m.shr } })
    ∧ (s.m.overdueWait ctx.val q.val (·.waitDraftSince) (·.draftSeen) = some x → Completes (.draftWaitEvent ctx q) s fun t =>
        (x.kind ≠ .serve → t.m.cmds = s.m.cmds.map fun y => if sameCmd y x then { y with draftSeen := true } else y)
          ∧ t.m = { s.m.modWaiter x (fun y => { y with draftSeen := true }) with evr := t.m.evr } ∧ CoreOnly s t)
    ∧ (s.m.overdueWait ctx.val q.val (fun x => if (s.m.cx ctx.val).admits x.waitNeed then none else x.waitLimitSince) (·.limitSeen) = some x →
        Completes (.pageLimitEvent ctx q) s fun t =>
          (x.kind ≠ .serve → t.m.cmds = s.m.cmds.map fun y => if sameCmd y x then { y with limitSeen := true } else y)
            ∧ t.m = { s.m.modWaiter x (fun y => { y with limitSeen := true }) with evr := t.m.evr } ∧ CoreOnly s t)
    ∧ (s.dispatching = true → s.m.windowAt + 1000000 ≤ s.m.now → s.m.fwHeld = false → (∀ y ∈ s.m.cmds, y.phase = .queued → y.costTried = false) →
        (∀ e ∈ s.m.deps, ∀ d, e.2 = some d → d.tried = false) →
        Completes .admissionWindow s fun t =>
          t.m.windowAt = s.m.now / 1000000 * 1000000 ∧ (∀ c, t.m.cl c = { s.m.cl c with admittedUs := [] })
            ∧ (∀ k, t.m.st k = { s.m.st k with admittedUs := [] })
            ∧ t = { s with m := { s.m with windowAt := t.m.windowAt, clusters := t.m.clusters, memStacks := t.m.memStacks } })
    ∧ (s.dispatching = true → s.m.windowAt + 1000000 ≤ s.m.now → Completes .admissionWindow s fun t =>
        t.m.windowAt = s.m.now / 1000000 * 1000000 ∧ CoreOnly s t)

/-- A kill that completes: the command runs again, or it ends with its outcome; everything that it held is free. -/
def Obligations.KillCompletes : Prop :=
  ∀ (s : State) (seq : Nat) (x : Cmd), s.m.cmdOf seq = some x → x.phase = .killing →
    (x.cause = some .preempt → x.kind ≠ .serve → Completes (.killComplete seq) s fun t =>
        (∃ z ∈ t.m.cmds, sameCmd z x = true ∧ z.phase = .queued ∧ z.seq = seq ∧ z.drafts = [] ∧ z.placed = [] ∧ z.meters = {} ∧ z.cause = none
            ∧ z.preempts = x.preempts + 1 ∧ (8 ≤ x.preempts + 1 → z.starving = true))
          ∧ (∀ c ∈ x.clusters, (t.m.cl c).cmd ≠ some seq) ∧ (x.kind ≠ .spar → t.m.mem = s.m.mem) ∧ CoreOnly s t)
    ∧ (x.cause = some .evict ∨ x.cause = some .writerKilled → x.kind ≠ .serve → Completes (.killComplete seq) s fun t =>
        (∃ z ∈ t.m.cmds, sameCmd z x = true ∧ z.phase = .queued ∧ z.seq = seq ∧ z.drafts = [] ∧ z.placed = [] ∧ z.preempts = x.preempts)
          ∧ (x.kind ≠ .spar → t.m.mem = s.m.mem) ∧ CoreOnly s t)
    ∧ (x.cause = some .stop → x.kind ≠ .serve → x.q < 16 → (s.m.cx x.ctx).frees = [] → Completes (.killComplete seq) s fun t =>
        (∀ z ∈ t.m.cmds, sameCmd z x = false)
          ∧ ((t.m.cx x.ctx).q x.q).cqTail = (((s.m.cx x.ctx).q x.q).cqTail + 1) % 2 ^ 32
          ∧ ((t.m.cx x.ctx).q x.q).unposted = ((s.m.cx x.ctx).q x.q).unposted - 1
          ∧ ringBytes (t.m.cx x.ctx).rings (cqOffset x.q ((s.m.cx x.ctx).q x.q).cqTail) 32
              = cqBytes s.m.now x.tag x.opcode (((s.m.cx x.ctx).q x.q).cqTail / 4096 % 2 == 0) { st := .queueStopped }
          ∧ (x.kind ≠ .spar → t.m.mem = s.m.mem) ∧ CoreOnly s t)
    ∧ (x.kind ≠ .serve → (∃ st d, x.cause = some (.fail st d) ∧ st.stops = true) → x.q < 16 → Completes (.killComplete seq) s fun t =>
        (∀ z ∈ t.m.cmds, sameCmd z x = false) ∧ ((t.m.cx x.ctx).q x.q).stopped ≠ none ∧ (x.kind ≠ .spar → t.m.mem = s.m.mem) ∧ CoreOnly s t)
    ∧ (∀ st detail d, x.kind = .serve → x.cause = some (.fail st detail) → s.m.dep (x.q - 16) = some d → Completes (.killComplete seq) s fun t =>
        (∀ z ∈ t.m.cmds, sameCmd z x = false) ∧ CoreOnly s t
          ∧ t.m.dep (x.q - 16) = some { d with stepCmd := none, boundaryAt := s.m.now, stopped := some st, batch := [], tokens := [], grown := [], stageOn := false })

/-- Evictions, swaps, held kills, budgets, overruns and deadlock reports. -/
def Obligations.SlotsAndReports : Prop :=
  ∀ (s : State) (c : Fin 32) (ctx : Fin 4096) (sl : Fin 8) (i : Nat) (old : Nat) (x : Cmd) (seq unit : Nat) (h : Cause × Nat × Bool) (w : Nat × Word × Nat × Nat),
    (s.dispatching = true → s.m.wantsSlot ctx.val c.val = true → (List.range 8).all (s.m.slotBlocked c.val) = true →
        oldestSlot (s.m.cl c.val) ((List.range 8).filter fun i => match ((s.m.cl c.val).slot i).ctx with
          | some y => !(s.m.flying y c.val).any fun x => s.m.anchoredNow x
          | none => false) = some i → ((s.m.cl c.val).slot i).ctx = some old → Completes (.slotEviction c ctx) s fun t =>
          ((t.m.cl c.val).slot i).st = 5 ∧ ((t.m.cl c.val).slot i).incoming = some ctx.val ∧ ((t.m.cl c.val).slot i).ctx = some old
            ∧ (t.m.cl c.val).evictions = satAdd 16 (s.m.cl c.val).evictions 1 ∧ (t.m.cl c.val).swaps = satAdd 32 (s.m.cl c.val).swaps 1
            ∧ (s.m.flying old c.val = [x] → ∃ z ∈ t.m.cmds, sameCmd z x = true ∧ z.phase = .killing) ∧ t.m.mem = s.m.mem ∧ CoreOnly s t)
    ∧ (s.dispatching = true → ((s.m.cl c.val).slot sl.val).st = 4 → Completes (.swapComplete c sl) s fun t =>
        (t.m.cl c.val).slot sl.val = { ctx := ((s.m.cl c.val).slot sl.val).incoming } ∧ Tab.get {} (t.m.cl c.val).windows sl.val = {}
          ∧ (t.m.cl c.val).cache = (s.m.cl c.val).cache ∧ OnlyCluster c.val s t)
    ∧ (s.m.cmdOf seq = some x → x.held.find? (fun h => !h.2.2 && decide (h.2.1 + s.m.holdBudget x * 1000 < s.m.now)) = some h →
        x.phase ≠ .killing → x.phase ≠ .flipped → Completes (.preemptOverdue seq) s fun t =>
          t.m.cmds = s.m.cmds.map (fun y => if sameCmd y x then
              { y with held := y.held.map fun g => if g == h then (g.1, g.2.1, true) else g } else y)
            ∧ t.m = { s.m with cmds := t.m.cmds, evr := t.m.evr } ∧ CoreOnly s t)
    ∧ (s.m.cmdOf seq = some x → s.m.waitOf x unit = some w → x.overdue.any (fun o => o.1 == unit && o.2 == w.1) = false →
        w.2.2.2 + s.m.budgetOf x unit * 1000 ≤ s.m.now → Completes (.waitBudgetExpire seq unit) s fun t =>
          t.m.cmds = s.m.cmds.map (fun y => if sameCmd y x then { y with overdue := y.overdue ++ [(unit, w.1)] } else y)
            ∧ (x.kind = .spar → (t.m.st (unit / 512)).overdueSeen = true) ∧ t.m.mem = s.m.mem ∧ CoreOnly s t)
    ∧ (s.m.cmdOf seq = some x → x.kind = .spar → x.phase = .running → x.wcetReported = false → x.startedAt + x.img.wcet < s.m.now →
        Completes (.wcetOverrun seq) s fun t =>
          t.m.cmds = s.m.cmds.map (fun y => if sameCmd y x then { y with wcetReported := true } else y)
            ∧ t.m = { s.m with cmds := t.m.cmds, evr := t.m.evr } ∧ CoreOnly s t)
    ∧ (s.m.cmdOf seq = some x → x.kind ≠ .spar → x.phase = .running → x.wcetReported = false →
        (∃ p ∈ x.placed, (s.m.cl p.1).cmd = some seq ∧
          p.2.2.wcet * 1000 + p.2.2.stallNs * Config.clockMHz (s.level p.1) < ((s.m.cl p.1).issueAc + (s.m.cl p.1).stallAc) * 1000) → Completes (.wcetOverrun seq) s fun t =>
          t.m.cmds = s.m.cmds.map (fun y => if sameCmd y x then { y with wcetReported := true } else y)
            ∧ t.m = { s.m with cmds := t.m.cmds, evr := t.m.evr } ∧ CoreOnly s t)
    ∧ (s.dispatching = true → Completes .deadlockSearch s fun t =>
        t.m.reported = s.m.cycles.map (fun c => c.map (·.1)) ∧ t.m = { s.m with reported := t.m.reported, evr := t.m.evr } ∧ CoreOnly s t)

/-- What a command's commit does: its page, its log and flags, its outcome, once the companion has given up the lines that change, for which
it waits behind its flips; the END flits of a bound command (R552); a fence, a signal, a wait. -/
def Obligations.CommitEffects : Prop :=
  ∀ (s : State) (seq : Nat) (x : Cmd), (s.aon.mode = .ready ∨ s.aon.mode = .run) → s.m.running = true → s.m.cmdOf seq = some x → s.m.earlier x = [] → x.q < 16 →
    let m := x.drafts.foldl (fun (m : Mach) d => m.flip x d) s.m
    (x.phase = .ended → x.kind ≠ .wait → x.kind ≠ .serve → x.pred ≠ some false → x.poisoned = false → x.peers = [] →
        m.recallFirst (x.drafts.map (·.old)) (m.logWords x) = none → Completes (.commit seq) s fun t =>
          (∀ z ∈ t.m.cmds, sameCmd z x = false) ∧ CoreOnly s t
            ∧ (∀ d a, x.drafts = [d] → d.alloc < 2 ^ 40 → s.m.entryLost x d = false → Tab.get none (s.m.cx x.ctx).allocs d.alloc = some a → d.page < a.pages.length →
                d.old ≠ d.new → (s.m.cx x.ctx).frees = [] →
                ∃ b, Tab.get none (t.m.cx x.ctx).allocs d.alloc = some b ∧ b.pages = modAt a.pages d.page (fun _ => d.new)
                  ∧ t.m.frame d.new = .ctx x.ctx ∧ (s.m.frame d.old = .ctx x.ctx → t.m.frame d.old = if s.m.lostRefs.contains d.old then .lost else .blank))
            ∧ (x.drafts = [] → x.log = [] → x.dones = [] → t.m.mem = s.m.mem))
    ∧ (x.phase = .ended → x.kind ≠ .wait → x.kind ≠ .serve → x.pred ≠ some false → x.poisoned = false → x.peers = [] →
        m.recallFirst (x.drafts.map (·.old)) (m.logWords x) ≠ none → Completes (.commit seq) s fun t =>
          (∃ z ∈ t.m.cmds, sameCmd z x = true ∧ z.phase = .flipped ∧ z.drafts = [] ∧ z.oldFrames = x.drafts.map (·.old))
            ∧ (∀ l ∈ m.heldLines (x.drafts.map (·.old)) (m.logWords x), l ∈ t.m.dmg.recalls) ∧ t.m.mem = s.m.mem ∧ CoreOnly s t)
    ∧ (x.phase = .flipped → x.kind ≠ .serve → s.m.recallFirst x.oldFrames (s.m.logWords x) = none → x.peers ≠ [] → x.endSent = true →
        Completes (.commit seq) s fun t => (∀ z ∈ t.m.cmds, sameCmd z x = false) ∧ CoreOnly s t)
    ∧ (x.phase = .ended → x.kind ≠ .wait → x.pred ≠ some false → x.poisoned = false → x.peers ≠ [] → x.endSent = false → Completes (.commit seq) s fun t =>
        (∃ z ∈ t.m.cmds, sameCmd z x = true ∧ z.endSent = true ∧ z.gather = [])
          ∧ (∀ r p, r ≠ x.rank → x.peers[r]? = some p → s.m.flit p.1 5 1 p.2 0 x.coll x.ctx 0 [] ∈ t.m.shr.tx) ∧ t.m.mem = s.m.mem ∧ CoreOnly s t)
    ∧ (x.phase = .ended → x.kind = .wait → Completes (.commit seq) s fun t =>
        (∀ z ∈ t.m.cmds, sameCmd z x = false) ∧ t.m.mem = s.m.mem ∧ CoreOnly s t)
    ∧ (x.phase = .queued → x.kind = .fence → (s.m.cx x.ctx).st = .enabled → ((s.m.cx x.ctx).q x.q).stopped = none → x.fld 0x10 1 ≤ 1 →
        Completes (.commit seq) s fun t =>
          (∀ z ∈ t.m.cmds, sameCmd z x = false) ∧ t.m.mem = s.m.mem ∧ CoreOnly s t
            ∧ (x.fld 0x10 1 = 1 → ∀ c, ∀ l ∈ (t.m.cl c).cache, l.1 ≠ x.ctx) ∧ (x.fld 0x10 1 = 0 → t.m.clusters = s.m.clusters))

/-- A SIGNAL at its commit adds its value to the word of its flag (R396); a target stored as poison takes poison (R641). -/
def Obligations.SignalAddsToItsFlag : Prop :=
  ∀ (s : State) (seq : Nat) (x : Cmd) (e : LogE) (a cell : Nat), (s.aon.mode = .ready ∨ s.aon.mode = .run) → s.m.running = true →
    s.m.cmdOf seq = some x → s.m.earlier x = [] → x.q < 16 → x.phase = .queued → x.kind = .signal → (s.m.cx x.ctx).st = .enabled →
    ((s.m.cx x.ctx).q x.q).stopped = none → x.fld 0x10 8 % 8 = 0 → s.m.inGrain x.ctx (x.fld 0x10 8) = false → x.drafts = [] → x.dones = [] →
    x.log = [e] → s.m.recallFirst [] (s.m.logWords x) = none → s.m.xlate x.ctx (e.va / 8 * 8) = some a → s.m.reach (a / 8 * 8) = some cell →
    Completes (.commit seq) s fun t =>
      (∀ z ∈ t.m.cmds, sameCmd z x = false) ∧ CoreOnly s t
        ∧ ((s.m.decodeCell cell).kind = .clean → e.op = 1 →
            t.m.mem.decode (s.m.cellKey cell / 8) = ⟨⟨(s.m.decodeCell cell).word.val + e.val.val, false⟩, .clean, 0⟩)
        ∧ ((s.m.decodeCell cell).word.poison = true → (t.m.mem.decode (s.m.cellKey cell / 8)).word.poison = true)
        ∧ ∀ w, w ≠ s.m.cellKey cell / 8 → t.m.mem.decode w = s.m.mem.decode w

/-- A tail write that moves the tail backwards or leaves more than 4,096 entries unread is ignored, with an event that names the context and
the queue; what is written to the page of an `absent` context or to a queue that a context has not is ignored, and reads 0 there (R578). -/
def Obligations.DoorbellGuardsTheTail : Prop :=
  ∀ (s : State) (ctx : Fin 4096) (q : Fin 16) (tail : BitVec 32), s.servedFullWrite = true →
    let k := (s.m.cx ctx.val).q q.val
    ((s.m.cx ctx.val).st = .absent ∨ (s.m.cx ctx.val).queues ≤ q.val → Completes (.sqTailDoorbell ctx q tail) s fun t => t = s)
    ∧ ((s.m.cx ctx.val).st ≠ .absent → q.val < (s.m.cx ctx.val).queues →
        (ringDist k.sqHead tail.toNat < ringDist k.sqHead k.sqTail ∨ 4096 < ringDist k.sqHead tail.toNat →
          Completes (.sqTailDoorbell ctx q tail) s fun t => t.m = { s.m with evr := t.m.evr } ∧ CoreOnly s t
            ∧ t.m.evr = (s.m.post .doorbellInvalid (some ctx.val) uDamger [BitVec.ofNat 64 ctx.val, BitVec.ofNat 64 q.val]).evr
            ∧ t.m.evr.produced = s.m.evr.produced + (if s.m.evr.suspended then 0 else 1))
        ∧ (ringDist k.sqHead k.sqTail ≤ ringDist k.sqHead tail.toNat → ringDist k.sqHead tail.toNat ≤ 4096 →
          Completes (.sqTailDoorbell ctx q tail) s fun t => (t.m.cx ctx.val).q q.val = { k with sqTail := tail.toNat } ∧ OnlyCtx ctx.val s t))
    ∧ ∀ (off : BitVec 26) (v : Word), off.toNat % 8 = 0 →
        ((s.m.cx ctx.val).st = .absent ∧ 0x1000000 + ctx.val * 0x1000 ≤ off.toNat ∧ off.toNat < 0x1000000 + (ctx.val + 1) * 0x1000
          ∨ (s.m.cx ctx.val).queues ≤ q.val ∧ 0x1000000 + ctx.val * 0x1000 + q.val * 0x40 ≤ off.toNat
              ∧ off.toNat < 0x1000000 + ctx.val * 0x1000 + (q.val + 1) * 0x40) →
        s.reg off.toNat = some 0 ∧ Completes (.registerWrite .companion off 8 v) s fun t =>
          t = { s with m := { s.m with dmg := { s.m.dmg with replies := [(4096, .done)] } } }

/-- HYV_Q_RESTART ends the stop of a queue (R582), HYV_VERSION is selected once (R588), and SHR_NODE_ID is written only while no port is in
use (R544). -/
def Obligations.SelectionsAndRestarts : Prop :=
  (∀ (s : State) (ctx : Fin 4096) (q : Fin 16), s.servedFullWrite = true → (s.m.cx ctx.val).st ≠ .absent → q.val < (s.m.cx ctx.val).queues →
    Completes (.hyvQRestart ctx q) s fun t =>
      (t.m.cx ctx.val).q q.val = { (s.m.cx ctx.val).q q.val with stopped := none } ∧ (∀ j, j ≠ q.val → (t.m.cx ctx.val).q j = (s.m.cx ctx.val).q j)
        ∧ (t.m.cx ctx.val).rings = (s.m.cx ctx.val).rings ∧ OnlyCtx ctx.val s t)
  ∧ (∀ (s : State) (v : BitVec 8),
    (s.servedWrite = true → s.m.hyv.version = 0 → hyvalMin ≤ v.toNat → v.toNat ≤ hyvalMax → Completes (.hyvVersionWrite v) s fun t =>
      t.m.hyv = { s.m.hyv with version := v } ∧ OnlyHyv s t)
    ∧ (s.m.hyv.version ≠ 0 ∨ v.toNat < hyvalMin ∨ hyvalMax < v.toNat → Unchanged (.hyvVersionWrite v) s))
  ∧ (∀ (s : State) (v : Word),
    (s.servedFullWrite = true → s.m.nodeLocked = false → Completes (.shrNodeIdWrite v) s fun t =>
        t.m.shr = { s.m.shr with node := v.setWidth 16 } ∧ t = { s with m := { s.m with shr := t.m.shr } })
    ∧ (s.m.nodeLocked = true → Unchanged (.shrNodeIdWrite v) s))

/-- A command entry takes its queue position: it is copied whole and waits as the last command of the machine; FENCE, SIGNAL and WAIT get
their sequence number at once. -/
def Obligations.CommandEntriesAreQueued : Prop :=
  ∀ (s : State) (ctx : Fin 4096) (q : Fin 16) (e : Ent),
    let cmd := fun (k : Kind) =>
      ({ seq := 0, ctx := ctx.val, q := q.val, pos := ((s.m.cx ctx.val).q q.val).nextPos, kind := k, tag := e.tag, opcode := e.op, flags := e.flags, entry := e.bytes } : Cmd)
    (s.Head ctx.val q.val 1 e → Completes (.launchMast ctx q) s fun t =>
        t.m.cmds = s.m.cmds ++ [cmd .mast] ∧ EntryTaken e s t ∧ t = { s with m := { s.m with ctxs := t.m.ctxs, cmds := t.m.cmds } })
    ∧ (s.Head ctx.val q.val 2 e → Completes (.launchSpar ctx q) s fun t =>
        t.m.cmds = s.m.cmds ++ [cmd .spar] ∧ EntryTaken e s t ∧ t = { s with m := { s.m with ctxs := t.m.ctxs, cmds := t.m.cmds } })
    ∧ (s.Head ctx.val q.val 3 e → Completes (.move ctx q) s fun t =>
        t.m.cmds = s.m.cmds ++ [cmd .move] ∧ EntryTaken e s t ∧ t = { s with m := { s.m with ctxs := t.m.ctxs, cmds := t.m.cmds } })
    ∧ (s.Head ctx.val q.val 4 e → Completes (.fence ctx q) s fun t =>
        t.m.cmds = s.m.cmds ++ [{ cmd .fence with seq := s.m.nextSeq }] ∧ t.m.nextSeq = s.m.nextSeq + 1 ∧ EntryTaken e s t
          ∧ t = { s with m := { s.m with ctxs := t.m.ctxs, cmds := t.m.cmds, nextSeq := t.m.nextSeq } })
    ∧ (s.Head ctx.val q.val 5 e → Completes (.signal ctx q) s fun t =>
        t.m.cmds = s.m.cmds ++ [{ cmd .signal with seq := s.m.nextSeq, log := [⟨1, e.fld 0x10 8, ⟨BitVec.ofNat 64 (e.fld 0x18 8), false⟩⟩] }]
          ∧ t.m.nextSeq = s.m.nextSeq + 1 ∧ EntryTaken e s t
          ∧ t = { s with m := { s.m with ctxs := t.m.ctxs, cmds := t.m.cmds, nextSeq := t.m.nextSeq } })

/-- A Hyval WAIT: its flag is read at once where nothing earlier holds it, and it ends or holds its queue; held, it waits its turn; when its
queue comes to it, its flag is read again. -/
def Obligations.HyvalWaits : Prop :=
  ∀ (s : State) (ctx : Fin 4096) (q : Fin 16) (e : Ent) (x : Cmd) (a cell : Nat),
    (s.Head ctx.val q.val 6 e → 1 ≤ e.fld 0x20 1 → e.fld 0x20 1 ≤ 5 → 0 < s.m.nextSeq → (∀ y ∈ s.m.cmds, y.seq ≠ s.m.nextSeq) →
        (s.m.cmds.any fun y => y.ctx == ctx.val && y.q == q.val) = false → s.m.flagAddr ctx.val (e.fld 0x10 8) = some a →
        s.m.reach (a / 8 * 8) = some cell → (s.m.decodeCell cell).kind = .clean → Completes (.hyvalWait ctx q) s fun t =>
          t.m.nextSeq = s.m.nextSeq + 1 ∧ EntryTaken e s t ∧ t.m.mem = s.m.mem ∧ CoreOnly s t
            ∧ ∃ z ∈ t.m.cmds, z.seq = s.m.nextSeq ∧ z.kind = .wait ∧ z.waitVa = e.fld 0x10 8
                ∧ z.phase = (if flagCompare (e.fld 0x20 1) (s.m.decodeCell cell).word.val (BitVec.ofNat 64 (e.fld 0x18 8)) = some true then .ended else .waitHeld)
                ∧ (z.phase = .waitHeld → z.waitSince = some s.m.now))
    ∧ (s.dispatching = true → s.m.dueWait ctx.val q.val = some x → x.ctx = ctx.val → (s.m.cx ctx.val).st = .enabled →
        ((s.m.cx ctx.val).q q.val).stopped = none → s.m.flagAddr ctx.val x.waitVa = some a → s.m.reach (a / 8 * 8) = some cell →
        (s.m.decodeCell cell).kind = .clean → flagCompare x.waitCmp (s.m.decodeCell cell).word.val x.waitVal = some true →
        Completes (.hyvalWaitRelease ctx q) s fun t =>
          t.m.cmds = s.m.cmds.map (fun y => if sameCmd y x then { y with phase := .ended, overdue := [] } else y)
            ∧ t = { s with m := { s.m with cmds := t.m.cmds, ctr := { s.m.ctr with overhead := t.m.ctr.overhead } } })

/-- ALLOC places its pages and answers a handle; FREE ends the allocation when nothing uses it, and defers it otherwise. -/
def Obligations.AllocAndFree : Prop :=
  ∀ (s : State) (ctx : Fin 4096) (q : Fin 16) (e : Ent) (l : List Nat) (m1 : Mach) (al : Alloc),
    let c := s.m.cx ctx.val
    let word := e.fld 0x18 1 == 0
    let large := e.fld 0x19 1 == 1
    let banks := namedBanks (e.fld 0x1C 2) (e.fld 0x1E 2) (e.fld 0x20 1) (e.fld 0x21 1) (e.fld 0x22 1)
    let need := if word then e.fld 0x10 8 / 65536 else banks.length * e.fld 0x24 4
    (s.Head ctx.val q.val 0x10 e → e.allocOk = true → (c.pageLimit = 0 ∨ c.frames + need ≤ c.pageLimit) →
        (if word then (s.m.consume e).placeWord (.ctx ctx.val) c.locality large (if large then need / 8192 else need) (c.nextAlloc % 192) (e.fld 0x1A 1)
         else (s.m.consume e).placeGrain (.ctx ctx.val) banks (e.fld 0x24 4)) = some (l, m1) → Completes (.alloc ctx q) s fun t =>
          (∃ o : Outcome1, o.st = .ok ∧ o.result % 2 ^ 32 = c.nextAlloc % 2 ^ 32 ∧ (word = false ∨ c.locality = false → o = { st := .ok, result := c.nextAlloc })
              ∧ EntryPosted e o s t)
            ∧ (∃ b : Alloc, Tab.get none (t.m.cx ctx.val).allocs c.nextAlloc = some b ∧ b.pages = l ∧ b.dying = false ∧ b.grain = !word)
            ∧ (t.m.cx ctx.val).nextAlloc = c.nextAlloc + 1 ∧ (t.m.cx ctx.val).frames = c.frames + l.length ∧ (∀ f ∈ l, t.m.frame f = .ctx ctx.val)
            ∧ t.m.mem = s.m.mem ∧ CoreOnly s t)
    ∧ (s.Head ctx.val q.val 0x11 e → c.alloc (e.fld 0x10 4) = some al → al.dying = false → c.frees = [] →
        s.m.ownedAlloc al = false → (∀ x ∈ s.m.cmds, x.ctx = ctx.val → x.inFlight = true → s.m.usesAlloc x (e.fld 0x10 4) = false) →
        Completes (.free ctx q) s fun t =>
          (t.m.cx ctx.val).alloc (e.fld 0x10 4) = none ∧ (∀ r ∈ (t.m.cx ctx.val).maps, r.alloc ≠ e.fld 0x10 4) ∧ EntryPosted e { st := .ok } s t
            ∧ (∀ f ∈ al.pages, t.m.frame f ≠ .ctx ctx.val) ∧ t.m.mem = s.m.mem ∧ CoreOnly s t)
    ∧ (s.Head ctx.val q.val 0x11 e → c.alloc (e.fld 0x10 4) = some al → al.dying = false → c.frees = [] → s.m.ownedAlloc al = true →
        Completes (.free ctx q) s fun t =>
          (t.m.cx ctx.val).alloc (e.fld 0x10 4) = some { al with dying := true } ∧ EntryTaken e s t
            ∧ (t.m.cx ctx.val).frees = [(0, e.fld 0x10 4, 0, q.val, e.tag, e.flags)] ∧ OnlyCtx ctx.val s t)

/-- MAP adds a mapping of a whole allocation and UNMAP takes every page of its range out; DESC_CREATE gives a checked record a handle and
DESC_DESTROY ends the descriptor when nothing uses it. -/
def Obligations.MapsAndDescriptors : Prop :=
  (∀ (s : State) (ctx : Fin 4096) (q : Fin 16) (e : Ent) (al : Alloc),
    let c := s.m.cx ctx.val
    let va := e.fld 0x18 8
    (s.Head ctx.val q.val 0x12 e → c.alloc (e.fld 0x10 4) = some al → al.dying = false → e.fld 0x14 1 ≤ 1 → va % al.pageSize = 0 →
        va + al.pages.length * 65536 ≤ ringBase →
        (c.maps.any fun r => decide (r.va < va + al.pages.length * 65536) && decide (va < r.va + r.pages * 65536)) = false → Completes (.map ctx q) s fun t =>
          (t.m.cx ctx.val).maps = c.maps ++ [⟨va, e.fld 0x10 4, 0, al.pages.length, e.fld 0x14 1 == 1⟩] ∧ EntryPosted e { st := .ok } s t ∧ OnlyCtx ctx.val s t)
    ∧ (s.Head ctx.val q.val 0x13 e → e.fld 0x10 8 % 65536 = 0 → e.fld 0x18 8 % 65536 = 0 → 0 < e.fld 0x18 8 → e.fld 0x10 8 + e.fld 0x18 8 ≤ 2 ^ 52 →
        (∀ r ∈ c.maps, r.va % 65536 = 0 ∧ ∀ b, c.alloc r.alloc = some b → b.pageSize = 65536) → c.frees = [] →
        (∀ i < e.fld 0x18 8 / 65536, ∀ p, c.mapped (e.fld 0x10 8 + i * 65536) = some p → Tab.get [] s.m.owned p.frame = []) → Completes (.unmap ctx q) s fun t =>
          (∀ i < e.fld 0x18 8 / 65536, (t.m.cx ctx.val).mapped (e.fld 0x10 8 + i * 65536) = none) ∧ EntryPosted e { st := .ok } s t
            ∧ (t.m.cx ctx.val).allocs = c.allocs ∧ OnlyCtx ctx.val s t))
  ∧ (∀ (s : State) (ctx : Fin 4096) (q : Fin 16) (e : Ent) (b : List Byte) (m1 m2 : Mach) (o : List Nat) (d : Desc) (u : Bool) (i : Nat),
    let h := e.fld 0x10 4
    let n := prodNat ((List.range (fld b 0x0C 1)).map fun j => fld b (0x10 + 2 * j) 2)
    (s.Head ctx.val q.val 0x14 e → (s.m.consume e).fetchVa ctx.val (e.fld 0x10 8) 256 = (some (b, false), m1) → fld b 6 1 ≠ 1 →
        m1.checkLocal ctx.val b = .ok (d, u) → (m1.cx ctx.val).descCount < 65536 → sumNat (m1.ctxs.map fun x => x.2.descCount) < 1048576 →
        (m1.cx ctx.val).freeDesc ctx.val = some i → m1.fwHeld = false → Completes (.descCreate ctx q) s fun t =>
          Tab.get none (t.m.cx ctx.val).descs (i % 2 ^ 20) = some d ∧ EntryPosted e { st := .ok, result := ctx.val * 2 ^ 20 + i % 2 ^ 20, unproven := u } s t
            ∧ (∀ j, j ≠ i % 2 ^ 20 → Tab.get none (t.m.cx ctx.val).descs j = Tab.get none (s.m.cx ctx.val).descs j) ∧ t.m.mem = s.m.mem ∧ CoreOnly s t)
    ∧ (s.Head ctx.val q.val 0x14 e → (s.m.consume e).fetchVa ctx.val (e.fld 0x10 8) 256 = (some (b, false), m1) → fld b 6 1 = 1 → gridRanges b = true →
        n ≤ 65536 → m1.ownerTable ctx.val (fld b 0x18 8) n = (some (some o), m2) → m2.checkGrid ctx.val b o = .ok (d, u) →
        (m2.cx ctx.val).descCount < 65536 → sumNat (m2.ctxs.map fun x => x.2.descCount) < 1048576 →
        (m2.cx ctx.val).freeDesc ctx.val = some i → m2.fwHeld = false → Completes (.descCreate ctx q) s fun t =>
          Tab.get none (t.m.cx ctx.val).descs (i % 2 ^ 20) = some d ∧ EntryPosted e { st := .ok, result := ctx.val * 2 ^ 20 + i % 2 ^ 20, unproven := u } s t
            ∧ t.m.mem = s.m.mem ∧ CoreOnly s t)
    ∧ (s.Head ctx.val q.val 0x15 e → s.m.liveDesc ctx.val h = some d → d.dying = false → (s.m.cx ctx.val).frees = [] →
        (∀ x ∈ s.m.cmds, x.ctx = ctx.val → x.inFlight = false) → Completes (.descDestroy ctx q) s fun t =>
          t.m.liveDesc ctx.val h = none ∧ EntryPosted e { st := .ok } s t ∧ OnlyCtx ctx.val s t))

/-- CTX_CREATE and CTX_ENABLE. -/
def Obligations.ContextsStart : Prop :=
  ∀ (s : State) (a : Admin),
    (s.Latched 1 a → ctxOk a.payload = true → (s.m.cx (fld a.payload 0 2)).st = .absent → (s.m.cx (fld a.payload 0 2)).destroying = none →
        Completes .ctxCreate s fun t =>
          t.m.cx (fld a.payload 0 2) = { newCtx a.payload with suspended := (s.m.cx (fld a.payload 0 2)).suspended } ∧ (∀ j, j ≠ fld a.payload 0 2 → t.m.cx j = s.m.cx j) ∧ Answered a .ok 0 s t
            ∧ t = { s with m := { s.m with ctxs := t.m.ctxs, hyv := t.m.hyv } })
    ∧ (s.Latched 2 a → a.ctxOk 2 = true → (s.m.cx a.ctx).st = .created ∨ (s.m.cx a.ctx).st = .disabled → s.m.overcommits a.ctx = false →
        s.m.grantedAgainst a.ctx = false → Completes .ctxEnable s fun t =>
          t.m.cx a.ctx = { s.m.cx a.ctx with st := .enabled, session := (s.m.cx a.ctx).session + 1, sessionAt := s.m.now, active := true, beNs := s.m.startShare (s.m.cx a.ctx) }
            ∧ (∀ j, j ≠ a.ctx → t.m.cx j = s.m.cx j) ∧ Answered a .ok 0 s t
            ∧ (s.aon.mode = .ready ∨ s.aon.mode = .run → t.aon.mode = .run) ∧ t.m.mem = s.m.mem ∧ t.pwr = s.pwr ∧ t.sec = s.sec ∧ t.pending = s.pending)
    ∧ (s.Latched 2 a → a.ctxOk 2 = true → (s.m.cx a.ctx).st = .enabled → Completes .ctxEnable s fun t => Answered a .ok 0 s t ∧ OnlyHyv s t)
    ∧ (s.Latched 2 a → a.ctxOk 2 = true → (s.m.cx a.ctx).st = .draining → (s.m.cx a.ctx).enable = none → s.m.hyv.pendFull = false →
        Completes .ctxEnable s fun t => t.m.cx a.ctx = { s.m.cx a.ctx with enable := some a.tag } ∧ Answered a .pending 0 s t)
    ∧ (s.Latched 2 a → a.ctxOk 2 = true → (s.m.cx a.ctx).st = .created → s.m.overcommits a.ctx = true →
        Completes .ctxEnable s fun t => t.m.ctxs = s.m.ctxs ∧ Answered a .lcOvercommit 0 s t)

/-- CTX_DISABLE in both modes, the drain, CTX_DESTROY and its completion. -/
def Obligations.ContextsEnd : Prop :=
  ∀ (s : State) (a : Admin) (ctx : Fin 4096) (tag : Word),
    (s.Latched 3 a → a.ctxOk 3 = true → fld a.args 2 1 = 0 → (s.m.cx a.ctx).st = .enabled ∨ (s.m.cx a.ctx).st = .draining → s.m.hyv.pendFull = false →
        Completes .ctxDisableFinish s fun t =>
          t.m.cx a.ctx = { s.m.cx a.ctx with st := .draining, disables := (s.m.cx a.ctx).disables ++ [a.tag] } ∧ t.m.cmds = s.m.cmds
            ∧ (∀ j, j ≠ a.ctx → t.m.cx j = s.m.cx j) ∧ Answered a .pending 0 s t ∧ t = { s with m := { s.m with ctxs := t.m.ctxs, hyv := t.m.hyv } })
    ∧ (s.Latched 3 a → a.ctxOk 3 = true → fld a.args 2 1 = 1 → (s.m.cx a.ctx).st = .enabled ∨ (s.m.cx a.ctx).st = .draining → s.m.hyv.pendFull = false →
        Completes .ctxDisableKill s fun t =>
          (t.m.cx a.ctx).st = .draining ∧ (t.m.cx a.ctx).disables = (s.m.cx a.ctx).disables ++ [a.tag]
            ∧ (∀ y ∈ t.m.cmds, y.ctx = a.ctx → y.again = false) ∧ Answered a .pending 0 s t ∧ t.m.mem = s.m.mem)
    ∧ (s.dispatching = true → (s.m.cx ctx.val).st = .draining → (s.m.cmds.any fun x => x.ctx == ctx.val && x.dispatched) = false →
        (s.m.cx ctx.val).enable = none → Completes (.drainComplete ctx) s fun t =>
          (t.m.cx ctx.val).st = .disabled ∧ (t.m.cx ctx.val).disables = [] ∧ (∀ g ∈ t.m.ctr.grants, g.ctx ≠ ctx.val)
            ∧ (∀ k < 32, ∀ i, ((t.m.cl k).slot i).ctx ≠ some ctx.val) ∧ (s.m.ctr.grants = [] →
                t.m.hyv.outstanding = s.m.hyv.outstanding - (s.m.cx ctx.val).disables.length) ∧ t.m.cmds = s.m.cmds)
    ∧ (s.Latched 4 a → a.ctxOk 2 = true → (s.m.cx a.ctx).st = .created ∨ (s.m.cx a.ctx).st = .disabled → s.m.hyv.pendFull = false →
        Completes .ctxDestroy s fun t =>
          t.m.cx a.ctx = { s.m.cx a.ctx with st := .absent, destroying := some a.tag } ∧ (∀ j, j ≠ a.ctx → t.m.cx j = s.m.cx j) ∧ Answered a .pending 0 s t
            ∧ t = { s with m := { s.m with ctxs := t.m.ctxs, hyv := t.m.hyv } })
    ∧ (s.dispatching = true → (s.m.cx ctx.val).destroying = some tag → s.m.heldLines (s.m.framesOf ctx.val) [] = [] → Completes (.ctxDestroyComplete ctx) s fun t =>
          t.m.cx ctx.val = { session := (s.m.cx ctx.val).session, suspended := (s.m.cx ctx.val).suspended } ∧ (∀ j, j ≠ ctx.val → t.m.cx j = s.m.cx j) ∧ (∀ y ∈ t.m.cmds, y.ctx ≠ ctx.val)
            ∧ (∀ e ∈ t.m.deps, ∀ d, e.2 = some d → d.ctx ≠ ctx.val)
            ∧ Tab.get none t.m.hyv.pqMem (s.m.hyv.pqTail % pendSlots) = some ⟨tag, 0, s.m.now, .ok, 4⟩ ∧ t.m.hyv.pqTail = (s.m.hyv.pqTail + 1) % 64
            ∧ t.m.mem = s.m.mem ∧ CoreOnly s t)

/-- GRANT_COUNTERS gives, completes and revokes grants (R668, R670). -/
def Obligations.Grants : Prop :=
  ∀ (s : State) (a : Admin) (ctx : Fin 4096) (g : Grant),
    let x := fld a.args 0 2
    (s.Latched 0x10 a → fld a.args 2 1 = 0 → grantOk a.args = true → (s.m.cx x).st ≠ .absent →
        s.m.ctr.grants.any (fun g => g.ctx != x && ((g.clusters &&& fld a.args 4 4) != 0 || (g.memStacks &&& fld a.args 8 2) != 0)) = false →
        s.m.lcConflict x (fld a.args 4 4) (fld a.args 8 2) = false → s.m.hyv.pendFull = false → Completes .grantCounters s fun t =>
          t.m.ctr = { s.m.ctr with grants := s.m.ctr.grants ++ [⟨x, fld a.args 4 4, fld a.args 8 2, fld a.args 0x10 8, fld a.args 0x18 4, false, a.tag⟩] }
            ∧ Answered a .pending 0 s t ∧ t = { s with m := { s.m with ctr := t.m.ctr, hyv := t.m.hyv } })
    ∧ (s.Latched 0x10 a → fld a.args 2 1 = 1 → grantOk a.args = true → (s.m.cx x).st ≠ .absent → s.m.ctr.grants.any (fun g => g.ctx == x) = true →
        Completes .grantRevoke s fun t =>
          t.m.ctr = { s.m.ctr with grants := s.m.ctr.grants.filter fun g => !(g.ctx == x) } ∧ t.m.hyv.latched = none ∧ t.m.hyv.status = .ok
            ∧ t = { s with m := { s.m with ctr := t.m.ctr, hyv := t.m.hyv } })
    ∧ (s.dispatching = true → s.m.ctr.grants.find? (fun g => g.ctx == ctx.val && !g.complete) = some g →
        (∀ c ∈ setBits 32 g.clusters, ∀ i ∈ s.m.othersOn g c, s.m.slotIdle c i = true) →
        s.m.cmds.any (fun x => (x.kind == .spar || x.kind == .serve) && x.inFlight && x.ctx != g.ctx
          && ((x.img.stackMask &&& g.memStacks) != 0 || x.spars.any fun r => (r.img.stackMask &&& g.memStacks) != 0)) = false →
        Completes (.grantComplete ctx) s fun t =>
          t.m.ctr.grants = s.m.ctr.grants.map (fun y => if y = g then { y with complete := true } else y)
            ∧ (∀ c ∈ setBits 32 g.clusters, ∀ i < 8, ((t.m.cl c).slot i).ctx = some g.ctx ∨ ((t.m.cl c).slot i).incoming = some g.ctx ∨ (t.m.cl c).slot i = {})
            ∧ Tab.get none t.m.hyv.pqMem (s.m.hyv.pqTail % pendSlots) = some ⟨g.tag, 0, s.m.now, .ok, 0x10⟩
            ∧ t = { s with m := { s.m with ctr := t.m.ctr, hyv := t.m.hyv, clusters := t.m.clusters } })

/-- DEPLOY opens a deployment under a free identifier, HYV_SERVE_CTL restarts its queue, and ADMIT, CANCEL, PAUSE, RESUME and UNDEPLOY are held
until its next boundary; a RESUME of a request that is not `paused` completes with REQ_STATE (R481). -/
def Obligations.DeploymentsTakeEntries : Prop :=
  (∀ (s : State) (ctx : Fin 4096) (q : Fin 16) (e : Ent) (d : Deployment) (m1 m2 : Mach) (id : Nat) (dep : BitVec 16),
    (s.Head ctx.val q.val 0x20 e → (s.m.consume e).readDeploy ctx.val (e.fld 0x10 8) = (.ok d, m1) →
        m1.pick ((List.range 16384).filter fun i => (m1.dep i).isNone) = (some id, m2) → (m2.openDep id d).fwHeld = false → Completes (.deploy ctx q) s fun t =>
          (∃ n, t.m.dep id = some n ∧ n.ctx = d.ctx ∧ n.table = d.table ∧ n.maxReq = d.maxReq ∧ n.reqs = d.reqs ∧ n.boundaryAt = s.m.now)
            ∧ (∀ j, j ≠ id → t.m.dep j = s.m.dep j) ∧ s.m.dep id = none ∧ id < 16384 ∧ EntryPosted e { st := .ok, result := id } s t ∧ CoreOnly s t)
    ∧ (s.servedFullWrite = true → s.m.depOf ctx.val dep.toNat = some d → Completes (.hyvServeCtlRestart ctx dep) s fun t =>
          t.m.dep dep.toNat = some { d with stopped := none } ∧ (∀ j, j ≠ dep.toNat → t.m.dep j = s.m.dep j) ∧ t = { s with m := { s.m with deps := t.m.deps } }))
  ∧ (∀ (s : State) (ctx : Fin 4096) (q : Fin 16) (e : Ent) (d : Deployment) (m1 : Mach) (b : List Byte) (slot : Nat) (r : SReq),
    let held := fun (id : Nat) (n : Deployment) (t : State) => t.m.dep id = some n ∧ (∀ j, j ≠ id → t.m.dep j = s.m.dep j) ∧ EntryTaken e s t ∧ t.m.mem = s.m.mem
    let only := fun (t : State) => t = { s with m := { s.m with ctxs := t.m.ctxs, deps := t.m.deps } }
    (s.Head ctx.val q.val 0x21 e → (s.m.consume e).takeRecord ctx.val (e.fld 0x10 8) 64 = (.ok b, m1) → s.m.depOf ctx.val (fld b 0 2) = some d → d.closing = none →
        admitOk d b = true → d.live.length + d.admits.length < d.maxReq → m1.fwHeld = false → Completes (.admitEntry ctx q) s fun t =>
          held (fld b 0 2) { d with admits := d.admits ++ [(q.val, e.tag, e.flags, parseAdmit d b s.m.now)] } t ∧ CoreOnly s t)
    ∧ (s.Head ctx.val q.val 0x22 e → s.m.depOf ctx.val (e.fld 0x10 2) = some d → Completes (.cancel ctx q) s fun t =>
          held (e.fld 0x10 2) { d with cancels := d.cancels ++ [(q.val, e.tag, e.flags, e.fld 0x14 4)] } t ∧ only t)
    ∧ (s.Head ctx.val q.val 0x23 e → 0 < e.fld 0x18 4 → e.fld 0x18 4 ≤ 86400000 → s.m.depOf ctx.val (e.fld 0x10 2) = some d → Completes (.pause ctx q) s fun t =>
          held (e.fld 0x10 2) { d with pauses := d.pauses ++ [(q.val, e.tag, e.flags, e.fld 0x14 4, e.fld 0x18 4)] } t ∧ only t)
    ∧ (s.Head ctx.val q.val 0x24 e → s.m.depOf ctx.val (e.fld 0x10 2) = some d → d.slotOf (e.fld 0x14 4) = some (slot, r) → r.st = .paused →
        d.resumes.any (fun x => x.2.2.2 == r.id) = false → s.m.now < r.ttlEnd → Completes (.resume ctx q) s fun t =>
          held (e.fld 0x10 2) { d with resumes := d.resumes ++ [(q.val, e.tag, e.flags, r.id)] } t ∧ only t)
    ∧ (s.Head ctx.val q.val 0x24 e → s.m.depOf ctx.val (e.fld 0x10 2) = some d → d.slotOf (e.fld 0x14 4) = some (slot, r) → r.st ≠ .paused →
        Completes (.resume ctx q) s fun t => EntryPosted e { st := .reqState } s t ∧ t = { s with m := { s.m with ctxs := t.m.ctxs } })
    ∧ (s.Head ctx.val q.val 0x25 e → e.fld 0x12 1 = 0 → s.m.depOf ctx.val (e.fld 0x10 2) = some d → d.closing = none → Completes (.undeployFinish ctx q) s fun t =>
          held (e.fld 0x10 2) { d with closing := some (q.val, e.tag, e.flags), cancelAll := false } t ∧ only t)
    ∧ (s.Head ctx.val q.val 0x25 e → e.fld 0x12 1 = 1 → s.m.depOf ctx.val (e.fld 0x10 2) = some d → d.closing = none → Completes (.undeployCancel ctx q) s fun t =>
          held (e.fld 0x10 2) { d with closing := some (q.val, e.tag, e.flags), cancelAll := true } t ∧ only t))

/-- The boundary of a deployment that holds nothing, a wait to fill that ends, the end of a step's work, and the posting of its records. -/
def Obligations.ServeSteps : Prop :=
  (∀ (s : State) (dep : BitVec 16) (d : Deployment) (cq : Nat) (tag : Word) (flags : Nat),
    (s.dispatching = true → s.m.dep dep.toNat = some d → (s.m.cx d.ctx).st = .enabled → d.stepCmd = none → d.postsDue = false → d.filling = false → d.reqs = [] →
        d.admits = [] → d.cancels = [] → d.pauses = [] → d.resumes = [] → d.batch = [] → d.prefixFrames = [] → d.treeVa = 0 → d.tree = [] → d.exhausted = false →
        (s.m.cx d.ctx).frees = [] →
        (d.closing = none → Completes (.stepBoundary dep) s fun t =>
          t.m.dep dep.toNat = some { d with boundaryAt := s.m.now, tried := false, tokens := [], grown := [] } ∧ t.m.mem = s.m.mem ∧ t.m.cmds = s.m.cmds ∧ CoreOnly s t)
        ∧ (d.closing = some (cq, tag, flags) → Completes (.stepBoundary dep) s fun t =>
          t.m.dep dep.toNat = none ∧ t.m.mem = s.m.mem ∧ t.m.cmds = s.m.cmds ∧ CoreOnly s t
            ∧ ((t.m.cx d.ctx).q cq).unposted = ((s.m.cx d.ctx).q cq).unposted - 1))
    ∧ (s.dispatching = true → s.m.dep dep.toNat = some d → (s.m.cx d.ctx).st = .enabled → d.filling = true → (s.m.fillEnd dep.toNat).fwHeld = false → Completes (.fillWaitEnd dep) s fun t =>
          (∃ n, t.m.dep dep.toNat = some n ∧ n.filling = false ∧ n.ctx = d.ctx ∧ n.maxReq = d.maxReq) ∧ CoreOnly s t))
  ∧ (∀ (s : State) (dep : BitVec 16) (logits : List (List (BitVec 32))) (drafts : List (List (Nat × BitVec 32 × List (BitVec 32)))) (d : Deployment) (x : Cmd)
      (m1 : Mach) (p : Nat) (slot : Nat) (r : SReq),
    let recs := d.tokens.filterMap fun t => (d.req t.1).map fun r => tokenBytes r.id t.2.1 t.2.2.1 t.2.2.2.1 t.2.2.2.2 (recordFlags d s.m.now r t.2) s.m.now r.tag
    let l := (s.m.sampleStep d logits drafts).1
    let grown := (l.filter fun e => (d.req e.1).any fun r => decide (r.promptLen ≤ r.prefilled)).map fun e => (e.1, e.2.length)
    (s.dispatching = true → s.m.dep dep.toNat = some d → d.stepCmd.bind s.m.cmdOf = some x → x.phase = .running → d.stageOn = true → x.stageDone = true →
        d.nextStage (some d.stage) = none → Completes (.serveStageDone dep logits drafts) s fun t =>
          t.m.dep dep.toNat = some { d with tokens := l.flatMap (fun e => d.recordsOf e.1 e.2), grown := grown }
            ∧ t.m.cmds = s.m.cmds.map (fun y => if sameCmd y x then { y with phase := .ended, placed := [] } else y)
            ∧ t = { s with m := { s.m with deps := t.m.deps, cmds := t.m.cmds, drawn := t.m.drawn } })
    ∧ (s.dispatching = true → s.m.dep dep.toNat = some d → d.postsDue = true → s.m.tokenRoom d d.tokens.length = (some p, m1) →
        (s.m.postTokens dep.toNat).fwHeld = false → Completes (.tokenRecordPost dep) s fun t =>
          (∃ n, t.m.dep dep.toNat = some n ∧ n.postsDue = false ∧ n.step = d.step + 1 ∧ n.boundaryAt = s.m.now
              ∧ (d.req slot = some r → ∃ k, n.req slot = some k ∧ k.generated = r.generated + (d.tokens.filter fun t => t.1 == slot).length
                  ∧ (d.tokens.any (fun t => t.1 == slot) = true → k.lastPost = s.m.now)))
            ∧ t.m.mem = (m1.ringWrite d.ctx d.ringVa d.ringLen p recs).mem ∧ CoreOnly s t))

/-- Pages to the host tier and back. -/
def Obligations.HostTierPages : Prop :=
  ∀ (s : State) (dep : BitVec 16) (slot page f : Nat) (d : Deployment) (r : SReq) (m1 : Mach),
    (s.dispatching = true → s.m.dep dep.toNat = some d → s.m.req dep.toNat slot = some r → r.toHost.find? (fun e => e.1 == page) = some (page, f) →
        (Tab.get (0, 0) r.kv page).1 = 3 → s.m.frame f = .transit → s.m.lostRefs.contains f = false → Completes (.hostTierCopyDone dep slot page) s fun t =>
          (∃ k, t.m.req dep.toNat slot = some k ∧ k.toHost = r.toHost.filter (fun e => !(e.1 == page)) ∧ k.st = r.st ∧ k.kv = r.kv)
            ∧ t.m.frame f = .blank ∧ t.m.mem = s.m.mem
            ∧ t.m.comp = ((s.m.readBytes (firmwareAcc d.ctx) (frameDpa f) 65536).2.writeComp (d.tierBase + (Tab.get (0, 0) r.kv page).2 * 65536)
                (s.m.readBytes (firmwareAcc d.ctx) (frameDpa f) 65536).1.1).comp ∧ CoreOnly s t)
    ∧ (s.dispatching = true → s.m.dep dep.toNat = some d → s.m.req dep.toNat slot = some r → r.fromHost.contains page = true → r.toHost = [] →
        (Tab.get (0, 0) (r.kvNext.getD r.kv) page).1 = 3 → s.m.takeAny (.kv d.ctx) = some (f, m1) → Completes (.resumePageReturn dep slot page) s fun t =>
          (∃ k, t.m.req dep.toNat slot = some k ∧ k.kvNext = some (Tab.put (0, 0) (r.kvNext.getD r.kv) page (1, f)) ∧ k.fromHost = r.fromHost.erase page ∧ k.kv = r.kv)
            ∧ t.m.frame f = .kv d.ctx ∧ (∃ n, t.m.dep dep.toNat = some n ∧ Tab.get none n.tierUsed (Tab.get (0, 0) (r.kvNext.getD r.kv) page).2 = none)
            ∧ t.m.mem = (m1.writeBytes (frameDpa f) (s.m.readComp (d.tierBase + (Tab.get (0, 0) (r.kvNext.getD r.kv) page).2 * 65536) 65536) false).mem ∧ CoreOnly s t)

/-- A custom collective registers and has ended at once; a hardware kind gets an engine; an abort marks the collective (R557). -/
def Obligations.CollectiveEntries : Prop :=
  ∀ (s : State) (ctx : Fin 4096) (q : Fin 16) (e : Ent) (x : Cmd) (b : List Byte) (m1 m2 : Mach) (ds : List Draft),
    let s1 := entryRow s ctx.val q.val (·.op == 0x30) fun e m => m.queueEntry e .coll
    let y := collCmd x b
    let mB := m1.modCmd x fun z => z.examined { y with coll := z.coll }
    let mC := mB.modCmd y fun z => { z with costTried := true }
    (s1.dispatching = true → s1.m.firstQueued ctx.val q.val .coll = some x → s1.m.mayDispatch x = true → s1.m.holder x (s1.m.collReads x) = none →
        s1.m.checkColl x = (.ok b, m1) →
        mB.holder y [] = none → fld b 6 1 = 0 → 0 < m1.nextSeq → m1.fwHeld = false →
        Completes (.collective ctx q) s fun t =>
          t.m.nextSeq = m1.nextSeq + 1 ∧ (∃ z ∈ t.m.cmds, sameCmd z x = true ∧ z.phase = .ended)
            ∧ (fld b 8 2, b ++ leBytes 1 q.val, false) ∈ (t.m.cx ctx.val).colls ∧ t.m.mem = s.m.mem ∧ CoreOnly s t)
    ∧ (s1.dispatching = true → s1.m.firstQueued ctx.val q.val .coll = some x → s1.m.mayDispatch x = true → s1.m.holder x (s1.m.collReads x) = none →
        s1.m.checkColl x = (.ok b, m1) →
        mB.holder y [] = none → 1 ≤ fld b 6 1 → y.cls ≠ 0 → Mach.goesAfter s1.level mC y = false →
        mC.draftsFor y mC.nextSeq (((mC.wantsOf ctx.val y.dstH 2 false).foldl (fun l w => addWant l w.1 w.2) []).map (·.1)) = .ok (ds, m2) →
        m2.fwHeld = false → (∀ z ∈ m2.cmds, sameCmd z x = false → z.again = false) → Completes (.collective ctx q) s fun t =>
          t.m.nextSeq = m2.nextSeq + 1 ∧ (fld b 8 2, b ++ leBytes 1 q.val, false) ∈ (t.m.cx ctx.val).colls
            ∧ (∃ g ∈ t.m.engines, g.cmd = m2.nextSeq ∧ g.kind = fld b 6 1 ∧ g.n = fld b 0x0A 2 ∧ g.rank = fld b 0x0C 2 ∧ g.src = y.srcH ∧ g.dst = y.dstH) ∧ CoreOnly s t)
    ∧ (s.Head ctx.val q.val 0x31 e → e.fld 0x10 2 ≠ 0 → Completes (.abortCollective ctx q) s fun t =>
        (∀ r ∈ (t.m.cx ctx.val).colls, r.1 = e.fld 0x10 2 → r.2.2 = true) ∧ CoreOnly s t
          ∧ (s.m.boundAll ctx.val (e.fld 0x10 2) = [] → EntryPosted e { st := .ok } s t ∧ t.m.cmds = s.m.cmds))

/-- A part of a hardware collective is sent to the next participant; a budget that expires fails the command or is reported once. -/
def Obligations.CollectiveEngines : Prop :=
  ∀ (s : State) (seq : Nat) (x : Cmd) (g : Engine) (d : Desc) (h : Nat) (m1 m2 m3 : Mach) (vas : List Nat) (ws : List (Nat × Nat)) (op : Nat) (els : List Nat) (need : Nat) (node : Nat × Nat),
    (s.m.cmdOf seq = some x → s.m.engineOf seq = some g → s.m.liveDesc x.ctx x.dstH = some d → x.phase = .running → g.started = true →
        s.m.pick (s.m.readyHalves x g d) = (some h, m1) → g.part (g.half h) (g.place h) = some (op, els, need) → m1.partVas x d els = (vas, m2) →
        m2.partWords x g op vas = (.ok ws, m3) → x.peers[(g.half h).next]? = some node → Completes (.collectivePartSend seq) s fun t =>
          t.m.shr.tx = s.m.shr.tx ++ (flitRuns ws).map (fun r => m3.flit node.1 op 1 node.2 (r.1 * 8) x.coll x.ctx (if op = 2 then g.accOp * 16 + g.fmt else 0) r.2)
            ∧ (∃ k ∈ t.m.engines, k.cmd = seq ∧ k.at_ = (List.range g.dirs).map fun i => if i = h then ((g.place h).1, (g.place h).2 + 1) else g.at_.getD i (0, 0))
            ∧ t.m.mem = s.m.mem ∧ CoreOnly s t)
    ∧ (s.m.cmdOf seq = some x → x.peers ≠ [] → x.phase = .running ∨ x.phase = .ended → x.dispatchAt + x.collUs * 1000 ≤ s.m.now →
        ¬(x.endSent = true ∧ x.collDone = true) →
        (x.peers.all (fun p => s.m.reachable p.1) = true → x.collSeen = false → Completes (.collectiveBudgetExpire seq) s fun t =>
          t.m.cmds = s.m.cmds.map (fun y => if sameCmd y x then { y with collSeen := true } else y) ∧ t.m = { s.m with cmds := t.m.cmds, evr := t.m.evr } ∧ CoreOnly s t)
        ∧ (x.peers.all (fun p => s.m.reachable p.1) = false → x.q < 16 → Completes (.collectiveBudgetExpire seq) s fun t =>
          (∃ z ∈ t.m.cmds, sameCmd z x = true ∧ z.phase = .killing ∧ (∃ w, z.cause = some (.fail .collectiveFailed w)))
            ∧ ((t.m.cx x.ctx).q x.q).stopped ≠ none ∧ t.m.mem = s.m.mem ∧ CoreOnly s t))

/-- INLAY_ARM copies a line to a free spare line, at a free choice, and remaps it; INLAY_DISARM copies the spare line back and frees the entry; a
request for a line in use waits with PENDING and is carried out later, and its outcome posted; what R649 refuses is answered so (R648, R649). -/
def Obligations.InlayArming : Prop :=
  ∀ (s : State) (a b : Admin) (st : Status) (e : Inlay) (l i : Nat),
    let x := inlayArgs a.args
    let y := inlayArgs b.args
    let r := s.m.inlayNow b.args
    let armed := fun (x : InlayArgs) (i : Nat) (t : State) =>
      (x.spad = true → Tab.get none (t.m.inlayCore x).inlay x.entry = some (x.spadLine, i)
          ∧ ∀ j < 8, ((t.m.inlayCore x).spad.decode (spadBytes / 8 + 8 * i + j)).word = ((s.m.inlayCore x).spad.decode (8 * x.spadLine + j)).word)
        ∧ (x.spad = false → Tab.get none (t.m.st x.stack).inlay x.entry = some ⟨x.die, x.bank, x.row, x.line, i⟩
          ∧ ∀ j < 8, (t.m.mem.decode (spareKey x.stack x.die x.bank i 0 / 8 + j)).word = (s.m.mem.decode (x.cell / 8 + j)).word)
    let disarmed := fun (x : InlayArgs) (i : Nat) (t : State) =>
      (x.spad = true → Tab.get none (t.m.inlayCore x).inlay x.entry = none
          ∧ ∀ l, Tab.get none (s.m.inlayCore x).inlay x.entry = some (l, i) → l < 32768 → i < 4 →
              ∀ j < 8, ((t.m.inlayCore x).spad.decode (8 * l + j)).word = ((s.m.inlayCore x).spad.decode (spadBytes / 8 + 8 * i + j)).word)
        ∧ (x.spad = false → Tab.get none (t.m.st x.stack).inlay x.entry = none
          ∧ ∀ e, Tab.get none (s.m.st x.stack).inlay x.entry = some e → e.die < 16 → e.bank < 64 → e.row < 65536 → e.line < 16 → e.spare < 16 → i = e.spare
              ∧ ∀ j < 8, (t.m.mem.decode (cellAt x.stack e.die e.bank e.row (64 * e.line) / 8 + j)).word
                = (s.m.mem.decode (spareKey x.stack e.die e.bank e.spare 0 / 8 + j)).word)
    let holds := fun (x : InlayArgs) (i : Nat) =>
      (x.spad = true ∧ Tab.get none (s.m.inlayCore x).inlay x.entry = some (l, i)) ∨ (x.spad = false ∧ Tab.get none (s.m.st x.stack).inlay x.entry = some e ∧ i = e.spare)
    (s.Latched 0x11 a → isDisarm a.args = false → inlayOk a.args = true → s.m.armRefusal x = none → s.m.armWaits x = false →
        ∃ t, exec .inlayArm s = .next t ∧ ∃ i ∈ s.m.inlaySpares x, armed x i t ∧ Answered a .ok (BitVec.ofNat 64 i) s t ∧ t.m.cmds = s.m.cmds ∧ CoreOnly s t)
    ∧ (s.Latched 0x11 a → isDisarm a.args = false → inlayOk a.args = true → s.m.armRefusal x = none → s.m.armWaits x = true → s.m.hyv.pendFull = false →
        ∃ t, exec .inlayArm s = .next t ∧ t.m.inlayWait = s.m.inlayWait ++ [a] ∧ Answered a .pending 0 s t
          ∧ t = { s with m := { s.m with inlayWait := t.m.inlayWait, hyv := t.m.hyv } })
    ∧ (s.Latched 0x11 a → isDisarm a.args = false → inlayOk a.args = true → s.m.armRefusal x = some st →
        ∃ t, exec .inlayArm s = .next t ∧ Answered a st 0 s t ∧ OnlyHyv s t)
    ∧ (s.Latched 0x11 a → isDisarm a.args = true → inlayOk a.args = true → s.m.disarmRefusal x = none → s.m.disarmWaits x = false → holds x i →
        ∃ t, exec .inlayDisarm s = .next t ∧ disarmed x i t ∧ Answered a .ok (BitVec.ofNat 64 i) s t ∧ t.m.cmds = s.m.cmds ∧ CoreOnly s t)
    ∧ (s.Latched 0x11 a → isDisarm a.args = true → inlayOk a.args = true → s.m.disarmRefusal x = none → s.m.disarmWaits x = true → s.m.hyv.pendFull = false →
        ∃ t, exec .inlayDisarm s = .next t ∧ t.m.inlayWait = s.m.inlayWait ++ [a] ∧ Answered a .pending 0 s t
          ∧ t = { s with m := { s.m with inlayWait := t.m.inlayWait, hyv := t.m.hyv } })
    ∧ (s.Latched 0x11 a → isDisarm a.args = true → inlayOk a.args = true → s.m.disarmRefusal x = some st →
        ∃ t, exec .inlayDisarm s = .next t ∧ Answered a st 0 s t ∧ OnlyHyv s t)
    ∧ (s.dispatching = true → s.m.inlayWait.find? (fun a => !s.m.inlayWaits a.args) = some b → inlayOk b.args = true →
        ∃ t, exec .inlayArmComplete s = .next t ∧ t.m.inlayWait = s.m.inlayWait.erase b ∧ CoreOnly s t
          ∧ Tab.get none t.m.hyv.pqMem (s.m.hyv.pqTail % pendSlots) = some ⟨b.tag, BitVec.ofNat 64 r.2.1, s.m.now, r.1, 0x11⟩
          ∧ (isDisarm b.args = false → s.m.armRefusal y = none → r.1 = .ok ∧ r.2.1 ∈ s.m.inlaySpares y ∧ armed y r.2.1 t)
          ∧ (isDisarm b.args = false → s.m.armRefusal y = some st → r.1 = st ∧ t.m.mem = s.m.mem)
          ∧ (isDisarm b.args = true → s.m.disarmRefusal y = none → holds y i → r.1 = .ok ∧ r.2.1 = i ∧ disarmed y i t))

/-- STAY_OPEN, its timeout, STAY_CLOSE, the drain and the end of a stay (R528, R560). -/
def Obligations.Stays : Prop :=
  ∀ (s : State) (a : Admin) (pos : Fin 8) (tag : Word) (op p : Nat),
    let i := fld a.args 0 1
    let k := pos.val
    (s.Latched 0x20 a → i < 8 → 1 ≤ fld a.args 1 1 → fld a.args 1 1 ≤ 3 → zeros a.args 2 46 = true → s.m.shr.node ≠ 0xFFFF → s.m.stay i = 0 →
        Tab.get none s.m.shr.stayTags i = none → s.m.hyv.pendFull = false → Completes .stayOpen s fun t =>
          t.m.stay i = 1 ∧ Tab.get none t.m.shr.stayTags i = some (a.tag, 0x20) ∧ t.m.openPorts i = [2 * i, 2 * i + 1] ∧ Answered a .pending 0 s t
            ∧ ∀ q ∈ [2 * i, 2 * i + 1], (t.m.port q).st = .training ∨ ((t.m.port q).st = .down ∧ (t.m.port q).trainDue = true))
    ∧ (s.Latched 0x20 a → i < 8 → 1 ≤ fld a.args 1 1 → fld a.args 1 1 ≤ 3 → zeros a.args 2 46 = true → s.m.shr.node ≠ 0xFFFF → s.m.stay i = 2 →
        Tab.get none s.m.shr.stayTags i = none → s.m.hyv.pendFull = false → Completes .stayOpen s fun t =>
          t.m.stay i = 2 ∧ t.m.openPorts i = (setBits 2 (fld a.args 1 1)).map (2 * i + ·) ∧ Answered a .pending 0 s t
            ∧ ∀ q ∈ (setBits 2 (fld a.args 1 1)).map (2 * i + ·), (t.m.port q).st = .training ∨ ((t.m.port q).st = .down ∧ (t.m.port q).trainDue = true))
    ∧ (s.m.opening k = true → Tab.get none s.m.shr.stayTags k = some (tag, 0x20) → Tab.get 0 s.m.shr.openedAt k + 45000000 ≤ s.m.now →
        (s.m.openPorts k).find? (fun p => (s.m.port p).st != .up) = some p → Completes (.stayOpenTimeout pos) s fun t =>
          t.m.stay k = 0 ∧ Tab.get none t.m.shr.stayTags k = none ∧ (t.m.port (2 * k)).st = .dark ∧ (t.m.port (2 * k + 1)).st = .dark
            ∧ Tab.get none t.m.hyv.pqMem (s.m.hyv.pqTail % pendSlots) = some ⟨tag, BitVec.ofNat 64 p, s.m.now, .trainFailed, 0x20⟩ ∧ CoreOnly s t)
    ∧ (s.Latched 0x21 a → i < 8 → zeros a.args 1 47 = true → s.m.stay i = 2 → Tab.get none s.m.shr.stayTags i = none → s.m.hyv.pendFull = false →
        Completes .stayClose s fun t =>
          t.m.stay i = 3 ∧ Tab.get none t.m.shr.stayTags i = some (a.tag, 0x21) ∧ Answered a .pending 0 s t
            ∧ ∀ q ∈ [2 * i, 2 * i + 1], (t.m.port q).st = if (s.m.port q).st = .up then .closing else .down)
    ∧ (s.Latched 0x21 a → i < 8 → zeros a.args 1 47 = true → s.m.stay i = 0 → Tab.get none s.m.shr.stayTags i = none →
        Completes .stayClose s fun t => Answered a .ok 0 s t ∧ OnlyHyv s t)
    ∧ (s.m.stay k = 3 → Tab.get 0 s.m.shr.openMask k = 0 → (s.m.port (2 * k)).retry = [] → (s.m.port (2 * k + 1)).retry = [] → Completes (.stayCloseDrainEnd pos) s fun t =>
          t.m.stay k = 3 ∧ Tab.get 0 t.m.shr.openMask k = 1 ∧ (t.m.port (2 * k)).live = false ∧ (t.m.port (2 * k + 1)).live = false ∧ CoreOnly s t)
    ∧ (s.m.stay k = 3 → Tab.get 0 s.m.shr.openMask k = 1 → Tab.get none s.m.shr.stayTags k = some (tag, op) → Completes (.stayClosed pos) s fun t =>
          t.m.stay k = 0 ∧ (∀ q ∈ [2 * k, 2 * k + 1], (t.m.port q).st = .dark ∧ (t.m.port q).reason = 4)
            ∧ Tab.get none t.m.hyv.pqMem (s.m.hyv.pqTail % pendSlots) = some ⟨tag, 0, s.m.now, .ok, op⟩
            ∧ t = { s with m := { s.m with shr := t.m.shr, hyv := t.m.hyv } })

/-- Updates: a stage begins, ends as its checks say, and slots are selected and confirmed (R706 to R711). -/
def Obligations.Updates : Prop :=
  ∀ (s : State) (a : Admin) (kind : Byte) (st : Stage) (package : List Byte) (flashOk : Bool),
    let n := fld a.args 1 1
    let x : Sec := { s.sec with stage := none, stagePct := 100 }
    (s.Latched 0x30 a → fld a.args 0 1 = 0 → s.sec.stage = none → fld a.args 1 1 = 0 → zeros a.args 2 6 = true → zeros a.args 0x18 24 = true → fld a.args 8 8 % 64 = 0 →
        s.m.hyv.pendFull = false → Completes (.updateStage kind) s fun t =>
          t.sec.stage = some ⟨a.tag, BitVec.ofNat 64 (fld a.args 8 8), fld a.args 0x10 8⟩ ∧ t.sec.stageState = 1 ∧ Answered a .pending 0 s t
            ∧ (kind.toNat < 2 → (t.sec.slot (stageTarget s.sec)).complete = false ∧ t.sec.sel.trial = 0 ∧ (s.sec.bootSlot < 2 → t.sec.sel.next = s.sec.bootSlot))
            ∧ (2 ≤ kind.toNat → t.sec.slotA = s.sec.slotA ∧ t.sec.slotB = s.sec.slotB ∧ t.sec.sel = s.sec.sel)
            ∧ t.sec.record = s.sec.record ∧ t.sec.fwMin = s.sec.fwMin ∧ t = { s with sec := t.sec, m := { s.m with hyv := t.m.hyv } })
    ∧ (s.sec.stage = some st → s.sec.running = true → Completes (.updateStageComplete package flashOk) s fun t =>
          t.sec.stage = none ∧ t.sec.record = s.sec.record ∧ t.sec.fwMin = s.sec.fwMin ∧ t.m.hyv.pqTail = (s.m.hyv.pqTail + 1) % 64
            ∧ match openStage x st.size package with
              | .error e => t.sec.stageState = 5 ∧ t.sec.sel = s.sec.sel ∧ Tab.get none t.m.hyv.pqMem (s.m.hyv.pqTail % pendSlots) = some ⟨st.tag, 0, s.m.now, e, 0x30⟩
              | .ok (k, img) =>
                if flashOk = false then
                  t.sec.stageState = 5 ∧ Tab.get none t.m.hyv.pqMem (s.m.hyv.pqTail % pendSlots) = some ⟨st.tag, 0, s.m.now, .updFlash, 0x30⟩
                else t.sec.stageState = 4
                  ∧ (k = 2 → t.sec.staged = img ∧ t.sec.sel = s.sec.sel ∧ t.sec.slotA = s.sec.slotA ∧ t.sec.slotB = s.sec.slotB)
                  ∧ (k ≠ 2 → (t.sec.slot (stageTarget x)).image = img ∧ (t.sec.slot (stageTarget x)).complete = true ∧ t.sec.sel.next = stageTarget x
                      ∧ t.sec.sel.trial = 1 ∧ Tab.get none t.m.hyv.pqMem (s.m.hyv.pqTail % pendSlots) = some ⟨st.tag, BitVec.ofNat 64 (stageTarget x), s.m.now, .ok, 0x30⟩))
    ∧ (s.Latched 0x30 a → fld a.args 0 1 = 1 → s.sec.stage = none → n < 2 → zeros a.args 2 6 = true → zeros a.args 0x18 24 = true → (s.sec.slot n).shown ≠ 0 →
        (s.sec.slot n).shown ≠ 3 → s.sec.fwMin ≤ imgSecurity (s.sec.slot n).image → Completes .updateSelect s fun t =>
          t.sec = { s.sec with sel := { s.sec.sel with next := n, trial := if s.sec.sel.lastGood = some n then 0 else 1 } } ∧ Answered a .ok 0 s t
            ∧ t = { s with sec := t.sec, m := { s.m with hyv := t.m.hyv } })
    ∧ (s.Latched 0x30 a → fld a.args 0 1 = 2 → s.sec.stage = none → n = 0 → zeros a.args 2 6 = true → zeros a.args 0x18 24 = true → s.sec.recovery = false →
        s.sec.booted = true → Completes .updateConfirm s fun t =>
          t.sec.fwMin = max s.sec.fwMin (imgSecurity (s.sec.slot s.sec.bootSlot).image) ∧ t.sec.sel = s.sec.sel ∧ Answered a .ok 0 s t
            ∧ t.m.mem = s.m.mem ∧ t.pwr = s.pwr)

/-- ATTEST queues a quote and its completion writes it; TIME_PROBE captures module time; ACK_HOLD excludes failed units. -/
def Obligations.AttestTimeAndHold : Prop :=
  ∀ (s : State) (a : Admin) (tag addr : Word) (nonce : List Byte) (rest : List (Word × Word × List Byte)) (tA tB : Nat),
    (s.Latched 0x31 a → s.sec.identity ≠ [] → fld a.args 0 8 % 64 = 0 → s.m.hyv.pendFull = false → Completes .attest s fun t =>
        t.sec = { s.sec with quotes := s.sec.quotes ++ [(a.tag, BitVec.ofNat 64 (fld a.args 0 8), slice a.payload 0 32)] } ∧ Answered a .pending 0 s t
          ∧ t = { s with sec := t.sec, m := { s.m with hyv := t.m.hyv } })
    ∧ (s.sec.running = true → s.sec.quotes = (tag, addr, nonce) :: rest → Completes .attestComplete s fun t =>
        t.sec = { s.sec with quotes := rest } ∧ t.m.comp = (s.m.writeComp addr.toNat (quoteOf s nonce)).comp
          ∧ Tab.get none t.m.hyv.pqMem (s.m.hyv.pqTail % pendSlots) = some ⟨tag, 0, s.m.now, .ok, 0x31⟩
          ∧ t = { s with sec := t.sec, m := { s.m with comp := t.m.comp, hyv := t.m.hyv } })
    ∧ (s.Latched 0x40 a → Completes (.timeProbe tA tB) s fun t =>
        t.m.hyv.timeA = BitVec.ofNat 64 tA ∧ t.m.hyv.timeB = BitVec.ofNat 64 tB ∧ Answered a .ok 0 s t ∧ OnlyHyv s t)
    ∧ (s.Latched 0x41 a → s.aon.failed ≠ [] → (∀ f ∈ s.aon.failed, (excludable f.2).isSome = true) → Completes .ackHold s fun t =>
        t.aon.mode = .ready ∧ t.aon.failed = [] ∧ t.aon.holdReason = 0 ∧ (∀ f ∈ s.aon.failed, ∀ u, excludable f.2 = some u → u ∈ t.aon.excluded)
          ∧ Answered a .ok 0 s t ∧ t.m.mem = s.m.mem)

/-- What a port sends: a replay, a waiting link flit, a flit of this module, an IDLE; and a bad flit asks for its replay (R540, R541). -/
def Obligations.FlitsSent : Prop :=
  ∀ (s : State) (p : Fin 16) (n : BitVec 16) (f : Flit) (r : List Flit) (i : Nat) (m1 : Mach),
    let k := s.m.port p.val
    let open_ := fun (vc : Nat) => k.st = .up ∧ k.retry.length < k.retryCap ∧ k.lostCredits = false ∧ (0 < Tab.get 0 k.reserve vc ∨ 0 < k.shared)
    (k.live = true → k.replayFrom = some n → Completes (.flitSend p) s fun t =>
        t.m.port p.val = { k with replayFrom := nextResend k.retry n } ∧ t = { s with m := { s.m with shr := t.m.shr } })
    ∧ (open_ 0 → k.replayFrom = none → k.outQ = f :: r → Completes (.flitSend p) s fun t =>
        (t.m.port p.val).outQ = r ∧ (∃ g, (t.m.port p.val).retry = k.retry ++ [g] ∧ g.op = f.op ∧ g.va = f.va ∧ g.seq = k.outSeq ∧ g.ack = k.inSeq - 1
              ∧ g.sound k.small = true)
          ∧ (t.m.port p.val).outSeq = k.outSeq + 1 ∧ t = { s with m := { s.m with shr := t.m.shr } })
    ∧ (open_ (s.m.channel f) → k.replayFrom = none → k.outQ = [] → f.dst ≠ s.m.shr.node → f.payload.length ≤ k.maxWords →
        s.m.pick ((s.m.candidates p.val).filter fun c => (s.m.sendCand p.val c).isSome) = (some (16, i, f), m1) → Completes (.flitSend p) s fun t =>
        (∃ g, (t.m.port p.val).retry = k.retry ++ [g] ∧ g.op = f.op ∧ g.dst = f.dst ∧ g.va = f.va ∧ g.payload = f.payload ∧ g.seq = k.outSeq ∧ g.ack = k.inSeq - 1
              ∧ g.sound k.small = true)
          ∧ (t.m.port p.val).outSeq = k.outSeq + 1 ∧ (t.m.port p.val).txBytes = k.txBytes + flitBytes f ∧ t.m.shr.tx = s.m.shr.tx.eraseIdx i
          ∧ t.m.mem = s.m.mem ∧ CoreOnly s t)
    ∧ (open_ 0 → k.replayFrom = none → k.outQ = [] → ((s.m.candidates p.val).any fun c => (s.m.sendCand p.val c).isSome) = false → Completes (.linkIdleTimer p) s fun t =>
        (∃ g, (t.m.port p.val).retry = k.retry ++ [g] ∧ g.op = 0 ∧ g.payload = [] ∧ g.seq = k.outSeq ∧ g.ack = k.inSeq - 1 ∧ g.sound k.small = true)
          ∧ (t.m.port p.val).outSeq = k.outSeq + 1 ∧ t = { s with m := { s.m with shr := t.m.shr } })
    ∧ (k.live = true → k.outQ.any (fun g => g.op == 8) = false → Completes (.badFlit (Fin.ofNat 17 p.val)) s fun t =>
        (t.m.port p.val).discarded = satAdd 32 k.discarded 1 ∧ (t.m.port p.val).discarding = true ∧ (t.m.port p.val).inSeq = k.inSeq
          ∧ (∃ g, (t.m.port p.val).outQ = k.outQ ++ [g] ∧ g.op = 8 ∧ g.va.toNat = k.inSeq.toNat) ∧ t = { s with m := { s.m with shr := t.m.shr } })

/-- A flit in order at a port whose buffer is empty, for this module, with the state that applying it leaves; for a hardware collective
a word brings the elements that its step sends (R556). -/
def Obligations.FlitsReceived : Prop :=
  ∀ (s : State) (p : Fin 16) (f : Flit) (x : Cmd) (dpa r : Nat),
    let k := s.m.port p.val
    let good := k.live = true ∧ f.payload.length ≤ k.maxWords ∧ f.sound k.small = true ∧ f.seq = k.inSeq ∧ k.rxQ = [] ∧ f.dst = s.m.shr.node
      ∧ (s.m.cx f.dstCtx.val).colls.any (fun r => r.1 == f.coll.toNat && r.2.2) = false
    let bound := good ∧ s.m.boundOf f.dstCtx.val f.coll.toNat = some x
    let taken := fun (t : State) => (t.m.port p.val).inSeq = k.inSeq + 1 ∧ (t.m.port p.val).rxBytes = k.rxBytes + flitBytes f
      ∧ (t.m.port p.val).rxApplied = k.rxApplied + flitBytes f ∧ CoreOnly s t
    let acc := fun (m : Mach) (w : Word × Nat) => (m.readWord (fabricAcc x p.val) (dpa + 8 * w.2)).1
    (bound → f.op = 1 → s.m.remoteTarget x f.va.toNat (8 * f.payload.length) = .ok dpa → Completes (.remoteWrite p f) s fun t => taken t
        ∧ (s.m.engineOf x.seq = none → t.m.mem = (f.payload.zipIdx.foldl (fun (m : Mach) w => m.writeWord (dpa + 8 * w.2) ⟨w.1, false⟩) s.m).mem)
        ∧ (∀ w h offs g, f.payload = [w] → s.m.engineOf x.seq = some g → s.m.engineTakes x (x.rankOf f) 1 (f.va.toNat / 8) = some (h, offs) →
            t.m.mem = (s.m.putWrite dpa w (some (elemBytes g.fmt, offs))).mem))
    ∧ (bound → f.op = 2 → s.m.remoteTarget x f.va.toNat (8 * f.payload.length) = .ok dpa → accPair (bits f.aux.toNat 7 4) (bits f.aux.toNat 3 0) = true →
        Completes (.remoteAccum p f) s fun t => taken t
          ∧ (s.m.engineOf x.seq = none → t.m.mem = (f.payload.zipIdx.foldl (fun (m : Mach) w => m.writeWord (dpa + 8 * w.2)
              ⟨BitVec.ofNat 64 (accumulateWord (bits f.aux.toNat 7 4) (bits f.aux.toNat 3 0) (elemOffs (bits f.aux.toNat 3 0)) (acc m w).val.toNat w.1.toNat),
                (acc m w).poison⟩) s.m).mem)
          ∧ (∀ w h offs g, f.payload = [w] → s.m.engineOf x.seq = some g → s.m.engineTakes x (x.rankOf f) 2 (f.va.toNat / 8) = some (h, offs) →
              t.m.mem = (s.m.putAccum x p.val dpa (bits f.aux.toNat 7 4) (bits f.aux.toNat 3 0) offs w).mem))
    ∧ (bound → f.op = 3 → s.m.signalRecall f = none → (s.m.flagAddr x.ctx f.va.toNat).isSome = true → (s.m.pageOf x.ctx f.va.toNat).any (·.writable) = true →
        Completes (.remoteSignal p f) s fun t => taken t ∧ t.m.mem = (s.m.performLog x 0 ⟨1, f.va.toNat, ⟨f.payload.headD 0, false⟩⟩).mem)
    ∧ (good → f.op = 4 → Completes (.ready p f) s fun t => taken t ∧ t.m.mem = s.m.mem
        ∧ (f.coll.toNat, f.src.toNat, f.srcCtx.val) ∈ (t.m.cx f.dstCtx.val).readySeen)
    ∧ (bound → f.op = 5 → x.rankOf f = some r → Completes (.endFlit p f) s fun t => taken t ∧ t.m.mem = s.m.mem
        ∧ (∃ z ∈ t.m.cmds, sameCmd z x = true ∧ r ∈ z.endsIn)
        ∧ t.m.shr.tx = s.m.shr.tx ++ [s.m.flit f.src.toNat 6 3 f.srcCtx.val 0 f.coll.toNat f.dstCtx.val 0 []])
    ∧ (bound → f.op = 6 → x.rankOf f = some r → Completes (.e2eAck p f) s fun t => taken t ∧ t.m.mem = s.m.mem
        ∧ (∃ z ∈ t.m.cmds, sameCmd z x = true ∧ r ∈ z.acks) ∧ t.m.shr.tx = s.m.shr.tx)
    ∧ (bound → f.op = 7 → x.q < 16 → Completes (.nack p f) s fun t => taken t ∧ t.m.mem = s.m.mem
        ∧ (∃ z ∈ t.m.cmds, sameCmd z x = true ∧ z.phase = .killing ∧ ∃ d, z.cause = some (.fail .collectiveFailed d)) ∧ ((t.m.cx x.ctx).q x.q).stopped ≠ none)
    ∧ (k.live = true → f.payload.length ≤ k.maxWords → f.sound k.small = true → f.seq = k.inSeq → k.rxQ = [] → f.op = 8 →
        (((k.acked s.m.now f.ack).credited f).retry.any fun g => g.seq == f.va.setWidth 16) = true → Completes (.replayReq (Fin.ofNat 17 p.val) f) s fun t =>
          (t.m.port p.val).replayFrom = some (f.va.setWidth 16) ∧ (t.m.port p.val).replays = satAdd 32 k.replays 1 ∧ (t.m.port p.val).inSeq = k.inSeq + 1
            ∧ t = { s with m := { s.m with shr := t.m.shr } })
    ∧ (s.m.dmg.up = true → Completes (.replayReq 16 f) s fun t =>
          t = { s with m := { s.m with dmg := { s.m.dmg with replays := satAdd 32 s.m.dmg.replays 1 } } })
    ∧ (k.live = true → f.payload.length ≤ k.maxWords → f.sound k.small = true → f.seq = k.inSeq → k.rxQ = [] → f.op = 0 → Completes (.idle p f) s fun t =>
          (t.m.port p.val).inSeq = k.inSeq + 1 ∧ (t.m.port p.val).retry = (k.acked s.m.now f.ack).retry
            ∧ (t.m.port p.val).shared = k.shared + (if k.lostCredits then 0 else f.credShared.toNat) ∧ t = { s with m := { s.m with shr := t.m.shr } })
    ∧ (k.live = true → f.payload.length ≤ k.maxWords → f.sound k.small = false → f.op = 0 → Completes (.idle p f) s fun t =>
          (t.m.port p.val).inSeq = k.inSeq ∧ (t.m.port p.val).discarded = satAdd 32 k.discarded 1 ∧ (t.m.port p.val).discarding = true
            ∧ (t.m.port p.val).retry = k.retry ∧ t = { s with m := { s.m with shr := t.m.shr } })

/-- Training of a port, its result, and the loss of a link (R533, R542). -/
def Obligations.PortsTrainAndLose : Prop :=
  ∀ (s : State) (p : Fin 16) (t0 : PortTraining) (w rate : Nat) (reason : Fin 8),
    let k := s.m.port p.val
    (k.st = .down → Completes (.train p) s fun t =>
        (t.m.port p.val) = (if k.rxQ = [] then { k with st := .training, trainDue := false } else { k with trainDue := true })
          ∧ (∀ q, q ≠ p.val → t.m.port q = s.m.port q) ∧ t = { s with m := { s.m with shr := t.m.shr } })
    ∧ (k.st = .training → s.m.settleMode p.val t0 = some (w, rate) →
        s.m.opening (p.val / 2) = false ∨ s.m.now ≤ Tab.get 0 s.m.shr.openedAt (p.val / 2) + 45000000 → Completes (.portTrainingComplete p (some t0)) s fun t =>
        t.m.port p.val = k.upIn t0 w rate ∧ (∀ q, q ≠ p.val → t.m.port q = s.m.port q) ∧ t = { s with m := { s.m with shr := t.m.shr, hyv := t.m.hyv } })
    ∧ (k.st = .training → s.m.settleMode p.val t0 = some (w, rate) → s.m.opening (p.val / 2) = true →
        (∀ q ∈ s.m.openPorts (p.val / 2), q ≠ p.val → (s.m.port q).st = .up) → Tab.get 0 s.m.shr.openedAt (p.val / 2) + 45000000 < s.m.now →
        Completes (.portTrainingComplete p (some t0)) s fun t =>
          (t.m.port p.val).st = .dark ∧ t.m.stay (p.val / 2) = 0 ∧ Tab.get none t.m.shr.stayTags (p.val / 2) = none ∧ CoreOnly s t)
    ∧ (k.st = .training → k.trainDue = false → Completes (.portTrainingComplete p none) s fun t =>
        ((t.m.port p.val).st = .down ∨ (t.m.port p.val).st = .dark) ∧ (s.m.opening (p.val / 2) = false → (t.m.port p.val).st = .down) ∧ CoreOnly s t)
    ∧ (k.live = true → k.trainDue = false → reason.val = 1 ∨ reason.val = 2 ∨ (reason.val = 3 ∧ (8 ≤ k.replayTries ∨ k.retry ≠ [] ∧ k.ackAt + 100000 ≤ s.m.now)) → Completes (.linkLoss p reason) s fun t =>
        (t.m.port p.val).st = (if k.st = .closing then .closing else .down) ∧ (t.m.port p.val).reason = reason.val ∧ (t.m.port p.val).lossSeen = true
          ∧ (t.m.port p.val).retry = [] ∧ (t.m.port p.val).granted = 0 ∧ (t.m.port p.val).ackSeqLoss = k.lastAck ∧ (t.m.port p.val).rxSeqLoss = k.inSeq - 1
          ∧ (t.m.port p.val).dropBytes = k.dropBytes + sumNat (k.retry.map flitBytes) ∧ CoreOnly s t)

/-- Training, loss, requests of the companion, and the end of a recall. -/
def Obligations.CompanionLink : Prop :=
  ∀ (s : State) (r : Option (Nat × Bool)) (n : Nat) (tag : Fin 4096) (va : BitVec 52) (len : Nat) (data : List Byte) (o : Nat) (cuts : List ((Nat × Nat) × PageRef))
      (c : (Nat × Nat) × PageRef) (keep : Bool) (dpa : BitVec 44) (dirty : Option (List Byte)),
    let wr := s.m.dmg.heldAcc.any fun y => y.data.isSome
    (s.aon.mode.powered = true → s.aon.mode ≠ .boot → s.m.dmg.up = false → Completes (.damgerTraining r) s fun t =>
        t.m.dmg.up = (damgerWithin s.sec.record r).isSome ∧ t = { s with m := { s.m with dmg := t.m.dmg } })
    ∧ (s.m.dmg.up = true → Completes (.damgerLinkLoss n) s fun t =>
        t.m.dmg = { s.m.dmg with up := false, lossSeen := true, dropped := satAdd 32 s.m.dmg.dropped (n + s.m.dmg.heldAcc.length), heldAcc := [] }
          ∧ t.aon.alert.getLsbD 0 = true ∧ t.aon.mode = s.aon.mode ∧ t.m = { s.m with dmg := t.m.dmg, evr := t.m.evr } ∧ t.pwr = s.pwr ∧ t.sec = s.sec)
    ∧ (s.servedFull = true → (s.m.cx tag.val).ringAt va.toNat len = some o → Completes (.damgerInboundRead tag va len keep) s fun t =>
        t.m.dmg.replies = [(tag.val, .data ((List.range len).map fun i => Tab.get 0 (s.m.cx tag.val).rings (o + i)) [])] ∧ t.m.mem = s.m.mem ∧ CoreOnly s t)
    ∧ (s.servedFull = true → (s.m.cx tag.val).ringAt va.toNat len = none → s.m.inboundPages ⟨tag.val, va.toNat, none, len, false⟩ = some [c] →
        Tab.get [] s.m.owned c.2.frame = [] → Completes (.damgerInboundRead tag va len false) s fun t =>
          t.m.dmg.replies = [(tag.val, .data (s.m.readBytes ⟨whoDamger, tag.val, 0, 0⟩ (frameDpa c.2.frame + c.1.1 % 65536) c.1.2).1.1
              (s.m.readBytes ⟨whoDamger, tag.val, 0, 0⟩ (frameDpa c.2.frame + c.1.1 % 65536) c.1.2).1.2)]
            ∧ t.m.dmg.dir = s.m.dmg.dir ∧ t.m.mem = s.m.mem ∧ CoreOnly s t)
    ∧ (s.servedFull = true → (s.m.cx tag.val).ringAt va.toNat len = none → s.m.inboundPages ⟨tag.val, va.toNat, none, len, true⟩ = some cuts →
        (∀ c ∈ cuts, Tab.get [] s.m.owned c.2.frame = []) → s.m.grantWaits (keptLines cuts) = none → Completes (.damgerInboundRead tag va len true) s fun t =>
          t.m.dmg.dir = (keptLines cuts).foldl (fun l k => k :: l.filter (· != k)) s.m.dmg.dir ∧ t.m.mem = s.m.mem ∧ CoreOnly s t)
    ∧ (s.servedFull = true → wr = false → (s.m.cx tag.val).ringAt va.toNat data.length = some o → Completes (.damgerInboundWrite tag va data) s fun t =>
        t.m.dmg.replies = [(tag.val, .done)] ∧ (t.m.cx tag.val).rings = putTab (s.m.cx tag.val).rings o data ∧ t.m.mem = s.m.mem ∧ CoreOnly s t)
    ∧ (s.servedFull = true → wr = false → (s.m.cx tag.val).ringAt va.toNat data.length = none →
        s.m.inboundPages ⟨tag.val, va.toNat, some data, data.length, false⟩ = some cuts → (∀ c ∈ cuts, Tab.get [] s.m.owned c.2.frame = []) →
        Completes (.damgerInboundWrite tag va data) s fun t =>
          t.m.dmg.replies = [(tag.val, .done)] ∧ CoreOnly s t
            ∧ t.m.mem = (cuts.foldl (fun (m : Mach) c =>
                m.writeBytes (frameDpa c.2.frame + c.1.1 % 65536) ((data.drop (c.1.1 - va.toNat)).take c.1.2) false) s.m).mem)
    ∧ (s.servedFull = true → wr = false → (s.m.cx tag.val).ringAt va.toNat data.length = none →
        s.m.inboundPages ⟨tag.val, va.toNat, some data, data.length, false⟩ = none → Completes (.damgerInboundWrite tag va data) s fun t =>
          t.m.dmg.replies = [(tag.val, .error)] ∧ t.m.mem = s.m.mem ∧ t.m.ctxs = s.m.ctxs ∧ CoreOnly s t)
    ∧ (s.servedFull = true → wr = true → Completes (.damgerInboundWrite tag va data) s fun t =>
          t = { s with m := { s.m with dmg := { s.m.dmg with replies := [], heldAcc := s.m.dmg.heldAcc ++ [⟨tag.val, va.toNat, some data, data.length, false⟩] } } })
    ∧ (s.m.dmg.recalls.contains (dpa.toNat / 64) = true → s.m.dmg.heldAcc = [] → (∀ p < 16, (s.m.port p).rxQ = []) → Completes (.lineRecallComplete dpa dirty) s fun t =>
        dpa.toNat / 64 ∉ t.m.dmg.recalls ∧ dpa.toNat / 64 ∉ t.m.dmg.dir ∧ CoreOnly s t
          ∧ (dirty = none → t.m.mem = s.m.mem)
          ∧ (∀ b, dirty = some b → t.m.mem = (s.m.writeBytes (lineDpa (dpa.toNat / 64)) (slice b 0 64) false).mem))

/-- Records that are persisted, latched and copied, and limits of a code. -/
def Obligations.RecorderRows : Prop :=
  ∀ (s : State) (e : Ev) (v : Word),
    (s.sec.running = true → Completes (.eventPersist true) s fun t =>
        (∀ x ∈ t.m.evr.held, 4 ≤ x.2.sev → x.2.persisted = true) ∧ t.m.evr.held.length = s.m.evr.held.length
          ∧ t.m.evr.produced = s.m.evr.produced ∧ t = { s with m := { s.m with evr := t.m.evr } })
    ∧ (s.sec.running = true → Completes (.eventPersist false) s fun t => t = { s with m := { s.m with evr := { s.m.evr with flashFault := true } } })
    ∧ (s.servedFullWrite = true → s.m.evr.suspended = false → Completes .evrLatch s fun t =>
        t.m.evr = { s.m.evr with latched := s.m.evr.counts } ∧ t = { s with m := { s.m with evr := t.m.evr } })
    ∧ (s.m.evr.windowBusy = true → Completes .evrWindowCopy s fun t =>
        t.m.evr.windowBusy = false ∧ t.m.evr.aperture.length = 256
          ∧ (∀ i < 256, t.m.evr.aperture[i]? = some (s.m.evr.flashAt (256 * (s.m.evr.window.toNat % 64) + i))) ∧ t = { s with m := { s.m with evr := t.m.evr } })
    ∧ (s.servedFullWrite = true → eventOf s.m.evr.codeSel.toNat = some e → e.sev < 4 → Completes (.evrCodeLimitWrite v) s fun t =>
        (t.m.evr.bucket e).burst = bits v.toNat 63 48 ∧ (t.m.evr.bucket e).rate = bits v.toNat 47 32
          ∧ (t.m.evr.bucket e).level ≤ bits v.toNat 63 48 * token ∧ (∀ y, y ≠ e → t.m.evr.bucket y = s.m.evr.bucket y)
          ∧ t = { s with m := { s.m with evr := t.m.evr } })
    ∧ (s.servedFullWrite = true → eventOf s.m.evr.codeSel.toNat = some e → 4 ≤ e.sev → Completes (.evrCodeLimitWrite v) s fun t => t = s)

/-- Freezes, one of which is ignored while another is under way (R667), samples, reads by a context, frame-milliseconds and accounting
intervals. -/
def Obligations.CountersAndAccounting : Prop :=
  ∀ (s : State) (ctx : Fin 4096) (slot : Fin 4) (where_ unit : Nat) (g : Grant) (ix : Nat × Nat) (m1 : Mach) (x u : Nat),
    let w := (Tab.get 0x400 (s.m.cx ctx.val).user.samples slot.val).toNat
    let id := bits w 59 40
    let m0 := s.m.modCx ctx.val fun c => { c with user := { c.user with sampled := Tab.put 0 c.user.sampled slot.val (s.m.liveOf id / bits w 39 0) } }
    let n := (s.m.ctxs.filter fun e => e.2.active).length + s.m.ctr.closes.length + 2
    (s.servedFullWrite = true → s.m.ctr.done = true → Completes .ctrFreeze s fun t =>
        t.m.ctr = { s.m.ctr with done := false, freezes := satAdd 32 s.m.ctr.freezes 1, freezeTime := s.m.now } ∧ t = { s with m := { s.m with ctr := t.m.ctr } })
    ∧ (s.m.ctr.done = false → Unchanged .ctrFreeze s)
    ∧ (s.m.ctr.done = false → Completes .freezeDone s fun t =>
        t.m.ctr.done = true ∧ t.m.ctr.snap = s.m.ctr.live ∧ t.m.ctr.live = s.m.ctr.live ∧ t.m.evr.latched = (if s.m.evr.suspended then s.m.evr.latched else s.m.evr.counts)
          ∧ t = { s with m := { s.m with ctr := t.m.ctr, evr := t.m.evr } })
    ∧ (s.m.ctr.grants.find? (fun g => g.ctx == ctx.val && g.complete && g.ring != 0) = some g → bitAt w 63 = true → 1024 ≤ bits w 39 0 →
        s.m.mayRead ctx.val id = true → sampleUnit id unit = some u → Tab.get 0 (s.m.cx ctx.val).user.sampled slot.val < s.m.liveOf id / bits w 39 0 →
        m0.ringIndex ctx.val g.ring = (some ix, m1) → (s.m.sample ctx.val slot.val where_ unit).fwHeld = false →
        (0 < ringRoom g.entries ix → Completes (.sampleRecord ctx slot where_ unit) s fun t =>
          ∃ b : List Byte, b.length = 32 ∧ fld b 0 4 = id % 2 ^ 32 ∧ fld b 8 8 = s.m.liveOf id % 2 ^ 64 ∧ fld b 16 8 = s.m.now % 2 ^ 64
            ∧ fld b 24 4 = where_ % 2 ^ 32 ∧ fld b 28 2 = u % 2 ^ 16 ∧ fld b 30 1 = slot.val
            ∧ ((ctrId id).1 ≠ 3 → fld b 4 4 = ((s.m.cl u).cmd.getD 0) % 2 ^ 32)
            ∧ t.m.mem = (m1.ringWrite ctx.val g.ring g.entries ix.1 [b]).mem ∧ t.m.ctxs = m0.ctxs ∧ CoreOnly s t)
        ∧ (ringRoom g.entries ix = 0 → Completes (.sampleRecord ctx slot where_ unit) s fun t =>
          (t.m.cx ctx.val).user.drops = satAdd 16 (s.m.cx ctx.val).user.drops 1 ∧ t.m.mem = s.m.mem ∧ CoreOnly s t))
    ∧ (s.servedFull = true → (s.m.cx ctx.val).st ≠ .absent →
        (s.m.mayRead ctx.val (s.m.cx ctx.val).user.sel.toNat = true → Completes (.ctrUserValueRead ctx) s fun t =>
          t.m.dmg.replies = [(4096, .value (BitVec.ofNat 64 (s.m.liveOf (s.m.cx ctx.val).user.sel.toNat)))] ∧ t = { s with m := { s.m with dmg := t.m.dmg } })
        ∧ (s.m.mayRead ctx.val (s.m.cx ctx.val).user.sel.toNat = false → Completes (.ctrUserValueRead ctx) s fun t =>
          t.m.dmg.replies = [(4096, .value 0)] ∧ (t.m.cx ctx.val).user = { (s.m.cx ctx.val).user with denied := true }
            ∧ t = { s with m := { s.m with dmg := t.m.dmg, ctxs := t.m.ctxs } }))
    ∧ (s.aon.mode.powered = true → (s.m.ctxs.map (·.1)).Nodup → Completes .frameMsTick s fun t =>
        t.m.now = (s.m.now / 1000000 + 1) * 1000000
          ∧ (s.m.ctr.suspended.getLsbD 4 = false → t.m.ctr.overhead.frameMs = s.m.ctr.overhead.frameMs + s.m.ringFrames)
          ∧ ((s.m.cx x).st ≠ .absent → (s.m.cx x).suspended.getLsbD 4 = false → (t.m.cx x).meters.frameMs = (s.m.cx x).meters.frameMs + s.m.heldFrames x)
          ∧ t = { s with m := { s.m with now := t.m.now, ctxs := t.m.ctxs, ctr := { s.m.ctr with overhead := t.m.ctr.overhead } } })
    ∧ (s.aon.mode.powered = true → s.m.running = true → s.m.ctr.room n = true → Completes .accountingInterval s fun t =>
        t.m.now = s.m.intervalEnd ∧ t.m.ctr.intervalAt = s.m.intervalEnd ∧ t.m.ctr.endedAt = s.m.intervalEnd ∧ t.m.ctr.prod = (s.m.ctr.prod + n) % 2 ^ 64
          ∧ t.m.ctr.overhead = s.m.ctr.overhead.kept s.m.ctr.suspended ∧ t.m.ctr.closes = []
          ∧ ((s.m.cx x).active = true → (t.m.cx x).meters = (s.m.cx x).meters.kept (s.m.cx x).suspended ∧ (t.m.cx x).sessionAt = s.m.intervalEnd)
          ∧ t = { s with m := { s.m with now := t.m.now, ctr := t.m.ctr, ctxs := t.m.ctxs, comp := t.m.comp } })
    ∧ (s.aon.mode.powered = true → s.m.running = true → s.m.ctr.room n = false → Completes .accountingInterval s fun t =>
        t.m.ctr.prod = s.m.ctr.prod ∧ t.m.ctxs = s.m.ctxs ∧ t.m.ctr.overhead = s.m.ctr.overhead ∧ t.m.ctr.fullSeen = (s.m.ctr.fullSeen || s.m.ctr.enable) ∧ CoreOnly s t)

/-- A write of the control window: unlisted registers and bad sizes are answered with an error that changes nothing; read-only and
write-one-to-clear fields are left alone by zeros; a master that cannot reach the window changes nothing; HYV_ADMIN_GO latches the command
area, or answers BAD_OPCODE for an opcode that is not listed (log entry 26), and does nothing while a command is busy. -/
def Obligations.RegisterWrites : Prop :=
  ∀ (s : State) (w : Master) (off : BitVec 26) (size : Nat) (v : Word) (ctx : Fin 4096) (q : Fin 16),
    (s.admits w off.toNat = false → Unchanged (.registerWrite w off size v) s)
    ∧ (s.admits .companion off.toNat = true → s.reg (off.toNat / 8 * 8) = none ∨ (size ≠ 4 ∧ size ≠ 8) ∨ off.toNat % size ≠ 0 →
        Completes (.registerWrite .companion off size v) s fun t =>
          t = { s with m := { s.m with dmg := { s.m.dmg with replies := [(4096, .error)] } } })
    ∧ (s.servedWrite = true → off.toNat < 0x1000 → off.toNat % 8 = 0 → Completes (.registerWrite .companion off 8 v) s fun t =>
        t = { s with m := { s.m with dmg := { s.m.dmg with replies := [(4096, .done)] } } })
    ∧ (s.servedFullWrite = true → off.toNat = 0x1000000 + ctx.val * 0x1000 + q.val * 0x40 + 0x18 → (s.m.cx ctx.val).st ≠ .absent → q.val < (s.m.cx ctx.val).queues →
        Completes (.registerWrite .companion off 8 v) s fun t =>
          (t.m.cx ctx.val).q q.val = { (s.m.cx ctx.val).q q.val with cqHead := bits v.toNat 31 0 } ∧ (∀ y, y ≠ ctx.val → t.m.cx y = s.m.cx y)
            ∧ t = { s with m := { s.m with ctxs := t.m.ctxs, dmg := { s.m.dmg with replies := [(4096, .done)] } } })
    ∧ (s.servedFullWrite = true → off.toNat = 0x100000 → Completes (.registerWrite .companion off 8 v) s fun t =>
        t = { s with pwr := { s.pwr with clampSeen := s.pwr.clampSeen && !v.getLsbD 10, faultSeen := s.pwr.faultSeen && !v.getLsbD 9 },
                     m := { s.m with dmg := { s.m.dmg with replies := [(4096, .done)] } } })
    ∧ (s.servedWrite = true → off.toNat = 0x1080 → s.m.hyv.latched = none → v.getLsbD 0 = true → Completes (.registerWrite .companion off 8 v) s fun t =>
        let op := (Tab.get 0 s.m.hyv.area 0).toNat
        (op ∈ adminOps → ∃ a, t.m.hyv.latched = some a ∧ a.op = op ∧ ∀ i < 48, a.args[i]? = some (Tab.get 0 s.m.hyv.area (0x10 + i)))
          ∧ (op ∉ adminOps → t.m.hyv.latched = none ∧ t.m.hyv.status = .badOpcode ∧ t.m.hyv.statusOp = op)
          ∧ t.m.hyv.area = s.m.hyv.area ∧ t.m.mem = s.m.mem ∧ t.pwr = s.pwr)
    ∧ (s.servedWrite = true → off.toNat = 0x1080 → s.m.hyv.latched ≠ none → Completes (.registerWrite .companion off 8 v) s fun t =>
        t = { s with m := { s.m with dmg := { s.m.dmg with replies := [(4096, .done)] } } })

/-- No step leaves a state of the module that is not one: hold_reason, PGOOD and the processors follow the mode. -/
def Obligations.ModeLegalKept : Prop := ∀ s t : State, s.ModeLegal → step s = .next t → t.ModeLegal

/-- Every step keeps the cap, the floors, the levels and the top levels in their ranges. -/
def Obligations.PwrLegalKept : Prop := ∀ s t : State, s.pwr.Legal → step s = .next t → t.pwr.Legal

/-- Every step keeps the boot selector legal, and none lowers a value of the replay-protected area. -/
def Obligations.BootLegalKept : Prop :=
  ∀ s t : State, step s = .next t → (s.BootLegal → t.BootLegal) ∧ s.sec.NoLower t.sec

/-- The commands that reach beyond the core domains: pins, power, start-up, firmware, the governor, the margin plan, and the admin commands
and register writes that change the module's mode or its flash. -/
def Obligations.CoreCommandsLeaveFirmware : Prop :=
  ∀ (c : Instr) (s t : State), exec c s = .next t →
    match c with
    | .inputPowerApplied | .inputPowerLost | .inputFault _ | .modEnDeassert | .resetLAssert | .standbyExit | .bootSequence _ | .trainComplete _
    | .selftestComplete _ | .fwHang _ | .sidebandWrite _ _ | .entdaa | .rstdaa | .thmTripClear | .powerSample _ _ _ | .powerFloorEval | .powerClamp
    | .clampRelease | .pwrCapWrite _ | .estimatorScaling _ _ | .reefSlewDone _ | .thermalModelUpdate _ _ | .tripModelUpdate _ _ | .regulatorOvertemp _
    | .coolingEntry | .coolingExit _ | .planRequest | .planRebuildStart | .planMeasurement _ _ _ _ | .planOverdue | .marginWarning _
    | .drainComplete _ | .ctxEnable | .updateStage _ | .updateStageComplete _ _ | .updateSelect | .updateConfirm | .attest | .attestComplete
    | .ackHold | .damgerLinkLoss _ | .registerWrite _ _ _ _ => t.pending = s.pending
    | _ => CoreOnly s t

/-- A word of protected memory reads as it was written and as no other write changed it; one flipped bit of the 72 stored is corrected, two
are detected and delivered as poison, and a word stored as poison reads as poison (R628). -/
def Obligations.ProtectedWords : Prop :=
  ∀ (r : Ram) (w x : Nat) (v : PWord) (e : BitVec 72),
    (r.putWord w v).decode w = (if v.poison then ⟨v, .poisoned, 0xFE⟩ else ⟨v, .clean, 0⟩)
      ∧ (x ≠ w → (r.putWord w v).decode x = r.decode x)
      ∧ (v.poison = false → popcount 72 e.toNat = 1 →
          (((r.putWord w v).flip w e).decode w).word = v ∧ (((r.putWord w v).flip w e).decode w).kind = .corrected)
      ∧ (v.poison = false → popcount 72 e.toNat = 2 →
          (((r.putWord w v).flip w e).decode w).word.poison = true ∧ (((r.putWord w v).flip w e).decode w).kind = .uncorrectable)
      ∧ (x ≠ w → ((r.putWord w v).flip w e).decode x = r.decode x)
      ∧ (r.wf = true → ((r.putWord w v).flip w e).wf = true)

/-- A record that arrives is counted as produced and then stored, overwrites one, or is dropped for want of room or by its rate, and the four
counts agree (R658); a recorder whose counts are suspended stores the record and leaves the counts (R643). -/
def Obligations.RecorderConserves : Prop :=
  ∀ (r : Evr) (x : Rec), Tab.wf none r.slots = true → r.Conserves →
    (r.arrive x).Conserves ∧ Tab.wf none (r.arrive x).slots = true ∧ (r.arrive x).produced = r.produced + 1
      ∧ (6 ≤ x.sev → (r.arrive x).droppedRate = r.droppedRate) ∧ (r.arrive x).flash = r.flash ∧ (r.arrive x).latched = r.latched
      ∧ r.persist.Conserves ∧ Tab.wf none r.persist.slots = true
      ∧ (r.suspended = false → r.keepCounts (r.arrive x) = r.arrive x)
      ∧ (r.suspended = true → (r.keepCounts (r.arrive x)).produced = r.produced ∧ (r.keepCounts (r.arrive x)).slots = (r.arrive x).slots)

/-- What refuses an admin command before its own checks: in TRAIN and SELFTEST all but TIME_PROBE, before a version is selected all but
TIME_PROBE and ACK_HOLD, in HOLD all but four, and ACK_HOLD outside HOLD (R575); it is answered with that status and nothing is done. -/
def Obligations.AdminRefusals : Prop :=
  ∀ (s : State) (a : Admin) (st : Status) (c : Instr), s.m.hyv.latched = some a → adminOwnerUp s a.op = true → adminRefusal s a = some st →
    (c, a.op) ∈ [(Instr.ctxCreate, 0x01), (.ctxEnable, 0x02), (.ctxDestroy, 0x04), (.stayOpen, 0x20), (.stayClose, 0x21), (.attest, 0x31),
      (.timeProbe 0 0, 0x40), (.ackHold, 0x41)] →
    Completes c s (fun t => Answered a st 0 s t ∧ OnlyHyv s t)
      ∧ ((s.aon.mode = .train ∨ s.aon.mode = .selftest) → a.op ≠ 0x40 → a.rsv = true → st = .moduleState)
      ∧ (s.aon.mode ≠ .train → s.aon.mode ≠ .selftest → s.m.hyv.version = 0 → a.op ≠ 0x40 → a.op ≠ 0x41 → a.rsv = true → st = .version)
      ∧ (s.aon.mode = .hold → s.m.hyv.version ≠ 0 → a.op < 0x30 → a.rsv = true → st = .moduleState)
      ∧ (s.aon.mode ≠ .hold → a.op = 0x41 → a.rsv = true → st = .moduleState)
      ∧ st ≠ .pending
end

