-- ==== Sys2Proof/Laws/Tab.lean ====
section
/-! SUPPORT. The laws of finite maps: a read after a write, and that every write keeps the canonical form. -/
namespace Sys2Proof.Machine

@[simp] theorem Tab.get_nil {α : Type} (d : α) (i : Nat) : Tab.get d ([] : Tab α) i = d := rfl

theorem Tab.get_erase {α : Type} (d : α) (t : Tab α) (i j : Nat) :
    Tab.get d (Tab.erase t i) j = if j = i then d else Tab.get d t j := by
  induction t with
  | nil => simp [Tab.erase, Tab.get]
  | cons e r ih =>
    obtain ⟨k, v⟩ := e
    by_cases h : i = k
    · subst h
      simp only [Tab.erase, if_true, Tab.get, ih]
      by_cases hj : j = i <;> simp [hj]
    · simp only [Tab.erase, h, if_false, Tab.get, ih]
      by_cases hj : j = k
      · subst hj; simp [Ne.symm h]
      · simp [hj]

theorem Tab.get_ins {α : Type} (d : α) (t : Tab α) (i j : Nat) (v : α) :
    Tab.get d (Tab.ins (Tab.erase t i) i v) j = if j = i then v else Tab.get d t j := by
  induction t with
  | nil => simp [Tab.erase, Tab.ins, Tab.get]
  | cons e r ih =>
    obtain ⟨k, w⟩ := e
    by_cases h : i = k
    · subst h
      simp only [Tab.erase, if_true, Tab.get, ih]
      by_cases hj : j = i <;> simp [hj]
    · simp only [Tab.erase, h, if_false, Tab.ins]
      by_cases hl : i < k
      · simp only [hl, if_true, Tab.get, Tab.get_erase]
        by_cases hj : j = i <;> simp [hj]
      · simp only [hl, if_false, Tab.get, ih]
        by_cases hj : j = k
        · subst hj; simp [Ne.symm h]
        · simp [hj]

/-- A read after a write: the value written at its own key, what was there before at any other. -/
theorem Tab.get_put {α : Type} [DecidableEq α] (d : α) (t : Tab α) (i j : Nat) (v : α) :
    Tab.get d (Tab.put d t i v) j = if j = i then v else Tab.get d t j := by
  unfold Tab.put
  split
  · rename_i h; rw [Tab.get_erase, h]
  · exact Tab.get_ins d t i j v

@[simp] theorem Tab.get_put_same {α : Type} [DecidableEq α] (d : α) (t : Tab α) (i : Nat) (v : α) :
    Tab.get d (Tab.put d t i v) i = v := by simp [Tab.get_put]

theorem Tab.get_put_other {α : Type} [DecidableEq α] (d : α) (t : Tab α) {i j : Nat} (v : α) (h : j ≠ i) :
    Tab.get d (Tab.put d t i v) j = Tab.get d t j := by simp [Tab.get_put, h]

theorem Tab.get_upd {α : Type} [DecidableEq α] (d : α) (t : Tab α) (i j : Nat) (f : α → α) :
    Tab.get d (Tab.upd d t i f) j = if j = i then f (Tab.get d t i) else Tab.get d t j := by simp [Tab.upd, Tab.get_put]

@[simp] theorem Tab.get_upd_same {α : Type} [DecidableEq α] (d : α) (t : Tab α) (i : Nat) (f : α → α) :
    Tab.get d (Tab.upd d t i f) i = f (Tab.get d t i) := by simp [Tab.get_upd]

theorem Tab.get_upd_other {α : Type} [DecidableEq α] (d : α) (t : Tab α) {i j : Nat} (f : α → α) (h : j ≠ i) :
    Tab.get d (Tab.upd d t i f) j = Tab.get d t j := by simp [Tab.get_upd, h]

/-- A property of the default and of the value written holds of every value read if it held before. -/
theorem Tab.get_put_of {α : Type} [DecidableEq α] {P : α → Prop} {d : α} {t : Tab α} {i : Nat} {v : α}
    (h : ∀ j, P (Tab.get d t j)) (hv : P v) (j : Nat) : P (Tab.get d (Tab.put d t i v) j) := by
  rw [Tab.get_put]; split
  · exact hv
  · exact h j

theorem Tab.wfFrom_none {α : Type} [DecidableEq α] {d : α} {lo : Option Nat} {t : Tab α} (h : Tab.wfFrom d lo t = true) :
    Tab.wfFrom d none t = true := by
  cases t with
  | nil => rfl
  | cons e r => simp only [Tab.wfFrom, Bool.and_eq_true, Bool.true_and] at h ⊢; exact ⟨h.1.2, h.2⟩

theorem Tab.wfFrom_lower {α : Type} [DecidableEq α] {d : α} {a b : Nat} {t : Tab α} (hab : a ≤ b)
    (h : Tab.wfFrom d (some b) t = true) : Tab.wfFrom d (some a) t = true := by
  cases t with
  | nil => rfl
  | cons e r =>
    simp only [Tab.wfFrom, Bool.and_eq_true, decide_eq_true_eq] at h ⊢
    exact ⟨⟨Nat.lt_of_le_of_lt hab h.1.1, h.1.2⟩, h.2⟩

theorem Tab.wfFrom_erase {α : Type} [DecidableEq α] {d : α} {t : Tab α} {i : Nat} {lo : Option Nat}
    (h : Tab.wfFrom d lo t = true) : Tab.wfFrom d lo (Tab.erase t i) = true := by
  induction t generalizing lo with
  | nil => rfl
  | cons e r ih =>
    obtain ⟨k, v⟩ := e
    have hr : Tab.wfFrom d (some k) r = true := by simp only [Tab.wfFrom, Bool.and_eq_true] at h; exact h.2
    by_cases hk : i = k
    · simp only [Tab.erase, hk, if_true]
      refine ih ?_ |> fun x => hk ▸ x
      cases lo with
      | none => exact Tab.wfFrom_none hr
      | some l =>
        simp only [Tab.wfFrom, Bool.and_eq_true, decide_eq_true_eq] at h
        exact Tab.wfFrom_lower (Nat.le_of_lt h.1.1) hr
    · simp only [Tab.erase, hk, if_false, Tab.wfFrom, Bool.and_eq_true] at h ⊢
      exact ⟨h.1, ih h.2⟩

theorem Tab.wfFrom_ins {α : Type} [DecidableEq α] {d : α} {t : Tab α} {i : Nat} {v : α} {lo : Option Nat}
    (h : Tab.wfFrom d lo t = true) (hi : ∀ l, lo = some l → l < i) (hn : ∀ e ∈ t, e.1 ≠ i) (hv : v ≠ d) :
    Tab.wfFrom d lo (Tab.ins t i v) = true := by
  induction t generalizing lo with
  | nil => cases lo <;> simp_all [Tab.ins, Tab.wfFrom]
  | cons e r ih =>
    obtain ⟨k, w⟩ := e
    simp only [Tab.ins]
    split
    · rename_i hlt
      cases lo <;> simp_all [Tab.wfFrom]
    · rename_i hge
      have hne : k ≠ i := hn (k, w) (by simp)
      simp only [Tab.wfFrom, Bool.and_eq_true] at h ⊢
      refine ⟨h.1, ih h.2 ?_ fun e he => hn e (by simp [he])⟩
      intro l hl; injection hl with hl; omega

theorem Tab.not_mem_erase {α : Type} (t : Tab α) (i : Nat) : ∀ e ∈ Tab.erase t i, e.1 ≠ i := by
  induction t with
  | nil => simp [Tab.erase]
  | cons e r ih =>
    obtain ⟨k, v⟩ := e
    by_cases hk : i = k
    · simp only [Tab.erase, hk, if_true]; exact hk ▸ ih
    · simp only [Tab.erase, hk, if_false, List.mem_cons, forall_eq_or_imp]
      exact ⟨fun h => hk h.symm, ih⟩

/-- Every write keeps the canonical form. -/
theorem Tab.wf_put {α : Type} [DecidableEq α] {d : α} {t : Tab α} (i : Nat) (v : α) (h : Tab.wf d t = true) :
    Tab.wf d (Tab.put d t i v) = true := by
  unfold Tab.wf Tab.put at *
  split
  · exact Tab.wfFrom_erase h
  · rename_i hv
    exact Tab.wfFrom_ins (Tab.wfFrom_erase h) (by simp) (Tab.not_mem_erase t i) hv

theorem Tab.wf_upd {α : Type} [DecidableEq α] {d : α} {t : Tab α} (i : Nat) (f : α → α) (h : Tab.wf d t = true) :
    Tab.wf d (Tab.upd d t i f) = true := Tab.wf_put i _ h

end Sys2Proof.Machine
end

