-- ==== Sys2Proof/Laws/State.lean ====
section
/-! SUPPORT. One lemma for each field of the state under each named update, so that no proof unfolds a record update. -/
namespace Sys2Proof.Machine

/-! ## The whole state -/

@[simp] theorem State.withPending_pending (s : State) (q : List Instr) : (s.withPending q).pending = q := rfl
@[simp] theorem State.withPending_aon (s : State) (q : List Instr) : (s.withPending q).aon = s.aon := rfl
@[simp] theorem State.withPending_sec (s : State) (q : List Instr) : (s.withPending q).sec = s.sec := rfl
@[simp] theorem State.withPending_pwr (s : State) (q : List Instr) : (s.withPending q).pwr = s.pwr := rfl
@[simp] theorem State.withPending_m (s : State) (q : List Instr) : (s.withPending q).m = s.m := rfl
@[simp] theorem State.withPending_self (s : State) : s.withPending s.pending = s := rfl
@[simp] theorem State.withPending_twice (s : State) (p q : List Instr) : (s.withPending p).withPending q = s.withPending q := rfl

@[simp] theorem State.withMach_pending (s : State) (m : Mach) : (s.withMach m).pending = s.pending := rfl
@[simp] theorem State.withMach_sec (s : State) (m : Mach) : (s.withMach m).sec = s.sec := rfl
@[simp] theorem State.withMach_pwr (s : State) (m : Mach) : (s.withMach m).pwr = s.pwr := rfl
@[simp] theorem State.withMach_m (s : State) (m : Mach) : (s.withMach m).m = m := rfl
@[simp] theorem State.withMach_mode (s : State) (m : Mach) : (s.withMach m).aon.mode = s.aon.mode := rfl
@[simp] theorem State.withMach_holdReason (s : State) (m : Mach) : (s.withMach m).aon.holdReason = s.aon.holdReason := rfl
@[simp] theorem State.withMach_pgood (s : State) (m : Mach) : (s.withMach m).aon.pgood = s.aon.pgood := rfl
@[simp] theorem State.withMach_tripTimes (s : State) (m : Mach) : (s.withMach m).aon.tripTimes = s.aon.tripTimes := rfl
@[simp] theorem State.withMach_failed (s : State) (m : Mach) : (s.withMach m).aon.failed = s.aon.failed := rfl
@[simp] theorem State.withMach_withPending (s : State) (m : Mach) (q : List Instr) :
    (s.withMach m).withPending q = (s.withPending q).withMach m := rfl

@[simp] theorem State.answer_pending (s : State) (a : Admin) (st : Status) (r : Word) : (s.answer a st r).pending = s.pending := rfl
@[simp] theorem State.answer_aon (s : State) (a : Admin) (st : Status) (r : Word) : (s.answer a st r).aon = s.aon := rfl
@[simp] theorem State.answer_sec (s : State) (a : Admin) (st : Status) (r : Word) : (s.answer a st r).sec = s.sec := rfl
@[simp] theorem State.answer_pwr (s : State) (a : Admin) (st : Status) (r : Word) : (s.answer a st r).pwr = s.pwr := rfl
@[simp] theorem State.answer_m (s : State) (a : Admin) (st : Status) (r : Word) : (s.answer a st r).m = s.m.answer a st r := rfl

/-! ## The core domains -/

@[simp] theorem Mach.setCl_now (m : Mach) (c : Nat) (x : Cluster) : (m.setCl c x).now = m.now := rfl
@[simp] theorem Mach.setCl_drawn (m : Mach) (c : Nat) (x : Cluster) : (m.setCl c x).drawn = m.drawn := rfl
@[simp] theorem Mach.setCl_mem (m : Mach) (c : Nat) (x : Cluster) : (m.setCl c x).mem = m.mem := rfl
@[simp] theorem Mach.setCl_comp (m : Mach) (c : Nat) (x : Cluster) : (m.setCl c x).comp = m.comp := rfl
@[simp] theorem Mach.setCl_evr (m : Mach) (c : Nat) (x : Cluster) : (m.setCl c x).evr = m.evr := rfl
@[simp] theorem Mach.setCl_ctr (m : Mach) (c : Nat) (x : Cluster) : (m.setCl c x).ctr = m.ctr := rfl
@[simp] theorem Mach.setCl_shr (m : Mach) (c : Nat) (x : Cluster) : (m.setCl c x).shr = m.shr := rfl
@[simp] theorem Mach.setCl_dmg (m : Mach) (c : Nat) (x : Cluster) : (m.setCl c x).dmg = m.dmg := rfl
@[simp] theorem Mach.setCl_hyv (m : Mach) (c : Nat) (x : Cluster) : (m.setCl c x).hyv = m.hyv := rfl
@[simp] theorem Mach.setCl_ctxs (m : Mach) (c : Nat) (x : Cluster) : (m.setCl c x).ctxs = m.ctxs := rfl
@[simp] theorem Mach.setCl_cmds (m : Mach) (c : Nat) (x : Cluster) : (m.setCl c x).cmds = m.cmds := rfl
@[simp] theorem Mach.setCl_nextSeq (m : Mach) (c : Nat) (x : Cluster) : (m.setCl c x).nextSeq = m.nextSeq := rfl
@[simp] theorem Mach.setCl_reported (m : Mach) (c : Nat) (x : Cluster) : (m.setCl c x).reported = m.reported := rfl
@[simp] theorem Mach.setCl_stacks (m : Mach) (c : Nat) (x : Cluster) : (m.setCl c x).memStacks = m.memStacks := rfl
@[simp] theorem Mach.setCl_frames (m : Mach) (c : Nat) (x : Cluster) : (m.setCl c x).frames = m.frames := rfl
@[simp] theorem Mach.setCl_refs (m : Mach) (c : Nat) (x : Cluster) : (m.setCl c x).refs = m.refs := rfl
@[simp] theorem Mach.setCl_owned (m : Mach) (c : Nat) (x : Cluster) : (m.setCl c x).owned = m.owned := rfl
@[simp] theorem Mach.setCl_ownedX (m : Mach) (c : Nat) (x : Cluster) : (m.setCl c x).ownedX = m.ownedX := rfl
@[simp] theorem Mach.setCl_engines (m : Mach) (c : Nat) (x : Cluster) : (m.setCl c x).engines = m.engines := rfl
@[simp] theorem Mach.setCl_deps (m : Mach) (c : Nat) (x : Cluster) : (m.setCl c x).deps = m.deps := rfl
@[simp] theorem Mach.setCl_addrFaults (m : Mach) (c : Nat) (x : Cluster) : (m.setCl c x).addrFaults = m.addrFaults := rfl
@[simp] theorem Mach.setCl_lostRefs (m : Mach) (c : Nat) (x : Cluster) : (m.setCl c x).lostRefs = m.lostRefs := rfl
@[simp] theorem Mach.setCl_fwHeld (m : Mach) (c : Nat) (x : Cluster) : (m.setCl c x).fwHeld = m.fwHeld := rfl
@[simp] theorem Mach.setCl_inlayWait (m : Mach) (c : Nat) (x : Cluster) : (m.setCl c x).inlayWait = m.inlayWait := rfl
@[simp] theorem Mach.setCl_windowAt (m : Mach) (c : Nat) (x : Cluster) : (m.setCl c x).windowAt = m.windowAt := rfl
@[simp] theorem Mach.setCl_running (m : Mach) (c : Nat) (x : Cluster) : (m.setCl c x).running = m.running := rfl

@[simp] theorem Mach.setSt_now (m : Mach) (k : Nat) (x : Stack) : (m.setSt k x).now = m.now := rfl
@[simp] theorem Mach.setSt_drawn (m : Mach) (k : Nat) (x : Stack) : (m.setSt k x).drawn = m.drawn := rfl
@[simp] theorem Mach.setSt_mem (m : Mach) (k : Nat) (x : Stack) : (m.setSt k x).mem = m.mem := rfl
@[simp] theorem Mach.setSt_comp (m : Mach) (k : Nat) (x : Stack) : (m.setSt k x).comp = m.comp := rfl
@[simp] theorem Mach.setSt_evr (m : Mach) (k : Nat) (x : Stack) : (m.setSt k x).evr = m.evr := rfl
@[simp] theorem Mach.setSt_ctr (m : Mach) (k : Nat) (x : Stack) : (m.setSt k x).ctr = m.ctr := rfl
@[simp] theorem Mach.setSt_shr (m : Mach) (k : Nat) (x : Stack) : (m.setSt k x).shr = m.shr := rfl
@[simp] theorem Mach.setSt_dmg (m : Mach) (k : Nat) (x : Stack) : (m.setSt k x).dmg = m.dmg := rfl
@[simp] theorem Mach.setSt_hyv (m : Mach) (k : Nat) (x : Stack) : (m.setSt k x).hyv = m.hyv := rfl
@[simp] theorem Mach.setSt_ctxs (m : Mach) (k : Nat) (x : Stack) : (m.setSt k x).ctxs = m.ctxs := rfl
@[simp] theorem Mach.setSt_cmds (m : Mach) (k : Nat) (x : Stack) : (m.setSt k x).cmds = m.cmds := rfl
@[simp] theorem Mach.setSt_nextSeq (m : Mach) (k : Nat) (x : Stack) : (m.setSt k x).nextSeq = m.nextSeq := rfl
@[simp] theorem Mach.setSt_reported (m : Mach) (k : Nat) (x : Stack) : (m.setSt k x).reported = m.reported := rfl
@[simp] theorem Mach.setSt_clusters (m : Mach) (k : Nat) (x : Stack) : (m.setSt k x).clusters = m.clusters := rfl
@[simp] theorem Mach.setSt_frames (m : Mach) (k : Nat) (x : Stack) : (m.setSt k x).frames = m.frames := rfl
@[simp] theorem Mach.setSt_refs (m : Mach) (k : Nat) (x : Stack) : (m.setSt k x).refs = m.refs := rfl
@[simp] theorem Mach.setSt_owned (m : Mach) (k : Nat) (x : Stack) : (m.setSt k x).owned = m.owned := rfl
@[simp] theorem Mach.setSt_ownedX (m : Mach) (k : Nat) (x : Stack) : (m.setSt k x).ownedX = m.ownedX := rfl
@[simp] theorem Mach.setSt_engines (m : Mach) (k : Nat) (x : Stack) : (m.setSt k x).engines = m.engines := rfl
@[simp] theorem Mach.setSt_deps (m : Mach) (k : Nat) (x : Stack) : (m.setSt k x).deps = m.deps := rfl
@[simp] theorem Mach.setSt_addrFaults (m : Mach) (k : Nat) (x : Stack) : (m.setSt k x).addrFaults = m.addrFaults := rfl
@[simp] theorem Mach.setSt_lostRefs (m : Mach) (k : Nat) (x : Stack) : (m.setSt k x).lostRefs = m.lostRefs := rfl
@[simp] theorem Mach.setSt_fwHeld (m : Mach) (k : Nat) (x : Stack) : (m.setSt k x).fwHeld = m.fwHeld := rfl
@[simp] theorem Mach.setSt_inlayWait (m : Mach) (k : Nat) (x : Stack) : (m.setSt k x).inlayWait = m.inlayWait := rfl
@[simp] theorem Mach.setSt_windowAt (m : Mach) (k : Nat) (x : Stack) : (m.setSt k x).windowAt = m.windowAt := rfl
@[simp] theorem Mach.setSt_running (m : Mach) (k : Nat) (x : Stack) : (m.setSt k x).running = m.running := rfl

@[simp] theorem Mach.setCx_now (m : Mach) (i : Nat) (x : Ctx) : (m.setCx i x).now = m.now := rfl
@[simp] theorem Mach.setCx_drawn (m : Mach) (i : Nat) (x : Ctx) : (m.setCx i x).drawn = m.drawn := rfl
@[simp] theorem Mach.setCx_mem (m : Mach) (i : Nat) (x : Ctx) : (m.setCx i x).mem = m.mem := rfl
@[simp] theorem Mach.setCx_comp (m : Mach) (i : Nat) (x : Ctx) : (m.setCx i x).comp = m.comp := rfl
@[simp] theorem Mach.setCx_evr (m : Mach) (i : Nat) (x : Ctx) : (m.setCx i x).evr = m.evr := rfl
@[simp] theorem Mach.setCx_ctr (m : Mach) (i : Nat) (x : Ctx) : (m.setCx i x).ctr = m.ctr := rfl
@[simp] theorem Mach.setCx_shr (m : Mach) (i : Nat) (x : Ctx) : (m.setCx i x).shr = m.shr := rfl
@[simp] theorem Mach.setCx_dmg (m : Mach) (i : Nat) (x : Ctx) : (m.setCx i x).dmg = m.dmg := rfl
@[simp] theorem Mach.setCx_hyv (m : Mach) (i : Nat) (x : Ctx) : (m.setCx i x).hyv = m.hyv := rfl
@[simp] theorem Mach.setCx_cmds (m : Mach) (i : Nat) (x : Ctx) : (m.setCx i x).cmds = m.cmds := rfl
@[simp] theorem Mach.setCx_nextSeq (m : Mach) (i : Nat) (x : Ctx) : (m.setCx i x).nextSeq = m.nextSeq := rfl
@[simp] theorem Mach.setCx_reported (m : Mach) (i : Nat) (x : Ctx) : (m.setCx i x).reported = m.reported := rfl
@[simp] theorem Mach.setCx_clusters (m : Mach) (i : Nat) (x : Ctx) : (m.setCx i x).clusters = m.clusters := rfl
@[simp] theorem Mach.setCx_stacks (m : Mach) (i : Nat) (x : Ctx) : (m.setCx i x).memStacks = m.memStacks := rfl
@[simp] theorem Mach.setCx_frames (m : Mach) (i : Nat) (x : Ctx) : (m.setCx i x).frames = m.frames := rfl
@[simp] theorem Mach.setCx_refs (m : Mach) (i : Nat) (x : Ctx) : (m.setCx i x).refs = m.refs := rfl
@[simp] theorem Mach.setCx_owned (m : Mach) (i : Nat) (x : Ctx) : (m.setCx i x).owned = m.owned := rfl
@[simp] theorem Mach.setCx_ownedX (m : Mach) (i : Nat) (x : Ctx) : (m.setCx i x).ownedX = m.ownedX := rfl
@[simp] theorem Mach.setCx_engines (m : Mach) (i : Nat) (x : Ctx) : (m.setCx i x).engines = m.engines := rfl
@[simp] theorem Mach.setCx_deps (m : Mach) (i : Nat) (x : Ctx) : (m.setCx i x).deps = m.deps := rfl
@[simp] theorem Mach.setCx_addrFaults (m : Mach) (i : Nat) (x : Ctx) : (m.setCx i x).addrFaults = m.addrFaults := rfl
@[simp] theorem Mach.setCx_lostRefs (m : Mach) (i : Nat) (x : Ctx) : (m.setCx i x).lostRefs = m.lostRefs := rfl
@[simp] theorem Mach.setCx_fwHeld (m : Mach) (i : Nat) (x : Ctx) : (m.setCx i x).fwHeld = m.fwHeld := rfl
@[simp] theorem Mach.setCx_inlayWait (m : Mach) (i : Nat) (x : Ctx) : (m.setCx i x).inlayWait = m.inlayWait := rfl
@[simp] theorem Mach.setCx_windowAt (m : Mach) (i : Nat) (x : Ctx) : (m.setCx i x).windowAt = m.windowAt := rfl
@[simp] theorem Mach.setCx_running (m : Mach) (i : Nat) (x : Ctx) : (m.setCx i x).running = m.running := rfl

@[simp] theorem Mach.modCl_now (m : Mach) (c : Nat) (f : Cluster → Cluster) : (m.modCl c f).now = m.now := rfl
@[simp] theorem Mach.modCl_drawn (m : Mach) (c : Nat) (f : Cluster → Cluster) : (m.modCl c f).drawn = m.drawn := rfl
@[simp] theorem Mach.modCl_mem (m : Mach) (c : Nat) (f : Cluster → Cluster) : (m.modCl c f).mem = m.mem := rfl
@[simp] theorem Mach.modCl_comp (m : Mach) (c : Nat) (f : Cluster → Cluster) : (m.modCl c f).comp = m.comp := rfl
@[simp] theorem Mach.modCl_evr (m : Mach) (c : Nat) (f : Cluster → Cluster) : (m.modCl c f).evr = m.evr := rfl
@[simp] theorem Mach.modCl_ctr (m : Mach) (c : Nat) (f : Cluster → Cluster) : (m.modCl c f).ctr = m.ctr := rfl
@[simp] theorem Mach.modCl_shr (m : Mach) (c : Nat) (f : Cluster → Cluster) : (m.modCl c f).shr = m.shr := rfl
@[simp] theorem Mach.modCl_dmg (m : Mach) (c : Nat) (f : Cluster → Cluster) : (m.modCl c f).dmg = m.dmg := rfl
@[simp] theorem Mach.modCl_hyv (m : Mach) (c : Nat) (f : Cluster → Cluster) : (m.modCl c f).hyv = m.hyv := rfl
@[simp] theorem Mach.modCl_ctxs (m : Mach) (c : Nat) (f : Cluster → Cluster) : (m.modCl c f).ctxs = m.ctxs := rfl
@[simp] theorem Mach.modCl_cmds (m : Mach) (c : Nat) (f : Cluster → Cluster) : (m.modCl c f).cmds = m.cmds := rfl
@[simp] theorem Mach.modCl_nextSeq (m : Mach) (c : Nat) (f : Cluster → Cluster) : (m.modCl c f).nextSeq = m.nextSeq := rfl
@[simp] theorem Mach.modCl_reported (m : Mach) (c : Nat) (f : Cluster → Cluster) : (m.modCl c f).reported = m.reported := rfl
@[simp] theorem Mach.modCl_stacks (m : Mach) (c : Nat) (f : Cluster → Cluster) : (m.modCl c f).memStacks = m.memStacks := rfl
@[simp] theorem Mach.modCl_frames (m : Mach) (c : Nat) (f : Cluster → Cluster) : (m.modCl c f).frames = m.frames := rfl
@[simp] theorem Mach.modCl_refs (m : Mach) (c : Nat) (f : Cluster → Cluster) : (m.modCl c f).refs = m.refs := rfl
@[simp] theorem Mach.modCl_owned (m : Mach) (c : Nat) (f : Cluster → Cluster) : (m.modCl c f).owned = m.owned := rfl
@[simp] theorem Mach.modCl_ownedX (m : Mach) (c : Nat) (f : Cluster → Cluster) : (m.modCl c f).ownedX = m.ownedX := rfl
@[simp] theorem Mach.modCl_engines (m : Mach) (c : Nat) (f : Cluster → Cluster) : (m.modCl c f).engines = m.engines := rfl
@[simp] theorem Mach.modCl_deps (m : Mach) (c : Nat) (f : Cluster → Cluster) : (m.modCl c f).deps = m.deps := rfl
@[simp] theorem Mach.modCl_addrFaults (m : Mach) (c : Nat) (f : Cluster → Cluster) : (m.modCl c f).addrFaults = m.addrFaults := rfl
@[simp] theorem Mach.modCl_lostRefs (m : Mach) (c : Nat) (f : Cluster → Cluster) : (m.modCl c f).lostRefs = m.lostRefs := rfl
@[simp] theorem Mach.modCl_fwHeld (m : Mach) (c : Nat) (f : Cluster → Cluster) : (m.modCl c f).fwHeld = m.fwHeld := rfl
@[simp] theorem Mach.modCl_inlayWait (m : Mach) (c : Nat) (f : Cluster → Cluster) : (m.modCl c f).inlayWait = m.inlayWait := rfl
@[simp] theorem Mach.modCl_windowAt (m : Mach) (c : Nat) (f : Cluster → Cluster) : (m.modCl c f).windowAt = m.windowAt := rfl
@[simp] theorem Mach.modCl_running (m : Mach) (c : Nat) (f : Cluster → Cluster) : (m.modCl c f).running = m.running := rfl

@[simp] theorem Mach.modSt_now (m : Mach) (k : Nat) (f : Stack → Stack) : (m.modSt k f).now = m.now := rfl
@[simp] theorem Mach.modSt_drawn (m : Mach) (k : Nat) (f : Stack → Stack) : (m.modSt k f).drawn = m.drawn := rfl
@[simp] theorem Mach.modSt_mem (m : Mach) (k : Nat) (f : Stack → Stack) : (m.modSt k f).mem = m.mem := rfl
@[simp] theorem Mach.modSt_comp (m : Mach) (k : Nat) (f : Stack → Stack) : (m.modSt k f).comp = m.comp := rfl
@[simp] theorem Mach.modSt_evr (m : Mach) (k : Nat) (f : Stack → Stack) : (m.modSt k f).evr = m.evr := rfl
@[simp] theorem Mach.modSt_ctr (m : Mach) (k : Nat) (f : Stack → Stack) : (m.modSt k f).ctr = m.ctr := rfl
@[simp] theorem Mach.modSt_shr (m : Mach) (k : Nat) (f : Stack → Stack) : (m.modSt k f).shr = m.shr := rfl
@[simp] theorem Mach.modSt_dmg (m : Mach) (k : Nat) (f : Stack → Stack) : (m.modSt k f).dmg = m.dmg := rfl
@[simp] theorem Mach.modSt_hyv (m : Mach) (k : Nat) (f : Stack → Stack) : (m.modSt k f).hyv = m.hyv := rfl
@[simp] theorem Mach.modSt_ctxs (m : Mach) (k : Nat) (f : Stack → Stack) : (m.modSt k f).ctxs = m.ctxs := rfl
@[simp] theorem Mach.modSt_cmds (m : Mach) (k : Nat) (f : Stack → Stack) : (m.modSt k f).cmds = m.cmds := rfl
@[simp] theorem Mach.modSt_nextSeq (m : Mach) (k : Nat) (f : Stack → Stack) : (m.modSt k f).nextSeq = m.nextSeq := rfl
@[simp] theorem Mach.modSt_reported (m : Mach) (k : Nat) (f : Stack → Stack) : (m.modSt k f).reported = m.reported := rfl
@[simp] theorem Mach.modSt_clusters (m : Mach) (k : Nat) (f : Stack → Stack) : (m.modSt k f).clusters = m.clusters := rfl
@[simp] theorem Mach.modSt_frames (m : Mach) (k : Nat) (f : Stack → Stack) : (m.modSt k f).frames = m.frames := rfl
@[simp] theorem Mach.modSt_refs (m : Mach) (k : Nat) (f : Stack → Stack) : (m.modSt k f).refs = m.refs := rfl
@[simp] theorem Mach.modSt_owned (m : Mach) (k : Nat) (f : Stack → Stack) : (m.modSt k f).owned = m.owned := rfl
@[simp] theorem Mach.modSt_ownedX (m : Mach) (k : Nat) (f : Stack → Stack) : (m.modSt k f).ownedX = m.ownedX := rfl
@[simp] theorem Mach.modSt_engines (m : Mach) (k : Nat) (f : Stack → Stack) : (m.modSt k f).engines = m.engines := rfl
@[simp] theorem Mach.modSt_deps (m : Mach) (k : Nat) (f : Stack → Stack) : (m.modSt k f).deps = m.deps := rfl
@[simp] theorem Mach.modSt_addrFaults (m : Mach) (k : Nat) (f : Stack → Stack) : (m.modSt k f).addrFaults = m.addrFaults := rfl
@[simp] theorem Mach.modSt_lostRefs (m : Mach) (k : Nat) (f : Stack → Stack) : (m.modSt k f).lostRefs = m.lostRefs := rfl
@[simp] theorem Mach.modSt_fwHeld (m : Mach) (k : Nat) (f : Stack → Stack) : (m.modSt k f).fwHeld = m.fwHeld := rfl
@[simp] theorem Mach.modSt_inlayWait (m : Mach) (k : Nat) (f : Stack → Stack) : (m.modSt k f).inlayWait = m.inlayWait := rfl
@[simp] theorem Mach.modSt_windowAt (m : Mach) (k : Nat) (f : Stack → Stack) : (m.modSt k f).windowAt = m.windowAt := rfl
@[simp] theorem Mach.modSt_running (m : Mach) (k : Nat) (f : Stack → Stack) : (m.modSt k f).running = m.running := rfl

@[simp] theorem Mach.modCx_now (m : Mach) (i : Nat) (f : Ctx → Ctx) : (m.modCx i f).now = m.now := rfl
@[simp] theorem Mach.modCx_drawn (m : Mach) (i : Nat) (f : Ctx → Ctx) : (m.modCx i f).drawn = m.drawn := rfl
@[simp] theorem Mach.modCx_mem (m : Mach) (i : Nat) (f : Ctx → Ctx) : (m.modCx i f).mem = m.mem := rfl
@[simp] theorem Mach.modCx_comp (m : Mach) (i : Nat) (f : Ctx → Ctx) : (m.modCx i f).comp = m.comp := rfl
@[simp] theorem Mach.modCx_evr (m : Mach) (i : Nat) (f : Ctx → Ctx) : (m.modCx i f).evr = m.evr := rfl
@[simp] theorem Mach.modCx_ctr (m : Mach) (i : Nat) (f : Ctx → Ctx) : (m.modCx i f).ctr = m.ctr := rfl
@[simp] theorem Mach.modCx_shr (m : Mach) (i : Nat) (f : Ctx → Ctx) : (m.modCx i f).shr = m.shr := rfl
@[simp] theorem Mach.modCx_dmg (m : Mach) (i : Nat) (f : Ctx → Ctx) : (m.modCx i f).dmg = m.dmg := rfl
@[simp] theorem Mach.modCx_hyv (m : Mach) (i : Nat) (f : Ctx → Ctx) : (m.modCx i f).hyv = m.hyv := rfl
@[simp] theorem Mach.modCx_cmds (m : Mach) (i : Nat) (f : Ctx → Ctx) : (m.modCx i f).cmds = m.cmds := rfl
@[simp] theorem Mach.modCx_nextSeq (m : Mach) (i : Nat) (f : Ctx → Ctx) : (m.modCx i f).nextSeq = m.nextSeq := rfl
@[simp] theorem Mach.modCx_reported (m : Mach) (i : Nat) (f : Ctx → Ctx) : (m.modCx i f).reported = m.reported := rfl
@[simp] theorem Mach.modCx_clusters (m : Mach) (i : Nat) (f : Ctx → Ctx) : (m.modCx i f).clusters = m.clusters := rfl
@[simp] theorem Mach.modCx_stacks (m : Mach) (i : Nat) (f : Ctx → Ctx) : (m.modCx i f).memStacks = m.memStacks := rfl
@[simp] theorem Mach.modCx_frames (m : Mach) (i : Nat) (f : Ctx → Ctx) : (m.modCx i f).frames = m.frames := rfl
@[simp] theorem Mach.modCx_refs (m : Mach) (i : Nat) (f : Ctx → Ctx) : (m.modCx i f).refs = m.refs := rfl
@[simp] theorem Mach.modCx_owned (m : Mach) (i : Nat) (f : Ctx → Ctx) : (m.modCx i f).owned = m.owned := rfl
@[simp] theorem Mach.modCx_ownedX (m : Mach) (i : Nat) (f : Ctx → Ctx) : (m.modCx i f).ownedX = m.ownedX := rfl
@[simp] theorem Mach.modCx_engines (m : Mach) (i : Nat) (f : Ctx → Ctx) : (m.modCx i f).engines = m.engines := rfl
@[simp] theorem Mach.modCx_deps (m : Mach) (i : Nat) (f : Ctx → Ctx) : (m.modCx i f).deps = m.deps := rfl
@[simp] theorem Mach.modCx_addrFaults (m : Mach) (i : Nat) (f : Ctx → Ctx) : (m.modCx i f).addrFaults = m.addrFaults := rfl
@[simp] theorem Mach.modCx_lostRefs (m : Mach) (i : Nat) (f : Ctx → Ctx) : (m.modCx i f).lostRefs = m.lostRefs := rfl
@[simp] theorem Mach.modCx_fwHeld (m : Mach) (i : Nat) (f : Ctx → Ctx) : (m.modCx i f).fwHeld = m.fwHeld := rfl
@[simp] theorem Mach.modCx_inlayWait (m : Mach) (i : Nat) (f : Ctx → Ctx) : (m.modCx i f).inlayWait = m.inlayWait := rfl
@[simp] theorem Mach.modCx_windowAt (m : Mach) (i : Nat) (f : Ctx → Ctx) : (m.modCx i f).windowAt = m.windowAt := rfl
@[simp] theorem Mach.modCx_running (m : Mach) (i : Nat) (f : Ctx → Ctx) : (m.modCx i f).running = m.running := rfl

@[simp] theorem Mach.count_now (m : Mach) (a b c n : Nat) : (m.count a b c n).now = m.now := rfl
@[simp] theorem Mach.count_drawn (m : Mach) (a b c n : Nat) : (m.count a b c n).drawn = m.drawn := rfl
@[simp] theorem Mach.count_mem (m : Mach) (a b c n : Nat) : (m.count a b c n).mem = m.mem := rfl
@[simp] theorem Mach.count_comp (m : Mach) (a b c n : Nat) : (m.count a b c n).comp = m.comp := rfl
@[simp] theorem Mach.count_evr (m : Mach) (a b c n : Nat) : (m.count a b c n).evr = m.evr := rfl
@[simp] theorem Mach.count_shr (m : Mach) (a b c n : Nat) : (m.count a b c n).shr = m.shr := rfl
@[simp] theorem Mach.count_dmg (m : Mach) (a b c n : Nat) : (m.count a b c n).dmg = m.dmg := rfl
@[simp] theorem Mach.count_hyv (m : Mach) (a b c n : Nat) : (m.count a b c n).hyv = m.hyv := rfl
@[simp] theorem Mach.count_ctxs (m : Mach) (a b c n : Nat) : (m.count a b c n).ctxs = m.ctxs := rfl
@[simp] theorem Mach.count_cmds (m : Mach) (a b c n : Nat) : (m.count a b c n).cmds = m.cmds := rfl
@[simp] theorem Mach.count_nextSeq (m : Mach) (a b c n : Nat) : (m.count a b c n).nextSeq = m.nextSeq := rfl
@[simp] theorem Mach.count_reported (m : Mach) (a b c n : Nat) : (m.count a b c n).reported = m.reported := rfl
@[simp] theorem Mach.count_clusters (m : Mach) (a b c n : Nat) : (m.count a b c n).clusters = m.clusters := rfl
@[simp] theorem Mach.count_stacks (m : Mach) (a b c n : Nat) : (m.count a b c n).memStacks = m.memStacks := rfl
@[simp] theorem Mach.count_frames (m : Mach) (a b c n : Nat) : (m.count a b c n).frames = m.frames := rfl
@[simp] theorem Mach.count_refs (m : Mach) (a b c n : Nat) : (m.count a b c n).refs = m.refs := rfl
@[simp] theorem Mach.count_owned (m : Mach) (a b c n : Nat) : (m.count a b c n).owned = m.owned := rfl
@[simp] theorem Mach.count_ownedX (m : Mach) (a b c n : Nat) : (m.count a b c n).ownedX = m.ownedX := rfl
@[simp] theorem Mach.count_engines (m : Mach) (a b c n : Nat) : (m.count a b c n).engines = m.engines := rfl
@[simp] theorem Mach.count_deps (m : Mach) (a b c n : Nat) : (m.count a b c n).deps = m.deps := rfl
@[simp] theorem Mach.count_addrFaults (m : Mach) (a b c n : Nat) : (m.count a b c n).addrFaults = m.addrFaults := rfl
@[simp] theorem Mach.count_lostRefs (m : Mach) (a b c n : Nat) : (m.count a b c n).lostRefs = m.lostRefs := rfl
@[simp] theorem Mach.count_fwHeld (m : Mach) (a b c n : Nat) : (m.count a b c n).fwHeld = m.fwHeld := rfl
@[simp] theorem Mach.count_inlayWait (m : Mach) (a b c n : Nat) : (m.count a b c n).inlayWait = m.inlayWait := rfl
@[simp] theorem Mach.count_windowAt (m : Mach) (a b c n : Nat) : (m.count a b c n).windowAt = m.windowAt := rfl
@[simp] theorem Mach.count_running (m : Mach) (a b c n : Nat) : (m.count a b c n).running = m.running := rfl

@[simp] theorem Mach.answer_now (m : Mach) (a : Admin) (st : Status) (r : Word) : (m.answer a st r).now = m.now := rfl
@[simp] theorem Mach.answer_drawn (m : Mach) (a : Admin) (st : Status) (r : Word) : (m.answer a st r).drawn = m.drawn := rfl
@[simp] theorem Mach.answer_mem (m : Mach) (a : Admin) (st : Status) (r : Word) : (m.answer a st r).mem = m.mem := rfl
@[simp] theorem Mach.answer_comp (m : Mach) (a : Admin) (st : Status) (r : Word) : (m.answer a st r).comp = m.comp := rfl
@[simp] theorem Mach.answer_evr (m : Mach) (a : Admin) (st : Status) (r : Word) : (m.answer a st r).evr = m.evr := rfl
@[simp] theorem Mach.answer_ctr (m : Mach) (a : Admin) (st : Status) (r : Word) : (m.answer a st r).ctr = m.ctr := rfl
@[simp] theorem Mach.answer_shr (m : Mach) (a : Admin) (st : Status) (r : Word) : (m.answer a st r).shr = m.shr := rfl
@[simp] theorem Mach.answer_dmg (m : Mach) (a : Admin) (st : Status) (r : Word) : (m.answer a st r).dmg = m.dmg := rfl
@[simp] theorem Mach.answer_ctxs (m : Mach) (a : Admin) (st : Status) (r : Word) : (m.answer a st r).ctxs = m.ctxs := rfl
@[simp] theorem Mach.answer_cmds (m : Mach) (a : Admin) (st : Status) (r : Word) : (m.answer a st r).cmds = m.cmds := rfl
@[simp] theorem Mach.answer_nextSeq (m : Mach) (a : Admin) (st : Status) (r : Word) : (m.answer a st r).nextSeq = m.nextSeq := rfl
@[simp] theorem Mach.answer_reported (m : Mach) (a : Admin) (st : Status) (r : Word) : (m.answer a st r).reported = m.reported := rfl
@[simp] theorem Mach.answer_clusters (m : Mach) (a : Admin) (st : Status) (r : Word) : (m.answer a st r).clusters = m.clusters := rfl
@[simp] theorem Mach.answer_stacks (m : Mach) (a : Admin) (st : Status) (r : Word) : (m.answer a st r).memStacks = m.memStacks := rfl
@[simp] theorem Mach.answer_frames (m : Mach) (a : Admin) (st : Status) (r : Word) : (m.answer a st r).frames = m.frames := rfl
@[simp] theorem Mach.answer_refs (m : Mach) (a : Admin) (st : Status) (r : Word) : (m.answer a st r).refs = m.refs := rfl
@[simp] theorem Mach.answer_owned (m : Mach) (a : Admin) (st : Status) (r : Word) : (m.answer a st r).owned = m.owned := rfl
@[simp] theorem Mach.answer_ownedX (m : Mach) (a : Admin) (st : Status) (r : Word) : (m.answer a st r).ownedX = m.ownedX := rfl
@[simp] theorem Mach.answer_engines (m : Mach) (a : Admin) (st : Status) (r : Word) : (m.answer a st r).engines = m.engines := rfl
@[simp] theorem Mach.answer_deps (m : Mach) (a : Admin) (st : Status) (r : Word) : (m.answer a st r).deps = m.deps := rfl
@[simp] theorem Mach.answer_addrFaults (m : Mach) (a : Admin) (st : Status) (r : Word) : (m.answer a st r).addrFaults = m.addrFaults := rfl
@[simp] theorem Mach.answer_lostRefs (m : Mach) (a : Admin) (st : Status) (r : Word) : (m.answer a st r).lostRefs = m.lostRefs := rfl
@[simp] theorem Mach.answer_fwHeld (m : Mach) (a : Admin) (st : Status) (r : Word) : (m.answer a st r).fwHeld = m.fwHeld := rfl
@[simp] theorem Mach.answer_inlayWait (m : Mach) (a : Admin) (st : Status) (r : Word) : (m.answer a st r).inlayWait = m.inlayWait := rfl
@[simp] theorem Mach.answer_windowAt (m : Mach) (a : Admin) (st : Status) (r : Word) : (m.answer a st r).windowAt = m.windowAt := rfl
@[simp] theorem Mach.answer_running (m : Mach) (a : Admin) (st : Status) (r : Word) : (m.answer a st r).running = m.running := rfl

@[simp] theorem Mach.postOutcome_now (m : Mach) (t : Word) (op : Nat) (st : Status) (r : Word) : (m.postOutcome t op st r).now = m.now := rfl
@[simp] theorem Mach.postOutcome_drawn (m : Mach) (t : Word) (op : Nat) (st : Status) (r : Word) : (m.postOutcome t op st r).drawn = m.drawn := rfl
@[simp] theorem Mach.postOutcome_mem (m : Mach) (t : Word) (op : Nat) (st : Status) (r : Word) : (m.postOutcome t op st r).mem = m.mem := rfl
@[simp] theorem Mach.postOutcome_comp (m : Mach) (t : Word) (op : Nat) (st : Status) (r : Word) : (m.postOutcome t op st r).comp = m.comp := rfl
@[simp] theorem Mach.postOutcome_evr (m : Mach) (t : Word) (op : Nat) (st : Status) (r : Word) : (m.postOutcome t op st r).evr = m.evr := rfl
@[simp] theorem Mach.postOutcome_ctr (m : Mach) (t : Word) (op : Nat) (st : Status) (r : Word) : (m.postOutcome t op st r).ctr = m.ctr := rfl
@[simp] theorem Mach.postOutcome_shr (m : Mach) (t : Word) (op : Nat) (st : Status) (r : Word) : (m.postOutcome t op st r).shr = m.shr := rfl
@[simp] theorem Mach.postOutcome_dmg (m : Mach) (t : Word) (op : Nat) (st : Status) (r : Word) : (m.postOutcome t op st r).dmg = m.dmg := rfl
@[simp] theorem Mach.postOutcome_ctxs (m : Mach) (t : Word) (op : Nat) (st : Status) (r : Word) : (m.postOutcome t op st r).ctxs = m.ctxs := rfl
@[simp] theorem Mach.postOutcome_cmds (m : Mach) (t : Word) (op : Nat) (st : Status) (r : Word) : (m.postOutcome t op st r).cmds = m.cmds := rfl
@[simp] theorem Mach.postOutcome_nextSeq (m : Mach) (t : Word) (op : Nat) (st : Status) (r : Word) : (m.postOutcome t op st r).nextSeq = m.nextSeq := rfl
@[simp] theorem Mach.postOutcome_reported (m : Mach) (t : Word) (op : Nat) (st : Status) (r : Word) : (m.postOutcome t op st r).reported = m.reported := rfl
@[simp] theorem Mach.postOutcome_clusters (m : Mach) (t : Word) (op : Nat) (st : Status) (r : Word) : (m.postOutcome t op st r).clusters = m.clusters := rfl
@[simp] theorem Mach.postOutcome_stacks (m : Mach) (t : Word) (op : Nat) (st : Status) (r : Word) : (m.postOutcome t op st r).memStacks = m.memStacks := rfl
@[simp] theorem Mach.postOutcome_frames (m : Mach) (t : Word) (op : Nat) (st : Status) (r : Word) : (m.postOutcome t op st r).frames = m.frames := rfl
@[simp] theorem Mach.postOutcome_refs (m : Mach) (t : Word) (op : Nat) (st : Status) (r : Word) : (m.postOutcome t op st r).refs = m.refs := rfl
@[simp] theorem Mach.postOutcome_owned (m : Mach) (t : Word) (op : Nat) (st : Status) (r : Word) : (m.postOutcome t op st r).owned = m.owned := rfl
@[simp] theorem Mach.postOutcome_ownedX (m : Mach) (t : Word) (op : Nat) (st : Status) (r : Word) : (m.postOutcome t op st r).ownedX = m.ownedX := rfl
@[simp] theorem Mach.postOutcome_engines (m : Mach) (t : Word) (op : Nat) (st : Status) (r : Word) : (m.postOutcome t op st r).engines = m.engines := rfl
@[simp] theorem Mach.postOutcome_deps (m : Mach) (t : Word) (op : Nat) (st : Status) (r : Word) : (m.postOutcome t op st r).deps = m.deps := rfl
@[simp] theorem Mach.postOutcome_addrFaults (m : Mach) (t : Word) (op : Nat) (st : Status) (r : Word) : (m.postOutcome t op st r).addrFaults = m.addrFaults := rfl
@[simp] theorem Mach.postOutcome_lostRefs (m : Mach) (t : Word) (op : Nat) (st : Status) (r : Word) : (m.postOutcome t op st r).lostRefs = m.lostRefs := rfl
@[simp] theorem Mach.postOutcome_fwHeld (m : Mach) (t : Word) (op : Nat) (st : Status) (r : Word) : (m.postOutcome t op st r).fwHeld = m.fwHeld := rfl
@[simp] theorem Mach.postOutcome_inlayWait (m : Mach) (t : Word) (op : Nat) (st : Status) (r : Word) : (m.postOutcome t op st r).inlayWait = m.inlayWait := rfl
@[simp] theorem Mach.postOutcome_windowAt (m : Mach) (t : Word) (op : Nat) (st : Status) (r : Word) : (m.postOutcome t op st r).windowAt = m.windowAt := rfl
@[simp] theorem Mach.postOutcome_running (m : Mach) (t : Word) (op : Nat) (st : Status) (r : Word) : (m.postOutcome t op st r).running = m.running := rfl

/-! ## Units read after they are replaced -/

theorem Mach.cl_setCl (m : Mach) (c j : Nat) (x : Cluster) : (m.setCl c x).cl j = if j = c then x else m.cl j := Tab.get_put ..
theorem Mach.st_setSt (m : Mach) (k j : Nat) (x : Stack) : (m.setSt k x).st j = if j = k then x else m.st j := Tab.get_put ..
theorem Mach.cx_setCx (m : Mach) (i j : Nat) (x : Ctx) : (m.setCx i x).cx j = if j = i then x else m.cx j := Tab.get_put ..
theorem Mach.cl_modCl (m : Mach) (c j : Nat) (f : Cluster → Cluster) : (m.modCl c f).cl j = if j = c then f (m.cl c) else m.cl j := Tab.get_put ..
theorem Mach.st_modSt (m : Mach) (k j : Nat) (f : Stack → Stack) : (m.modSt k f).st j = if j = k then f (m.st k) else m.st j := Tab.get_put ..
theorem Mach.cx_modCx (m : Mach) (i j : Nat) (f : Ctx → Ctx) : (m.modCx i f).cx j = if j = i then f (m.cx i) else m.cx j := Tab.get_put ..
@[simp] theorem Mach.cl_setCl_same (m : Mach) (c : Nat) (x : Cluster) : (m.setCl c x).cl c = x := Tab.get_put_same ..
@[simp] theorem Mach.st_setSt_same (m : Mach) (k : Nat) (x : Stack) : (m.setSt k x).st k = x := Tab.get_put_same ..
@[simp] theorem Mach.cx_setCx_same (m : Mach) (i : Nat) (x : Ctx) : (m.setCx i x).cx i = x := Tab.get_put_same ..
@[simp] theorem Mach.cl_modCl_same (m : Mach) (c : Nat) (f : Cluster → Cluster) : (m.modCl c f).cl c = f (m.cl c) := Tab.get_put_same ..
@[simp] theorem Mach.st_modSt_same (m : Mach) (k : Nat) (f : Stack → Stack) : (m.modSt k f).st k = f (m.st k) := Tab.get_put_same ..
@[simp] theorem Mach.cx_modCx_same (m : Mach) (i : Nat) (f : Ctx → Ctx) : (m.modCx i f).cx i = f (m.cx i) := Tab.get_put_same ..

/-! ## The event recorder -/

@[simp] theorem Mach.post_now (m : Mach) (e : Ev) (c : Option Nat) (u : UnitId) (w : List Word) : (m.post e c u w).now = m.now := rfl
@[simp] theorem Mach.post_drawn (m : Mach) (e : Ev) (c : Option Nat) (u : UnitId) (w : List Word) : (m.post e c u w).drawn = m.drawn := rfl
@[simp] theorem Mach.post_mem (m : Mach) (e : Ev) (c : Option Nat) (u : UnitId) (w : List Word) : (m.post e c u w).mem = m.mem := rfl
@[simp] theorem Mach.post_comp (m : Mach) (e : Ev) (c : Option Nat) (u : UnitId) (w : List Word) : (m.post e c u w).comp = m.comp := rfl
@[simp] theorem Mach.post_ctr (m : Mach) (e : Ev) (c : Option Nat) (u : UnitId) (w : List Word) : (m.post e c u w).ctr = m.ctr := rfl
@[simp] theorem Mach.post_shr (m : Mach) (e : Ev) (c : Option Nat) (u : UnitId) (w : List Word) : (m.post e c u w).shr = m.shr := rfl
@[simp] theorem Mach.post_dmg (m : Mach) (e : Ev) (c : Option Nat) (u : UnitId) (w : List Word) : (m.post e c u w).dmg = m.dmg := rfl
@[simp] theorem Mach.post_hyv (m : Mach) (e : Ev) (c : Option Nat) (u : UnitId) (w : List Word) : (m.post e c u w).hyv = m.hyv := rfl
@[simp] theorem Mach.post_ctxs (m : Mach) (e : Ev) (c : Option Nat) (u : UnitId) (w : List Word) : (m.post e c u w).ctxs = m.ctxs := rfl
@[simp] theorem Mach.post_cmds (m : Mach) (e : Ev) (c : Option Nat) (u : UnitId) (w : List Word) : (m.post e c u w).cmds = m.cmds := rfl
@[simp] theorem Mach.post_nextSeq (m : Mach) (e : Ev) (c : Option Nat) (u : UnitId) (w : List Word) : (m.post e c u w).nextSeq = m.nextSeq := rfl
@[simp] theorem Mach.post_reported (m : Mach) (e : Ev) (c : Option Nat) (u : UnitId) (w : List Word) : (m.post e c u w).reported = m.reported := rfl
@[simp] theorem Mach.post_clusters (m : Mach) (e : Ev) (c : Option Nat) (u : UnitId) (w : List Word) : (m.post e c u w).clusters = m.clusters := rfl
@[simp] theorem Mach.post_stacks (m : Mach) (e : Ev) (c : Option Nat) (u : UnitId) (w : List Word) : (m.post e c u w).memStacks = m.memStacks := rfl
@[simp] theorem Mach.post_frames (m : Mach) (e : Ev) (c : Option Nat) (u : UnitId) (w : List Word) : (m.post e c u w).frames = m.frames := rfl
@[simp] theorem Mach.post_refs (m : Mach) (e : Ev) (c : Option Nat) (u : UnitId) (w : List Word) : (m.post e c u w).refs = m.refs := rfl
@[simp] theorem Mach.post_owned (m : Mach) (e : Ev) (c : Option Nat) (u : UnitId) (w : List Word) : (m.post e c u w).owned = m.owned := rfl
@[simp] theorem Mach.post_ownedX (m : Mach) (e : Ev) (c : Option Nat) (u : UnitId) (w : List Word) : (m.post e c u w).ownedX = m.ownedX := rfl
@[simp] theorem Mach.post_engines (m : Mach) (e : Ev) (c : Option Nat) (u : UnitId) (w : List Word) : (m.post e c u w).engines = m.engines := rfl
@[simp] theorem Mach.post_deps (m : Mach) (e : Ev) (c : Option Nat) (u : UnitId) (w : List Word) : (m.post e c u w).deps = m.deps := rfl
@[simp] theorem Mach.post_addrFaults (m : Mach) (e : Ev) (c : Option Nat) (u : UnitId) (w : List Word) : (m.post e c u w).addrFaults = m.addrFaults := rfl
@[simp] theorem Mach.post_lostRefs (m : Mach) (e : Ev) (c : Option Nat) (u : UnitId) (w : List Word) : (m.post e c u w).lostRefs = m.lostRefs := rfl
@[simp] theorem Mach.post_fwHeld (m : Mach) (e : Ev) (c : Option Nat) (u : UnitId) (w : List Word) : (m.post e c u w).fwHeld = m.fwHeld := rfl
@[simp] theorem Mach.post_inlayWait (m : Mach) (e : Ev) (c : Option Nat) (u : UnitId) (w : List Word) : (m.post e c u w).inlayWait = m.inlayWait := rfl
@[simp] theorem Mach.post_windowAt (m : Mach) (e : Ev) (c : Option Nat) (u : UnitId) (w : List Word) : (m.post e c u w).windowAt = m.windowAt := rfl
@[simp] theorem Mach.post_running (m : Mach) (e : Ev) (c : Option Nat) (u : UnitId) (w : List Word) : (m.post e c u w).running = m.running := rfl

/-- Posting changes the recorder alone. -/
theorem Mach.post_eq (m : Mach) (e : Ev) (c : Option Nat) (u : UnitId) (w : List Word) :
    m.post e c u w = { m with evr := (m.post e c u w).evr } := rfl

/-- What posting does: one record arrives (R655). -/
theorem Mach.post_evr (m : Mach) (e : Ev) (c : Option Nat) (u : UnitId) (w : List Word) :
    (m.post e c u w).evr = m.evr.keepCounts (m.evr.arrive ⟨e, c, e.sev, u, m.now, 0, w, false⟩) := rfl

/-- While the recorder's bookkeeping counts, a change of its counts stands. -/
theorem Evr.keepCounts_counting {r : Evr} (n : Evr) (h : r.suspended = false) : r.keepCounts n = n := by
  unfold Evr.keepCounts; rw [h]; rfl

/-- Suspended counts do not change (R643). -/
theorem Evr.keepCounts_suspended {r : Evr} (n : Evr) (h : r.suspended = true) :
    (r.keepCounts n).produced = r.produced ∧ (r.keepCounts n).overwritten = r.overwritten
      ∧ (r.keepCounts n).droppedFull = r.droppedFull ∧ (r.keepCounts n).droppedRate = r.droppedRate := by
  unfold Evr.keepCounts; rw [h]; exact ⟨rfl, rfl, rfl, rfl⟩

end Sys2Proof.Machine
end

