-- ==== Sys2Proof/Laws/Memory.lean ====
section
/-! SUPPORT. The laws of protected memories: every operation keeps the canonical form, and a read after a write. -/
namespace Sys2Proof.Machine

/-! ## Numbers of bytes -/

@[simp] theorem leBytes_length (n v : Nat) : (leBytes n v).length = n := by
  induction n generalizing v with
  | zero => rfl
  | succ n ih => simp [leBytes, ih]

theorem leNat_leBytes (n v : Nat) (h : v < 256 ^ n) : leNat (leBytes n v) = v := by
  induction n generalizing v with
  | zero => simp [leBytes, leNat] at *; omega
  | succ n ih =>
    have : v / 256 < 256 ^ n := by rw [Nat.pow_succ] at h; omega
    simp only [leBytes, leNat, ih _ this, BitVec.toNat_ofNat]
    omega

/-! ## The canonical form -/

theorem Tab.wfFrom_filter {α : Type} [DecidableEq α] {d : α} {lo : Option Nat} {t : Tab α} (p : Nat × α → Bool)
    (h : Tab.wfFrom d lo t = true) : Tab.wfFrom d lo (t.filter p) = true := by
  induction t generalizing lo with
  | nil => rfl
  | cons e r ih =>
    obtain ⟨k, v⟩ := e
    simp only [Tab.wfFrom, Bool.and_eq_true] at h
    rw [List.filter_cons]
    split
    · simp only [Tab.wfFrom, Bool.and_eq_true]; exact ⟨h.1, ih h.2⟩
    · refine ih ?_
      cases lo with
      | none => exact Tab.wfFrom_none h.2
      | some l => exact Tab.wfFrom_lower (Nat.le_of_lt (by simpa using h.1.1)) h.2

theorem Ram.wf_iff (r : Ram) : r.wf = true ↔ Tab.wf 0 r.bytes = true ∧ Tab.wf false r.poison = true ∧ Tab.wf 0 r.flips = true := by
  simp [Ram.wf, and_assoc]

/-- A memory with nothing listed, as every memory is at reset, has the canonical form. -/
theorem Ram.wf_empty : ({} : Ram).wf = true := by decide

theorem Ram.wf_putByte {r : Ram} (a : Nat) (b : Byte) (h : r.wf = true) : (r.putByte a b).wf = true := by
  rw [Ram.wf_iff] at *; exact ⟨Tab.wf_put a b h.1, h.2⟩

theorem Ram.wf_putBytes {r : Ram} (a : Nat) (l : List Byte) (h : r.wf = true) : (r.putBytes a l).wf = true := by
  induction l generalizing r a with
  | nil => exact h
  | cons b t ih => exact ih (a + 1) (Ram.wf_putByte a b h)

theorem Ram.putBytes_poison (r : Ram) (a : Nat) (l : List Byte) : (r.putBytes a l).poison = r.poison := by
  induction l generalizing r a with
  | nil => rfl
  | cons b t ih => exact ih _ _

theorem Ram.putBytes_flips (r : Ram) (a : Nat) (l : List Byte) : (r.putBytes a l).flips = r.flips := by
  induction l generalizing r a with
  | nil => rfl
  | cons b t ih => exact ih _ _

theorem Ram.wf_putWord {r : Ram} (w : Nat) (v : PWord) (h : r.wf = true) : (r.putWord w v).wf = true := by
  have hb := Ram.wf_putBytes (8 * w) (leBytes 8 v.val.toNat) h
  rw [Ram.wf_iff] at *
  exact ⟨hb.1, Tab.wf_put w v.poison hb.2.1, Tab.wf_put w 0 hb.2.2⟩

theorem Ram.wf_flip {r : Ram} (w : Nat) (e : BitVec 72) (h : r.wf = true) : (r.flip w e).wf = true := by
  rw [Ram.wf_iff] at *; exact ⟨h.1, h.2.1, Tab.wf_upd w (· ^^^ e) h.2.2⟩

theorem Ram.wf_copyWord {r : Ram} (a b : Nat) (h : r.wf = true) : (r.copyWord a b).wf = true := by
  have hp := Ram.wf_putWord b ⟨r.word a, Tab.get false r.poison a⟩ h
  rw [Ram.wf_iff] at *
  exact ⟨hp.1, hp.2.1, Tab.wf_put b (Tab.get 0 r.flips a) hp.2.2⟩

/-- A fold keeps what each of its steps keeps. -/
theorem foldl_keeps {α β : Type} {P : β → Prop} (f : β → α → β) (l : List α) (b : β) (h : P b) (hf : ∀ b a, P b → P (f b a)) :
    P (l.foldl f b) := by
  induction l generalizing b with
  | nil => exact h
  | cons a t ih => exact ih (f b a) (hf b a h)

theorem Ram.wf_write {r : Ram} (a : Nat) (l : List Byte) (p : Bool) (h : r.wf = true) : (r.write a l p).wf = true :=
  foldl_keeps (P := fun r : Ram => r.wf = true) _ _ _ h fun _ _ hb => Ram.wf_putWord _ _ hb

theorem Mach.wf_writeWord {m : Mach} (dpa : Nat) (v : PWord) (h : m.mem.wf = true) : (m.writeWord dpa v).mem.wf = true := by
  unfold Mach.writeWord; split
  · exact h
  · exact Ram.wf_putWord _ _ h

theorem Mach.wf_writeBytes {m : Mach} (dpa : Nat) (l : List Byte) (p : Bool) (h : m.mem.wf = true) :
    (m.writeBytes dpa l p).mem.wf = true :=
  foldl_keeps (P := fun m : Mach => m.mem.wf = true) _ _ _ h fun b a hb => by
    cases h : b.reach a with
    | none => simpa only [h] using hb
    | some c => simpa only [h] using Ram.wf_putWord _ _ hb

theorem Mach.wf_writeVa {m : Mach} (tr : Nat → Option Nat) (va : Nat) (l : List Byte) (p : Bool) (h : m.mem.wf = true) :
    (m.writeVa tr va l p).mem.wf = true :=
  foldl_keeps (P := fun m : Mach => m.mem.wf = true) _ _ _ h fun b a hb => by
    cases h : tr a.1 with
    | none => simpa only [h] using hb
    | some d => simpa only [h] using Mach.wf_writeBytes _ _ _ hb

theorem Mach.wf_putRow {m : Mach} (c v p : Nat) (h : m.mem.wf = true) : (m.putRow c v p).mem.wf = true :=
  foldl_keeps (P := fun x : Ram × Nat × Nat => x.1.wf = true) _ _ _ h fun _ _ hb => Ram.wf_putWord _ _ hb

theorem Mach.wf_zeroRows {m : Mach} (rows : List Nat) (h : m.mem.wf = true) : (m.zeroRows rows).mem.wf = true := by
  rw [Ram.wf_iff] at *
  exact ⟨Tab.wfFrom_filter _ h.1, Tab.wfFrom_filter _ h.2.1, Tab.wfFrom_filter _ h.2.2⟩

theorem Mach.wf_copyRow {m : Mach} (a b : Nat) (h : m.mem.wf = true) : (m.copyRow a b).mem.wf = true :=
  foldl_keeps (P := fun r : Ram => r.wf = true) _ _ _ h fun _ _ hb => Ram.wf_copyWord _ _ hb

/-- A copy of a frame changes memory alone. -/
theorem Mach.copyFrame_eq (m : Mach) (a b : Nat) : m.copyFrame a b = { m with mem := (m.copyFrame a b).mem } := by
  unfold Mach.copyFrame
  generalize (frameRows a).zip (frameRows b) = l
  induction l generalizing m with
  | nil => rfl
  | cons r l ih => rw [List.foldl_cons, ih]; rfl

theorem Mach.wf_copyFrame {m : Mach} (a b : Nat) (h : m.mem.wf = true) : (m.copyFrame a b).mem.wf = true :=
  foldl_keeps (P := fun m : Mach => m.mem.wf = true) _ _ _ h fun _ _ hb => Mach.wf_copyRow _ _ hb

/-! ## A read after a write -/

@[simp] theorem Ram.byte_putByte (r : Ram) (a b : Nat) (x : Byte) : (r.putByte a x).byte b = if b = a then x else r.byte b :=
  Tab.get_put ..

theorem Ram.byte_putBytes (r : Ram) (a b : Nat) (l : List Byte) :
    (r.putBytes a l).byte b = if a ≤ b ∧ b < a + l.length then l.getD (b - a) 0 else r.byte b := by
  induction l generalizing r a with
  | nil => have : ¬ (a ≤ b ∧ b < a) := by omega
           simp [Ram.putBytes, this]
  | cons x t ih =>
    simp only [Ram.putBytes, ih, Ram.byte_putByte, List.length_cons]
    by_cases h : b = a
    · subst h
      have h1 : ¬ (b + 1 ≤ b ∧ b < b + 1 + t.length) := by omega
      rw [if_neg h1, if_pos rfl, if_pos (by omega)]; simp
    · by_cases hr : a + 1 ≤ b ∧ b < a + 1 + t.length
      · have h2 : a ≤ b ∧ b < a + (t.length + 1) := by omega
        have h3 : b - a = (b - (a + 1)) + 1 := by omega
        rw [if_pos hr, if_pos h2, h3, List.getD_cons_succ]
      · have h2 : ¬ (a ≤ b ∧ b < a + (t.length + 1)) := by omega
        rw [if_neg hr, if_neg h2, if_neg h]

/-- Bytes outside a word written keep their values. -/
theorem Ram.byte_putWord_other (r : Ram) (w b : Nat) (v : PWord) (h : b / 8 ≠ w) : (r.putWord w v).byte b = r.byte b := by
  have : (r.putWord w v).byte b = (r.putBytes (8 * w) (leBytes 8 v.val.toNat)).byte b := rfl
  rw [this, Ram.byte_putBytes, leBytes_length, if_neg (by omega)]

end Sys2Proof.Machine
end

