-- ==== Sys2Proof/Laws/Choice.lean ====
section
/-! SUPPORT. What a free choice can answer, whatever it is: an entry of its list, and the only one of a list of one; so a frame or
a draft is found wherever one of the list is available, and the only candidate cluster is the one chosen. -/
namespace Sys2Proof.Machine

/-- The machine after one free choice. -/
def Mach.draw (m : Mach) : Mach := { m with drawn := m.drawn + 1 }

@[simp] theorem Mach.pick_one {α : Type} (m : Mach) (a : α) : m.pick [a] = (some a, m.draw) := rfl

@[simp] theorem Mach.pick_nil {α : Type} (m : Mach) : m.pick ([] : List α) = (none, m.draw) := rfl

/-- A choice from a list that is not empty answers one of its entries. -/
theorem Mach.pick_mem {α : Type} (m : Mach) (l : List α) (h : l ≠ []) : ∃ a ∈ l, m.pick l = (some a, m.draw) := by
  match l, h with
  | [a], _ => exact ⟨a, List.mem_singleton_self a, rfl⟩
  | a :: b :: r, _ =>
    have hi : Config.freeChoice m.drawn % ((b :: r).length + 1) < (a :: b :: r).length := Nat.mod_lt _ (Nat.succ_pos _)
    exact ⟨(a :: b :: r)[Config.freeChoice m.drawn % ((b :: r).length + 1)], List.getElem_mem hi, Prod.ext (List.getElem?_eq_getElem hi) rfl⟩

/-- What a choice answers is an entry of its list. -/
theorem Mach.pick_some {α : Type} {m m' : Mach} {l : List α} {a : α} (h : m.pick l = (some a, m')) : a ∈ l ∧ m' = m.draw := by
  by_cases hl : l = []
  · subst hl; simp at h
  · obtain ⟨b, hb, e⟩ := m.pick_mem l hl
    rw [e] at h; cases h; exact ⟨hb, rfl⟩

/-- A frame of a list is found where one is available, and it is one of the list that was. -/
theorem Mach.takeOf_some (m : Mach) (l : List Nat) (u : FrameUse) {f : Nat} (hf : f ∈ l) (ha : m.available f = true) :
    ∃ g ∈ l, m.available g = true ∧ m.takeOf l u = some (g, m.draw.setFrame g u) := by
  obtain ⟨g, hg, e⟩ := m.pick_mem (l.filter m.available) (List.ne_nil_of_mem (List.mem_filter.mpr ⟨hf, ha⟩))
  exact ⟨g, (List.mem_filter.mp hg).1, (List.mem_filter.mp hg).2, by simp [Mach.takeOf, e]⟩

/-- One cluster is wanted and one candidate is vacant: it is chosen. -/
theorem Mach.chooseClusters_one (m : Mach) (cls c : Nat) (h : (m.cl c).vacant = true) : m.chooseClusters cls 1 [c] = (some [c], m.draw) := by
  by_cases hc : cls = 0 <;> simp [Mach.chooseClusters, Mach.pickMany, h, hc]

/-- A search finds something where one of the numbers it tries will do. -/
theorem findFrom_some (p : Nat → Bool) : ∀ (n i k : Nat), k < n → p (i + k) = true → ∃ j, findFrom p n i = some j ∧ p j = true
  | 0, _, k, h, _ => by omega
  | n + 1, i, k, h, hp => by
    unfold findFrom
    by_cases hi : p i = true
    · exact ⟨i, by simp [hi], hi⟩
    · obtain ⟨k, rfl⟩ : ∃ l, k = l + 1 := ⟨k - 1, by rcases k with _ | k <;> simp_all⟩
      simpa [hi] using findFrom_some p n (i + 1) k (by omega) (by rw [← hp]; congr 1; omega)

/-- Some frame of the module is found where one is available. -/
theorem Mach.takeAny_some (m : Mach) (u : FrameUse) {f : Nat} (hf : f < 12 * 2 ^ 20) (ha : m.available f = true) :
    ∃ g, m.available g = true ∧ m.takeAny u = some (g, m.draw.setFrame g u) := by
  have hs : Config.freeChoice m.drawn % (12 * 2 ^ 20) < 12 * 2 ^ 20 := Nat.mod_lt _ (by omega)
  obtain ⟨j, hj, hp⟩ := findFrom_some (fun i => m.draw.available (i % (12 * 2 ^ 20))) (12 * 2 ^ 20) (Config.freeChoice m.drawn % (12 * 2 ^ 20))
    ((f + 12 * 2 ^ 20 - Config.freeChoice m.drawn % (12 * 2 ^ 20)) % (12 * 2 ^ 20)) (Nat.mod_lt _ (by omega)) (by
      have e : (Config.freeChoice m.drawn % (12 * 2 ^ 20) + (f + 12 * 2 ^ 20 - Config.freeChoice m.drawn % (12 * 2 ^ 20)) % (12 * 2 ^ 20)) % (12 * 2 ^ 20) = f := by omega
      rw [e]; exact ha)
  refine ⟨j % (12 * 2 ^ 20), hp, ?_⟩
  unfold Mach.takeAny
  exact (congrArg (fun o => match o with | some i => some (i % (12 * 2 ^ 20), m.draw.setFrame (i % (12 * 2 ^ 20)) u) | none => none) hj)

/-- The copies of drafts change memory alone. -/
theorem Mach.copyDrafts_eq (m : Mach) (l : List Draft) : m.copyDrafts l = { m with mem := (m.copyDrafts l).mem } := by
  unfold Mach.copyDrafts
  induction l generalizing m with
  | nil => rfl
  | cons d l ih =>
    rw [List.foldl_cons, ih]
    split
    · rw [m.copyFrame_eq]
    · rfl

/-- The one draft of a command is taken where a frame of its pool is available and its context has no page limit. -/
theorem Mach.draftsFor_one (m : Mach) (x : Cmd) (seq : Nat) (w : Want) {f : Nat} (hl : (m.cx x.ctx).pageLimit = 0) (hf : f ∈ draftPool w.frame)
    (ha : m.available f = true) : ∃ g ∈ draftPool w.frame, m.draftsFor x seq [w]
      = .ok ([⟨w.key, w.page, w.frame, g, w.copy, w.overlap, []⟩], ((m.draw.setFrame g (.draft seq)).copyDrafts
          [⟨w.key, w.page, w.frame, g, w.copy, w.overlap, []⟩]).modCx x.ctx fun c => { c with frames := c.frames + 1 }) := by
  obtain ⟨g, hg, -, e⟩ := m.takeOf_some (draftPool w.frame) (.draft seq) hf ha
  have h : m.takeDrafts seq [w] = .ok ([⟨w.key, w.page, w.frame, g, w.copy, w.overlap, []⟩], m.draw.setFrame g (.draft seq)) := by
    simp only [Mach.takeDrafts, List.foldl_cons, List.foldl_nil, e, List.nil_append]
  refine ⟨g, hg, ?_⟩
  unfold Mach.draftsFor
  rw [h]; simp [Ctx.admits, hl]

end Sys2Proof.Machine
end

