-- ==== Sys2Proof/Laws/Engine.lean ====
section
/-! SUPPORT. The words that a hardware collective expects do not depend on the state of the shroud ports. -/
namespace Sys2Proof.Machine

/-- A machine with another state of the fabric. -/
abbrev Mach.onShr (m : Mach) (h : Shr) : Mach := { m with shr := h }

theorem Mach.post_onShr (m : Mach) (h : Shr) (e : Ev) (c : Option Nat) (u : UnitId) (l : List Word) :
    (m.onShr h).post e c u l = (m.post e c u l).onShr h := rfl

/-- A fold whose steps commute with a change of the ports commutes with it. -/
theorem foldl_onShr {α : Type} (f : Mach → α → Mach) (hf : ∀ m h x, f (Mach.onShr m h) x = (f m x).onShr h) (l : List α) (m : Mach) (h : Shr) :
    l.foldl f (m.onShr h) = (l.foldl f m).onShr h := by
  induction l generalizing m with
  | nil => rfl
  | cons x r ih => rw [List.foldl_cons, List.foldl_cons, hf, ih]

theorem Mach.noteSram_onShr (m : Mach) (h : Shr) (u : UnitId) (k w : Nat) (d : EccRead) :
    (m.onShr h).noteSram u k w d = (m.noteSram u k w d).onShr h := by
  unfold Mach.noteSram
  cases d.kind <;> rfl

theorem Mach.noteSpad_onShr (m : Mach) (h : Shr) (c k a n : Nat) : (m.onShr h).noteSpad c k a n = (m.noteSpad c k a n).onShr h := by
  unfold Mach.noteSpad Mach.noteRam
  refine foldl_onShr _ (fun m h x => ?_) _ m h
  split
  · rfl
  · exact m.noteSram_onShr h _ _ _ _

theorem Mach.noteRead_onShr (m : Mach) (h : Shr) (a : Acc) (c : Nat) (d : EccRead) : (m.onShr h).noteRead a c d = (m.noteRead a c d).onShr h := by
  unfold Mach.noteRead
  cases d.kind with
  | clean => rfl
  | poisoned => rfl
  | corrected => exact Mach.post_onShr (m.setSt _ _) h _ _ _ _
  | uncorrectable => exact Mach.post_onShr (m.modSt (stackOfCell c) fun k => { k with ueCount := satAdd 16 k.ueCount 1 }) h _ _ _ _

theorem Mach.moverWord_onShr (m : Mach) (h : Shr) (a : Acc) (dpa e : Nat) :
    (m.onShr h).moverWord a dpa e = ((m.moverWord a dpa e).1, (m.moverWord a dpa e).2.onShr h) := by
  unfold Mach.moverWord
  rw [show (m.onShr h).reach (dpa / 8 * 8) = m.reach (dpa / 8 * 8) from rfl]
  cases m.reach (dpa / 8 * 8) with
  | none => rfl
  | some c =>
    simp only [Mach.noteRead_onShr]
    rw [show (m.onShr h).decodeCell c = m.decodeCell c from rfl]
    split <;> rfl

theorem Mach.grainElem_onShr (m : Mach) (h : Shr) (a : Acc) (c : Cmd) (d : Desc) (o : Nat) :
    (m.onShr h).grainElem a c d o = ((m.grainElem a c d o).1, (m.grainElem a c d o).2.onShr h) := by
  unfold Mach.grainElem
  rw [show (m.onShr h).grainRow c d false (o / 8192) = m.grainRow c d false (o / 8192) from rfl]
  cases m.grainRow c d false (o / 8192) with
  | none => rfl
  | some cell =>
    simp only
    generalize List.range (2 ^ d.turn) = l
    generalize (Except.ok 0 : Except Nat Nat) = v
    induction l generalizing m v with
    | nil => rfl
    | cons r l ih =>
      cases v with
      | error e => exact ih m _
      | ok v =>
        simp only [List.foldl_cons, Mach.moverWord_onShr]
        rcases m.moverWord a (grainWord cell o r) 8 with ⟨x, m'⟩
        cases x <;> exact ih m' _

theorem Mach.moverElem_onShr (m : Mach) (h : Shr) (a : Acc) (cl : Nat) (c : Cmd) (d : Desc) (o k : Nat) :
    (m.onShr h).moverElem a cl c d o k = ((m.moverElem a cl c d o k).1, (m.moverElem a cl c d o k).2.onShr h) := by
  unfold Mach.moverElem
  rw [show (m.onShr h).moveSrc c d.alloc o = m.moveSrc c d.alloc o from rfl]
  split
  · simp only [Mach.noteSpad_onShr]
    rfl
  · simp only [Mach.grainElem_onShr]
    split
    · rfl
    · cases m.moveSrc c d.alloc o with
      | none => rfl
      | some p => exact m.moverWord_onShr h a p _

theorem Mach.moverIndex_onShr (m : Mach) (h : Shr) (a : Acc) (cl : Nat) (c : Cmd) (d : Desc) (i : List Nat) (l k : Nat) :
    (m.onShr h).moverIndex a cl c d i l k = ((m.moverIndex a cl c d i l k).1, (m.moverIndex a cl c d i l k).2.onShr h) := by
  unfold Mach.moverIndex
  rw [show (m.onShr h).liveDesc c.ctx d.index = m.liveDesc c.ctx d.index from rfl]
  split
  · rfl
  · cases m.liveDesc c.ctx d.index with
    | none => rfl
    | some x =>
      cases hx : x.indexOff (i.getD d.indexDim 0) l with
      | some o =>
        simp only [hx, Mach.moverElem_onShr]
        rcases hm : m.moverElem a cl c x o k with ⟨v, m'⟩
        cases v <;> rfl
      | none => simp only [hx]

theorem Mach.moverAt_onShr (m : Mach) (h : Shr) (a : Acc) (cl : Nat) (c : Cmd) (d : Desc) (i : List Nat) (l k : Nat) :
    (m.onShr h).moverAt a cl c d i l k = ((m.moverAt a cl c d i l k).1, (m.moverAt a cl c d i l k).2.onShr h) := by
  unfold Mach.moverAt
  simp only [Mach.moverIndex_onShr]
  rcases m.moverIndex a cl c d i l k with ⟨v, m'⟩
  cases d.gen i l 0 <;> cases v <;> rfl

theorem Mach.moverGen_onShr (m : Mach) (h : Shr) (a : Acc) (cl : Nat) (c : Cmd) (d : Desc) (n l k : Nat) :
    (m.onShr h).moverGen a cl c d n l k = ((m.moverGen a cl c d n l k).1, (m.moverGen a cl c d n l k).2.onShr h) := by
  unfold Mach.moverGen
  rw [show (m.onShr h).indexCount c.ctx d = m.indexCount c.ctx d from rfl, Mach.moverAt_onShr]

theorem Mach.partVas_onShr (m : Mach) (h : Shr) (x : Cmd) (d : Desc) (l : List Nat) :
    (m.onShr h).partVas x d l = ((m.partVas x d l).1, (m.partVas x d l).2.onShr h) := by
  induction l generalizing m with
  | nil => rfl
  | cons n r ih =>
    unfold Mach.partVas Mach.engineVa
    simp only [Mach.moverGen_onShr]
    rcases m.moverGen (engineAcc x) 0 x d n 0 0 with ⟨v, m'⟩
    rcases v with e | g
    · simp only [ih]
    · cases g <;> simp only [ih] <;> rfl

/-- What the next word of a collective brings does not depend on the ports. -/
theorem Mach.engineTakes_onShr (m : Mach) (h : Shr) (x : Cmd) (src : Option Nat) (op word : Nat) :
    (m.onShr h).engineTakes x src op word = m.engineTakes x src op word := by
  have ha : ∀ e d hf, (m.onShr h).arrivals x e d hf = m.arrivals x e d hf := by
    intro e d hf
    unfold Mach.arrivals
    simp only [Mach.partVas_onShr]
  unfold Mach.engineTakes
  simp only [ha]
  rfl

theorem Mach.engineTakes_modPort (m : Mach) (p : Nat) (f : Port → Port) (x : Cmd) (src : Option Nat) (op word : Nat) :
    (m.modPort p f).engineTakes x src op word = m.engineTakes x src op word := by
  unfold Mach.modPort
  split
  · exact m.engineTakes_onShr _ x src op word
  · rfl

end Sys2Proof.Machine
end

