-- ==== Sys2Proof/Laws/Power.lean ====
section
/-! SUPPORT. What the governor's shared operations can do, said once: alert bits, a unit's level change, every unit taking its level,
and the rails going off. -/
namespace Sys2Proof.Machine

/-! ## Alert bits and the recorder's notes -/

/-- Raising bits changes the alert register and the latest in-band interrupt alone. -/
theorem Aon.raise_eq (a : Aon) (b : BitVec 7) : a.raise b = { a with alert := a.alert ||| b, ibi := (a.raise b).ibi } := rfl

@[simp] theorem Aon.raise_zero (a : Aon) : a.raise 0 = a := by
  have h : (a.alert ||| 0) &&& ~~~a.alert &&& a.alertMask = 0 := by
    apply BitVec.eq_of_getLsbD_eq; intro i _; simp
  simp only [Aon.raise, h]
  cases a; simp

/-- Where no critical or fatal record has been stored, the always-on domain stays as it is. -/
theorem Aon.noteStores_self (a : Aon) (e : Evr) : a.noteStores e e = a := by
  have : a.noteStores e e = a.raise 0 := by simp [Aon.noteStores]
  rw [this, Aon.raise_zero]

/-- The core domains replaced by themselves: nothing changes. -/
@[simp] theorem State.withMach_self (s : State) : s.withMach s.m = s := by
  simp only [State.withMach, Aon.noteStores_self]

/-- Core domains replaced without a change of the recorder. -/
theorem State.withMach_of_evr (s : State) (m : Mach) (h : m.evr = s.m.evr) : s.withMach m = { s with m := m } := by
  simp only [State.withMach, h, Aon.noteStores_self]

/-! ## Levels (R599, R604 to R606) -/

/-- What a cluster's level change does: its level is that of its floors, the other clusters keep theirs, and beside the governor's
level and slew registers only the recorder changes. -/
theorem reefCluster_spec (s : State) (c : Nat) :
    (reefCluster s c).pwr = { s.pwr with levelC := Tab.put 0 s.pwr.levelC c (s.pwr.wantC c), slewing := (reefCluster s c).pwr.slewing } ∧
    reefCluster s c = { s with pwr := (reefCluster s c).pwr, m := { s.m with evr := (reefCluster s c).m.evr } } ∨
    reefCluster s c = s ∧ Tab.get 0 s.pwr.levelC c = s.pwr.wantC c := by
  unfold reefCluster
  dsimp only
  split
  · exact .inr ⟨rfl, by assumption⟩
  · refine .inl ⟨rfl, ?_⟩
    rfl

theorem reefCluster_level (s : State) (c j : Nat) :
    Tab.get 0 (reefCluster s c).pwr.levelC j = if j = c then s.pwr.wantC c else Tab.get 0 s.pwr.levelC j := by
  unfold reefCluster
  dsimp only
  split
  · split <;> simp_all
  · exact Tab.get_put ..

/-- What the governor keeps while levels are applied: everything but the levels and the slews. -/
def Pwr.SameFloors (p q : Pwr) : Prop := q = { p with levelC := q.levelC, levelS := q.levelS, slewing := q.slewing }

theorem Pwr.SameFloors.refl (p : Pwr) : p.SameFloors p := rfl
theorem Pwr.SameFloors.trans {p q r : Pwr} (h : p.SameFloors q) (g : q.SameFloors r) : p.SameFloors r := by
  unfold Pwr.SameFloors at *; rw [g, h]
theorem Pwr.SameFloors.wantC {p q : Pwr} (h : p.SameFloors q) (c : Nat) : q.wantC c = p.wantC c := by
  unfold Pwr.SameFloors at h; rw [h]; rfl
theorem Pwr.SameFloors.wantS {p q : Pwr} (h : p.SameFloors q) (k : Nat) : q.wantS k = p.wantS k := by
  unfold Pwr.SameFloors at h; rw [h]; rfl

theorem reefCluster_same (s : State) (c : Nat) : s.pwr.SameFloors (reefCluster s c).pwr := by
  unfold reefCluster; dsimp only; split <;> exact rfl
theorem reefStack_same (s : State) (k : Nat) : s.pwr.SameFloors (reefStack s k).pwr := by
  unfold reefStack; dsimp only; split <;> exact rfl

theorem reefStack_level (s : State) (k j : Nat) :
    Tab.get 0 (reefStack s k).pwr.levelS j = if j = k then s.pwr.wantS k else Tab.get 0 s.pwr.levelS j := by
  unfold reefStack
  dsimp only
  split
  · split <;> simp_all
  · exact Tab.get_put ..

theorem reefStack_levelC (s : State) (k : Nat) : (reefStack s k).pwr.levelC = s.pwr.levelC := by
  unfold reefStack; dsimp only; split <;> rfl
theorem reefCluster_levelS (s : State) (c : Nat) : (reefCluster s c).pwr.levelS = s.pwr.levelS := by
  unfold reefCluster; dsimp only; split <;> rfl

/-- What levels applied leave: everything but the governor's levels and slews, the recorder and the stacks' pools. -/
def LevelFrame (s t : State) : Prop :=
  s.pwr.SameFloors t.pwr ∧ t = { s with pwr := t.pwr, m := { s.m with evr := t.m.evr, memStacks := t.m.memStacks } }

theorem LevelFrame.refl (s : State) : LevelFrame s s := ⟨rfl, rfl⟩
theorem LevelFrame.trans {s t u : State} (h : LevelFrame s t) (g : LevelFrame t u) : LevelFrame s u :=
  ⟨h.1.trans g.1, by rw [g.2, h.2]⟩

theorem LevelFrame.of_post {s : State} {p : Pwr} {m n : Mach} (x : List (Nat × Stack)) (h : n = { m with evr := n.evr })
    (hm : m = { s.m with memStacks := x }) (hp : s.pwr.SameFloors p := by exact rfl) : LevelFrame s { s with pwr := p, m := n } :=
  ⟨hp, by rw [h, hm]⟩

theorem LevelFrame.mach {s t : State} (h : LevelFrame s t) : t.m = { s.m with evr := t.m.evr, memStacks := t.m.memStacks } :=
  congrArg State.m h.2

theorem reefCluster_frame (s : State) (c : Nat) : LevelFrame s (reefCluster s c) := by
  by_cases h : Tab.get 0 s.pwr.levelC c = s.pwr.wantC c
  · have e : reefCluster s c = s := if_pos h
    rw [e]; exact .refl s
  · have e : reefCluster s c = _ := if_neg h
    rw [e]; exact LevelFrame.of_post _ (Mach.post_eq ..) rfl

theorem reefStack_frame (s : State) (k : Nat) : LevelFrame s (reefStack s k) := by
  by_cases h : Tab.get 0 s.pwr.levelS k = s.pwr.wantS k
  · have e : reefStack s k = s := if_pos h
    rw [e]; exact .refl s
  · have e : reefStack s k = _ := if_neg h
    rw [e]; exact LevelFrame.of_post _ (Mach.post_eq ..) rfl

theorem foldl_frame (f : State → Nat → State) (hf : ∀ s n, LevelFrame s (f s n)) (l : List Nat) (s : State) : LevelFrame s (l.foldl f s) := by
  induction l generalizing s with
  | nil => exact .refl s
  | cons n r ih => exact (hf s n).trans (ih _)

theorem foldl_reefCluster_level (l : List Nat) (s : State) (j : Nat) :
    Tab.get 0 (l.foldl reefCluster s).pwr.levelC j = if j ∈ l then s.pwr.wantC j else Tab.get 0 s.pwr.levelC j := by
  induction l generalizing s with
  | nil => simp
  | cons c r ih =>
    rw [List.foldl_cons, ih, (reefCluster_same s c).wantC, reefCluster_level]
    by_cases h : j = c
    · subst h; simp
    · simp [h]

theorem foldl_reefStack_level (l : List Nat) (s : State) (j : Nat) :
    Tab.get 0 (l.foldl reefStack s).pwr.levelS j = if j ∈ l then s.pwr.wantS j else Tab.get 0 s.pwr.levelS j := by
  induction l generalizing s with
  | nil => simp
  | cons c r ih =>
    rw [List.foldl_cons, ih, (reefStack_same s c).wantS, reefStack_level]
    by_cases h : j = c
    · subst h; simp
    · simp [h]

theorem foldl_reefStack_levelC (l : List Nat) (s : State) : (l.foldl reefStack s).pwr.levelC = s.pwr.levelC := by
  induction l generalizing s with
  | nil => rfl
  | cons k r ih => rw [List.foldl_cons, ih, reefStack_levelC]

theorem foldl_reefCluster_levelS (l : List Nat) (s : State) : (l.foldl reefCluster s).pwr.levelS = s.pwr.levelS := by
  induction l generalizing s with
  | nil => rfl
  | cons k r ih => rw [List.foldl_cons, ih, reefCluster_levelS]

theorem reefStack_pool (s : State) (k j : Nat) : (reefStack s k).m.st j = { s.m.st j with pool := ((reefStack s k).m.st j).pool } := by
  by_cases h : Tab.get 0 s.pwr.levelS k = s.pwr.wantS k
  · have e : reefStack s k = s := if_pos h
    rw [e]
  · have e : reefStack s k = _ := if_neg h
    rw [e]
    simp only [postReef]
    have hp : ∀ (m : Mach) a b c d, (m.post a b c d).st j = m.st j := fun m a b c d => by unfold Mach.st; rw [Mach.post_stacks]
    rw [hp, Mach.st_modSt]
    split
    · rename_i hj; subst hj; rfl
    · rfl

theorem reefCluster_stacks (s : State) (c : Nat) : (reefCluster s c).m.memStacks = s.m.memStacks := by
  by_cases h : Tab.get 0 s.pwr.levelC c = s.pwr.wantC c
  · have e : reefCluster s c = s := if_pos h
    rw [e]
  · have e : reefCluster s c = _ := if_neg h
    rw [e]; simp only [postReef, Mach.post_stacks]

theorem foldl_reefCluster_stacks (l : List Nat) (s : State) : (l.foldl reefCluster s).m.memStacks = s.m.memStacks := by
  induction l generalizing s with
  | nil => rfl
  | cons k r ih => rw [List.foldl_cons, ih, reefCluster_stacks]

theorem foldl_reefStack_pool (l : List Nat) (s : State) (j : Nat) :
    (l.foldl reefStack s).m.st j = { s.m.st j with pool := ((l.foldl reefStack s).m.st j).pool } := by
  induction l generalizing s with
  | nil => rfl
  | cons k r ih => rw [List.foldl_cons, ih, reefStack_pool]

/-- The state that `applyLevels` folds to before the alerts of its records are noted. -/
def leveled (s : State) : State := (List.range 12).foldl reefStack ((List.range 32).foldl reefCluster s)

theorem leveled_frame (s : State) : LevelFrame s (leveled s) :=
  (foldl_frame _ reefCluster_frame _ _).trans (foldl_frame _ reefStack_frame _ _)

theorem applyLevels_eq (s : State) : applyLevels s = { s.withMach (leveled s).m with pwr := (leveled s).pwr } := rfl

/-- Every cluster and stack takes the level of its floors (R599); the governor keeps all else; of the rest of the module only the
recorder, the stacks' pools and the alert bits may change. -/
theorem applyLevels_spec (s : State) :
    s.pwr.SameFloors (applyLevels s).pwr
      ∧ (∀ c < 32, Tab.get 0 (applyLevels s).pwr.levelC c = s.pwr.wantC c)
      ∧ (∀ k < 12, Tab.get 0 (applyLevels s).pwr.levelS k = s.pwr.wantS k)
      ∧ (applyLevels s).m = { s.m with evr := (applyLevels s).m.evr, memStacks := (applyLevels s).m.memStacks }
      ∧ (applyLevels s).aon = s.aon.noteStores s.m.evr (applyLevels s).m.evr
      ∧ (applyLevels s).sec = s.sec ∧ (applyLevels s).pending = s.pending
      ∧ (∀ j, (applyLevels s).m.st j = { s.m.st j with pool := ((applyLevels s).m.st j).pool }) := by
  have hf := leveled_frame s
  have hc : ∀ c < 32, Tab.get 0 (leveled s).pwr.levelC c = s.pwr.wantC c := fun c hc => by
    unfold leveled
    rw [foldl_reefStack_levelC, foldl_reefCluster_level, if_pos (List.mem_range.2 hc)]
  have hs : ∀ k < 12, Tab.get 0 (leveled s).pwr.levelS k = s.pwr.wantS k := fun k hk => by
    unfold leveled
    rw [foldl_reefStack_level, if_pos (List.mem_range.2 hk), (foldl_frame _ reefCluster_frame _ _).1.wantS]
  have hp : ∀ j, (leveled s).m.st j = { s.m.st j with pool := ((leveled s).m.st j).pool } := fun j => by
    unfold leveled
    rw [foldl_reefStack_pool]
    unfold Mach.st
    rw [foldl_reefCluster_stacks]
  rw [applyLevels_eq]
  generalize leveled s = t at *
  exact ⟨hf.1, hc, hs, hf.mach, rfl, rfl, rfl, hp⟩

end Sys2Proof.Machine
end

