-- ==== Sys2Proof/WellFormed.lean ====
section
/-! DEFINITION. Commands that the environment can send: the operands that their types leave wider than the manual does
lie in the ranges of their rules. `exec` is total and does not rest on it. -/
namespace Sys2Proof

/-- A Damger mode: 1, 2 or 4 fibre pairs (R562). -/
def damgerModeOk (d : Option (Nat × Bool)) : Bool := d.all fun x => x.1 == 1 || x.1 == 2 || x.1 == 4

/-- Training reports on each of the 12 stacks (R261). -/
def TrainResult.wf (r : TrainResult) : Bool := r.bins.length == 12 && damgerModeOk r.damger

/-- The array unit faults that a self-test names are 3 to 5 (MXA_SELFTEST). -/
def SelfTest.wf (t : SelfTest) : Bool := t.faults.all fun e => decide (3 ≤ e.2) && decide (e.2 ≤ 5)

/-- A voltage for each level from the top level to 7, and percents of the lasers' maxima (R619, R623). -/
def PlanReport.wf (r : PlanReport) (top : Nat) : Bool := r.mv.length == 8 - top && r.lasers.all fun e => decide (e.2.2 ≤ 100)

/-- A request is for one aligned word, from a cluster, stack or port (R247, R377). -/
def MemReq.wf (r : MemReq) : Bool := r.dpa.toNat % 8 == 0 && decide (r.unit < 32)

/-- A flit of an op holds at most 27 words (R535). -/
def Flit.wf (f : Flit) (op : Nat) : Bool := f.op.toNat == op && decide (f.payload.length ≤ 27)

/-- Up to 8 wavelengths are lit (R520). -/
def PortTraining.wf (t : PortTraining) : Bool := decide (1 ≤ t.waves) && decide (t.waves ≤ 8)

/-- The operands of a command lie in the ranges of its rules. -/
def Instr.wf (i : Instr) : Bool :=
  match i with
  | .inputPowerApplied | .inputPowerLost | .inputFault _ | .modEnDeassert | .resetLAssert | .standbyExit => true
  | .bootSequence b => damgerModeOk b.damger
  | .trainComplete r => r.wf
  | .selftestComplete t => t.wf
  | .fwHang _ => true
  | .sidebandWrite _ data => decide (1 ≤ data.length)
  | .entdaa | .rstdaa | .thmTripClear => true
  | .powerSample _ _ _ | .powerFloorEval | .powerClamp | .clampRelease | .pwrCapWrite _ => true
  | .estimatorScaling zones _ => zones.length == 4
  | .reefSlewDone _ => true
  | .thermalModelUpdate temps _ => temps.length == 57
  | .tripModelUpdate coarse dram => coarse.length == 12 && dram.length == 12
  | .regulatorOvertemp _ | .coolingEntry | .coolingExit _ | .planRequest | .planRebuildStart => true
  | .planMeasurement _ top _ r => r.wf top.val
  | .planOverdue | .marginWarning _ => true
  | .memoryRequest r => r.wf
  | .bankSlot _ _ _ | .refreshDue _ _ _ | .beRequestAged _ _ _ | .mcSensorRead _ _ | .scraperVisit _ _ _ | .scraperOverdue _ => true
  | .turnerBlock _ => true
  | .blankFillDone dpa => dpa.toNat % 65536 == 0
  | .mcCeClear _ | .seqImemLoad _ _ _ | .imemLoadDone _ | .commandBoundary _ | .commandFirstBundle _ | .issueCycle _ => true
  | .waitRepoll _ | .cacheMissFill _ | .unfurlEnd _ | .arrayFurl _ | .scratchpadBankArbitration _ _ | .feederUnderflow _ => true
  | .sparIssue _ _ | .rowStepEnd _ _ | .cntResult _ _ | .edgeBitsArrive _ _ | .chainWordArrive _ _ _ | .atomicBlockStart _ _ => true
  | .sparCoreRelease _ _ | .sparImemLoad _ _ _ | .sparImemLoadDone _ | .moverTransfer _ _ | .afuBlockStaged _ => true
  | .mastDispatch _ _ | .sparDispatch _ _ | .moveDispatch _ _ | .draftCopyDone _ _ | .draftWaitEvent _ _ | .pageLimitEvent _ _ => true
  | .admissionWindow | .killComplete _ | .slotEviction _ _ | .swapComplete _ _ | .commit _ => true
  | .waitBudgetExpire _ unit => decide (unit < 65536)
  | .preemptOverdue _ | .deadlockSearch | .wcetOverrun _ | .hyvalWaitRelease _ _ | .drainComplete _ | .ctxDestroyComplete _ => true
  | .sqTailDoorbell _ _ _ | .hyvQRestart _ _ | .hyvServeCtlRestart _ _ | .hyvVersionWrite _ => true
  | .launchMast _ _ | .launchSpar _ _ | .move _ _ | .fence _ _ | .signal _ _ | .hyvalWait _ _ | .alloc _ _ | .free _ _ => true
  | .map _ _ | .unmap _ _ | .descCreate _ _ | .descDestroy _ _ | .deploy _ _ | .admitEntry _ _ | .cancel _ _ | .pause _ _ => true
  | .resume _ _ | .undeployFinish _ _ | .undeployCancel _ _ | .collective _ _ | .abortCollective _ _ => true
  | .ctxCreate | .ctxEnable | .ctxDisableFinish | .ctxDisableKill | .ctxDestroy | .grantCounters | .grantRevoke | .grantComplete _ => true
  | .inlayArm | .inlayDisarm | .inlayArmComplete | .stayOpen | .stayOpenTimeout _ | .stayClose | .stayCloseDrainEnd _ | .stayClosed _ => true
  | .updateStage _ | .updateStageComplete _ _ | .updateSelect | .updateConfirm | .attest | .attestComplete => true
  | .timeProbe tA tB => decide (tA ≤ tB)
  | .ackHold => true
  | .stepBoundary _ | .fillWaitEnd _ | .serveStageDone _ _ _ | .tokenRecordPost _ | .hostTierCopyDone _ _ _ | .resumePageReturn _ _ _ => true
  | .flitSend _ | .linkIdleTimer _ | .badFlit _ => true
  | .remoteWrite _ f => f.wf 1
  | .remoteAccum _ f => f.wf 2
  | .remoteSignal _ f => f.wf 3
  | .ready _ f => f.wf 4
  | .endFlit _ f => f.wf 5
  | .e2eAck _ f => f.wf 6
  | .nack _ f => f.wf 7
  | .replayReq _ f => f.wf 8
  | .idle _ f => f.wf 0
  | .train _ => true
  | .portTrainingComplete _ r => r.all PortTraining.wf
  | .linkLoss _ reason => decide (1 ≤ reason.val)
  | .collectivePartSend _ | .collectiveBudgetExpire _ | .shrNodeIdWrite _ => true
  | .damgerTraining r => damgerModeOk r
  | .damgerLinkLoss _ => true
  | .damgerInboundRead _ _ len _ => decide (1 ≤ len)
  | .damgerInboundWrite _ _ data => decide (1 ≤ data.length)
  | .eventPersist _ | .evrLatch | .evrWindowCopy | .evrCodeLimitWrite _ | .ctrFreeze | .freezeDone | .sampleRecord _ _ _ _ => true
  | .ctrUserValueRead _ | .frameMsTick | .accountingInterval => true
  | .registerWrite _ _ size _ => decide (1 ≤ size)
  | .lineRecallComplete dpa dirty => dpa.toNat % 64 == 0 && dirty.all fun b => b.length == 64

end Sys2Proof
end

