-- ==== Sys2Proof/Tests/Slice0.lean ====
section
/-! SUPPORT. Small checks of the commands, each of one step on a small state, and for every obligation with hypotheses a concrete state that
meets them: what an obligation names (`Obligations.X`) has its states in `test_x` or `witness_x` of the same subject. Expected values come
from the rules of spec/ and from hand calculation by them. -/
open Sys2Proof Sys2Proof.Machine

namespace Sys2Proof.Tests
set_option maxRecDepth 100000
set_option Elab.async false

/-! ## Helpers -/

/-- What a command does at a state, as a test of the state that follows. -/
def ran (c : Instr) (s : State) (p : State → Bool) : Bool :=
  match exec c s with
  | .next t => p t
  | _ => false

/-- A module that runs, with the machine `m`. -/
def up (m : Mach := {}) : State :=
  { aon := { mode := .run, modEn := true, pgood := true }
    sec := { running := true, procsUp := true, booted := true, bootSlot := 0, sel := { lastGood := some 0 } }
    pwr := { running := true }
    m := { m with running := true, dmg := { m.dmg with up := true } } }

/-- A module that stands in a state of start-up or cooling. -/
def inMode (x : Mode) : State := { aon := { mode := x } }

/-! ## Power, start-up, governor -/

theorem test_queue : (match step ((up).withPending [.entdaa, .arrayFurl 0]) with
      | .next t => t.pending == [.arrayFurl 0] && t.aon.i3c
      | _ => false) = true ∧ (match step up with | .next t => t.m.now == 10 | _ => false) = true := by decide +kernel

theorem test_pins : (ran .modEnDeassert up fun t => t.aon.mode == .standby && !t.aon.pgood && t.m.cmds == []) = true
    ∧ (ran .resetLAssert (inMode .tripped) fun t => t.aon.resetLow && t.aon.mode == .tripped) = true := by decide +kernel

theorem test_inputPower : (ran .inputPowerApplied (inMode .off) fun t => t.aon.mode == .standby) = true
    ∧ (ran .inputPowerLost up fun t => t.aon.mode == .off) = true
    ∧ (ran (.inputFault 35999) up fun t => t.aon.mode == .standby && t.pwr.faultSeen) = true
    ∧ (ran (.inputFault 52001) up fun t => t.aon.mode == .standby) = true := by decide +kernel

theorem test_startUp : (ran .standbyExit { inMode .standby with m := { now := 100000005 }, pwr := { goodSince := some 5 } } fun t =>
        t.aon.mode == .boot && t.sec.running && t.sec.bootCount == 1) = true
    ∧ (ran .standbyExit { inMode .standby with m := { now := 100000004 }, pwr := { goodSince := some 5 } } fun t => t.aon.mode == .standby) = true
    ∧ (ran (.bootSequence ⟨true, false, none⟩) (inMode .boot) fun t => t.aon.mode == .hold && t.aon.holdReason == holdWord 0x14 uModule) = true
    ∧ (ran (.bootSequence ⟨false, true, none⟩) (inMode .boot) fun t => t.aon.mode == .hold && t.aon.holdReason == holdWord 0x13 uModule) = true
    ∧ (ran (.trainComplete ⟨List.replicate 12 (some 0), some (4, false)⟩) (inMode .train) fun t => t.aon.mode == .selftest) = true
    ∧ (ran (.selftestComplete ⟨[], [], [], [], [], [], []⟩) (inMode .selftest) fun t => t.aon.mode == .ready) = true := by decide +kernel

theorem test_sideband : (ran (.sidebandWrite true [0x48, 0]) up fun t => t.aon.sbOffset == 0x48) = true
    ∧ (ran (.sidebandWrite true [0x10, 0, 0x55, 0, 0, 0, 0, 0, 0, 0]) up fun t => t.aon.alertMask == 0x55 && t.aon.sbOffset == 0x10) = true
    ∧ (ran (.sidebandWrite true [0x48, 0, 1, 0, 0, 0, 0, 0, 0, 0]) { up with aon := { (up).aon with tripTimes := [5], locked := true } } fun t =>
        t.aon.tripTimes == [] && !t.aon.locked) = true
    ∧ (ran (.sidebandWrite true [0, 0, 1]) up fun t => t == up) = true ∧ (ran (.sidebandWrite false [0x48, 0]) up fun t => t == up) = true
    ∧ (ran .entdaa up fun t => t.aon.i3c) = true ∧ (ran .rstdaa up fun t => !t.aon.i3c) = true
    ∧ (ran .thmTripClear up fun t => t.aon.tripTimes == []) = true
    ∧ (ran (.fwHang .sched) up fun t => t.sec.hung == [.sched] && !t.m.running && t.aon.alert.getLsbD 3) = true
    ∧ (ran (.fwHang (.ctl 3)) up fun t => (t.m.cl 3).ctlHung && t.m.running) = true := by decide +kernel

theorem test_cap : (up).servedFull = true
    ∧ (ran (.pwrCapWrite 0x9C47) up fun t => t.pwr.capW == 1600 && t.pwr.hostFloor == 7 && t.pwr.capNow == 1600) = true
    ∧ (ran (.pwrCapWrite 0x10) up fun t => t.pwr.capW == 600) = true
    ∧ (ran .powerFloorEval { up with pwr := { (up).pwr with samples := 1, sumW := 900, capW := 700, hostFloor := 3 } } fun t =>
        t.pwr.capNow == 700 && t.pwr.hostNow == 3 && t.pwr.floor == 1 && Tab.get 0 t.pwr.levelC 0 == 3) = true := by decide +kernel

theorem test_energy : (ran (.powerSample 1000 48000 77) up fun t => t.pwr.energyUj == 77 && t.pwr.energyHeld == 0) = true
    ∧ (ran (.powerSample 1000 48000 77) (inMode .standby) fun t => t.pwr.energyUj == 0 && t.pwr.energyHeld == 77) = true := by decide +kernel

theorem test_governor :
    (ran (.powerSample 1761 48000 0) up fun t => t.pwr.hotSamples == 1 && t.pwr.floor == 1 && Tab.get 0 t.pwr.levelC 31 == 1) = true
    ∧ (ran .powerClamp { up with pwr := { (up).pwr with overSamples := 5 } } fun t => t.pwr.clamp && Tab.get 0 t.pwr.levelS 11 == 7) = true
    ∧ (ran .clampRelease { up { now := 1000000 } with pwr := { (up).pwr with clamp := true } } fun t => !t.pwr.clamp && t.pwr.floor == 7) = true
    ∧ (ran .clampRelease { up { now := 999999 } with pwr := { (up).pwr with clamp := true } } fun t => t.pwr.clamp) = true
    ∧ (ran (.reefSlewDone 2) { up with pwr := { (up).pwr with slewing := [(2, some ⟨0, 900, 0, 880⟩), (3, some ⟨0, 900, 0, 880⟩)] }, m := { now := 2000 } } fun t =>
        t.pwr.slewing == [(3, some ⟨0, 900, 0, 880⟩)]) = true
    ∧ (ran (.reefSlewDone 2) { up with pwr := { (up).pwr with slewing := [(2, some ⟨0, 900, 0, 880⟩)] }, m := { now := 1999 } } fun t =>
        t.pwr.slewing == [(2, some ⟨0, 900, 0, 880⟩)]) = true := by
  decide +kernel

theorem test_thermal : (List.replicate 57 (0 : Int)).length = 57
    ∧ (ran (.thermalModelUpdate (List.replicate 57 1600) 45) up fun t => t.pwr.coolant == 45) = true
    ∧ (ran (.estimatorScaling [10, 0, 0, 0] [(0, some 5, 10)]) { up with pwr := { (up).pwr with energyUj := 10 } } fun t =>
        t.pwr.energyCharged == 10 && (t.m.cx 5).meters.energy == 10) = true := by decide +kernel

theorem test_trip :
    (ran (.tripModelUpdate (List.replicate 12 500) (List.replicate 12 0)) up fun t => t.aon.mode == .run && t.aon.coarse.length == 12) = true
    ∧ (ran (.regulatorOvertemp 0) up fun t => t.aon.mode == .tripped && t.aon.lastCause == 4 && t.aon.tripLow) = true
    ∧ (ran .coolingEntry (inMode .tripped) fun t => t.aon.mode == .cooling) = true
    ∧ (ran (.coolingExit true) { inMode .cooling with m := { now := 60 * 10 ^ 9 }, aon := { mode := .cooling, coarse := [[960]] } } fun t =>
        t.aon.mode == .boot) = true
    ∧ (ran (.coolingExit true) { inMode .cooling with m := { now := 60 * 10 ^ 9 - 1 } } fun t => t.aon.mode == .cooling) = true := by decide +kernel

/-- A coarse node at 120 °C, 1,920 sixteenths, trips the module (R614, R615). -/
theorem test_tripCause : (tripCause ((List.replicate 12 1920).map fun x => [x]) (List.replicate 12 0)).isSome = true
    ∧ (ran (.tripModelUpdate (List.replicate 12 1920) (List.replicate 12 0)) up fun t => t.aon.mode == .tripped && t.aon.tripTimes == [0]) = true := by
  decide +kernel

theorem test_plan :
    (ran .planRequest up fun t => t.pwr.planState == 1) = true
    ∧ (ran .planRebuildStart (up { now := 168 * 3600 * 10 ^ 9 }) fun t => t.pwr.planState == 1) = true
    ∧ (ran (.planMeasurement 0 3 false ⟨[], [], []⟩) { up { now := 2000000 } with pwr := { running := true, planState := 1 } } fun t =>
        t.pwr.planDone == [0] && Tab.get 0 t.pwr.newTop 0 == 3) = true
    ∧ (ran (.planMeasurement 0 3 false ⟨[], [], []⟩) { up { now := 2000000 } with pwr := { running := true, planState := 1, planDone := (List.range 32).drop 1 } } fun t =>
        t.pwr.planState == 0 && Tab.get 0 t.pwr.topC 0 == 3) = true
    ∧ (ran .planOverdue { up { now := 24 * 3600 * 10 ^ 9 } with pwr := { running := true, planState := 1 } } fun t => t.pwr.planState == 2) = true
    ∧ (ran (.marginWarning 4) up fun t => Tab.get 0 t.pwr.topRaised 4 == 1 && t.pwr.planState == 1) = true := by decide +kernel

/-! ## Controllers and stacks -/

/-- Context 1: enabled, one queue, every cluster and stack, and one page, frame 64, mapped at 0x10000. -/
def ctx1 : Ctx :=
  { st := .enabled, clusterMask := 0xFFFFFFFF, stackMask := 0xFFF, queues := 1, weight := 1, frames := 1
    allocs := [(1, some { pages := [64] })], maps := [⟨0x10000, 1, 0, 1, true⟩], nextAlloc := 2, active := true, session := 1 }

/-- A machine with context 1. -/
def base : Mach := { ctxs := [(1, ctx1)], frames := [(64, .ctx 1)], nextSeq := 8 }

/-- A request for the word at address 0 of stack 0, whose bank is bank 0. -/
def req0 (data : Option Word) (lc : Bool := false) : MemReq := { who := .mover, ctx := 1, unit := 0, lc := lc, dpa := 0, data := data, seq := 7, upset := 0 }

/-- Machine `m` with bank 0 of stack 0 as given. -/
def withBank (b : DBank) : Mach := { memStacks := [(0, { banks := [(0, b)] })] }

theorem test_requests :
    (ran (.memoryRequest (req0 none)) up fun t => ((t.m.st 0).bank 0).reqs.length == 1) = true
    ∧ (ran (.memoryRequest (req0 none true)) (up (withBank { reqs := List.replicate 16 ⟨req0 none true, 0, false⟩ })) fun t =>
        (t.m.st 0).backpressure && ((t.m.st 0).bank 0).reqs.length == 16) = true
    ∧ (ran (.memoryRequest (req0 none true)) (up { withBank { reqs := List.replicate 16 ⟨req0 none true, 0, false⟩ } with
          clusters := [(0, { chans := [(0, { st := 1, cmd := 7 })] })] }) fun t => ((t.m.cl 0).chan 0).st == 2 && (t.m.st 0).waits == [req0 none true]) = true
    ∧ (ran (.memoryRequest (req0 (some 5))) up fun t => t == up) = true
    ∧ (ran (.beRequestAged 0 0 0) (up { withBank { reqs := [⟨req0 (some 5), 0, false⟩] } with now := 10000 }) fun t =>
        ((t.m.st 0).bank 0).reqs.any (·.aged)) = true
    ∧ (ran (.bankSlot 0 0 0) (up (withBank { postponed := 4 })) fun t => ((t.m.st 0).bank 0).postponed == 3 && (t.m.st 0).forced == 1) = true
    ∧ (ran (.bankSlot 0 0 0) (up (withBank { reqs := [⟨req0 (some 5), 0, false⟩] })) fun t =>
        ((t.m.st 0).bank 0).reqs == [] && (t.m.mem.decode 0).word == ⟨5, false⟩) = true := by decide +kernel

theorem test_stacks :
    (ran (.refreshDue 0 0 0) (up (withBank { due := true })) fun t => ((t.m.st 0).bank 0).postponed == 1) = true
    ∧ (ran (.mcSensorRead 0 85) up fun t => (t.m.st 0).rate == 0 && (t.m.st 0).rateNext == 1 && (t.m.st 0).temp == 85) = true
    ∧ (ran (.refreshDue 0 0 0) (up { now := 3900, memStacks := [(0, { rateNext := 1 })] }) fun t => (t.m.st 0).rate == 1 && ((t.m.st 0).bank 0).due) = true
    ∧ (ran (.refreshDue 0 0 0) (up (withBank { dueAt := some 0 })) fun t => !((t.m.st 0).bank 0).due) = true
    ∧ (ran (.mcSensorRead 0 85) (up { now := 9999, memStacks := [(0, { sensorAt := some 0 })] }) fun t => (t.m.st 0).temp == 0) = true
    ∧ (ran (.mcSensorRead 0 82) (up { now := 10000000, memStacks := [(0, { rate := 2, rateNext := 2, coolA := some 0, coolB := some 0 })] }) fun t => (t.m.st 0).rate == 0) = true
    ∧ (ran (.mcSensorRead 0 82) (up { now := 9999999, memStacks := [(0, { rate := 2, rateNext := 2, coolA := some 0, coolB := some 0 })] }) fun t => (t.m.st 0).rate == 2) = true
    ∧ (ran (.mcSensorRead 0 84) (up { memStacks := [(0, { rate := 1 })] }) fun t => (t.m.st 0).rate == 1) = true
    ∧ (ran (.scraperVisit 0 0 0) (up { now := 5 }) fun t => ((t.m.st 0).bank 0).scraped == 1 && ((t.m.st 0).bank 0).nextVisit == 1005) = true
    ∧ (ran (.scraperOverdue 0) (up { now := 86400 * 10 ^ 9 + 1 }) fun t => (t.m.st 0).overdueLap && t.m.evr.produced == 1) = true
    ∧ (ran (.mcCeClear 0) (up { memStacks := [(0, { ces := [(3, some ⟨1, 1, 1⟩)] })] }) fun t => (t.m.st 0).ces == []) = true := by decide +kernel

/-- The last row of the last bank ends a lap. -/
theorem test_lapEnd : (ran (.scraperVisit 0 0 0)
    (up (withBank { scraped := 65536 })) fun t => ((t.m.st 0).bank 0).scraped == 65537 && (t.m.st 0).laps == 0) = true := by decide +kernel

theorem test_blankFill : (ran (.blankFillDone (BitVec.ofNat 44 (64 * 65536))) (up { frames := [(64, .blank)] }) fun t => t.m.frame 64 == .free) = true := by
  decide +kernel

/-! ## Clusters -/

/-- A mast command that runs on cluster 0. -/
def cmd7 : Cmd := { seq := 7, ctx := 1, q := 0, pos := 0, kind := .mast, phase := .running, placed := [(0, 0, {})] }

/-- Context 1 with command 7 running on cluster 0. -/
def onCl (cl : Cluster) (x : Cmd := cmd7) : State := up { base with cmds := [x], clusters := [(0, { cl with cmd := some 7 })] }

theorem test_ramps :
    (ran (.unfurlEnd 0) (onCl { ramp := 1, rampAc := 48, runState := 3, frozen := 8 }) fun t => (t.m.cl 0).ramp == 2 && (t.m.cl 0).frozen == 0) = true
    ∧ (ran (.unfurlEnd 0) (onCl { ramp := 1, rampAc := 47 }) fun t => (t.m.cl 0).ramp == 1) = true
    ∧ (ran (.arrayFurl 0) (onCl { ramp := 2, arrayIdle := 256 }) fun t => (t.m.cl 0).ramp == 3) = true
    ∧ (ran (.arrayFurl 0) (onCl { ramp := 2, arrayIdle := 255 }) fun t => (t.m.cl 0).ramp == 2) = true := by decide +kernel

/-- A row due 16 cycles ago is missing (R166). -/
def stUnderflow : State := onCl { runState := 2, feeds := [⟨0, false, 0, 0, 0, 64, 0, []⟩], issueAc := 16 }
theorem test_underflow : (stUnderflow.m.cl 0).underflow = true
    ∧ (ran (.feederUnderflow 0) stUnderflow fun t => (t.m.cl 0).runState == 3 && (t.m.cl 0).frozen == srcFeeder) = true := by decide +kernel

theorem test_waitRepoll :
    (ran (.waitRepoll 0) (onCl { runState := 3, frozen := srcSync, wait := some ⟨0x10008, 0, 0, 0, false⟩ }) fun t =>
      (t.m.cl 0).runState == 2 && (t.m.cl 0).wait == none && (t.m.cl 0).frozen == 0) = true := by decide +kernel

theorem test_cacheMiss :
    (ran (.cacheMissFill 0) (onCl { runState := 3, frozen := srcCache, miss := [(0, 64 * 65536)] }) fun t =>
      (t.m.cl 0).miss == [] && (t.m.cl 0).frozen == 0 && (t.m.cl 0).cache.length == 1) = true
    ∧ (ran (.cacheMissFill 0) (onCl { runState := 3, frozen := srcCache, miss := [(1, 64 * 65536)] }) fun t =>
      (t.m.cl 0).miss == [] && (t.m.cl 0).cache == [] && (t.m.cl 0).volatile.length == 1) = true := by decide +kernel

/-- One bundle of no slots and five idle cycles, then a last bundle (R99, R102). -/
def code0 : List Byte := [0, 0, 5, 0, 0, 0, 0, 1] ++ List.replicate 56 0
def stIssue : State :=
  onCl { runState := 2, imemA := { st := .active, code := code0 } } { cmd7 with placed := [(0, 0, { code := code0 })] }

theorem test_issue :
    (ran (.issueCycle 0) (onCl { runState := 3, frozen := srcSync }) fun t => (t.m.cl 0).freezeAc == 1 && (t.m.cl 0).issueAc == 0) = true
    ∧ (ran (.issueCycle 0) (onCl { runState := 2, idle := 3 }) fun t => (t.m.cl 0).idle == 2 && (t.m.cl 0).issueAc == 1) = true
    ∧ bundleAt code0 0 = some ⟨0, 4, 0, 5, 0, [none, none, none, none, none, none]⟩
    ∧ bundleAt code0 4 = some ⟨4, 4, 1, 0, 0, [none, none, none, none, none, none]⟩
    ∧ (stIssue.m.landSpads 0 0 cmd7).bundleTrap 0 0 cmd7 { code := code0 } ⟨0, 4, 0, 5, 0, [none, none, none, none, none, none]⟩ = none
    ∧ (ran (.issueCycle 0) stIssue fun t => (t.m.cl 0).pc == 4 && (t.m.cl 0).idle == 5 && (t.m.cl 0).issueAc == 1) = true
    ∧ (ran (.scratchpadBankArbitration 0 0) (onCl {}) fun t => (t.m.cl 0).granted) = true := by decide +kernel

/-- A cluster with a load of one line from the start of stack 0 into bank B. -/
def stLoading : State := up { clusters := [(0, { imemB := { st := .loading, lines := 1 }, loadLatest := some true })] }

/-- Command 7 with its last bundle issued. -/
def stLast : State := onCl { runState := 2, lastSeen := true, issueAc := 500, imemA := { st := .active } }

/-- Command 7 next on cluster 0, its code armed. -/
def stNext : State :=
  up { base with cmds := [cmd7], clusters := [(0, { next := some 7, imemB := { st := .armed }, slots := [(0, { ctx := some 1 })], runState := 1 })] }

theorem test_imem :
    (ran (.seqImemLoad 0 (.control 0) 0xC000100000000000) up fun t => (t.m.cl 0).imemB.st == .loading && (t.m.cl 0).loadStatus == 0) = true
    ∧ (ran (.seqImemLoad 0 (.control 0) 0x8000000000000000) up fun t => (t.m.cl 0).imemA.st == .empty && (t.m.cl 0).loadStatus == 3) = true
    ∧ (ran (.seqImemLoad 0 (.control 1) 0xC000100000000000) up fun t => (t.m.cl 0).imemB.st == .empty) = true
    ∧ (stLoading.m.readBytes (firmwareAcc 0) 0 64).1.2.any id = false ∧ (stLoading.m.cl 0).loadBusy = true
    ∧ (ran (.imemLoadDone 0) stLoading fun t => (t.m.cl 0).imemB.st == .ready && (t.m.cl 0).imemB.code == List.replicate 64 0) = true
    ∧ (stLast.m.cl 0).drained ≤ 500
    ∧ (ran (.commandBoundary 0) stLast fun t => (t.m.cl 0).cmd == none && (t.m.cl 0).runState == 0 && t.m.cmds.any fun x => x.boundary == [0]) = true
    ∧ (stNext.m.cl 0).slotOf 1 = some 0
    ∧ (ran (.commandFirstBundle 0) stNext fun t => (t.m.cl 0).cmd == some 7 && (t.m.cl 0).next == none && (t.m.cl 0).gv 3 == ⟨8, false⟩) = true := by
  decide +kernel

/-! ## Spar cores -/

/-- A spar command on cores 4 and 5 of stack 0. -/
def cmd9 : Cmd :=
  { seq := 9, ctx := 1, q := 0, pos := 0, kind := .spar, phase := .running, img := { stackMask := 1, dieMask := 1, coreFirst := 4, coreLast := 5 } }

/-- Context 1 with command 9 running, core 4 of stack 0 as given. -/
def onSpar (y : Spar) (x : Cmd := cmd9) : State :=
  up { base with cmds := [x], memStacks := [(0, { spar := [(4, { y with cmd := 9 }), (5, { st := .running, cmd := 9 })] })] }

/-- ADD k3, k1, k2. -/
def addWord : Word := BitVec.ofNat 64 (0x20 * 2 ^ 58 + 3 * 2 ^ 54 + 1 * 2 ^ 50 + 2 * 2 ^ 46)

/-- A row step that ends. -/
def step1 : Step := { op := 6, tgt := 0, rowA := 0, rowB := 0 }

theorem test_sparIssue : (kword addWord.toNat).illegal = false ∧ (cmd9.img.coreSet = [(0, 4), (0, 5)])
    ∧ (ran (.sparIssue 0 4) (onSpar { st := .running, code := [addWord], k := [(1, ⟨5, false⟩), (2, ⟨7, false⟩)] }) fun t =>
        (t.m.sparCore 0 4).kv 3 == ⟨12, false⟩ && (t.m.sparCore 0 4).pc == 1) = true := by decide +kernel

/-- The one running step of a core ends, whatever the free choice. -/
theorem test_rowStepEnd : (onSpar { st := .running, cur := [step1] }).m.sparCore 0 4 = { st := .running, cur := [step1], cmd := 9 } := by decide +kernel

theorem test_sparArrivals :
    (ran (.cntResult 0 4) (onSpar { st := .running, cnt := [(3, 17, false)], busy := [(3, true)] }) fun t =>
      (t.m.sparCore 0 4).kv 3 == ⟨17, false⟩ && !(t.m.sparCore 0 4).isBusy 3) = true
    ∧ (onSpar { st := .running }).m.neighbour cmd9 0 4 true = some 5
    ∧ (ran (.chainWordArrive 0 4 true) (onSpar { st := .running, outHi := [⟨8, false⟩] }) fun t => (t.m.sparCore 0 5).inLo == [⟨8, false⟩]) = true
    ∧ (up { base with cmds := [cmd9], memStacks := [(0, { spar := [(4, { st := .running, cmd := 9 }),
        (5, { st := .running, cmd := 9, outLo := [⟨8, false⟩] })] })] }).m.neighbour cmd9 0 5 false = some 4
    ∧ (ran (.chainWordArrive 0 5 false) (up { base with cmds := [cmd9], memStacks := [(0, { spar := [(4, { st := .running, cmd := 9 }),
        (5, { st := .running, cmd := 9, outLo := [⟨8, false⟩] })] })] }) fun t => (t.m.sparCore 0 4).inHi == [⟨8, false⟩]) = true
    ∧ (ran (.edgeBitsArrive 0 4) (onSpar { st := .running, edgeWait := true, cur := [{ step1 with ops := [12 * 2 ^ 10 + 2] }], edgeLo := [(2, 0, 0)] }) fun t =>
        (t.m.sparCore 0 4).edgeLo == [] && (t.m.st 0).trapValid) = true
    ∧ (ran (.edgeBitsArrive 0 4) (onSpar { st := .running, edgeWait := true, cur := [{ step1 with ops := [12 * 2 ^ 10 + 2] }], edgeLo := [(1, 0, 0)] }) fun t =>
        (t.m.sparCore 0 4).edgeLo == [] && !(t.m.st 0).trapValid && (t.m.sparCore 0 4).cur.length == 1) = true := by decide +kernel

/-- A step of an atomic block of one. -/
def step2 : Step := { step1 with atomic := true, blk := 1 }

theorem test_sparBlocks :
    blockMask [step2] = 1
    ∧ (ran (.atomicBlockStart 0 4) (onSpar { st := .running, steps := [step2] }) fun t => (t.m.sparCore 0 4).blockRun == 1 && (t.m.st 0).held == 1 + step2.tokens) = true
    ∧ (ran (.sparCoreRelease 0 4) { onSpar { st := .ending } with m := { (onSpar { st := .ending }).m with owned := [(2 ^ 24, [ownerId 9 0 4])] } } fun t =>
        t.m.owned == [] && (t.m.cmds.any fun x => x.released == [4])) = true := by decide +kernel

theorem test_sparLoads :
    (ran (.sparImemLoad 0 .firmware 0x8000000000010000) (up { memStacks := [(0, { loadLen := 8, loadSrc := 0 })] }) fun t =>
      (t.m.st 0).loadSet == [0] && (t.m.sparCore 0 0).st == .loading) = true
    ∧ (ran (.sparImemLoad 0 .firmware 0x8000000000010000) up fun t => (t.m.st 0).loadStatus == 3) = true
    ∧ (ran (.sparImemLoad 0 .companion 0x8000000000010000) up fun t => (t.m.st 0).loadStatus == 0 && t.m.memStacks == []) = true
    ∧ ((up { memStacks := [(0, { loadSet := [3], loadNow := (8, 0) })] }).m.readBytes (firmwareAcc 0) 0 64).1.2.any id = false
    ∧ (ran (.sparImemLoadDone 0) (up { memStacks := [(0, { loadSet := [3], loadNow := (8, 0) })] }) fun t =>
        (t.m.st 0).loadSet == [] && (t.m.sparCore 0 3).code == List.replicate 8 0) = true := by decide +kernel

/-! ## Movers -/

/-- A tensor of 16 bytes at the start of allocation 1, and one of 8,192 bits in the grain view of allocation 2. -/
def tBytes (use base : Nat) : Desc := { fmt := 8, use := use, alloc := 1, base := base, dims := [{ stride := 1, extent := 16 }] }
def tGrain : Desc := { view := 1, alloc := 2, dims := [{ stride := 1, extent := 8192 }] }
def tWords : Desc := { fmt := 8, use := 2, alloc := 1, dims := [{ stride := 1, extent := 8192 }] }

/-- Command 8, a MOVE with its draft of page 0 of allocation 1. -/
def cmd8 : Cmd :=
  { seq := 8, ctx := 1, q := 0, pos := 0, kind := .move, phase := .running, placed := [(0, 0, {})], drafts := [⟨1, 0, 64, 65, false, false, []⟩] }

/-- Context 1 with the descriptors 1 to 4 and the grain page 2^24 + 5. -/
def ctxMove : Ctx :=
  { ctx1 with
    allocs := [(1, some { pages := [64] }), (2, some { pages := [2 ^ 24 + 5], grain := true, banks := [0], perBank := 1 })]
    descs := [(1, some (tBytes 1 0)), (2, some (tBytes 2 16)), (3, some tGrain), (4, some tWords)] }
def hnd (i : Nat) : Nat := 2 ^ 20 + i
def onMove (ch : Chan) (turns : List Turn := []) : State :=
  up { base with ctxs := [(1, ctxMove)], frames := [(64, .ctx 1), (65, .draft 8), (2 ^ 24 + 5, .ctx 1)], cmds := [cmd8]
                 clusters := [(0, { chans := [(0, { ch with cmd := 8, st := 1 })] })], memStacks := [(0, { turns := turns })]
                 mem := (({} : Ram).putWord (decodeWordView (64 * 65536) / 8) ⟨0x1122, false⟩) }

theorem test_movers :
    (onMove {}).m.liveDesc 1 (hnd 1) = some (tBytes 1 0) ∧ (onMove {}).m.moveHeld cmd8 tGrain tWords = false
    ∧ (onMove {}).m.grainBlock cmd8 tGrain tWords 0 0 = some (0, 5 * 65536, true)
    ∧ (ran (.moverTransfer 0 0) (onMove { turner := true, src := hnd 3, dst := hnd 4, limit := 8192 }) fun t =>
        (t.m.st 0).turns == [⟨0, 0, 0, 0⟩] && ((t.m.cl 0).chan 0).waiting) = true
    ∧ (ran (.moverTransfer 0 0) (onMove { src := hnd 1, dst := hnd 2, limit := 16 }) fun t =>
        ((t.m.cl 0).chan 0).done == 16 && (t.m.mem.decode (decodeWordView (65 * 65536 + 16) / 8)).word == ⟨0x1122, false⟩
          && (t.m.cmds.all fun x => x.phase == .ended)) = true := by decide +kernel

/-- A block of single bits turned into bytes: at its end the move has ended. -/
theorem test_turner : (ran (.turnerBlock 0) (onMove { turner := true, waiting := true, src := hnd 3, dst := hnd 4, limit := 8192 } [⟨0, 0, 0, 0⟩]) fun t =>
    (t.m.st 0).turns == [] && !((t.m.cl 0).chan 0).waiting) = true := by decide +kernel

/-! ## Serving: the attention fetch unit -/

/-- A deployment of context 1 with one decode group of an empty slot on cluster 0. -/
def dep0 : Deployment :=
  { ctx := 1, clusterMask := 1, mode := 0, spec := 0, rule := 0, table := [(1, 0, 0, 0x10000)], attnBlock := 16, maxReq := 4, maxBatch := 1, maxSeq := 64, chunk := 16
    vocab := 8, wcetUs := 10, fillUs := 0, minRows := 1, ringVa := 0x14000, ringLen := 256, mirrorVa := 0, tierBase := 0, tierPages := 4, stops := [], edges := []
    kvLimit := 0, fmt := 2, layers := 1, heads := 1, qPerKv := 1, headDim := 64, arena := 0x18000, treeVa := 0, treeCap := 0, batchVa := 0
    batch := [⟨false, 0, 0, [none], 8, 16, 1⟩] }
def cmdS : Cmd := { seq := 7, ctx := 1, q := 16, pos := 0, kind := .serve, phase := .running, placed := [(0, 0, { groups := [0] })] }
def onAfu (u : Afu) : State := { onCl { afu := u, runState := 2 } cmdS with m := { (onCl { afu := u, runState := 2 } cmdS).m with deps := [(0, some dep0)] } }

theorem test_afu :
    (dep0.launchGroups { groups := [0] }).length = 1 ∧ walkAt 0 1 1 8 = (0, 0, 0, 0)
    ∧ (ran (.afuBlockStaged 0) (onAfu { st := 1, next := 3, total := 8 }) fun t => (t.m.cl 0).afu.st == 2) = true
    ∧ (ran (.afuBlockStaged 0) (onAfu { st := 1, next := 0, total := 8 }) fun t => (t.m.cl 0).afu.next == 1 && (t.m.cl 0).afu.st == 1) = true
    ∧ (ran (.afuBlockStaged 0) (onAfu { st := 2, next := 4, total := 8, touched := some 1 }) fun t => (t.m.cl 0).afu.next == 5) = true := by decide +kernel

/-! ## Dispatch -/

/-- `n` bytes with fields at offsets: offset, bytes, value. -/
def block (n : Nat) (fs : List (Nat × Nat × Nat)) : List Byte :=
  fs.foldl (fun l f => l.take f.1 ++ leBytes f.2.1 f.2.2 ++ l.drop (f.1 + f.2.1)) (List.replicate n 0)

/-- Context 1 of one cluster and one stack, with the descriptors of the moves. -/
def tBank : Desc := { view := 1, alloc := 3, dims := [{ stride := 1, extent := 8192 }] }
def ctxD : Ctx :=
  { ctxMove with clusterMask := 1, stackMask := 1
                 allocs := ctxMove.allocs ++ [(3, some { pages := [2 ^ 24 + 8 * 1024 + 5, 2 ^ 24 + 9 * 1024 + 5], grain := true, banks := [8, 9], perBank := 1 })]
                 descs := ctxMove.descs ++ [(5, some tBank)] }

/-- A variant set at 0x10000 whose image at 0x10040 is of class BE and runs one cluster of 8 cores (R72, R738). -/
def mastBytes : List Byte :=
  block 64 [(0, 1, 1), (16, 8, 0x10040), (25, 1, 8)]
    ++ block 256 [(0, 4, 0x4C504D43), (4, 2, 1), (6, 2, 256), (8, 1, 1), (9, 1, 1), (0x0B, 1, 8), (0x0C, 1, 1), (0x5C, 4, 256), (0x60, 4, 64), (0x64, 4, 320)]
    ++ code0

/-- The same bytes where frame 64 stores them: its first granule, and the second from 2^31 on (R232). -/
def mastCells : List Host.Cell :=
  [(4096, 1), (4112, 0x40), (4114, 1), (4121, 8), (4160, 0x43), (4161, 0x4d), (4162, 0x50), (4163, 0x4c), (4164, 1), (4167, 1), (4168, 1), (4169, 1),
   (4171, 8), (4172, 1), (4253, 1), (4256, 0x40), (4260, 0x40), (4261, 1), (2147487810, 5), (2147487815, 1)]

/-- A spar image of class BE for core 4 of stack 0, without bindings, of one word (R310). -/
def sparBytes : List Byte :=
  block 256 [(0, 4, 0x4C505343), (4, 2, 1), (6, 2, 256), (8, 1, 2), (9, 1, 1), (0x0B, 1, 1), (0x0C, 2, 1), (0x0E, 2, 1), (0x10, 1, 4), (0x11, 1, 4),
      (0x48, 4, 256), (0x54, 4, 320), (0x58, 4, 8), (0x5C, 4, 328)]
    ++ block 64 [(0, 4, 0x11), (4, 4, hnd 5)] ++ leBytes 8 addWord.toNat

/-- Context 1 with a queued command and the bytes listed in module memory. -/
def queued (x : Cmd) (b : List Host.Cell) : State :=
  up { base with ctxs := [(1, ctxD)], frames := [(64, .ctx 1), (2 ^ 24 + 5, .ctx 1)], cmds := [x], mem := { bytes := b } }
def sparCells : List Host.Cell :=
  [(4096, 0x43), (4097, 0x53), (4098, 0x50), (4099, 0x4c), (4100, 1), (4103, 1), (4104, 2), (4105, 1), (4107, 1), (4108, 1), (4110, 1), (4112, 4), (4113, 4),
   (4169, 1), (4180, 0x40), (4181, 1), (4184, 8), (4188, 0x48), (4189, 1), (2147487744, 0x11), (2147487748, 5), (2147487750, 0x10), (2147487813, 0x80),
   (2147487814, 0xc4), (2147487815, 0x80)]
def cmdQ (k : Kind) (fs : List (Nat × Nat × Nat)) : Cmd := { seq := 0, ctx := 1, q := 0, pos := 0, kind := k, entry := block 64 fs }

def mastQ : Cmd := cmdQ .mast [(0x10, 8, 0x10000)]
def stMast : State := queued mastQ mastCells
def moveQ : Cmd := cmdQ .move [(0x10, 4, hnd 1), (0x14, 4, hnd 2), (0x18, 1, 1), (0x19, 1, 1)]
def stMove : State :=
  let s := queued moveQ []
  { s with m := { s.m with clusters := [(0, { slots := [(0, { ctx := some 1 })] })] } }


/-- A spar command that waits, one that is bound with its code in place, and a move between two tensors of allocation 1. -/
def sparQ : Cmd := cmdQ .spar [(0x10, 8, 0x10000)]
def stSpar : State := queued sparQ sparCells
def sparImg1 : Img :=
  { va := 0x10000, size := 328, cls := 1, stackMask := 1, dieMask := 1, coreFirst := 4, coreLast := 4, io := [⟨hnd 5, 1, false, 2⟩]
    code := leBytes 8 addWord.toNat, codeDpa := 64 * 65536 + 320, pieces := [(64 * 65536 + 320, 8)] }
def sparB : Cmd := { cmd9 with phase := .copying, img := { sparImg1 with digest := 3 }, argBlk := [7] }
def stBound : State :=
  let s := queued sparB []
  { s with m := { s.m with memStacks := [(0, { spar := [(4, { st := .bound, cmd := 9, code := [addWord], digest := some 3 })] })] } }

theorem test_sparDispatch :
    (stSpar.m.queueCmds 1 0).find? (fun x => x.kind == .spar && x.phase == .copying && !x.resolved) = none
    ∧ sparQ.fld 0x2A 2 = 0 ∧ sparImg1.coreSet = [(0, 4)]
    ∧ (match stBound.m.draftsFor sparB 9 [] with | .ok (ds, _) => ds == [] | .error _ => false) = true
    ∧ (stBound.m.recallFirst ((stBound.m.bindPages sparB).map fun p => p.2.1.frame) []).isNone = true := by
  decide +kernel

/-- A reading gives a value. -/
def reads {α : Type} [DecidableEq α] (r : Try α) (a : α) : Bool := match r.1 with | .ok b => b == a | _ => false
theorem reads_eq {α : Type} [DecidableEq α] {r : Try α} {a : α} (h : reads r a = true) : r = (.ok a, r.2) := by
  obtain ⟨e, n⟩ := r
  cases e with
  | error e => simp [reads] at h
  | ok b => rw [eq_of_beq (show (b == a) = true from h)]

/-- The drafts that a dispatch has found, and the machine after it. -/
def found (r : Except Mach (List Draft × Mach)) (l : List Draft) : Bool := match r with | .ok (d, _) => d == l | _ => false
def after (r : Except Mach (List Draft × Mach)) : Mach := match r with | .ok (_, m) => m | .error m => m
theorem found_eq {r : Except Mach (List Draft × Mach)} {l : List Draft} (h : found r l = true) : r = .ok (l, after r) := by
  cases r with
  | error e => simp [found] at h
  | ok p => obtain ⟨d, m⟩ := p; rw [eq_of_beq (show (d == l) = true from h)]; rfl

/-- The plan of the queued mast command: its image on cluster 0. -/
def planM : MastPlan :=
  ⟨{ va := 0x10040, size := 320, cls := 1, code := code0, codeDpa := 64 * 65536 + 320, pieces := [(64 * 65536 + 320, 64)] }, [0], [], [], ([], 0, 0)⟩

/-- The command and the machines that `Obligations.MastCommandPlaced` names, one after another. -/
def mastX1 : Cmd := { mastQ with coll := mastQ.fld 0x2A 2 }
def mastX2 : Cmd := { mastX1 with pred := some true }
def mastM1 : Mach := ((stMast.m.modCmd mastX1 fun y => { y with coll := mastX1.coll }).checkMast mastX1).2
def mastMB : Mach := mastM1.modCmd mastX1 fun z => z.examined (mastX1.planned planM)
def mastM2 : Mach := (mastMB.predicate mastX1 planM.img.predVa planM.img.predOp planM.img.predVal).2
def mastM2' : Mach := (mastM2.modCmd mastX1 fun y => { y with pred := some true }).modCmd mastX2 fun y => { y with costTried := true }
def mastM3 : Mach := (mastM2'.chooseClusters 1 1 ([0].filter fun c => mastM2'.canReside 1 c)).2
def mastR : Except Mach (List Draft × Mach) := mastM3.draftsFor mastX2 mastM3.nextSeq (mastM3.wants (mastX2.planned planM))

/-- Every hypothesis of `Obligations.MastCommandPlaced`. -/
theorem witness_mastPlaced :
    stMast.dispatching = true ∧ stMast.m.firstQueued 1 0 .mast = some mastQ ∧ stMast.m.mayDispatch mastX1 = true ∧ stMast.m.holder mastX1 (stMast.m.mastReads mastX1) = none
      ∧ reads ((stMast.m.modCmd mastX1 fun y => { y with coll := mastX1.coll }).checkMast mastX1) planM = true
      ∧ mastMB.holder (mastX1.planned planM) (mastMB.flagSpan 1 planM.img.predVa) = none
      ∧ reads (mastMB.predicate mastX1 planM.img.predVa planM.img.predOp planM.img.predVal) true = true
      ∧ planM.img.cls = 1 ∧ Mach.goesAfter stMast.level mastM2' mastX2 = false
      ∧ (mastM2'.chooseClusters 1 1 ([0].filter fun c => mastM2'.canReside 1 c)).1 = some [0] ∧ found mastR [] = true ∧ 0 < (after mastR).nextSeq
      ∧ (∃ z ∈ (after mastR).cmds, sameCmd z mastQ = true) ∧ (∀ z ∈ (after mastR).cmds, z.seq = (after mastR).nextSeq → sameCmd z mastQ = true)
      ∧ (after mastR).fwHeld = false := by decide +kernel

/-- The spar command and the machines that the second part of `Obligations.SparCommandBound` names. -/
def sparX1 : Cmd := { sparQ with coll := sparQ.fld 0x2A 2 }
def sparM1 : Mach := ((stSpar.m.modCmd sparX1 fun y => { y with coll := sparX1.coll }).checkSpar sparX1).2
def sparMB : Mach := sparM1.modCmd sparX1 fun z => z.examined (sparX1.asSpar sparImg1 ([], 0, 0))
def sparM2 : Mach := (sparMB.predicate sparX1 0 0 0).2
def sparX2 : Cmd := { sparX1 with pred := some true }
def sparM2' : Mach := (sparM2.modCmd sparX1 fun y => { y with pred := some true }).modCmd sparX2 fun y => { y with costTried := true }

/-- Every hypothesis of the second part of `Obligations.SparCommandBound`. -/
theorem witness_sparBound :
    stSpar.dispatching = true ∧ stSpar.m.firstQueued 1 0 .spar = some sparQ 
      ∧ stSpar.m.mayDispatch sparX1 = true ∧ stSpar.m.holder sparX1 (stSpar.m.sparReads sparX1) = none
      ∧ reads ((stSpar.m.modCmd sparX1 fun y => { y with coll := sparX1.coll }).checkSpar sparX1) (sparImg1, ([], 0, 0)) = true
      ∧ sparMB.holder (sparX1.asSpar sparImg1 ([], 0, 0)) (sparMB.flagSpan 1 sparImg1.predVa) = none
      ∧ reads (sparMB.predicate sparX1 sparImg1.predVa sparImg1.predOp sparImg1.predVal) true = true ∧ sparImg1.cls = 1 ∧ sparM2.fwHeld = false
      ∧ Mach.goesAfter stSpar.level sparM2' sparX2 = false ∧ sparM2.ctr.grants = [] ∧ (sparM2.sparCore 0 4).st = .idle := by decide +kernel

/-- Every hypothesis of the first part of `Obligations.SparCommandBound`. -/
theorem witness_sparStarts :
    stBound.dispatching = true
      ∧ (stBound.m.queueCmds 1 0).find? (fun x => x.kind == .spar && x.phase == .copying && !x.resolved) = some sparB
      ∧ sparB.img.coreSet = [(0, 4)] ∧ (stBound.m.sparCore 0 4).st = .bound ∧ (stBound.m.sparCore 0 4).digest = some sparB.img.digest
      ∧ (stBound.m.recallFirst ((stBound.m.bindPages sparB).map fun p => p.2.1.frame) []).isNone = true
      ∧ ((stBound.m.bindPages sparB).filter fun p => p.2.2 != 1) = [] := by decide +kernel

/-- The command and the machines that `Obligations.MoveCommandStarted` names, one after another, the machine after its drafts among them. -/
def moveX : Cmd := moveQ.asMove
def moveX2 : Cmd := { moveX with pred := some true }
def moveMA : Mach := stMove.m.modCmd moveX fun y => y.examined moveX
def moveM1 : Mach := (moveMA.checkMove moveX).2
def moveM2 : Mach := (moveM1.predicate moveX 0 0 0).2
def moveM2' : Mach := moveM2.modCmd moveX fun y => { y with pred := some true }
def moveWant : Want := ⟨1, 0, 64, true, false⟩
def moveD (f : Nat) : Draft := ⟨1, 0, 64, f, true, false, []⟩
def moveM4 (f : Nat) : Mach := ((moveM2'.draw.draw.setFrame f (.draft moveM2'.draw.nextSeq)).copyDrafts [moveD f]).modCx 1 fun c => { c with frames := c.frames + 1 }
theorem witness_moveStarted :
    (stMove.dispatching = true ∧ stMove.m.firstQueued 1 0 .move = some moveQ ∧ moveMA.mayDispatch moveX = true ∧ moveMA.holder moveX (moveMA.moveReads moveX) = none
      ∧ reads (moveMA.checkMove moveX) ([], ([], 0, 0)) = true
      ∧ moveX.fld 0x20 8 = 0 ∧ reads (moveM1.predicate moveX 0 0 0) true = true ∧ moveX.cls = 1 ∧ Mach.goesAfter stMove.level moveM2' moveX2 = false
      ∧ moveM2'.pick (moveM2'.moveClusters moveX2) = (some 0, moveM2'.draw) ∧ moveM2'.draw.wants moveX2 = [moveWant] ∧ moveX.movers = 1)
    ∧ (∃ f, moveM2'.draw.draftsFor moveX2 moveM2'.draw.nextSeq (moveM2'.draw.wants moveX2) = .ok ([moveD f], moveM4 f))
    ∧ ∀ f, 0 < (moveM4 f).nextSeq ∧ (∃ z ∈ (moveM4 f).cmds, sameCmd z moveX = true) ∧ (∀ z ∈ (moveM4 f).cmds, z.seq ≠ (moveM4 f).nextSeq) ∧ (moveM4 f).fwHeld = false
        ∧ ((moveM4 f).cl 0).slotOf 1 = some 0 ∧ 1 ≤ ((moveM4 f).cl 0).freeChans.length
        ∧ (moveM4 f).liveDesc 1 (hnd 1) = some (tBytes 1 0) ∧ (moveM4 f).liveDesc 1 (hnd 2) = some (tBytes 2 16) := by
  have hw : moveM2'.draw.wants moveX2 = [moveWant] := by decide +kernel
  refine ⟨by decide +kernel, ?_, fun f => ?_⟩
  · obtain ⟨f, -, e⟩ := moveM2'.draw.draftsFor_one moveX2 moveM2'.draw.nextSeq moveWant (f := 128) (by decide +kernel) (by decide +kernel) (by decide +kernel)
    exact ⟨f, by rw [hw]; exact e⟩
  · unfold moveM4
    rw [Mach.copyDrafts_eq]
    exact (by decide +kernel : 0 < moveM2'.nextSeq ∧ (∃ z ∈ moveM2'.cmds, sameCmd z moveX = true) ∧ (∀ z ∈ moveM2'.cmds, z.seq ≠ moveM2'.nextSeq) ∧ moveM2'.fwHeld = false
      ∧ (moveM2'.cl 0).slotOf 1 = some 0 ∧ 1 ≤ (moveM2'.cl 0).freeChans.length
      ∧ (moveM2'.modCx 1 fun c => { c with frames := c.frames + 1 }).liveDesc 1 (hnd 1) = some (tBytes 1 0)
      ∧ (moveM2'.modCx 1 fun c => { c with frames := c.frames + 1 }).liveDesc 1 (hnd 2) = some (tBytes 2 16))

/-! ## Drafts, kills, swaps, commit -/

/-- Context 1 with command `x` between dispatch and commit. -/
def withCmd (x : Cmd) : State :=
  up { base with ctxs := [(1, { ctxMove with qs := [(0, { unposted := 1 })] })], frames := [(64, .ctx 1), (65, .draft x.seq), (66, .draft x.seq)], cmds := [x] }
def copying : Cmd := { cmd8 with phase := .copying, drafts := [⟨1, 0, 64, 65, true, false, []⟩] }

/-- A command that has waited since time 0 for a frame and for its context's page limit. -/
def waiter : Cmd := { mastQ with waitDraftSince := some 0, waitLimitSince := some 0, waitNeed := 1 }
def waited (now : Nat) : Mach := { base with now := now, ctxs := [(1, { ctx1 with pageLimit := 1 })], cmds := [waiter] }

theorem test_drafts :
    (ran (.draftCopyDone 8 0) (withCmd { copying with drafts := copying.drafts ++ [⟨1, 1, 64, 66, true, false, []⟩] }) fun t =>
      t.m.cmds.all fun x => x.phase == .copying && x.meters.spar == 64) = true
    ∧ (ran (.draftCopyDone 8 0) (withCmd copying) fun t => t.m.cmds.all fun x => x.phase == .running) = true
    ∧ (withCmd copying).m.engineOf 8 = none
    ∧ (withCmd copying).m.firmwareTokens 65 = true ∧ (withCmd copying).m.firmwareTokens 66 = true
    ∧ (waited 1000000).overdueWait 1 0 (·.waitDraftSince) (·.draftSeen) = some waiter
    ∧ (waited 1000000).overdueWait 1 0 (fun x => if ((waited 1000000).cx 1).admits x.waitNeed then none else x.waitLimitSince) (·.limitSeen) = some waiter
    ∧ (waited 999999).overdueWait 1 0 (fun x => if ((waited 999999).cx 1).admits x.waitNeed then none else x.waitLimitSince) (·.limitSeen) = none
    ∧ (ran (.draftWaitEvent 1 0) (up (waited 1000000)) fun t => t.m.cmds.all fun x => x.draftSeen && !x.limitSeen) = true
    ∧ (ran .admissionWindow (up { now := 1000000, clusters := [(0, { admittedUs := [(1, 5)] })] }) fun t =>
        t.m.windowAt == 1000000 && (t.m.cl 0).admittedUs == []) = true := by decide +kernel

/-- Command 7 killed for a cause, on cluster 0. -/
def killed (w : Cause) : State := onCl { runState := 4 } { cmd7 with phase := .killing, cause := some w }

/-- The step of deployment 0 killed by a trap. -/
def stepKilled : State :=
  let s := onCl { runState := 4 } { cmdS with phase := .killing, cause := some (.fail .trapped 5) }
  { s with m := { s.m with deps := [(0, some { dep0 with stepCmd := some 7 })] } }

theorem test_kills :
    (ran (.killComplete 7) (killed .preempt) fun t => (t.m.cl 0).cmd == none && t.m.cmds.all fun x => x.phase == .queued && x.preempts == 1 && x.placed == []) = true
    ∧ (ran (.killComplete 7) (killed .evict) fun t => t.m.cmds.all fun x => x.phase == .queued && x.preempts == 0) = true
    ∧ (ran (.killComplete 7) (killed .writerKilled) fun t => t.m.cmds.all fun x => x.phase == .queued) = true
    ∧ (ran (.killComplete 7) (killed .stop) fun t => t.m.cmds == [] && ((t.m.cx 1).q 0).cqTail == 1) = true
    ∧ (Status.trapped).stops = true
    ∧ (ran (.killComplete 7) stepKilled fun t => t.m.cmds == [] && (t.m.dep 0).any fun d => d.stopped == some .trapped && d.stepCmd == none && d.batch == []) = true
    ∧ (ran (.killComplete 7) (killed (.fail .trapped 5)) fun t => t.m.cmds == [] && ((t.m.cx 1).q 0).stopped != none) = true := by decide +kernel

/-- Cluster 0 with every slot held by a context whose command is frozen in a wait, while context 9 waits. -/
def full : State :=
  up { ctxs := (List.range 8).map (fun i => (i + 1, { ctx1 with maps := [] })) ++ [(9, { ctx1 with clusterMask := 1 })]
       cmds := (List.range 8).map (fun i => { cmd7 with ctx := i + 1, seq := 7 }) ++ [{ mastQ with ctx := 9 }]
       clusters := [(0, { cmd := some 7, runState := 3, frozen := srcSync, slots := (List.range 8).map fun i => (i, { ctx := some (i + 1), lastUs := 9 - i }) })] }

theorem test_slots :
    full.m.wantsSlot 9 0 = true ∧ (List.range 8).all (full.m.slotBlocked 0) = true
    ∧ oldestSlot (full.m.cl 0) ((List.range 8).filter fun i => match ((full.m.cl 0).slot i).ctx with
          | some y => !(full.m.flying y 0).any fun x => full.m.anchoredNow x
          | none => false) = some 7
    ∧ (ran (.slotEviction 0 9) full fun t => ((t.m.cl 0).slot 7).st == 5 && ((t.m.cl 0).slot 7).incoming == some 9 && (t.m.cl 0).evictions == 1) = true
    ∧ (ran (.swapComplete 0 2) (up { clusters := [(0, { slots := [(2, { st := 4, incoming := some 3 })] })] }) fun t =>
        (t.m.cl 0).slot 2 == { ctx := some 3 }) = true := by decide +kernel

/-- Reports: each at the instant at which it is due. -/
theorem test_reports :
    (ran (.preemptOverdue 7) (up { base with now := 1, cmds := [{ cmd7 with held := [(.preempt, 0, false)] }] }) fun t => t.m.cmds.all fun x => x.held == [(.preempt, 0, true)]) = true
    ∧ (ran (.preemptOverdue 7) (up { base with now := 0, cmds := [{ cmd7 with held := [(.preempt, 0, false)] }] }) fun t => t.m.cmds.all fun x => x.held == [(.preempt, 0, false)]) = true
    ∧ (onCl { wait := some ⟨0x10008, 1, 0, 0, false⟩ }).m.waitOf cmd7 0 = some (0x10008, 1, 1, 0)
    ∧ (ran (.waitBudgetExpire 7 0) (onCl { wait := some ⟨0x10008, 1, 0, 0, false⟩ }) fun t => t.m.cmds.all fun x => x.overdue == [(0, 0x10008)]) = true
    ∧ (onSpar { st := .running, waitSince := some 0 }).m.waitOf cmd9 4 = some (0, 0, 0, 0)
    ∧ (ran (.waitBudgetExpire 9 4) (onSpar { st := .running, waitSince := some 0 }) fun t => (t.m.st 0).overdueSeen) = true
    ∧ (ran (.wcetOverrun 9) { onSpar { st := .running } with m := { (onSpar { st := .running }).m with now := 1 } } fun t => t.m.cmds.all (·.wcetReported)) = true
    ∧ (ran (.wcetOverrun 7) (onCl { issueAc := 1 }) fun t => t.m.cmds.all (·.wcetReported)) = true
    ∧ (ran (.wcetOverrun 7) (onCl { issueAc := 0 }) fun t => t.m.cmds.all fun x => !x.wcetReported) = true
    ∧ (ran .deadlockSearch (up base) fun t => t.m.reported == []) = true := by decide +kernel

/-- The companion holds a line of the page that the commit replaces; a bound command behind its flips. -/
def lent : State :=
  let s := withCmd { cmd8 with phase := .ended }
  { s with m := { s.m with dmg := { s.m.dmg with dir := [65536] } } }
def flipped : Cmd := { cmd8 with phase := .flipped, drafts := [], oldFrames := [64], peers := [(0, 1), (1, 1)], endSent := true }

theorem test_commit :
    (ran (.commit 8) (withCmd { cmd8 with phase := .ended }) fun t => t.m.cmds == [] && t.m.frame 65 == .ctx 1 && t.m.frame 64 == .blank
      && ((t.m.cx 1).alloc 1).any fun a => a.pages == [65]) = true
    ∧ (withCmd { cmd8 with phase := .ended }).m.earlier { cmd8 with phase := .ended } = []
    ∧ (ran (.commit 8) lent fun t => t.m.cmds.map (fun x => (x.phase, x.drafts, x.oldFrames)) == [(.flipped, [], [64])] && t.m.dmg.recalls == [65536]
        && ((t.m.cx 1).alloc 1).any fun a => a.pages == [65]) = true
    ∧ (ran (.commit 8) (withCmd flipped) fun t => t.m.cmds == []) = true
    ∧ (withCmd cmd8).m.recallFirst [64] [] = none
    ∧ (ran (.commit 8) (withCmd { cmd8 with kind := .wait, phase := .ended, drafts := [] }) fun t => t.m.cmds == []) = true
    ∧ (ran (.commit 8) (withCmd { cmdQ .fence [(0x10, 1, 1)] with seq := 8 }) fun t => t.m.cmds == []) = true
    ∧ (ran (.commit 8) (withCmd { cmdQ .fence [(0x10, 1, 2)] with seq := 8 }) fun t => t.m.cmds == [] && ((t.m.cx 1).q 0).cqTail == 1) = true := by decide +kernel

/-- SIGNAL adds 5 to the flag at 0x10008. -/
def signalX : Cmd := { cmdQ .signal [(0x10, 8, 0x10008), (0x18, 8, 5)] with seq := 8, log := [⟨1, 0x10008, ⟨5, false⟩⟩] }
theorem test_signal :
    (withCmd signalX).m.inGrain 1 (signalX.fld 0x10 8) = false ∧ signalX.fld 0x10 8 % 8 = 0
    ∧ (withCmd signalX).m.recallFirst signalX.oldFrames ((withCmd signalX).m.logWords signalX) = none
    ∧ (withCmd signalX).m.xlate 1 0x10008 = some (64 * 65536 + 8) ∧ (withCmd signalX).m.reach (64 * 65536 + 8) = some 4104
    ∧ ((withCmd signalX).m.decodeCell 4104).kind = .clean
    ∧ (ran (.commit 8) (withCmd signalX) fun t => t.m.cmds == [] && (t.m.mem.decode 513).word == ⟨5, false⟩) = true := by decide +kernel

/-! ## Rings and registers of Hyval -/

theorem test_doorbell :
    (ran (.sqTailDoorbell 1 0 5) (up base) fun t => ((t.m.cx 1).q 0).sqTail == 5) = true
    ∧ (ran (.sqTailDoorbell 1 0 4096) (up base) fun t => ((t.m.cx 1).q 0).sqTail == 4096) = true
    ∧ ringDist 0 4097 = 4097 ∧ ringDist 0 5 < ringDist 0 6
    ∧ (ran (.sqTailDoorbell 1 1 5) (up base) fun t => ((t.m.cx 1).q 1).sqTail == 0) = true
    ∧ (ran (.sqTailDoorbell 1 0 0xFFFFFFFF) (up base) fun t => ((t.m.cx 1).q 0).sqTail == 0) = true
    ∧ (ran (.hyvQRestart 1 0) (up { base with ctxs := [(1, { ctx1 with qs := [(0, { stopped := some .trapped })] })] }) fun t => ((t.m.cx 1).q 0).stopped == none) = true
    ∧ (ran (.hyvVersionWrite 1) (up base) fun t => t.m.hyv.version == 1) = true
    ∧ (ran (.hyvVersionWrite 2) (up base) fun t => t.m.hyv.version == 0) = true
    ∧ (ran (.hyvVersionWrite 1) (up { base with hyv := { version := 1 } }) fun t => t.m.hyv.version == 1) = true
    ∧ (ran (.shrNodeIdWrite 0x12) (up base) fun t => t.m.shr.node == 0x12) = true
    ∧ (up { base with shr := { ports := [(0, { st := .up })] } }).m.nodeLocked = true
    ∧ (ran (.shrNodeIdWrite 0x12) (up { base with shr := { ports := [(0, { st := .up })] } }) fun t => t.m.shr.node == 0xFFFF) = true := by decide +kernel

/-! ## Submission entries -/

/-- An entry of queue 0 of context 1 with the fields given, and a module in which it stands at the head of the queue. -/
def entry (fs : List (Nat × Nat × Nat)) : Ent :=
  let b := block 64 fs
  ⟨1, 0, fld b 0 1, fld b 1 1, BitVec.ofNat 64 (fld b 8 8), b⟩
def ringOf (fs : List (Nat × Nat × Nat)) : Tab Byte := ((List.range 64).zip (block 64 fs)).filter fun x => x.2 != 0
def headed (fs : List (Nat × Nat × Nat)) (c : Ctx := ctx1) (cells : List Host.Cell := []) : State :=
  up { base with ctxs := [(1, { c with rings := ringOf fs, qs := [(0, { sqTail := 1 })] })], mem := { bytes := cells } }
def isHead (s : State) (fs : List (Nat × Nat × Nat)) : Bool :=
  s.headEntry 1 0 == some (entry fs) && !(entry fs).bad && (commandOps.contains (entry fs).op || !bitAt (entry fs).flags 1)

def fCmd (op : Nat) : List (Nat × Nat × Nat) := [(0, 1, op), (8, 8, 77), (0x10, 8, 0x10008), (0x18, 8, 5)]
theorem test_queueEntries :
    ([1, 2, 3, 4, 5].all fun op => isHead (headed (fCmd op)) (fCmd op)) = true
    ∧ (ran (.launchMast 1 0) (headed (fCmd 1)) fun t => t.m.cmds.map (fun x => (x.kind, x.seq, x.tag, x.pos)) == [(.mast, 0, 77, 0)]
        && (t.m.cx 1).q 0 == { sqTail := 1, sqHead := 1, unposted := 1, nextPos := 1 }) = true
    ∧ (ran (.launchSpar 1 0) (headed (fCmd 2)) fun t => t.m.cmds.map (·.kind) == [.spar]) = true
    ∧ (ran (.move 1 0) (headed (fCmd 3)) fun t => t.m.cmds.map (·.kind) == [.move]) = true
    ∧ (ran (.fence 1 0) (headed (fCmd 4)) fun t => t.m.cmds.map (fun x => (x.kind, x.seq)) == [(.fence, 8)] && t.m.nextSeq == 9) = true
    ∧ (ran (.signal 1 0) (headed (fCmd 5)) fun t => t.m.cmds.map (·.log) == [[⟨1, 0x10008, ⟨5, false⟩⟩]]) = true
    ∧ (ran (.fence 1 0) (headed (fCmd 5)) fun t => t.m.cmds == [] && (t.m.cx 1).q 0 == { sqTail := 1 }) = true
    ∧ (ran (.fence 1 0) (headed (fCmd 0x77)) fun t => ((t.m.cx 1).q 0).cqTail == 1 && ringBytes (t.m.cx 1).rings (cqOffset 0 0 + 24) 4 == [0x10, 0, 0x77, 1]) = true := by
  decide +kernel

def fWait : List (Nat × Nat × Nat) := [(0, 1, 6), (0x10, 8, 0x10008), (0x18, 8, 5), (0x20, 1, 1)]
def waitX : Cmd := { cmdQ .wait [] with seq := 7, phase := .waitHeld, waitVa := 0x10008, waitCmp := 1, waitVal := 5, waitSince := some 0 }
def waiting : State := up { base with cmds := [waitX], mem := { bytes := [(4104, 5)] } }
theorem test_waits :
    (isHead (headed fWait) fWait && decide (1 ≤ (entry fWait).fld 0x20 1) && decide ((entry fWait).fld 0x20 1 ≤ 5) && decide (0 < (headed fWait).m.nextSeq)) = true
    ∧ (headed fWait).m.flagAddr 1 0x10008 = some (64 * 65536 + 8) ∧ (headed fWait).m.reach ((64 * 65536 + 8) / 8 * 8) = some 4104
    ∧ ((headed fWait).m.decodeCell 4104).kind = .clean
    ∧ (ran (.hyvalWait 1 0) (headed fWait) fun t => t.m.cmds.map (fun x => (x.phase, x.waitSince)) == [(.waitHeld, some 0)]) = true
    ∧ (ran (.hyvalWait 1 0) (headed fWait ctx1 [(4104, 5)]) fun t => t.m.cmds.all fun x => x.phase == .ended) = true
    ∧ waiting.m.dueWait 1 0 = some waitX ∧ waiting.m.flagAddr 1 waitX.waitVa = some (64 * 65536 + 8)
    ∧ (waiting.m.decodeCell 4104).kind = .clean ∧ flagCompare 1 (waiting.m.decodeCell 4104).word.val 5 = some true
    ∧ (ran (.hyvalWaitRelease 1 0) waiting fun t => t.m.cmds.all fun x => x.phase == .ended) = true := by decide +kernel

/-! ## Memory entries -/

/-- ALLOC of a grain page of bank 0 of stack 0; FREE of allocation 1; MAP of allocation 1 at 0x20000; UNMAP of its page. -/
def fAlloc : List (Nat × Nat × Nat) := [(0, 1, 0x10), (0x18, 1, 1), (0x1C, 2, 1), (0x1E, 2, 1), (0x22, 1, 1), (0x24, 4, 1)]
def fFree : List (Nat × Nat × Nat) := [(0, 1, 0x11), (0x10, 4, 1)]
def fMap : List (Nat × Nat × Nat) := [(0, 1, 0x12), (0x10, 4, 1), (0x14, 1, 1), (0x18, 8, 0x20000)]
def fUnmap : List (Nat × Nat × Nat) := [(0, 1, 0x13), (0x10, 8, 0x10000), (0x18, 8, 0x10000)]
def owned (s : State) : State := { s with m := { s.m with owned := [(64, [1])] } }

theorem test_memoryEntries :
    (isHead (headed fAlloc) fAlloc && (entry fAlloc).allocOk) = true ∧ namedBanks 1 1 0 0 1 = [0]
    ∧ (ran (.alloc 1 0) (headed [(0, 1, 0x10), (0x10, 8, 100)]) fun t => ringBytes (t.m.cx 1).rings (cqOffset 0 0 + 24) 2 == [0x11, 0]) = true
    ∧ (isHead (headed fFree) fFree) = true ∧ (headed fFree).m.ownedAlloc { pages := [64] } = false ∧ (owned (headed fFree)).m.ownedAlloc { pages := [64] } = true
    ∧ (ran (.free 1 0) (headed fFree) fun t => (t.m.cx 1).maps == [] && ((t.m.cx 1).alloc 1).isNone && t.m.frame 64 == .blank && ((t.m.cx 1).q 0).cqTail == 1) = true
    ∧ (ran (.free 1 0) (owned (headed fFree)) fun t => (t.m.cx 1).frees == [(0, 1, 0, 0, 0, 0)] && ((t.m.cx 1).q 0).unposted == 1) = true
    ∧ (isHead (headed fMap) fMap) = true
    ∧ (ran (.map 1 0) (headed fMap) fun t => (t.m.cx 1).maps == [⟨0x10000, 1, 0, 1, true⟩, ⟨0x20000, 1, 0, 1, true⟩]) = true
    ∧ (isHead (headed fUnmap) fUnmap) = true ∧ ((headed fUnmap).m.cx 1).mapped 0x10000 ≠ none
    ∧ (ran (.unmap 1 0) (headed fUnmap) fun t => (t.m.cx 1).maps == [] && ((t.m.cx 1).alloc 1).isSome) = true := by decide +kernel

/-- DESC_CREATE: the local record of a read of 16 bytes of allocation 1, and a distributed one over a grid of one element. -/
def fDesc : List (Nat × Nat × Nat) := [(0, 1, 0x14), (0x10, 8, 0x10000)]
def recLocal : List (Nat × Nat × Nat) :=
  [(0, 4, 0x4C504453), (4, 2, 1), (7, 1, 1), (0x0A, 1, 1), (0x0C, 1, 8), (0x10, 4, 1), (0x40, 8, 1), (0x48, 4, 16)]
def recGrid : List (Nat × Nat × Nat) :=
  [(0, 4, 0x4C504453), (4, 2, 1), (6, 1, 1), (7, 1, 1), (8, 4, hnd 1), (0x0C, 1, 1), (0x10, 2, 1), (0x18, 8, 0x10100), (0x20, 8, 16)]
/-- The bytes of a record where frame 64 stores them: its first granule (R232). -/
def recCells (fs : List (Nat × Nat × Nat)) : List Host.Cell :=
  (((List.range 256).zip (block 256 fs)).filter fun x => x.2 != 0).map fun x => (4096 + x.1, x.2)
def stLocal : State := headed fDesc ctx1 (recCells recLocal)
def stGrid : State :=
  let s := headed fDesc ctxMove (recCells recGrid)
  { s with m := { s.m with shr := { s.m.shr with node := 0 } } }
def fDestroy : List (Nat × Nat × Nat) := [(0, 1, 0x15), (0x10, 4, hnd 1)]

/-- The machine after it has read the local record. -/
def afterRec : Mach := ((stLocal.m.consume (entry fDesc)).fetchVa 1 0x10000 256).2
theorem test_descriptors :
    isHead stLocal fDesc = true ∧ (stLocal.m.consume (entry fDesc)).fetchVa 1 0x10000 256 = (some (block 256 recLocal, false), afterRec)
    ∧ (match afterRec.checkLocal 1 (block 256 recLocal) with | .ok r => r == ({ tBytes 1 0 with }, false) | .error _ => false) = true
    ∧ (stLocal.m.cx 1).freeDesc 1 = some 1 ∧ afterRec.fwHeld = false ∧ sumNat (afterRec.ctxs.map fun x => x.2.descCount) < 1048576
    ∧ (ran (.descCreate 1 0) stLocal fun t => Tab.get none (t.m.cx 1).descs 1 == some (tBytes 1 0) && ((t.m.cx 1).q 0).cqTail == 1) = true
    ∧ gridRanges (block 256 recGrid) = true
    ∧ (match ((stGrid.m.consume (entry fDesc)).ownerTable 1 0x10100 1).1 with | some (some o) => o == [0] | _ => false) = true
    ∧ (ran (.descCreate 1 0) stGrid fun t => (Tab.get none (t.m.cx 1).descs 5).any fun d => d.local_ == hnd 1 && d.grid.isSome) = true
    ∧ isHead (headed fDestroy ctxMove) fDestroy = true ∧ ((headed fDestroy ctxMove).m.liveDesc 1 (hnd 1)).any (fun d => !d.dying) = true
    ∧ (ran (.descDestroy 1 0) (headed fDestroy ctxMove) fun t => (t.m.liveDesc 1 (hnd 1)).isNone) = true := by decide +kernel

/-- The pages of an ALLOC that names one bank, whatever the free choice. -/
theorem witness_alloc : ∃ l m1, ((headed fAlloc).m.consume (entry fAlloc)).placeGrain (.ctx 1) [0] 1 = some (l, m1) := by
  obtain ⟨g, -, -, h⟩ := Mach.takeOf_some ((headed fAlloc).m.consume (entry fAlloc)) (pagesOfBank 0) (.ctx 1) (f := 2 ^ 24 + 5) (by decide +kernel) (by decide +kernel)
  exact ⟨[g], ((headed fAlloc).m.consume (entry fAlloc)).draw.setFrame g (.ctx 1), by rw [Mach.placeGrain]; simp [h]⟩

/-! ## Contexts and grants -/

/-- A module whose mailbox holds an admin command with the arguments and the payload given; version 1 is selected. -/
def adm (op : Nat) (args : List (Nat × Nat × Nat)) (pay : List (Nat × Nat × Nat) := []) : Admin := ⟨op, true, 77, block 48 args, block 64 pay⟩
def mailed (a : Admin) (m : Mach := base) : State := up { m with hyv := { version := 1, latched := some a } }
def isLatched (s : State) (op : Nat) (a : Admin) : Bool := s.m.hyv.latched == some a && a.op == op && adminOwnerUp s op && (adminRefusal s a).isNone

def aCreate : Admin := adm 1 [] [(0, 2, 9), (4, 4, 1), (8, 2, 1), (0x0A, 1, 1), (0x0E, 2, 1), (0x10, 4, 1)]
def aCtx (op : Nat) : Admin := adm op [(0, 2, 1)]
def inSt (c : CtxSt) : Mach := { base with ctxs := [(1, { ctx1 with st := c })] }
def otherReserve : Mach := { inSt .created with ctxs := [(1, { ctx1 with st := .created, reserve := 500 }), (2, { ctx1 with reserve := 500 })] }

theorem test_contextsStart :
    (isLatched (mailed aCreate) 1 aCreate && ctxOk aCreate.payload) = true ∧ (base.cx 9).st = .absent ∧ (base.cx 9).destroying = none
    ∧ (ran .ctxCreate (mailed aCreate) fun t => (t.m.cx 9).st == .created && t.m.cx 1 == ctx1 && t.m.hyv.latched == none && t.m.hyv.status == .ok) = true
    ∧ (ran .ctxCreate (mailed (adm 1 [] [(0, 2, 9)])) fun t => t.m.hyv.status == .badParam && (t.m.cx 9).st == .absent) = true
    ∧ (isLatched (mailed (aCtx 2)) 2 (aCtx 2) && (aCtx 2).ctxOk 2) = true ∧ (inSt .created).overcommits 1 = false ∧ (inSt .created).grantedAgainst 1 = false
    ∧ (ran .ctxEnable (mailed (aCtx 2) (inSt .created)) fun t => (t.m.cx 1).st == .enabled && (t.m.cx 1).session == 2) = true
    ∧ (ran .ctxEnable (mailed (aCtx 2)) fun t => t.m.hyv.status == .ok && t.m.ctxs == base.ctxs) = true
    ∧ (mailed (aCtx 2)).m.hyv.pendFull = false
    ∧ (ran .ctxEnable (mailed (aCtx 2) (inSt .draining)) fun t => (t.m.cx 1).enable == some 77 && t.m.hyv.status == .pending) = true
    ∧ otherReserve.overcommits 1 = true ∧ (ran .ctxEnable (mailed (aCtx 2) otherReserve) fun t => t.m.hyv.status == .lcOvercommit) = true := by decide +kernel

def aKill : Admin := adm 3 [(0, 2, 1), (2, 1, 1)]
def aFinish : Admin := adm 3 [(0, 2, 1)]
theorem test_contextsEnd :
    (isLatched (mailed aFinish) 3 aFinish && aFinish.ctxOk 3 && isLatched (mailed aKill) 3 aKill && aKill.ctxOk 3) = true
    ∧ (ran .ctxDisableFinish (mailed aFinish) fun t => (t.m.cx 1).st == .draining && (t.m.cx 1).disables == [77] && t.m.hyv.outstanding == 1) = true
    ∧ (ran .ctxDisableKill (mailed aKill { base with cmds := [cmd7] }) fun t => (t.m.cx 1).st == .draining && t.m.cmds.all fun x => x.phase == .killing) = true
    ∧ (ran .ctxDisableKill (mailed aFinish) fun t => t.m.hyv.latched.isSome) = true
    ∧ (up (inSt .draining)).dispatching = true
    ∧ (ran (.drainComplete 1) (up (inSt .draining)) fun t => (t.m.cx 1).st == .disabled && t.aon.mode == .ready) = true
    ∧ (ran (.drainComplete 1) (up { inSt .draining with cmds := [cmd7] }) fun t => (t.m.cx 1).st == .draining) = true
    ∧ (isLatched (mailed (aCtx 4) (inSt .disabled)) 4 (aCtx 4)) = true
    ∧ (ran .ctxDestroy (mailed (aCtx 4) (inSt .disabled)) fun t => (t.m.cx 1).st == .absent && (t.m.cx 1).destroying == some 77) = true
    ∧ (up { base with ctxs := [(1, { ctx1 with st := .absent, destroying := some 77 })] }).m.heldLines [64] [] = []
    ∧ (ran (.ctxDestroyComplete 1) (up { base with ctxs := [(1, { ctx1 with st := .absent, destroying := some 77 })] }) fun t =>
        t.m.cx 1 == { session := 1 } && t.m.frame 64 == .blank && t.m.hyv.pqTail == 1) = true := by decide +kernel

def aGrant : Admin := adm 0x10 [(0, 2, 1), (4, 4, 1)]
def aRevoke : Admin := adm 0x10 [(0, 2, 1), (2, 1, 1)]
def grant1 : Grant := ⟨1, 1, 0, 0, 0, false, 77⟩
theorem test_grants :
    (isLatched (mailed aGrant) 0x10 aGrant && grantOk aGrant.args && isLatched (mailed aRevoke) 0x10 aRevoke && grantOk aRevoke.args) = true
    ∧ base.lcConflict 1 1 0 = false
    ∧ (ran .grantCounters (mailed aGrant) fun t => t.m.ctr.grants == [grant1] && t.m.hyv.status == .pending) = true
    ∧ (ran .grantRevoke (mailed aRevoke { base with ctr := { grants := [{ grant1 with complete := true }] } }) fun t => t.m.ctr.grants == [] && t.m.hyv.status == .ok) = true
    ∧ (ran (.grantComplete 1) (up { base with ctr := { grants := [grant1] }, clusters := [(0, { slots := [(3, { ctx := some 2 })] })] }) fun t =>
        t.m.ctr.grants == [{ grant1 with complete := true }] && (t.m.cl 0).slot 3 == {} && t.m.hyv.pqTail == 1) = true := by decide +kernel

/-! ## Deployments -/

/-- Fields at the start of granule `g` of frame 64, where module memory stores them (R232). -/
def gran (g n : Nat) (fs : List (Nat × Nat × Nat)) : List Host.Cell :=
  (((List.range n).zip (block n fs)).filter fun x => x.2 != 0).map fun x => (g * 2 ^ 31 + 4096 + x.1, x.2)

/-- A deployment descriptor at 0x10400 with its step table at 0x10500, its geometry at 0x10600, and an ADMIT record at 0x10900. -/
def deployCells : List Host.Cell :=
  mastCells ++ gran 4 256 [(0, 4, 0x4C504450), (4, 2, 1), (6, 2, 1), (8, 4, 1), (0x0F, 1, 1), (0x10, 8, 0x10500), (0x18, 2, 1), (0x1A, 2, 16), (0x1C, 4, 4), (0x20, 4, 1),
      (0x24, 4, 64), (0x28, 4, 64), (0x2C, 4, 8), (0x30, 4, 10), (0x48, 8, 0x14000), (0x50, 4, 256), (0x80, 4, 64), (0xC8, 8, 0x10600)]
    ++ gran 5 32 [(0, 1, 1), (8, 8, 0x10000)]
    ++ gran 6 64 [(0, 4, 0x4C504B47), (4, 2, 1), (6, 1, 2), (8, 2, 1), (0x0A, 1, 1), (0x0B, 1, 1), (0x0C, 2, 64), (0x10, 8, 0x20000)]
    ++ gran 9 64 [(4, 4, 3), (0x10, 4, 5), (0x26, 2, 0x3F80)]
def fDeploy : List (Nat × Nat × Nat) := [(0, 1, 0x20), (0x10, 8, 0x10400)]
def fAdmit : List (Nat × Nat × Nat) := [(0, 1, 0x21), (0x10, 8, 0x10900)]
def fDep (op : Nat) : List (Nat × Nat × Nat) := [(0, 1, op), (0x14, 4, 0), (0x18, 4, 60)]
def fUndeploy (mode : Nat) : List (Nat × Nat × Nat) := [(0, 1, 0x25), (0x12, 1, mode)]

/-- Deployment 0 of context 1 with a request in slot 0. -/
def paused0 : SReq := { parseAdmit dep0 (block 64 [(4, 4, 3), (0x10, 4, 5)]) 0 with st := .paused, ttlEnd := 100 }
def served (fs : List (Nat × Nat × Nat)) (d : Deployment := { dep0 with reqs := [(0, some paused0)] }) : State :=
  let s := headed fs ctx1 deployCells
  { s with m := { s.m with deps := [(0, some d)] } }

theorem test_servingEntries :
    ([fAdmit, fDep 0x22, fDep 0x23, fDep 0x24, fUndeploy 0, fUndeploy 1].all fun f => isHead (served f) f) = true
    ∧ (served fAdmit).servedFull = true ∧ ((served fAdmit).m.depOf 1 0).any (fun d => d.closing.isNone) = true
    ∧ ((served fAdmit).m.depOf 1 0).any (fun d => (d.slotOf 0).any fun x => x.2.st == .paused) = true
    ∧ admitOk dep0 (block 64 [(4, 4, 3), (0x10, 4, 5), (0x26, 2, 0x3F80)]) = true
    ∧ (match ((served fAdmit).m.consume (entry fAdmit)).takeRecord 1 0x10900 64 with | (.ok b, m) => b == block 64 [(4, 4, 3), (0x10, 4, 5), (0x26, 2, 0x3F80)] && !m.fwHeld | _ => false) = true
    ∧ (ran (.admitEntry 1 0) (served fAdmit) fun t => (t.m.dep 0).any fun d => d.admits.map (fun x => (x.1, x.2.2.2.promptLen, x.2.2.2.maxNew)) == [(0, 3, 5)]) = true
    ∧ (ran (.admitEntry 1 0) (served fAdmit { dep0 with maxReq := 0 }) fun t => ((t.m.cx 1).q 0).cqTail == 1 && (t.m.dep 0).any fun d => d.admits == []) = true
    ∧ (ran (.cancel 1 0) (served (fDep 0x22)) fun t => (t.m.dep 0).any fun d => d.cancels == [(0, 0, 0, 0)]) = true
    ∧ (ran (.pause 1 0) (served (fDep 0x23)) fun t => (t.m.dep 0).any fun d => d.pauses == [(0, 0, 0, 0, 60)]) = true
    ∧ (ran (.resume 1 0) (served (fDep 0x24)) fun t => (t.m.dep 0).any fun d => d.resumes == [(0, 0, 0, 0)]) = true
    ∧ (ran (.resume 1 0) (served (fDep 0x24) { dep0 with reqs := [(0, some { paused0 with st := .decode })] }) fun t =>
        fld (ringBytes (t.m.cx 1).rings (cqOffset 0 0) 32) 24 2 == 0x52) = true
    ∧ (ran (.undeployFinish 1 0) (served (fUndeploy 0)) fun t => (t.m.dep 0).any fun d => d.closing == some (0, 0, 0) && !d.cancelAll) = true
    ∧ (ran (.undeployCancel 1 0) (served (fUndeploy 1)) fun t => (t.m.dep 0).any fun d => d.closing == some (0, 0, 0) && d.cancelAll) = true
    ∧ (ran (.hyvServeCtlRestart 1 0) (served [] { dep0 with stopped := some .trapped }) fun t => t.m.dep 0 == some dep0) = true := by decide +kernel

/-- A reading that succeeds, in the form that a kernel computation can show. -/
theorem reads_some {α : Type} {r : Try α} {p : α → Mach → Bool} (h : (match r with | (.ok a, m) => p a m | _ => false) = true) :
    ∃ a m, r = (.ok a, m) ∧ p a m = true := by
  obtain ⟨e, n⟩ := r
  cases e with
  | error e => simp at h
  | ok b => exact ⟨b, n, rfl, h⟩

/-- Every hypothesis of the first part of `Obligations.DeploymentsTakeEntries`, whatever the free choice. -/
theorem witness_deploy : ∃ d m1 id m2, isHead (headed fDeploy ctxD deployCells) fDeploy = true
    ∧ ((headed fDeploy ctxD deployCells).m.consume (entry fDeploy)).readDeploy 1 0x10400 = (.ok d, m1)
    ∧ m1.pick ((List.range 16384).filter fun i => (m1.dep i).isNone) = (some id, m2) ∧ (m2.openDep id d).fwHeld = false := by
  obtain ⟨d, m1, h, hp⟩ := reads_some (r := ((headed fDeploy ctxD deployCells).m.consume (entry fDeploy)).readDeploy 1 0x10400)
    (p := fun d m => m.deps == [] && !m.fwHeld && d.prefixFrames == [] && d.treeVa == 0) (by decide +kernel)
  simp only [Bool.and_eq_true, Bool.not_eq_true', beq_iff_eq] at hp
  obtain ⟨⟨⟨hd, hf⟩, hx⟩, ht⟩ := hp
  have hn : ((List.range 16384).filter fun i => (m1.dep i).isNone) ≠ [] :=
    List.ne_nil_of_mem (a := 0) (by simp [List.mem_filter, Mach.dep, hd])
  obtain ⟨id, -, hp⟩ := m1.pick_mem _ hn
  exact ⟨d, m1, id, _, by decide +kernel, h, hp, by simpa [Mach.openDep, Mach.writeTree, hx, ht, Mach.draw] using hf⟩

/-- Deployment 0 at its step boundaries, and the command of its step. -/
def serving (d : Deployment) (l : List Cmd := []) : State := up { base with deps := [(0, some d)], cmds := l }
def stepX : Cmd := { cmdS with boundary := [0] }
def inStage : Deployment := { dep0 with stepCmd := some 7, stageOn := true }
/-- Region page 3 of the request in slot 0 on its way to the host tier, or back. -/
def moving (r : SReq) : State := serving { dep0 with reqs := [(0, some { r with kv := [(3, (3, 1))] })] }
def inTransit : State :=
  let s := moving { paused0 with toHost := [(3, 70)] }
  { s with m := { s.m with frames := [(70, .transit)] } }

theorem test_serveSteps :
    (ran (.stepBoundary 0) (serving { dep0 with batch := [] }) fun t => (t.m.dep 0).any (·.boundaryAt == 0)) = true
    ∧ (ran (.stepBoundary 0) (serving { dep0 with batch := [], closing := some (0, 77, 0) }) fun t => t.m.dep 0 == none && ((t.m.cx 1).q 0).cqTail == 1) = true
    ∧ (ran (.fillWaitEnd 0) (serving { dep0 with batch := [], filling := true }) fun t => (t.m.dep 0).any fun d => !d.filling) = true
    ∧ stepX.stageDone = true ∧ (serving inStage [stepX]).m.cmdOf 7 = some stepX ∧ inStage.nextStage (some inStage.stage) = none
    ∧ (ran (.serveStageDone 0 [] []) (serving { inStage with batch := [] } [stepX]) fun t => t.m.cmds.all fun x => x.phase == .ended && x.placed == []) = true
    ∧ ((serving { dep0 with postsDue := true }).m.tokenRoom dep0 0).1 = some 0
    ∧ (ran (.tokenRecordPost 0) (serving { dep0 with postsDue := true, batch := [] }) fun t => (t.m.dep 0).any fun d => d.step == 1 && !d.postsDue) = true
    ∧ (inTransit.m.req 0 0).any (fun r => r.toHost == [(3, 70)] && (Tab.get (0, 0) r.kv 3).1 == 3) = true ∧ inTransit.m.frame 70 = .transit
    ∧ ((moving { paused0 with fromHost := [3] }).m.req 0 0).any (fun r => r.fromHost.contains 3 && (Tab.get (0, 0) (r.kvNext.getD r.kv) 3).1 == 3) = true := by decide +kernel

/-! ## Collectives -/

/-- A COLLECTIVE command of two participants: its record at 0x10400, its peer list at 0x10500; this module is node 0, and node 1 lies behind port 0. -/
def collCells (kind : Nat) : List Host.Cell :=
  gran 4 128 [(0, 4, 0x4C50434C), (4, 2, 1), (6, 1, kind), (7, 1, 1), (8, 2, 3), (0x0A, 2, 2), (0x11, 1, kind / 2), (0x14, 4, 100), (0x18, 4, kind / 2 * hnd 1), (0x1C, 4, kind / 2 * hnd 2), (0x20, 8, 0x10500)]
    ++ gran 5 8 [(2, 2, 1), (4, 2, 1), (6, 2, 1)]
def withPort (m : Mach) : Mach := { m with shr := { m.shr with node := 0, routes := [(1, 0x80)], ports := [(0, { st := .up })] } }
def collX : Cmd := cmdQ .coll [(0x10, 8, 0x10400)]
def onColl (kind : Nat) : State :=
  let s := queued collX (collCells kind)
  { s with m := withPort s.m }
def abortF : List (Nat × Nat × Nat) := [(0, 1, 0x31), (0x10, 2, 3)]
def registered (s : State) : State := { s with m := s.m.modCx 1 fun c => { c with colls := [(3, [], false)] } }

def collB0 : List Byte :=
  block 128 [(0, 4, 0x4C50434C), (4, 2, 1), (7, 1, 1), (8, 2, 3), (0x0A, 2, 2), (0x14, 4, 100), (0x20, 8, 0x10500)] ++ block 8 [(2, 2, 1), (4, 2, 1), (6, 2, 1)]
def collMB0 : Mach := ((onColl 0).m.checkColl collX).2.modCmd collX fun z => z.examined { collCmd collX collB0 with coll := z.coll }

theorem test_collectives :
    reads ((onColl 0).m.checkColl collX) (collB0) = true ∧ (collMB0.holder (collCmd collX collB0) []).isNone = true ∧ collMB0.fwHeld = false
    ∧ ((onColl 0).headEntry 1 0).isNone = true ∧ (onColl 0).m.firstQueued 1 0 .coll = some collX ∧ (onColl 0).m.mayDispatch collX = true
    ∧ (ran (.collective 1 0) (onColl 0) fun t => t.m.cmds.map (·.phase) == [.ended] && (t.m.cx 1).colls.map (fun r => (r.1, r.2.2)) == [(3, false)]) = true
    ∧ isHead (headed abortF) abortF = true ∧ zeros (entry abortF).bytes 0x12 46 = true ∧ (headed abortF).m.boundAll 1 3 = []
    ∧ (ran (.abortCollective 1 0) (registered (headed abortF)) fun t => (t.m.cx 1).colls == [(3, [], true)] && ((t.m.cx 1).q 0).cqTail == 1) = true := by decide +kernel

/-- Command 8 with an engine that reduces two double words over two participants. -/
def engX : Cmd := { cmd8 with coll := 3, peers := [(0, 1), (1, 1)], srcH := hnd 1, dstH := hnd 2, collUs := 100 }
def eng0 : Engine := { cmd := 8, kind := 2, n := 2, rank := 0, root := 0, accOp := 1, fmt := 1, dirs := 1, src := hnd 1, dst := hnd 2, elems := 2, at_ := [], started := true }
def tDouble : Desc := { fmt := 1, use := 2, alloc := 1, base := 16, dims := [{ stride := 8, extent := 2 }] }
def onEngine : State :=
  { onMove {} with m := withPort { (onMove {}).m with cmds := [engX], engines := [eng0], ctxs := [(1, { ctxMove with descs := [(2, some tDouble)] })] } }
def late (s : State) : State := { s with m := { s.m with now := 100000 } }

theorem test_engines :
    onEngine.m.cmdOf 8 = some engX ∧ onEngine.m.engineOf 8 = some eng0 ∧ onEngine.m.liveDesc 1 (hnd 2) = some tDouble
    ∧ onEngine.m.readyHalves engX eng0 tDouble = [0] ∧ eng0.part (eng0.half 0) (eng0.place 0) = some (2, [0], 0)
    ∧ (onEngine.m.draw.partVas engX tDouble [0]).1 = [0x10010]
    ∧ (match ((onEngine.m.draw.partVas engX tDouble [0]).2.partWords engX eng0 2 [0x10010]).1 with | .ok l => l == [(0x2002, 0)] | _ => false) = true
    ∧ engX.peers[(eng0.half 0).next]? = some (1, 1)
    ∧ (late onEngine).m.reachable 1 = true
    ∧ (ran (.collectiveBudgetExpire 8) (late onEngine) fun t => t.m.cmds.map (·.collSeen) == [true]) = true
    ∧ (ran (.collectiveBudgetExpire 8) onEngine fun t => t == onEngine) = true
    ∧ (ran (.collectiveBudgetExpire 8) { onEngine with m := { (late onEngine).m with shr := {} } } fun t =>
        t.m.cmds.map (·.phase) == [.killing] && ((t.m.cx 1).q 0).stopped == some .collectiveFailed) = true := by decide +kernel

theorem test_endFlits :
    (onEngine.m.earlier { engX with phase := .ended }) = []
    ∧ (ran (.commit 8) { onEngine with m := { onEngine.m with cmds := [{ engX with phase := .ended }] } } fun t =>
        t.m.cmds.map (·.endSent) == [true] && t.m.shr.tx.map (fun f => (f.op, f.dst)) == [(5, 1)]) = true := by decide +kernel

/-- The free half that the engine sends and the frame into which a page returns, whatever the free choices. -/
theorem witness_freeChoices :
    onEngine.m.pick (onEngine.m.readyHalves engX eng0 tDouble) = (some 0, onEngine.m.draw)
    ∧ ∃ f m1, (moving { paused0 with fromHost := [3] }).m.takeAny (.kv 1) = some (f, m1) := by
  constructor
  · rw [show onEngine.m.readyHalves engX eng0 tDouble = [0] by decide +kernel]; exact Mach.pick_one _ _
  · obtain ⟨g, -, h⟩ := (moving { paused0 with fromHost := [3] }).m.takeAny_some (.kv 1) (f := 65) (by decide) (by decide +kernel)
    exact ⟨g, _, h⟩

/-- The record of the hardware collective with its peer list, and the machines that `Obligations.CollectiveEntries` names. -/
def collB : List Byte :=
  block 128 [(0, 4, 0x4C50434C), (4, 2, 1), (6, 1, 3), (7, 1, 1), (8, 2, 3), (0x0A, 2, 2), (0x11, 1, 1), (0x14, 4, 100), (0x18, 4, hnd 1), (0x1C, 4, hnd 2), (0x20, 8, 0x10500)]
    ++ block 8 [(2, 2, 1), (4, 2, 1), (6, 2, 1)]
def collY : Cmd := collCmd collX collB
def collM1 : Mach := ((onColl 3).m.checkColl collX).2
def collMB : Mach := collM1.modCmd collX fun z => z.examined { collY with coll := z.coll }
def machY : Mach := collMB.modCmd collY fun z => { z with costTried := true }

/-- Every hypothesis of the second part of `Obligations.CollectiveEntries`. -/
theorem witness_collective :
    ((onColl 3).dispatching = true ∧ ((onColl 3).headEntry 1 0).isNone = true ∧ (onColl 3).m.firstQueued 1 0 .coll = some collX ∧ (onColl 3).m.mayDispatch collX = true
      ∧ (onColl 3).m.holder collX ((onColl 3).m.collReads collX) = none ∧ reads ((onColl 3).m.checkColl collX) collB = true
      ∧ collMB.holder collY [] = none ∧ collY.cls ≠ 0 ∧ Mach.goesAfter (onColl 3).level machY collY = false)
    ∧ (∃ ds m2, machY.draftsFor collY machY.nextSeq (((machY.wantsOf 1 collY.dstH 2 false).foldl (fun l w => addWant l w.1 w.2) []).map (·.1)) = .ok (ds, m2)
        ∧ m2.fwHeld = false ∧ ∀ z ∈ m2.cmds, sameCmd z collX = false → z.again = false) := by
  refine ⟨by decide +kernel, ?_⟩
  obtain ⟨f, -, e⟩ := machY.draftsFor_one collY machY.nextSeq ⟨1, 0, 64, true, false⟩ (f := 128) (by decide +kernel) (by decide +kernel) (by decide +kernel)
  refine ⟨_, _, by rw [show ((machY.wantsOf 1 collY.dstH 2 false).foldl (fun l w => addWant l w.1 w.2) []).map (·.1) = [⟨1, 0, 64, true, false⟩] by decide +kernel]; exact e, ?_⟩
  rw [Mach.copyDrafts_eq]
  exact (by decide +kernel : machY.fwHeld = false ∧ ∀ z ∈ machY.cmds, sameCmd z collX = false → z.again = false)

/-! ## Inlay, stays, updates -/

/-- INLAY_ARM of a stack line and of a scratchpad line, and INLAY_DISARM of each. -/
def aArm : Admin := adm 0x11 [(8, 4, 5)]
def aArmSpad : Admin := adm 0x11 [(0, 1, 1), (0x10, 4, 7)]
def aDisarm : Admin := adm 0x11 [(1, 1, 1), (8, 4, 5)]
def aDisarmSpad : Admin := adm 0x11 [(0, 1, 1), (1, 1, 1), (0x10, 4, 7)]
def armedStack : Mach := { base with memStacks := [(0, { inlay := [(0, some ⟨0, 0, 5, 0, 3⟩)] })] }
/-- The scratchpad's line while cluster 0 runs command 7. -/
def armedBusy : Mach := { (onCl { cores := [(0, { inlay := [(0, some (7, 2))] })] }).m with hyv := base.hyv }
def armedSpad : Mach := { base with clusters := [(0, { cores := [(0, { inlay := [(0, some (7, 2))] })] })] }

/-- Stack 0 with one spare line of bank 0 of die 0 left, number 15. -/
def oneSpare : Mach := { base with memStacks := [(0, { spareBad := (List.range 15).map fun i => (i, true) })] }

theorem test_inlay :
    ([aArm, aArmSpad, aDisarm, aDisarmSpad].all fun a => isLatched (mailed a) 0x11 a && inlayOk a.args) = true
    ∧ ([aDisarm, aDisarmSpad].all fun a => isDisarm a.args) = true ∧ ([aArm, aArmSpad].all fun a => !isDisarm a.args) = true ∧ base.hyv.pendFull = false
    ∧ base.armRefusal (inlayArgs aArm.args) = none ∧ base.armWaits (inlayArgs aArm.args) = false
    ∧ base.armRefusal (inlayArgs aArmSpad.args) = none ∧ base.armWaits (inlayArgs aArmSpad.args) = false
    ∧ (ran .inlayArm (mailed aArm oneSpare) fun t => Tab.get none (t.m.st 0).inlay 0 == some ⟨0, 0, 5, 0, 15⟩ && t.m.hyv.status == .ok && t.m.hyv.result == 15) = true
    ∧ (onCl {}).m.armWaits (inlayArgs aArmSpad.args) = true ∧ (onCl {}).m.armRefusal (inlayArgs aArmSpad.args) = none
    ∧ (ran .inlayArm (mailed aArmSpad (onCl {}).m) fun t => t.m.inlayWait == [aArmSpad] && t.m.hyv.status == .pending) = true
    ∧ armedStack.armRefusal (inlayArgs aArm.args) = some .inlayInUse
    ∧ (ran .inlayArm (mailed aArm armedStack) fun t => t.m.hyv.status == .inlayInUse && t.m.memStacks == armedStack.memStacks) = true
    ∧ armedStack.disarmRefusal (inlayArgs aDisarm.args) = none ∧ armedStack.disarmWaits (inlayArgs aDisarm.args) = false
    ∧ (ran .inlayDisarm (mailed aDisarm armedStack) fun t => Tab.get none (t.m.st 0).inlay 0 == none && t.m.hyv.status == .ok && t.m.hyv.result == 3) = true
    ∧ (ran .inlayDisarm (mailed aDisarmSpad armedSpad) fun t => Tab.get none ((t.m.cl 0).core 0).inlay 0 == none && t.m.hyv.result == 2) = true
    ∧ armedBusy.disarmRefusal (inlayArgs aDisarmSpad.args) = none ∧ armedBusy.disarmWaits (inlayArgs aDisarmSpad.args) = true
    ∧ (ran .inlayDisarm (mailed aDisarmSpad armedBusy) fun t => t.m.inlayWait == [aDisarmSpad] && t.m.hyv.status == .pending) = true
    ∧ base.disarmRefusal (inlayArgs aDisarm.args) = some .inlayNotArmed
    ∧ (ran .inlayDisarm (mailed aDisarm) fun t => t.m.hyv.status == .inlayNotArmed) = true := by decide +kernel

/-- What INLAY_ARM_COMPLETE carries out: an arm, an arm that is refused by then, a disarm. -/
theorem test_inlayComplete :
    ([(aArm, oneSpare), (aArm, armedStack), (aDisarm, armedStack)].all fun e =>
      { e.2 with inlayWait := [e.1] }.inlayWait.find? (fun a => !e.2.inlayWaits a.args) == some e.1) = true
    ∧ (ran .inlayArmComplete (up { oneSpare with inlayWait := [aArm] }) fun t => t.m.inlayWait == [] && (Tab.get none (t.m.st 0).inlay 0).isSome
        && Tab.get none t.m.hyv.pqMem 0 == some ⟨77, 15, 0, .ok, 0x11⟩) = true
    ∧ (ran .inlayArmComplete (up { armedStack with inlayWait := [aArm] }) fun t => t.m.inlayWait == [] && Tab.get none t.m.hyv.pqMem 0 == some ⟨77, 0, 0, .inlayInUse, 0x11⟩) = true
    ∧ (ran .inlayArmComplete (up { armedStack with inlayWait := [aDisarm] }) fun t => t.m.inlayWait == [] && Tab.get none (t.m.st 0).inlay 0 == none
        && Tab.get none t.m.hyv.pqMem 0 == some ⟨77, 3, 0, .ok, 0x11⟩) = true := by decide +kernel

def aOpen : Admin := adm 0x20 [(1, 1, 1)]
def aClose : Admin := adm 0x21 []
def withStay (v : Nat) (k : Port) (tags : Tab (Option (Word × Nat)) := []) (mask : Nat := 0) : Mach :=
  { base with shr := { node := 0, stays := [(0, v)], stayTags := tags, openMask := [(0, mask)], ports := [(0, k), (1, k)] } }

theorem test_stays :
    (isLatched (mailed aOpen) 0x20 aOpen && isLatched (mailed aClose) 0x21 aClose) = true
    ∧ (ran .stayOpen (mailed aOpen (withStay 0 {})) fun t => t.m.stay 0 == 1 && (t.m.port 0).st == .training && (t.m.port 1).st == .training) = true
    ∧ (ran .stayOpen (mailed aOpen (withStay 2 { st := .down })) fun t => t.m.stay 0 == 2 && (t.m.port 0).st == .training && (t.m.port 1).st == .down) = true
    ∧ (ran (.stayOpenTimeout 0) (up { withStay 1 { st := .training } [(0, some (77, 0x20))] 3 with now := 45000000 }) fun t =>
        t.m.stay 0 == 0 && (t.m.port 0).st == .dark && t.m.hyv.pqTail == 1) = true
    ∧ (ran (.stayOpenTimeout 0) (up { withStay 1 { st := .training } [(0, some (77, 0x20))] 3 with now := 44999999 }) fun t => t.m.stay 0 == 1) = true
    ∧ (ran .stayClose (mailed aClose (withStay 2 { st := .up })) fun t => t.m.stay 0 == 3 && (t.m.port 1).st == .closing && t.m.hyv.status == .pending) = true
    ∧ (ran .stayClose (mailed aClose) fun t => t.m.hyv.status == .ok) = true
    ∧ (ran (.stayCloseDrainEnd 0) (up (withStay 3 { st := .closing } [(0, some (77, 0x21))])) fun t => Tab.get 0 t.m.shr.openMask 0 == 1 && t.m.stay 0 == 3) = true
    ∧ (ran (.stayClosed 0) (up (withStay 3 { st := .closing } [(0, some (77, 0x21))] 1)) fun t => t.m.stay 0 == 0 && (t.m.port 1).st == .dark && t.m.hyv.pqTail == 1) = true := by
  decide +kernel

def aStage : Admin := adm 0x30 [(0x10, 8, 256)]
def aSelect : Admin := adm 0x30 [(0, 1, 1), (1, 1, 1)]
def aConfirm : Admin := adm 0x30 [(0, 1, 2)]
def withSlotB : State := let s := mailed aSelect; { s with sec := { s.sec with slotB := { complete := true, state := 1, image := block 32 [(0x0C, 4, 9)] } } }

theorem test_updates :
    ([aStage, aSelect, aConfirm].all fun a => isLatched (mailed a) 0x30 a) = true
    ∧ (ran (.updateStage 0) (mailed aStage) fun t => t.sec.stage == some ⟨77, 0, 256⟩ && t.sec.stageState == 1) = true
    ∧ (ran (.updateStageComplete [] true) { up with sec := { (up).sec with stage := some ⟨77, 0, 256⟩ } } fun t => t.sec.stageState == 5 && t.m.hyv.pqTail == 1
        && Tab.get none t.m.hyv.pqMem 0 == some ⟨77, 0, 0, .updBadPackage, 0x30⟩) = true
    ∧ (ran .updateSelect withSlotB fun t => t.sec.sel.next == 1 && t.sec.sel.trial == 1) = true
    ∧ (ran .updateSelect (mailed aSelect) fun t => t.m.hyv.status == .updSlotInvalid) = true
    ∧ (ran .updateConfirm { mailed aConfirm with sec := { withSlotB.sec with bootSlot := 1, slotA := { complete := true, state := 1 } } } fun t =>
        t.sec.fwMin == 9 && t.sec.slotA.state == 3) = true := by decide +kernel

def aAttest : Admin := adm 0x31 []
theorem test_attest :
    (isLatched (mailed aAttest) 0x31 aAttest && isLatched (mailed (adm 0x40 [])) 0x40 (adm 0x40 [])) = true
    ∧ (ran .attest { mailed aAttest with sec := { (up).sec with identity := [1] } } fun t => t.sec.quotes.map (·.1) == [77] && t.m.hyv.status == .pending) = true
    ∧ (ran .attest (mailed aAttest) fun t => t.m.hyv.status == .moduleState) = true
    ∧ (ran .attestComplete { up with sec := { (up).sec with quotes := [(77, 0, [])] } } fun t => t.sec.quotes == [] && t.m.hyv.pqTail == 1) = true
    ∧ (ran (.timeProbe 5 6) (mailed (adm 0x40 [])) fun t => t.m.hyv.timeA == 5 && t.m.hyv.timeB == 6 && t.m.hyv.status == .ok) = true := by decide +kernel

/-- A module in HOLD with a cluster that failed, to be acknowledged. -/
def held : State := let s := mailed (adm 0x41 []); { s with aon := { s.aon with mode := .hold, failed := [(0x11, uCluster 3)], holdReason := 5 } }
theorem test_ackHold : isLatched held 0x41 (adm 0x41 []) = true ∧ (excludable (uCluster 3)).isSome = true
    ∧ (ran .ackHold held fun t => t.aon.mode == .ready && t.aon.failed == [] && !(t.m.cl 3).enabled && t.m.hyv.status == .ok) = true
    ∧ (ran .ctxCreate (mailed { aCreate with op := 1 } |> fun s => { s with aon := { s.aon with mode := .train } }) fun t => t.m.hyv.status == .moduleState) = true := by
  decide +kernel

/-! ## Flits -/

/-- A flit from participant 1 for context 1 of this module, node 0, as it arrives sound. -/
def flit0 (op : BitVec 8) (va : BitVec 52 := 0) (pay : List Word := []) (aux : BitVec 32 := 0) (seq : BitVec 16 := 0) (ack : BitVec 16 := 0) : Flit :=
  Flit.sealed false { dst := 0, src := 1, seq := seq, op := op, vc := 1, dstCtx := 1, va := va, coll := 3, srcCtx := 1, aux := aux, payload := pay, ack := ack, credVc := 0, credShared := 2 }
def portUp : Port := { st := .up, granted := 16384, shared := 100, reserve := [(0, 8), (1, 8), (2, 8), (3, 8)] }
/-- The module with its engine's command, port 0 as given. -/
def onPort (k : Port) : State := { onEngine with m := { onEngine.m with shr := { onEngine.m.shr with ports := [(0, k)] } } }
/-- The same with an engine that gathers, and with none. -/
def gathering (k : Port) : State := { onPort k with m := { (onPort k).m with engines := [{ eng0 with kind := 3 }] } }
def alone (k : Port) : State := { onPort k with m := { (onPort k).m with engines := [] } }
def flitOut : Flit := { flit0 4 with dst := 1, src := 0 }

theorem test_flitsSent :
    (ran (.flitSend 0) (onPort { portUp with replayFrom := some 0, retry := [flit0 1] }) fun t => (t.m.port 0).replayFrom == none) = true
    ∧ (ran (.flitSend 0) (onPort { portUp with outQ := [flit0 8 7] }) fun t => (t.m.port 0).outQ == [] && (t.m.port 0).outSeq == 1
        && (t.m.port 0).retry.map (fun g => (g.op, g.va, g.ack)) == [(8, 7, 0xFFFF)]) = true
    ∧ (ran (.linkIdleTimer 0) (onPort portUp) fun t => (t.m.port 0).retry.map (·.op) == [0] && (t.m.port 0).outSeq == 1) = true
    ∧ (ran (.linkIdleTimer 0) (onPort { portUp with shared := 0, reserve := [] }) fun t => (t.m.port 0).retry == []) = true
    ∧ (ran (.badFlit 0) (onPort portUp) fun t => (t.m.port 0).discarded == 1 && (t.m.port 0).outQ.map (·.op) == [8]) = true
    ∧ (ran (.badFlit 16) (onPort portUp) fun t => t == onPort portUp) = true := by decide +kernel

theorem test_flitsReceived :
    (ran (.remoteWrite 0 (flit0 1 0x10010 [5])) (onPort portUp) fun t => (t.m.port 0).rxApplied == 8 && (t.m.port 0).inSeq == 1
      && ((t.m.reach (65 * 65536 + 16)).any fun c => (t.m.decodeCell c).word == ⟨5, false⟩)) = true
    ∧ (ran (.remoteWrite 0 (flit0 1 0x10014 [5])) (onPort portUp) fun t => (t.m.port 0).rxRefused == 8 && t.m.shr.tx.map (fun f => (f.op, f.aux)) == [(7, 3)]) = true
    ∧ (ran (.remoteWrite 0 (flit0 1 0x10010 [5] 0 1)) (onPort portUp) fun t => (t.m.port 0).rxApplied == 0 && (t.m.port 0).discarded == 1) = true
    ∧ (ran (.remoteAccum 0 (flit0 2 0x10010 [0x3FF0000000000000] 0x11)) (onPort portUp) fun t => (t.m.port 0).rxApplied == 8
      && ((t.m.reach (65 * 65536 + 16)).any fun c => (t.m.decodeCell c).word == ⟨0x3FF0000000000000, false⟩)) = true
    ∧ (onPort portUp).m.engineTakes engX (engX.rankOf (flit0 2)) 2 0x2003 = some (0, [0]) ∧ (onPort portUp).m.engineTakes engX (engX.rankOf (flit0 2)) 2 0x2002 = none
    ∧ (ran (.remoteAccum 0 (flit0 2 0x10018 [0x3FF0000000000000] 0x11)) (onPort portUp) fun t => t.m.engines.map (fun g => Tab.get 0 g.rcv 0) == [1]
      && ((t.m.reach (65 * 65536 + 24)).any fun c => (t.m.decodeCell c).word == ⟨0x3FF0000000000000, false⟩)) = true
    ∧ (gathering portUp).m.engineTakes engX (engX.rankOf (flit0 1)) 1 0x2002 = some (0, [0])
    ∧ (ran (.remoteWrite 0 (flit0 1 0x10010 [5])) (gathering portUp) fun t => t.m.engines.map (fun g => Tab.get 0 g.rcv 0) == [1]
      && ((t.m.reach (65 * 65536 + 16)).any fun c => (t.m.decodeCell c).word == ⟨5, false⟩)) = true
    ∧ (alone portUp).m.engineOf 8 = none
    ∧ (ran (.remoteWrite 0 (flit0 1 0x10008 [5])) (alone portUp) fun t => (t.m.port 0).rxApplied == 8
      && ((t.m.reach (65 * 65536 + 8)).any fun c => (t.m.decodeCell c).word == ⟨5, false⟩)) = true
    ∧ (ran (.remoteSignal 0 (flit0 3 0x10008 [5])) (onPort portUp) fun t => (t.m.port 0).rxApplied == 8
      && ((t.m.reach (64 * 65536 + 8)).any fun c => (t.m.decodeCell c).word == ⟨5, false⟩)) = true
    ∧ (ran (.ready 0 (flit0 4)) (onPort portUp) fun t => (t.m.cx 1).readySeen == [(3, 1, 1)]) = true
    ∧ (ran (.endFlit 0 (flit0 5)) (onPort portUp) fun t => t.m.cmds.map (·.endsIn) == [[1]] && t.m.shr.tx.map (·.op) == [6]) = true
    ∧ (ran (.e2eAck 0 (flit0 6)) (onPort portUp) fun t => t.m.cmds.map (·.acks) == [[1]]) = true
    ∧ (ran (.nack 0 (flit0 7)) (onPort portUp) fun t => t.m.cmds.map (·.phase) == [.killing] && ((t.m.cx 1).q 0).stopped == some .collectiveFailed) = true
    ∧ (ran (.replayReq 0 (flit0 8 0)) (onPort { portUp with retry := [{ flit0 1 with seq := 5 }, flit0 4, { flit0 1 with seq := 7 }] }) fun t =>
        (t.m.port 0).replays == 1 && (t.m.port 0).replayFrom == none && (t.m.port 0).retry.map (·.seq) == [7]) = true
    ∧ (ran (.replayReq 0 (flit0 8 7 [] 0 0 5)) (onPort { portUp with retry := [{ flit0 1 with seq := 5 }, { flit0 1 with seq := 7 }] }) fun t =>
        (t.m.port 0).replayFrom == some 7) = true
    ∧ (ran (.replayReq 16 (flit0 8)) (onPort portUp) fun t => t.m.dmg.replays == 1) = true
    ∧ (ran (.idle 0 (flit0 0)) (onPort portUp) fun t => (t.m.port 0).inSeq == 1 && (t.m.port 0).shared == 102) = true
    ∧ ({ flit0 0 with credShared := 3 } : Flit).sound false = false
    ∧ (ran (.idle 0 { flit0 0 with credShared := 3 }) (onPort portUp) fun t => (t.m.port 0).inSeq == 0 && (t.m.port 0).discarded == 1) = true := by decide +kernel

/-- CRC-32 of IEEE 802.3 of the digits 1 to 9, its published check value (R539). -/
theorem test_crc : crc32 [0x31, 0x32, 0x33, 0x34, 0x35, 0x36, 0x37, 0x38, 0x39] = 0xCBF43926 := by decide +kernel

def training0 : PortTraining := { waves := 8, rate := 0, fec := true, small := false, rttNs := 100, partner := 1 }
/-- A port in training, with the record's limit of 8 wavelengths at the full rate. -/
def trainable : State := up { shr := { limits := [(0, 8 * 4)], ports := [(0, { st := .training })] } }
/-- The same while its stay is being opened, later than 45 ms after its start. -/
def late45 : State :=
  up { now := 45000001, shr := { limits := [(0, 8 * 4)], ports := [(0, { st := .training })], stays := [(0, 1)], stayTags := [(0, some (77, 0x20))], openMask := [(0, 1)] } }
theorem test_ports :
    (ran (.train 0) (onPort { st := .down }) fun t => (t.m.port 0).st == .training) = true
    ∧ (ran (.train 0) (onPort { st := .dark }) fun t => (t.m.port 0).st == .dark) = true
    ∧ (onPort { st := .training }).m.settleMode 0 training0 = none
    ∧ trainable.m.settleMode 0 training0 = some (8, 0) ∧ trainable.m.settleMode 0 { training0 with waves := 5 } = some (4, 0)
    ∧ (ran (.portTrainingComplete 0 (some training0)) trainable fun t => (t.m.port 0).st == .up && (t.m.port 0).granted == 16384 && (t.m.port 0).partner == 1) = true
    ∧ (ran (.portTrainingComplete 0 none) (onPort { st := .training }) fun t => (t.m.port 0).st == .down) = true
    ∧ (portUp.live && !portUp.trainDue) = true
    ∧ late45.m.settleMode 0 training0 = some (8, 0) ∧ late45.m.opening 0 = true ∧ late45.m.openPorts 0 = [0]
    ∧ (ran (.portTrainingComplete 0 (some training0)) late45 fun t => (t.m.port 0).st == .dark && t.m.stay 0 == 0 && t.m.hyv.pqTail == 1) = true
    ∧ (ran (.linkLoss 0 3) (up { now := 100000, shr := { ports := [(0, { portUp with retry := [flitOut] })] } }) fun t => (t.m.port 0).st == .down && (t.m.port 0).retry == []) = true
    ∧ (ran (.linkLoss 0 3) (up { now := 99999, shr := { ports := [(0, { portUp with retry := [flitOut] })] } }) fun t => (t.m.port 0).st == .up) = true := by decide +kernel

/-- The one flit that may leave port 0 is the one chosen. -/
def sending : State := { onPort portUp with m := { (onPort portUp).m with shr := { (onPort portUp).m.shr with tx := [flitOut] } } }
theorem witness_flitSend :
    ((sending.m.port 0).st = .up ∧ 0 < Tab.get 0 (sending.m.port 0).reserve (sending.m.channel flitOut) ∧ flitOut.dst ≠ sending.m.shr.node)
    ∧ sending.m.pick ((sending.m.candidates 0).filter fun c => (sending.m.sendCand 0 c).isSome) = (some (16, 0, flitOut), sending.m.draw) := by
  refine ⟨by decide +kernel, ?_⟩
  rw [show ((sending.m.candidates 0).filter fun c => (sending.m.sendCand 0 c).isSome) = [(16, 0, flitOut)] by decide +kernel]
  exact Mach.pick_one _ _

/-! ## The companion, the recorder, the counters, registers -/

def withDmg (d : Dmg) : State := up { base with dmg := { d with up := true } }
theorem test_companion :
    (ran (.damgerTraining (some (4, false))) { inMode .train with sec := { record := List.replicate 0xA3 0 ++ [4] } } fun t => t.m.dmg.up) = true
    ∧ (ran (.damgerTraining (some (4, true))) { inMode .train with sec := { record := List.replicate 0xA3 0 ++ [2] } } fun t => !t.m.dmg.up) = true
    ∧ (withDmg {}).m.dmg.up = true
    ∧ (ctx1.ringAt (ringBase + 64) 64) = some 64
    ∧ (ran (.damgerInboundWrite 1 (BitVec.ofNat 52 (ringBase + 64)) [7, 8]) (withDmg {}) fun t => ringBytes (t.m.cx 1).rings 64 2 == [7, 8] && t.m.dmg.replies == [(1, .done)]) = true
    ∧ (ran (.damgerInboundRead 1 (BitVec.ofNat 52 (ringBase + 64)) 2 false) (withDmg {}) fun t => t.m.dmg.replies == [(1, .data [0, 0] [])]) = true
    ∧ ctx1.ringAt 0x10008 8 = none ∧ (base.inboundPages ⟨1, 0x10008, none, 8, true⟩).any (fun l => l.length == 1 && base.grantWaits (keptLines l) == none) = true
    ∧ (ran (.damgerInboundWrite 1 0x10008 [7, 8]) (withDmg {}) fun t => t.m.mem.bytes == [(4104, 7), (4105, 8)]) = true
    ∧ (ran (.damgerInboundRead 1 0x10008 2 false) (withDmg {}) fun t => t.m.dmg.replies.length == 1 && t.m.dmg.dir == []) = true
    ∧ (ran (.damgerInboundRead 1 0x10008 2 true) (withDmg {}) fun t => t.m.dmg.dir == [1024 * 64]) = true
    ∧ (ran (.damgerInboundWrite 1 0x90000 [7]) (withDmg {}) fun t => t.m.dmg.replies == [(1, .error)]) = true
    ∧ (ran (.damgerInboundWrite 1 0x10008 [7]) (withDmg { heldAcc := [⟨1, 0x10000, some [1], 1, false⟩] }) fun t => t.m.dmg.heldAcc.length == 2 && t.m.mem == base.mem) = true
    ∧ (ran (.lineRecallComplete (BitVec.ofNat 44 (64 * 65536)) (some (7 :: List.replicate 63 0))) (withDmg { dir := [65536], recalls := [65536] }) fun t =>
        t.m.dmg.dir == [] && t.m.dmg.recalls == [] && t.m.mem.bytes == [(4096, 7)]) = true := by decide +kernel

/-- A recorder that holds one record of severity error. -/
def rec0 : Rec := { ev := .inlayChanged, ctx := none, sev := 4, unit := ⟨3, 0⟩, time := 0, seq := 0, snap := [] }
def recorded (r : Evr) : State := up { base with evr := r }
/-- A recorder whose counts are suspended (R643). -/
def stopped0 : Evr := { suspended := true, produced := 5, overwritten := 5 }
theorem test_recorder :
    (ran (.eventPersist true) (recorded { slots := [(0, some rec0)], produced := 1 }) fun t => t.m.evr.held.all (fun x => x.2.persisted) && t.m.evr.flash.length == 1) = true
    ∧ (ran (.eventPersist false) (recorded {}) fun t => t.m.evr.flashFault) = true
    ∧ (ran .evrLatch (recorded { produced := 5, overwritten := 5 }) fun t => t.m.evr.latched == [5, 5, 0, 0, 0]) = true
    ∧ (ran .evrWindowCopy (recorded { windowBusy := true }) fun t => !t.m.evr.windowBusy && t.m.evr.aperture.length == 256) = true
    ∧ eventOf 0x3007 = some .inlayChanged ∧ Ev.inlayChanged.sev = 2
    ∧ (ran (.evrCodeLimitWrite (BitVec.ofNat 64 (5 * 2 ^ 48 + 6 * 2 ^ 32))) (recorded { codeSel := 0x3007 }) fun t =>
        (t.m.evr.bucket .inlayChanged).burst == 5 && (t.m.evr.bucket .inlayChanged).rate == 6) = true
    ∧ eventOf 0x1001 = some .mastFault ∧ Ev.mastFault.sev = 4
    ∧ (ran (.evrCodeLimitWrite 5) (recorded { codeSel := 0x1001 }) fun t => t == recorded { codeSel := 0x1001 }) = true
    ∧ ((stopped0.keepCounts (stopped0.arrive rec0)).produced == 5 && (stopped0.keepCounts (stopped0.arrive rec0)).held.length == 1) = true
    ∧ (({} : Evr).arrive rec0).produced = 1 ∧ (({} : Evr).arrive rec0).held.length = 1 := by decide +kernel

/-- Context 1 with a granted counter, cluster 0's event 0, at 2,048, and a sampling slot of period 1,024 on it. -/
def sampling : State :=
  up { base with
    ctr := { live := [(65536, 2048)], grants := [{ grant1 with complete := true, ring := 0x12000, entries := 256 }] }
    ctxs := [(1, { ctx1 with user := { sel := 65536, samples := [(0, BitVec.ofNat 64 (2 ^ 63 + 65536 * 2 ^ 40 + 1024))] } })] }
theorem test_counters :
    (ran .ctrFreeze (up base) fun t => !t.m.ctr.done && t.m.ctr.freezes == 1) = true
    ∧ (ran .ctrFreeze (up { base with ctr := { done := false } }) fun t => t == up { base with ctr := { done := false } }) = true
    ∧ (ran .freezeDone (up { base with ctr := { done := false, live := [(65536, 9)] } }) fun t => t.m.ctr.done && t.m.ctr.snap == [(65536, 9)]) = true
    ∧ (sampling.m.mayRead 1 65536 && sampling.m.liveOf 65536 == 2048) = true ∧ (sampling.m.ringIndex 1 0x12000).1 = some (0, 0) ∧ 0 < ringRoom 256 (0, 0)
    ∧ ringRoom 256 (256, 0) = 0
    ∧ (ran (.sampleRecord 1 0 0 0) sampling fun t => (t.m.readBytes (firmwareAcc 1) (64 * 65536 + 0x2000) 1).1.1 == [1]) = true
    ∧ (ran (.ctrUserValueRead 1) sampling fun t => t.m.dmg.replies == [(4096, .value 2048)]) = true
    ∧ (ran (.ctrUserValueRead 1) (up base) fun t => t.m.dmg.replies == [(4096, .value 0)] && (t.m.cx 1).user.denied) = true
    ∧ (ran .frameMsTick (up { base with now := 5 }) fun t => t.m.now == 1000000 && (t.m.cx 1).meters.frameMs == 1) = true
    ∧ (ran .accountingInterval (up { base with ctr := { enable := true, ringSize := 256 } }) fun t => t.m.ctr.prod == 3 && t.m.now == 1000000000) = true
    ∧ (ran .accountingInterval (up { base with ctr := { ringSize := 64 } }) fun t => t.m.ctr.prod == 0) = true := by decide +kernel

theorem test_registers :
    (ran (.registerWrite .companion 0x3FFFF00 8 5) (up base) fun t => t.m.dmg.replies == [(4096, .error)]) = true
    ∧ (ran (.registerWrite .companion 0x1001018 8 5) (up base) fun t => ((t.m.cx 1).q 0).cqHead == 5 && t.m.dmg.replies == [(4096, .done)]) = true
    ∧ (ran (.registerWrite .companion 0x1001018 8 5) (inMode .standby) fun t => t == inMode .standby) = true
    ∧ (ran (.registerWrite .companion 8 8 5) (up base) fun t => t.m.dmg.replies == [(4096, .done)] && t.m.hyv == base.hyv) = true
    ∧ (ran (.registerWrite .companion 0x100000 8 0x400) { up with pwr := { (up).pwr with clampSeen := true, faultSeen := true } } fun t =>
        !t.pwr.clampSeen && t.pwr.faultSeen) = true
    ∧ (ran (.registerWrite .companion 0x1080 8 1) (up { base with hyv := { area := [(0, 2)] } }) fun t => t.m.hyv.latched.any (·.op == 2)) = true
    ∧ (ran (.registerWrite .companion 0x1080 8 1) (up { base with hyv := { area := [(0, 7)] } }) fun t =>
        t.m.hyv.latched.isNone && t.m.hyv.status == .badOpcode && t.m.hyv.statusOp == 7) = true
    ∧ (ran (.registerWrite .companion 0x1080 8 1) (mailed aCreate) fun t => t.m.hyv == (mailed aCreate).m.hyv) = true
    ∧ (ran (.registerWrite .companion 0x1002000 8 5) (up base) fun t => t.m.ctxs == base.ctxs && t.m.dmg.replies == [(4096, .done)]) = true
    ∧ (up base).reg 0x1002000 = some 0 := by decide +kernel

/-- Error correction: a word as written, with one and with two flipped bits, and as poison (R628). -/
def ram0 : Ram := ({} : Ram).putWord 3 ⟨0x1234, false⟩
theorem test_words : (ram0.decode 3).word = ⟨0x1234, false⟩ ∧ ((ram0.flip 3 0x40).decode 3).word = ⟨0x1234, false⟩ ∧ ((ram0.flip 3 0x40).decode 3).kind = .corrected
    ∧ ((ram0.flip 3 0x41).decode 3).word.poison = true ∧ ((({} : Ram).putWord 3 ⟨5, true⟩).decode 3).word = ⟨5, true⟩ ∧ (({} : Ram).putWord 3 ⟨0, false⟩) = {} := by
  decide +kernel

/-! ## Well-formedness -/

/-- Every check of `Instr.wf` refuses some command. -/
theorem test_wf : ([.bootSequence ⟨true, true, some (3, false)⟩, .trainComplete ⟨[], none⟩, .selftestComplete ⟨[], [], [(0, 6)], [], [], [], []⟩, .sidebandWrite true [],
      .estimatorScaling [] [], .thermalModelUpdate [] 0, .tripModelUpdate [] [], .planMeasurement 0 0 false ⟨[], [], []⟩, .memoryRequest { req0 none with dpa := 1 },
      .blankFillDone 1, .waitBudgetExpire 0 65536, .timeProbe 1 0, .remoteWrite 0 (flit0 2), .remoteAccum 0 (flit0 1), .remoteSignal 0 (flit0 1), .ready 0 (flit0 1),
      .endFlit 0 (flit0 1), .e2eAck 0 (flit0 1), .nack 0 (flit0 1), .replayReq 0 (flit0 1), .idle 0 { flit0 0 with payload := List.replicate 28 0 },
      .portTrainingComplete 0 (some { training0 with waves := 9 }), .linkLoss 0 0, .damgerTraining (some (3, true)), .damgerInboundRead 1 0 0 false,
      .damgerInboundWrite 1 0 [], .registerWrite .companion 0 0 0, .lineRecallComplete 1 none, .lineRecallComplete 0 (some [])] : List Instr).all (fun i => !i.wf) = true
    ∧ ([.bootSequence ⟨true, true, some (4, false)⟩, .memoryRequest (req0 none), .remoteWrite 0 (flit0 1), .registerWrite .companion 0 8 0] : List Instr).all Instr.wf = true := by
  decide +kernel

/-- Upset bits of an accumulator word: one flip is corrected as the row is read, two poison it (R192, R631, R638). -/
theorem test_accUpset : ({ acc := [(0, 5)], accFlips := [(0, 1)] } : Core).accRow false 0 = (5, false)
    ∧ (({ acc := [(0, 5)], accFlips := [(0, 3)] } : Core).accRow false 0).2 = true ∧ (({ acc := [(1, 5)], accFlips := [(32, 3)] } : Core).accRow true 0).2 = true
    ∧ (({ acc := [(1, 5)], accFlips := [(32, 3)] } : Core).accRow false 0).2 = false := by decide +kernel

/-! ## Invariants -/

/-- A running module meets every invariant, and its step answers a next state. -/
theorem witness_invariants : (up).ModeLegal ∧ (up).pwr.Legal ∧ (up).BootLegal ∧ (∃ t, step (up) = .next t)
    ∧ (∃ t, exec .frameMsTick (up) = .next t) ∧ Tab.wf none (up).m.evr.slots = true ∧ (up).m.evr.Conserves := by
  refine ⟨by simp [State.ModeLegal, up, Mode.powered], ?_, by simp [State.BootLegal, Selector.Legal, up], ⟨_, rfl⟩, ⟨_, rfl⟩, by decide, by simp [Evr.Conserves, Evr.held, up]⟩
  simp [Pwr.Legal, up]

end Sys2Proof.Tests
end

section
/-! PROOFS. What firmware's readings and writes leave as it was. -/
namespace Sys2Proof.Machine

/-! ## Frames of firmware's accesses -/

/-- Time, contexts and deployments are as they were. -/
structure Mach.SameTables (m n : Mach) : Prop where
  now : n.now = m.now
  ctxs : n.ctxs = m.ctxs
  deps : n.deps = m.deps

/-- Time, contexts, deployments and memory are as they were. -/
structure Mach.ReadOnly (m n : Mach) : Prop extends m.SameTables n where
  mem : n.mem = m.mem

theorem Mach.SameTables.refl (m : Mach) : m.SameTables m := ⟨rfl, rfl, rfl⟩

theorem Mach.SameTables.trans {m n p : Mach} (h : m.SameTables n) (g : n.SameTables p) : m.SameTables p :=
  ⟨g.now.trans h.now, g.ctxs.trans h.ctxs, g.deps.trans h.deps⟩

theorem Mach.ReadOnly.refl (m : Mach) : m.ReadOnly m := ⟨.refl m, rfl⟩

theorem Mach.ReadOnly.trans {m n p : Mach} (h : m.ReadOnly n) (g : n.ReadOnly p) : m.ReadOnly p :=
  ⟨h.toSameTables.trans g.toSameTables, g.mem.trans h.mem⟩

/-- Two machines with the same deployments have the same deployment of every identifier. -/
theorem Mach.SameTables.dep {m n : Mach} (h : m.SameTables n) (i : Nat) : n.dep i = m.dep i := by
  unfold Mach.dep; rw [h.deps]

theorem Mach.SameTables.depOf {m n : Mach} (h : m.SameTables n) (ctx i : Nat) : n.depOf ctx i = m.depOf ctx i := by
  unfold Mach.depOf; rw [h.dep]

/-! ## Readings (R73, R632) -/

theorem Mach.noteRead_readOnly (m : Mach) (a : Acc) (c : Nat) (d : EccRead) : m.ReadOnly (m.noteRead a c d) := by
  unfold Mach.noteRead
  cases d.kind <;> exact ⟨⟨rfl, rfl, rfl⟩, rfl⟩

theorem Mach.readWord_readOnly (m : Mach) (a : Acc) (dpa : Nat) : m.ReadOnly (m.readWord a dpa).2 := by
  unfold Mach.readWord
  cases m.reach (dpa / 8 * 8) with
  | none => exact .refl m
  | some c => exact m.noteRead_readOnly a c _

theorem Mach.readWords_readOnly (a : Acc) (l : List Nat) (m : Mach) : m.ReadOnly (m.readWords a l).2 := by
  induction l generalizing m with
  | nil => exact .refl m
  | cons d r ih => exact (m.readWord_readOnly a d).trans (ih _)

theorem Mach.readBytes_readOnly (m : Mach) (a : Acc) (dpa n : Nat) : m.ReadOnly (m.readBytes a dpa n).2 :=
  m.readWords_readOnly a _

theorem Mach.readVa_readOnly (m : Mach) (a : Acc) (tr : Nat → Option Nat) (va n : Nat) : m.ReadOnly (m.readVa a tr va n).2 := by
  refine foldl_keeps (P := fun r : Option (List Byte × Bool) × Mach => m.ReadOnly r.2) _ _ _ (.refl m) fun r c h => ?_
  obtain ⟨x, n⟩ := r
  cases x with
  | none => exact h
  | some b => cases tr c.1 with
    | none => exact h
    | some d => exact h.trans (n.readBytes_readOnly a d c.2)

theorem Mach.fetchVa_readOnly (m : Mach) (ctx va n : Nat) : m.ReadOnly (m.fetchVa ctx va n).2 := by
  have hr : m.ReadOnly ((m.firmwareHeld ctx va n).readVa (firmwareAcc ctx) (m.xlate ctx) va n).2 :=
    .trans (n := m.firmwareHeld ctx va n) ⟨⟨rfl, rfl, rfl⟩, rfl⟩ (Mach.readVa_readOnly ..)
  unfold Mach.fetchVa
  dsimp only
  split
  · exact hr.trans ⟨⟨rfl, rfl, rfl⟩, rfl⟩
  · exact hr

/-- A reading, whatever it answers, leaves time, contexts, deployments and memory as they were. -/
def Mach.Reads {α : Type} (m : Mach) (r : Try α) : Prop := m.ReadOnly r.2

theorem Mach.Reads.done {α : Type} (m : Mach) (x : Except Status α) : m.Reads (x, m) := Mach.ReadOnly.refl m

theorem Mach.Reads.need (m : Mach) (b : Bool) (st : Status) : m.Reads (m.need b st) := Mach.ReadOnly.refl m

theorem Mach.Reads.andThen {α β : Type} {m : Mach} {r : Try α} {f : α → Mach → Try β} (h : m.Reads r) (hf : ∀ a (n : Mach), n.Reads (f a n)) :
    m.Reads (r.andThen f) := by
  obtain ⟨x, n⟩ := r
  cases x with
  | error e => exact h
  | ok a => exact Mach.ReadOnly.trans h (hf a n)

theorem Mach.Reads.each {α β : Type} {f : α → Mach → Try β} (hf : ∀ a (n : Mach), n.Reads (f a n)) (l : List α) (m : Mach) :
    m.Reads (Try.each f l m) := by
  induction l generalizing m with
  | nil => exact .done m _
  | cons a r ih => exact .andThen (hf a m) fun b n => .andThen (ih n) fun t p => .done p _

theorem Mach.take_reads (m : Mach) (ctx va n : Nat) : m.Reads (m.take ctx va n) := by
  have h := m.fetchVa_readOnly ctx va n
  unfold Mach.Reads Mach.take
  split <;> simpa only [*] using h

theorem Mach.takeRecord_reads (m : Mach) (ctx va n : Nat) : m.Reads (m.takeRecord ctx va n) := by
  have h := m.fetchVa_readOnly ctx va n
  unfold Mach.Reads Mach.takeRecord
  split <;> simpa only [*] using h

theorem Mach.readVariants_reads (m : Mach) (ctx va : Nat) : m.Reads (m.readVariants ctx va) :=
  .andThen (m.take_reads ..) fun _ m => .andThen (.need m ..) fun _ m =>
  .andThen (m.take_reads ..) fun _ m => .andThen (.need m ..) fun _ m => .done m _

theorem Mach.readMast_reads (m : Mach) (ctx va : Nat) : m.Reads (m.readMast ctx va) :=
  .andThen (.need m ..) fun _ m => .andThen (m.take_reads ..) fun _ m => .andThen (.need m ..) fun _ m =>
  .andThen (m.take_reads ..) fun _ m => .andThen (.need m ..) fun _ m => .done m _

theorem Mach.readImages_reads (m : Mach) (ctx va args : Nat) : m.Reads (m.readImages ctx va args) := by
  refine .andThen (m.readVariants_reads ..) fun vs m => .each (fun v m => .andThen (m.readMast_reads ..) fun i m => ?_) vs m
  split
  · exact .done m _
  · exact .andThen (m.take_reads ..) fun _ m => .done m _

theorem Mach.readSpar_reads (m : Mach) (ctx va args : Nat) : m.Reads (m.readSpar ctx va args) := by
  refine .andThen (.need m ..) fun _ m => .andThen (m.take_reads ..) fun h m => .andThen (.need m ..) fun _ m =>
    .andThen (m.take_reads ..) fun b m => .andThen (.need m ..) fun _ m => ?_
  split
  · exact .done m _
  · exact .andThen (m.take_reads ..) fun _ m => .done m _

theorem Mach.checkSteps_reads (m : Mach) (ctx : Nat) (t : List (Nat × Nat × Nat × Nat)) : m.Reads (m.checkSteps ctx t) := by
  refine .andThen (.each (fun e m => ?_) t m) fun _ m => .done m _
  split
  · exact .andThen (m.readImages_reads ..) fun _ m => .done m _
  · exact .andThen (m.readSpar_reads ..) fun _ m => .done m _

theorem Mach.readVariant_reads (m : Mach) (d : Deployment) (va i : Nat) : m.Reads (m.readVariant d va i) := by
  refine .andThen (m.takeRecord_reads ..) fun b m => ?_
  dsimp only
  split
  · exact .done m _
  split
  · exact .andThen (.need m ..) fun _ m => .done m _
  · exact .andThen (.need m ..) fun _ m => .andThen (m.takeRecord_reads ..) fun _ m => .andThen (.need m ..) fun _ m => .done m _

/-- Reading and checking a deployment descriptor, with all that it names, changes none of the tables (R447, R448). -/
theorem Mach.readDeploy_reads (m : Mach) (ctx va : Nat) : m.Reads (m.readDeploy ctx va) :=
  .andThen (m.takeRecord_reads ..) fun _ m => .andThen (.need m ..) fun _ m =>
  .andThen (m.takeRecord_reads ..) fun _ m => .andThen (.need m ..) fun _ m =>
  .andThen (m.takeRecord_reads ..) fun _ m => .andThen (.need m ..) fun _ m =>
  .andThen (.each (fun _ m => m.readVariant_reads ..) _ m) fun _ m =>
  .andThen (m.checkSteps_reads ..) fun _ m => .andThen (.need m ..) fun _ m => .done m _

/-! ## Firmware's writes in place (R375, R505) -/

theorem Mach.writeBytes_sameTables (m : Mach) (dpa : Nat) (l : List Byte) (p : Bool) : m.SameTables (m.writeBytes dpa l p) :=
  foldl_keeps (P := m.SameTables) _ _ _ (.refl m) fun n w h => by
    cases hr : n.reach w with
    | none => simpa only [hr] using h
    | some c => simp only; exact h.trans ⟨rfl, rfl, rfl⟩

theorem Mach.writeVa_sameTables (m : Mach) (tr : Nat → Option Nat) (va : Nat) (l : List Byte) (p : Bool) : m.SameTables (m.writeVa tr va l p) :=
  foldl_keeps (P := m.SameTables) _ _ _ (.refl m) fun n c h => by
    cases hr : tr c.1 with
    | none => simpa only [hr] using h
    | some d => simpa only [hr] using h.trans (n.writeBytes_sameTables ..)

theorem Mach.storeVa_sameTables (m : Mach) (ctx va : Nat) (l : List Byte) : m.SameTables (m.storeVa ctx va l) := by
  have hw : m.SameTables (((m.firmwareHeld ctx va l.length).writeVa (m.xlate ctx) va l false).chargeOverhead (pathBytes 1 l.length)) :=
    .trans (n := m.firmwareHeld ctx va l.length) ⟨rfl, rfl, rfl⟩ (.trans (Mach.writeVa_sameTables ..) ⟨rfl, rfl, rfl⟩)
  unfold Mach.storeVa
  dsimp only
  split
  · exact hw.trans ⟨rfl, rfl, rfl⟩
  · exact hw

theorem Mach.writeTree_sameTables (m : Mach) (old new : Deployment) : m.SameTables (m.writeTree old new) := by
  unfold Mach.writeTree
  split
  · exact .refl m
  · refine foldl_keeps (P := m.SameTables) _ _ _ (.refl m) fun n i h => ?_
    have hn : m.SameTables (if old.nodeBytes i = new.nodeBytes i then n else n.storeVa new.ctx (new.treeVa + i * 64) (new.nodeBytes i)) := by
      split
      · exact h
      · exact h.trans (n.storeVa_sameTables ..)
    dsimp only
    split
    · split
      · exact hn
      · exact hn.trans (Mach.storeVa_sameTables ..)
    · exact hn

/-- A frame that a variant's page list names becomes KV data of the context, with one reference more (R497). -/
theorem Mach.mapFrame_sameTables (m : Mach) (f ctx : Nat) : m.SameTables ((m.setFrame f (.kv ctx)).refUp f) := by
  unfold Mach.refUp
  split <;> exact ⟨rfl, rfl, rfl⟩

/-- A deployment opens: it stands under its identifier, its next boundary is now, and what its descriptor gave it is kept; the other
deployments, the contexts and the time are as they were. -/
theorem Mach.openDep_spec (m : Mach) (id : Nat) (d : Deployment) :
    (m.openDep id d).now = m.now ∧ (m.openDep id d).ctxs = m.ctxs
      ∧ ∃ n, (m.openDep id d).deps = Tab.put none m.deps id (some n)
        ∧ n.ctx = d.ctx ∧ n.table = d.table ∧ n.maxReq = d.maxReq ∧ n.reqs = d.reqs ∧ n.boundaryAt = m.now := by
  have hp : m.SameTables (d.prefixFrames.foldl (fun (m : Mach) l =>
      (l.foldl addNew ([] : List Nat)).foldl (fun (m : Mach) f => (m.setFrame f (.kv d.ctx)).refUp f) m) m) :=
    foldl_keeps (P := m.SameTables) _ _ _ (.refl m) fun n l h =>
      foldl_keeps (P := m.SameTables) _ _ _ h fun n f h => h.trans (n.mapFrame_sameTables f d.ctx)
  unfold Mach.openDep
  dsimp only
  have ht := fun n => hp.trans (Mach.writeTree_sameTables _ d n)
  refine ⟨(ht _).now, (ht _).ctxs, _, by rw [hp.deps], ?_⟩
  split <;> exact ⟨rfl, rfl, rfl, rfl, hp.now⟩

end Sys2Proof.Machine
end

section
/-! PROOFS. A submission entry copied from its ring, and completed or held. -/
namespace Sys2Proof.Machine

/-! ## The entry at the head -/

@[simp] theorem Mach.consume_now (m : Mach) (e : Ent) : (m.consume e).now = m.now := rfl
@[simp] theorem Mach.consume_dep (m : Mach) (e : Ent) (i : Nat) : (m.consume e).dep i = m.dep i := rfl
@[simp] theorem Mach.consume_depOf (m : Mach) (e : Ent) (ctx i : Nat) : (m.consume e).depOf ctx i = m.depOf ctx i := rfl
@[simp] theorem Mach.endEntry_fwHeld (m : Mach) (e : Ent) (o : Outcome1) : (m.endEntry e o).fwHeld = m.fwHeld := rfl
@[simp] theorem Mach.endEntry_deps (m : Mach) (e : Ent) (o : Outcome1) : (m.endEntry e o).deps = m.deps := rfl

theorem Ctx.q_modQ (c : Ctx) (q j : Nat) (f : Queue → Queue) : (c.modQ q f).q j = if j = q then f (c.q q) else c.q j := Tab.get_upd ..

/-- The entry read from a queue names that context and queue. -/
theorem State.headEntry_some {s : State} {ctx q : Nat} {e : Ent} (h : s.headEntry ctx q = some e) : e.ctx = ctx ∧ e.q = q := by
  unfold State.headEntry at h
  dsimp only at h
  split at h
  · cases h; exact ⟨rfl, rfl⟩
  · cases h

theorem State.Head.ctx_eq {s : State} {ctx q op : Nat} {e : Ent} (h : s.Head ctx q op e) : e.ctx = ctx := (State.headEntry_some h.1).1

theorem State.Head.op_eq {s : State} {ctx q op : Nat} {e : Ent} (h : s.Head ctx q op e) : e.op = op := h.2.1

theorem State.Head.q_eq {s : State} {ctx q op : Nat} {e : Ent} (h : s.Head ctx q op e) : e.q = q := (State.headEntry_some h.1).2

/-- The row of a well-formed entry that nothing holds back reads it and runs. -/
theorem entryRow_of_head {s : State} {ctx q op : Nat} {e : Ent} {mine : Ent → Bool} {run : Ent → Mach → Mach} (h : s.Head ctx q op e)
    (hm : mine e = true) : entryRow s ctx q mine run = s.firmware (run e (s.m.consume e)) := by
  obtain ⟨he, rfl, hb, hord, hroom⟩ := h
  have h1 : (!commandOps.contains e.op && bitAt e.flags 1 && ((s.m.cx ctx).q q).unposted != 0) = false := by
    obtain ho | ho | ho := hord <;> simp only [ho, Bool.not_true, Bool.false_and, Bool.and_false, bne_self_eq_false]
  have h2 : (commandOps.contains e.op && decide (maxInFlight ≤ s.m.holding)) = false := by
    cases hc : commandOps.contains e.op with
    | false => rfl
    | true => simpa using hroom hc
  simp only [entryRow, he, hb, hm, h1, h2, Bool.not_true, Bool.false_eq_true, if_false]

theorem coreOnly_withMach (s : State) (m : Mach) : CoreOnly s (s.withMach m) := by
  unfold CoreOnly; rw [State.withMach_m]

section
variable {s : State} {ctx q op : Nat} {e : Ent} {mine : Ent → Bool} {run : Ent → Mach → Mach} {c : Instr} {P : State → Prop} {n : Mach}

/-- The row of the entry at the head completes with the core domains that its run gives, where no access of firmware is held (R318). -/
theorem Completes.of_head (h : s.Head ctx q op e) (hx : exec c s = .next (entryRow s ctx q mine run)) (hm : mine e = true)
    (hrun : run e (s.m.consume e) = n) (hf : n.fwHeld = false) (hP : P (s.withMach n)) : Completes c s P := by
  refine ⟨_, hx, ?_⟩
  rw [entryRow_of_head h hm, hrun, State.firmware, hf]
  exact hP

/-- The row of the entry at the head completes with the core domains that its run gives, where it neither reaches context memory nor records
an event. -/
theorem Completes.of_head_quiet (h : s.Head ctx q op e) (hx : exec c s = .next (entryRow s ctx q mine run)) (hm : mine e = true)
    (hrun : run e (s.m.consume e) = n) (hf : n.fwHeld = s.m.fwHeld) (he : n.evr = s.m.evr) (hP : P { s with m := n }) : Completes c s P := by
  refine ⟨_, hx, ?_⟩
  rw [entryRow_of_head h hm, hrun, State.firmware, hf, Bool.and_not_self, if_neg Bool.false_ne_true, State.withMach_of_evr s n he]
  exact hP

end

/-! ## Entries taken and completed (R577, R579, R580) -/

/-- The entry has been taken where the contexts are those after its copy. -/
theorem entryTaken_of_ctxs {e : Ent} {s t : State} (h : t.m.ctxs = (s.m.consume e).ctxs) : EntryTaken e s t := by
  intro x j
  rw [Mach.cx, h, ← Mach.cx, Mach.consume, Mach.cx_modCx]
  by_cases hx : x = e.ctx
  · subst hx
    rw [if_pos rfl, Ctx.q_modQ]
    by_cases hj : j = e.q
    · subst hj; rw [if_pos rfl, if_pos ⟨rfl, rfl⟩]
    · rw [if_neg hj, if_neg fun h => hj h.2]
  · rw [if_neg hx, if_neg fun h => hx h.1]

/-- Bytes of a ring area before those written keep their values. -/
theorem get_putTab_of_lt (t : Tab Byte) (o i : Nat) (l : List Byte) (h : i < o) : Tab.get 0 (putTab t o l) i = Tab.get 0 t i := by
  induction l generalizing t o with
  | nil => rfl
  | cons b r ih => rw [putTab, ih _ _ (by omega), Tab.get_put_other _ _ _ (by omega)]

/-- Bytes of a ring area read as they were written. -/
theorem ringBytes_putTab (t : Tab Byte) (o : Nat) (l : List Byte) : ringBytes (putTab t o l) o l.length = l := by
  induction l generalizing t o with
  | nil => rfl
  | cons b r ih =>
    have hb : Tab.get 0 (putTab (Tab.put 0 t o b) (o + 1) r) o = b := by rw [get_putTab_of_lt _ _ _ _ (by omega), Tab.get_put_same]
    have hr := ih (Tab.put 0 t o b) (o + 1)
    unfold ringBytes at hr ⊢
    rw [List.length_cons, List.range_succ_eq_map, List.map_cons, List.map_map, putTab]
    refine List.cons_eq_cons.mpr ⟨hb, (List.map_congr_left fun i _ => ?_).trans hr⟩
    rw [Function.comp_apply, Nat.succ_eq_add_one, show o + (i + 1) = o + 1 + i by omega]

theorem cqBytes_length (now : Nat) (tag : Word) (op : Nat) (phase : Bool) (o : Outcome1) : (cqBytes now tag op phase o).length = 32 := by
  simp [cqBytes]

/-- The queue of a completed entry: its completion ring has one entry more, unless OK is suppressed, and the room kept for it is given back. -/
theorem Ctx.q_complete (c : Ctx) (now q : Nat) (tag : Word) (op flags : Nat) (o : Outcome1) :
    (c.complete now q tag op flags o).q q =
      { c.q q with cqTail := if o.st = .ok ∧ bitAt flags 0 = true then (c.q q).cqTail else ((c.q q).cqTail + 1) % 2 ^ 32,
                   unposted := (c.q q).unposted - 1 } := by
  unfold Ctx.complete
  by_cases hs : o.st = .ok ∧ bitAt flags 0 = true
  · rw [if_pos hs, if_pos hs, Ctx.q_modQ, if_pos rfl]
  · rw [if_neg hs, if_neg hs]
    exact (c.q_modQ q q fun k => { k with cqTail := (k.cqTail + 1) % 2 ^ 32, unposted := k.unposted - 1 }).trans (if_pos rfl)

/-- The rings of a context after an entry is completed: the completion entry stands where the ring's tail was, unless OK is suppressed. -/
theorem Ctx.rings_complete (c : Ctx) (now q : Nat) (tag : Word) (op flags : Nat) (o : Outcome1) :
    if o.st = .ok ∧ bitAt flags 0 = true then (c.complete now q tag op flags o).rings = c.rings else
      ringBytes (c.complete now q tag op flags o).rings (cqOffset q (c.q q).cqTail) 32
        = cqBytes now tag op ((c.q q).cqTail / 4096 % 2 == 0) o := by
  unfold Ctx.complete
  by_cases hs : o.st = .ok ∧ bitAt flags 0 = true
  · rw [if_pos hs, if_pos hs]; rfl
  · rw [if_neg hs, if_neg hs]
    have hw := ringBytes_putTab c.rings (cqOffset q (c.q q).cqTail) (cqBytes now tag op ((c.q q).cqTail / 4096 % 2 == 0) o)
    rwa [cqBytes_length] at hw

/-- An entry that is completed after its copy is posted, whatever else its row did but to time and contexts. -/
theorem entryPosted_of_endEntry {e : Ent} {o : Outcome1} {s t : State} {n : Mach} (hnow : n.now = s.m.now) (hctxs : n.ctxs = (s.m.consume e).ctxs)
    (ht : t.m = n.endEntry e o) : EntryPosted e o s t := by
  have hc : t.m.cx e.ctx = ((s.m.consume e).cx e.ctx).complete s.m.now e.q e.tag e.op e.flags o := by
    rw [ht, Mach.endEntry, Mach.complete, Mach.cx_modCx_same, hnow, Mach.cx, hctxs, Mach.cx]
  unfold EntryPosted
  rw [hc, Mach.consume, Mach.cx_modCx_same]
  have hr := Ctx.rings_complete ((s.m.cx e.ctx).modQ e.q fun k =>
    { k with sqHead := (k.sqHead + 1) % 2 ^ 32, unposted := k.unposted + 1, nextPos := k.nextPos + 1 }) s.m.now e.q e.tag e.op e.flags o
  rw [Ctx.q_modQ, if_pos rfl] at hr
  refine ⟨?_, hr⟩
  rw [Ctx.q_complete, Ctx.q_modQ, if_pos rfl, Nat.add_sub_cancel]

/-! ## Entries that a deployment holds (R455, R476 to R481) -/

theorem Mach.depOf_some {m : Mach} {ctx id : Nat} {d : Deployment} (h : m.depOf ctx id = some d) : m.dep id = some d := by
  unfold Mach.depOf at h
  obtain ⟨d', hd, h⟩ := Option.bind_eq_some_iff.mp h
  split at h
  · cases h; exact hd
  · cases h

/-- A deployment that exists is changed, and no other one. -/
theorem Mach.dep_modDep {m : Mach} {id : Nat} {d : Deployment} (f : Deployment → Deployment) (h : m.dep id = some d) (j : Nat) :
    (m.modDep id f).dep j = if j = id then some (f d) else m.dep j := by
  unfold Mach.dep at h ⊢
  unfold Mach.modDep
  rw [h]
  exact Tab.get_put none m.deps id j (some (f d))

/-- The entry `e` has been taken and not completed: deployment `id` holds it as `n` says; every other deployment and memory are as they were. -/
def EntryHeld (e : Ent) (id : Nat) (n : Deployment) (s t : State) : Prop :=
  t.m.dep id = some n ∧ (∀ j, j ≠ id → t.m.dep j = s.m.dep j) ∧ EntryTaken e s t ∧ t.m.mem = s.m.mem

/-- Nothing but contexts and deployments has changed. -/
def OnlyDeployments (s t : State) : Prop := t = { s with m := { s.m with ctxs := t.m.ctxs, deps := t.m.deps } }

/-- An entry for which a row, after reading only, changes a deployment is held by it. -/
theorem entryHeld_of_modDep {s t : State} {e : Ent} {n : Mach} {id : Nat} {d : Deployment} {f : Deployment → Deployment}
    (hd : s.m.dep id = some d) (hn : (s.m.consume e).ReadOnly n) (ht : t.m = n.modDep id f) : EntryHeld e id (f d) s t := by
  have hdep : ∀ j, t.m.dep j = if j = id then some (f d) else s.m.dep j := fun j => by
    rw [ht, Mach.dep_modDep f ((hn.dep id).trans hd), hn.dep, Mach.consume_dep]
  refine ⟨by rw [hdep, if_pos rfl], fun j hj => by rw [hdep, if_neg hj], entryTaken_of_ctxs ?_, ?_⟩
  · rw [ht]; exact hn.ctxs
  · rw [ht]; exact hn.mem

/-- A row whose run on the entry at the head is a change of a deployment leaves the entry held by it. -/
theorem Completes.held {s : State} {ctx q op id : Nat} {e : Ent} {d : Deployment} {mine : Ent → Bool} {run : Ent → Mach → Mach} {c : Instr}
    (f : Deployment → Deployment) (h : s.Head ctx q op e) (hd : s.m.depOf ctx id = some d) (hx : exec c s = .next (entryRow s ctx q mine run))
    (hm : mine e = true) (hrun : run e (s.m.consume e) = (s.m.consume e).modDep id f) :
    Completes c s fun t => EntryHeld e id (f d) s t ∧ OnlyDeployments s t :=
  .of_head_quiet h hx hm hrun rfl rfl ⟨entryHeld_of_modDep (Mach.depOf_some hd) (.refl _) rfl, rfl⟩

end Sys2Proof.Machine
end

section
/-! PROOFS. DEPLOY, HYV_SERVE_CTL and the entries that a deployment holds for its boundary. -/
namespace Sys2Proof.Machine

/-- DEPLOY of a descriptor that reads well, where an identifier is free (R447, R448). -/
theorem Mach.deploy_eq {m m1 m2 : Mach} {e : Ent} {d : Deployment} {id : Nat} (hr : m.readDeploy e.ctx (e.fld 0x10 8) = (.ok d, m1))
    (hp : m1.pick ((List.range 16384).filter fun i => (m1.dep i).isNone) = (some id, m2)) :
    m.deploy e = (m2.openDep id d).endEntry e { st := .ok, result := id } := by
  rw [Mach.deploy]
  split
  · next hx => cases hr.symm.trans hx
  · next hx =>
    cases hr.symm.trans hx
    split
    · next hy => cases hp.symm.trans hy; rfl
    · next hy => cases hp.symm.trans hy

/-- ADMIT of a record within its ranges to an open deployment that has room (R455, R456). -/
theorem Mach.takeAdmit_eq {m m1 : Mach} {e : Ent} {b : List Byte} {d : Deployment} (hr : m.takeRecord e.ctx (e.fld 0x10 8) 64 = (.ok b, m1))
    (hd : m1.depOf e.ctx (fld b 0 2) = some d) (hc : d.closing = none) (ho : admitOk d b = true) (hroom : d.live.length + d.admits.length < d.maxReq) :
    m.takeAdmit e = m1.modDep (fld b 0 2) fun d => { d with admits := d.admits ++ [(e.q, e.tag, e.flags, parseAdmit d b m1.now)] } := by
  rw [Mach.takeAdmit]
  split
  · next hx => cases hr.symm.trans hx
  · next hx =>
    cases hr.symm.trans hx
    rw [hd]
    simp only [hc, ho, Nat.not_le.mpr hroom, Option.isSome_none, Bool.not_true, Bool.false_eq_true, if_false]

theorem deploy_opens {s : State} {ctx : Fin 4096} {q : Fin 16} {e : Ent} {d : Deployment} {m1 m2 : Mach} {id : Nat} (h : s.Head ctx.val q.val 0x20 e)
    (hr : (s.m.consume e).readDeploy ctx.val (e.fld 0x10 8) = (.ok d, m1))
    (hp : m1.pick ((List.range 16384).filter fun i => (m1.dep i).isNone) = (some id, m2)) (hf : (m2.openDep id d).fwHeld = false) :
    Completes (.deploy ctx q) s fun t =>
      (∃ n, t.m.dep id = some n ∧ n.ctx = d.ctx ∧ n.table = d.table ∧ n.maxReq = d.maxReq ∧ n.reqs = d.reqs ∧ n.boundaryAt = s.m.now)
        ∧ (∀ j, j ≠ id → t.m.dep j = s.m.dep j) ∧ s.m.dep id = none ∧ id < 16384 ∧ EntryPosted e { st := .ok, result := id } s t ∧ CoreOnly s t := by
  have h1 : (s.m.consume e).ReadOnly m1 := by simpa only [Mach.Reads, hr] using (s.m.consume e).readDeploy_reads ctx.val (e.fld 0x10 8)
  obtain ⟨hid, rfl⟩ := Mach.pick_some hp
  obtain ⟨hlt, hfree⟩ := List.mem_filter.mp hid
  obtain ⟨hnow, hctxs, n, hdeps, hcx, htab, hmax, hreqs, hat⟩ := m1.draw.openDep_spec id d
  have hrun := Mach.deploy_eq (h.ctx_eq ▸ hr) hp
  have hdep : ∀ j, ((m1.draw.openDep id d).endEntry e { st := .ok, result := id }).dep j = if j = id then some n else s.m.dep j := fun j => by
    unfold Mach.dep
    rw [Mach.endEntry_deps, hdeps, Tab.get_put, show m1.draw.deps = s.m.deps from h1.deps]
  refine .of_head h rfl (by simp [h.op_eq]) hrun ((Mach.endEntry_fwHeld ..).trans hf) ?_
  refine ⟨⟨n, (hdep id).trans (if_pos rfl), hcx, htab, hmax, hreqs, hat.trans h1.now⟩, fun j hj => (hdep j).trans (if_neg hj), ?_,
    List.mem_range.mp hlt, entryPosted_of_endEntry (hnow.trans h1.now) (hctxs.trans h1.ctxs) (s.withMach_m _), coreOnly_withMach ..⟩
  rw [← Mach.consume_dep s.m e, ← h1.dep]
  simpa using hfree

theorem hyvServeCtlRestart_restarts {s : State} {ctx : Fin 4096} {dep : BitVec 16} {d : Deployment} (hs : s.servedFullWrite = true)
    (hd : s.m.depOf ctx.val dep.toNat = some d) : Completes (.hyvServeCtlRestart ctx dep) s fun t =>
      t.m.dep dep.toNat = some { d with stopped := none } ∧ (∀ j, j ≠ dep.toNat → t.m.dep j = s.m.dep j)
        ∧ t = { s with m := { s.m with deps := t.m.deps } } := by
  have hdep := Mach.dep_modDep (fun d => { d with stopped := none }) (Mach.depOf_some hd)
  refine ⟨s.withMach (s.m.modDep dep.toNat fun d => { d with stopped := none }), ?_, ?_, fun j hj => (hdep j).trans (if_neg hj), ?_⟩
  · exact congrArg Host.Outcome.next (if_pos ⟨hs, by rw [hd]; rfl⟩)
  · exact (hdep _).trans (if_pos rfl)
  · exact State.withMach_of_evr s (s.m.modDep dep.toNat fun d => { d with stopped := none }) rfl

theorem admit_held {s : State} {ctx : Fin 4096} {q : Fin 16} {e : Ent} {d : Deployment} {m1 : Mach} {b : List Byte} (h : s.Head ctx.val q.val 0x21 e)
    (hr : (s.m.consume e).takeRecord ctx.val (e.fld 0x10 8) 64 = (.ok b, m1)) (hd : s.m.depOf ctx.val (fld b 0 2) = some d)
    (hc : d.closing = none) (ho : admitOk d b = true) (hroom : d.live.length + d.admits.length < d.maxReq) (hf : m1.fwHeld = false) :
    Completes (.admitEntry ctx q) s fun t =>
      EntryHeld e (fld b 0 2) { d with admits := d.admits ++ [(q.val, e.tag, e.flags, parseAdmit d b s.m.now)] } s t ∧ CoreOnly s t := by
  have h1 : (s.m.consume e).ReadOnly m1 := by simpa only [Mach.Reads, hr] using (s.m.consume e).takeRecord_reads ctx.val (e.fld 0x10 8) 64
  have hrun := Mach.takeAdmit_eq (h.ctx_eq ▸ hr) (h.ctx_eq ▸ (h1.depOf ..).trans hd) hc ho hroom
  rw [h.q_eq, h1.now, Mach.consume_now] at hrun
  refine .of_head h rfl (by simp [h.op_eq]) hrun hf ⟨?_, coreOnly_withMach ..⟩
  exact entryHeld_of_modDep (f := fun d => { d with admits := d.admits ++ [(q.val, e.tag, e.flags, parseAdmit d b s.m.now)] }) (Mach.depOf_some hd) h1
    (s.withMach_m _)

section
variable {s : State} {ctx : Fin 4096} {q : Fin 16} {e : Ent} {d : Deployment} {slot : Nat} {r : SReq}

theorem cancel_held (h : s.Head ctx.val q.val 0x22 e) (hd : s.m.depOf ctx.val (e.fld 0x10 2) = some d) : Completes (.cancel ctx q) s fun t =>
    EntryHeld e (e.fld 0x10 2) { d with cancels := d.cancels ++ [(q.val, e.tag, e.flags, e.fld 0x14 4)] } s t ∧ OnlyDeployments s t := by
  refine .held (fun d => { d with cancels := d.cancels ++ [(q.val, e.tag, e.flags, e.fld 0x14 4)] }) h hd rfl (by simp [h.op_eq]) ?_
  simp [h.ctx_eq, h.q_eq, hd]

theorem pause_held (h : s.Head ctx.val q.val 0x23 e) (h0 : 0 < e.fld 0x18 4) (hmax : e.fld 0x18 4 ≤ 86400000)
    (hd : s.m.depOf ctx.val (e.fld 0x10 2) = some d) : Completes (.pause ctx q) s fun t =>
      EntryHeld e (e.fld 0x10 2) { d with pauses := d.pauses ++ [(q.val, e.tag, e.flags, e.fld 0x14 4, e.fld 0x18 4)] } s t ∧ OnlyDeployments s t := by
  refine .held (fun d => { d with pauses := d.pauses ++ [(q.val, e.tag, e.flags, e.fld 0x14 4, e.fld 0x18 4)] }) h hd rfl (by simp [h.op_eq]) ?_
  have ht : ¬ (e.fld 0x18 4 = 0 ∨ 86400000 < e.fld 0x18 4) := by omega
  simp [h.ctx_eq, h.q_eq, hd, ht]

theorem resume_held (h : s.Head ctx.val q.val 0x24 e) (hd : s.m.depOf ctx.val (e.fld 0x10 2) = some d)
    (hr : d.slotOf (e.fld 0x14 4) = some (slot, r)) (hst : r.st = .paused) (hone : d.resumes.any (fun x => x.2.2.2 == r.id) = false)
    (httl : s.m.now < r.ttlEnd) : Completes (.resume ctx q) s fun t =>
      EntryHeld e (e.fld 0x10 2) { d with resumes := d.resumes ++ [(q.val, e.tag, e.flags, r.id)] } s t ∧ OnlyDeployments s t := by
  refine .held (fun d => { d with resumes := d.resumes ++ [(q.val, e.tag, e.flags, r.id)] }) h hd rfl (by simp [h.op_eq]) ?_
  simp only [Mach.resume, h.ctx_eq, h.q_eq, Mach.consume_depOf, Mach.consume_now, hd, hr, hst, hone, Nat.not_le.mpr httl, ne_eq, not_true_eq_false,
    Bool.false_eq_true, or_self, if_false]

theorem resume_refused (h : s.Head ctx.val q.val 0x24 e) (hd : s.m.depOf ctx.val (e.fld 0x10 2) = some d)
    (hr : d.slotOf (e.fld 0x14 4) = some (slot, r)) (hst : r.st ≠ .paused) : Completes (.resume ctx q) s fun t =>
      EntryPosted e { st := .reqState } s t ∧ t = { s with m := { s.m with ctxs := t.m.ctxs } } := by
  have hrun : (s.m.consume e).resume e = (s.m.consume e).endEntry e { st := .reqState } := by
    simp only [Mach.resume, h.ctx_eq, Mach.consume_depOf, hd, hr, ne_eq, hst, not_false_eq_true, true_or, if_true]
  exact .of_head_quiet h rfl (by simp [h.op_eq]) hrun rfl rfl ⟨entryPosted_of_endEntry (n := s.m.consume e) rfl rfl rfl, rfl⟩

/-- UNDEPLOY of an open deployment, in either of its modes, closes it to further entries. -/
theorem undeploy_eq_modDep {m : Mach} (cancel : Bool) (hmode : e.fld 0x12 1 ≤ 1) (hd : m.depOf e.ctx (e.fld 0x10 2) = some d)
    (hc : d.closing = none) :
    m.undeploy e cancel = m.modDep (e.fld 0x10 2) fun d => { d with closing := some (e.q, e.tag, e.flags), cancelAll := cancel } := by
  simp only [Mach.undeploy, hd, hc, Nat.not_lt.mpr hmode, Option.isSome_none, Bool.false_eq_true, if_false]

theorem undeployFinish_held (h : s.Head ctx.val q.val 0x25 e) (hmode : e.fld 0x12 1 = 0) (hd : s.m.depOf ctx.val (e.fld 0x10 2) = some d)
    (hc : d.closing = none) : Completes (.undeployFinish ctx q) s fun t =>
      EntryHeld e (e.fld 0x10 2) { d with closing := some (q.val, e.tag, e.flags), cancelAll := false } s t ∧ OnlyDeployments s t := by
  refine .held (fun d => { d with closing := some (q.val, e.tag, e.flags), cancelAll := false }) h hd rfl (by simp [h.op_eq, hmode]) ?_
  rw [undeploy_eq_modDep false (by omega) (h.ctx_eq ▸ hd) hc, h.q_eq]

theorem undeployCancel_held (h : s.Head ctx.val q.val 0x25 e) (hmode : e.fld 0x12 1 = 1) (hd : s.m.depOf ctx.val (e.fld 0x10 2) = some d)
    (hc : d.closing = none) : Completes (.undeployCancel ctx q) s fun t =>
      EntryHeld e (e.fld 0x10 2) { d with closing := some (q.val, e.tag, e.flags), cancelAll := true } s t ∧ OnlyDeployments s t := by
  refine .held (fun d => { d with closing := some (q.val, e.tag, e.flags), cancelAll := true }) h hd rfl (by simp [h.op_eq, hmode]) ?_
  rw [undeploy_eq_modDep true (by omega) (h.ctx_eq ▸ hd) hc, h.q_eq]

end

/-- Settles O38: each entry is read from the head of its queue by `Completes.of_head`; a DEPLOY's readings keep the tables
(`readDeploy_reads`) before the deployment opens, and the entries for the boundary are held by `Completes.held`. -/
theorem deploymentsTakeEntries : Obligations.DeploymentsTakeEntries := by
  unfold Obligations.DeploymentsTakeEntries
  refine ⟨fun s ctx q e d m1 m2 id dep => ⟨deploy_opens, hyvServeCtlRestart_restarts⟩, fun s ctx q e d m1 b slot r => ?_⟩
  exact ⟨admit_held, cancel_held, pause_held, resume_held, resume_refused, undeployFinish_held, undeployCancel_held⟩

end Sys2Proof.Machine
end

section
/-! PROOFS. The doorbell pages: SQ_TAIL_DOORBELL, and reads and writes of pages and queues that are not there (R577, R578). -/
namespace Sys2Proof.Machine

/-! ## One event more (R655, R658) -/

@[simp] theorem Evr.store_produced (r : Evr) (x : Rec) : (r.store x).produced = r.produced := by
  unfold Evr.store
  split <;> rfl

/-- A record is counted as produced whether it is stored or dropped. -/
theorem Evr.arrive_produced (r : Evr) (x : Rec) : (r.arrive x).produced = r.produced + 1 := by
  unfold Evr.arrive
  dsimp only
  split
  · exact Evr.store_produced ..
  · split
    · rfl
    · exact Evr.store_produced ..

theorem Mach.post_produced (m : Mach) (e : Ev) (c : Option Nat) (u : UnitId) (w : List Word) :
    (m.post e c u w).evr.produced = m.evr.produced + (if m.evr.suspended then 0 else 1) := by
  rw [Mach.post_evr]
  cases h : m.evr.suspended with
  | false => rw [Evr.keepCounts_counting _ h, Evr.arrive_produced, if_neg Bool.false_ne_true]
  | true => exact (Evr.keepCounts_suspended _ h).1

/-! ## The tail (R577, R578) -/

section
variable {m : Mach} {ctx q tail : Nat}

theorem Mach.doorbell_of_missing (h : (m.cx ctx).st = .absent ∨ (m.cx ctx).queues ≤ q) : m.doorbell ctx q tail = m :=
  if_pos h

variable (hst : (m.cx ctx).st ≠ .absent) (hq : q < (m.cx ctx).queues)
include hst hq

theorem Mach.doorbell_of_invalid
    (h : ringDist ((m.cx ctx).q q).sqHead tail < ringDist ((m.cx ctx).q q).sqHead ((m.cx ctx).q q).sqTail
      ∨ 4096 < ringDist ((m.cx ctx).q q).sqHead tail) :
    m.doorbell ctx q tail = m.post .doorbellInvalid (some ctx) uDamger [BitVec.ofNat 64 ctx, BitVec.ofNat 64 q] :=
  (if_neg (not_or.mpr ⟨hst, Nat.not_le.mpr hq⟩)).trans (if_pos h)

theorem Mach.doorbell_of_valid (hfwd : ringDist ((m.cx ctx).q q).sqHead ((m.cx ctx).q q).sqTail ≤ ringDist ((m.cx ctx).q q).sqHead tail)
    (hroom : ringDist ((m.cx ctx).q q).sqHead tail ≤ 4096) :
    m.doorbell ctx q tail = m.modCx ctx fun c => c.modQ q fun k => { k with sqTail := tail } :=
  (if_neg (not_or.mpr ⟨hst, Nat.not_le.mpr hq⟩)).trans (if_neg (not_or.mpr ⟨Nat.not_lt.mpr hfwd, Nat.not_lt.mpr hroom⟩))

end

theorem exec_sqTailDoorbell {s : State} {ctx : Fin 4096} {q : Fin 16} {tail : BitVec 32} {n : Mach} (hs : s.servedFullWrite = true)
    (hn : s.m.doorbell ctx.val q.val tail.toNat = n) : exec (.sqTailDoorbell ctx q tail) s = .next (s.withMach n) :=
  congrArg Host.Outcome.next (hn ▸ if_pos hs)

/-- A context replaced through `modCx`, with the recorder as it was: no other context has changed. -/
theorem onlyCtx_modCx (s : State) (i : Nat) (f : Ctx → Ctx) : OnlyCtx i s (s.withMach (s.m.modCx i f)) :=
  ⟨State.withMach_of_evr s (s.m.modCx i f) rfl, fun j hj => (s.m.cx_modCx i j f).trans (if_neg hj)⟩

/-! ## Pages and queues that are not there (R578) -/

/-- Offset `o` of the doorbell page of `ctx` belongs to no queue or context that there is. -/
def Mach.PageMissing (m : Mach) (ctx o : Nat) : Prop :=
  (m.cx ctx).st = .absent ∨ o < 0x400 ∧ (m.cx ctx).queues ≤ o / 0x40

theorem Mach.pageReg_of_missing {m : Mach} {ctx o : Nat} (h : m.PageMissing ctx o) : m.pageReg ctx o = 0 := by
  unfold Mach.pageReg
  obtain hst | ⟨ho, hq⟩ := h
  · exact if_pos hst
  · simp only [if_pos ho, if_pos hq, ite_self]

theorem Mach.writePage_of_missing {m : Mach} {ctx o : Nat} (v : RegWrite) (h : m.PageMissing ctx o) : m.writePage ctx o v = m := by
  unfold Mach.writePage
  obtain hst | ⟨ho, hq⟩ := h
  · exact if_pos hst
  · simp only [if_pos ho, if_neg (Nat.not_lt.mpr hq), ite_self]

/-! ## The pages in the control window (R569, R570) -/

section
variable (s : State) {ctx p : Nat} (hctx : ctx < 4096) (hp : p < 0x1000)
include hctx hp

theorem State.reg_page : s.reg (0x1000000 + ctx * 0x1000 + p) = some (s.m.pageReg ctx p) := by
  have hdiv : (0x1000000 + ctx * 0x1000 + p - 0x1000000) / 0x1000 = ctx := by omega
  have hmod : (0x1000000 + ctx * 0x1000 + p) % 0x1000 = p := by omega
  simp (disch := omega) only [State.reg, if_neg, if_pos, hdiv, hmod]

theorem State.writeReg_page (w : Master) (size : Nat) (raw : Word) (v : RegWrite) (h8 : p % 8 = 0) :
    s.writeReg w (0x1000000 + ctx * 0x1000 + p) size raw v = s.withMach (s.m.writePage ctx p v) := by
  have h8o : (0x1000000 + ctx * 0x1000 + p) / 8 * 8 = 0x1000000 + ctx * 0x1000 + p := by omega
  have hdiv : (0x1000000 + ctx * 0x1000 + p - 0x1000000) / 0x1000 = ctx := by omega
  have hmod : (0x1000000 + ctx * 0x1000 + p) % 0x1000 = p := by omega
  simp (disch := omega) only [State.writeReg, h8o, if_neg, if_pos, hdiv, hmod]

end

/-- The companion's 8 B write of a register that the write leaves alone is performed, and changes nothing but the answer. -/
theorem exec_registerWrite_of_kept {s : State} {off : BitVec 26} {old v : Word} (hadm : s.admits .companion off.toNat = true)
    (h8 : off.toNat % 8 = 0) (hreg : s.reg off.toNat = some old)
    (hkept : s.writeReg .companion off.toNat 8 v (.of old off.toNat 8 v) = s) :
    exec (.registerWrite .companion off 8 v) s = .next { s with m := s.m.reply .done } := by
  have hoff : off.toNat / 8 * 8 = off.toNat := Nat.div_mul_cancel (Nat.dvd_of_mod_eq_zero h8)
  have hok : ¬ ((8 ≠ 4 ∧ 8 ≠ 8) ∨ off.toNat % 8 ≠ 0) := by omega
  change execRegisterWrite .companion off 8 v s = _
  simp only [execRegisterWrite, hadm, hoff, hreg, if_neg hok, hkept, State.replyTo, if_true, Bool.true_eq_false, if_false]
  rw [State.withMach_of_evr s (s.m.reply .done) rfl]

theorem State.admits_companion {s : State} (hs : s.servedFullWrite = true) (off : Nat) : s.admits .companion off = true := by
  have hw : s.servedWrite = true := (Bool.and_eq_true_iff.mp hs).1
  simp only [State.admits, hs, hw, if_true, ite_self]

/-- An 8 B register of a page or queue that is not there reads 0, and the companion's write of it changes nothing but the answer. -/
theorem pageRegister_of_missing {s : State} {ctx p : Nat} {off : BitVec 26} (v : Word) (hs : s.servedFullWrite = true) (hctx : ctx < 4096)
    (hp : p < 0x1000) (h8 : p % 8 = 0) (hoff : off.toNat = 0x1000000 + ctx * 0x1000 + p) (hmiss : s.m.PageMissing ctx p) :
    s.reg off.toNat = some 0 ∧ Completes (.registerWrite .companion off 8 v) s fun t =>
      t = { s with m := { s.m with dmg := { s.m.dmg with replies := [(4096, .done)] } } } := by
  have hreg : s.reg off.toNat = some 0 := by rw [hoff, s.reg_page hctx hp, Mach.pageReg_of_missing hmiss]
  have hkept : s.writeReg .companion off.toNat 8 v (.of 0 off.toNat 8 v) = s := by
    rw [hoff, s.writeReg_page hctx hp _ _ _ _ h8, Mach.writePage_of_missing _ hmiss, State.withMach_self]
  exact ⟨hreg, _, exec_registerWrite_of_kept (State.admits_companion hs _) (by omega) hreg hkept, rfl⟩

/-- Settles O29: the tail's cases are those of `Mach.doorbell`, and an offset of a page or queue that is not there is `Mach.PageMissing`. -/
theorem doorbellGuardsTheTail : Obligations.DoorbellGuardsTheTail := by
  intro s ctx q tail hs k
  refine ⟨fun hmiss => ?_, fun hst hq => ⟨fun hbad => ?_, fun hfwd hroom => ?_⟩, fun off v h8 hpage => ?_⟩
  · exact ⟨_, exec_sqTailDoorbell hs (Mach.doorbell_of_missing hmiss), s.withMach_self⟩
  · exact ⟨_, exec_sqTailDoorbell hs (Mach.doorbell_of_invalid hst hq hbad), Mach.post_eq .., coreOnly_withMach .., rfl, Mach.post_produced ..⟩
  · refine ⟨_, exec_sqTailDoorbell hs (Mach.doorbell_of_valid hst hq hfwd hroom), ?_, onlyCtx_modCx ..⟩
    rw [State.withMach_m, Mach.cx_modCx_same, Ctx.q_modQ, if_pos rfl]
  · have hlo : 0x1000000 + ctx.val * 0x1000 ≤ off.toNat := by omega
    obtain ⟨p, hp⟩ := Nat.exists_eq_add_of_le hlo
    refine pageRegister_of_missing v hs ctx.isLt (by omega) (by omega) hp ?_
    obtain ⟨hst, _⟩ | ⟨hq, _⟩ := hpage
    · exact .inl hst
    · have hpq : p / 0x40 = q.val := by omega
      exact .inr ⟨by omega, hpq.symm ▸ hq⟩

end Sys2Proof.Machine
end

section
/-! PROOFS. Counters and accounting: freezes, reads by a context, samples, frame-milliseconds and accounting intervals (R665 to R683). -/
namespace Sys2Proof.Machine

/-! ## Freezes (R658, R665 to R667) -/

/-- A latch of the recorder's counts stores no record, so it raises no alert. -/
theorem Aon.noteStores_latch (a : Aon) (r : Evr) : a.noteStores r r.latch = a := by
  have h : a.noteStores r r.latch = a.noteStores r r := by
    unfold Evr.latch
    split <;> rfl
  rw [h, Aon.noteStores_self]

theorem State.withMach_of_latch {s : State} {n : Mach} (h : n.evr = s.m.evr.latch) : s.withMach n = { s with m := n } := by
  rw [State.withMach, h, Aon.noteStores_latch]

theorem Evr.latch_latched (r : Evr) : r.latch.latched = if r.suspended then r.latched else r.counts := by
  unfold Evr.latch
  split <;> rfl

/-- No freeze token is launched while one is under way (R667). -/
theorem ctrFreeze_ignored {s : State} (hd : s.m.ctr.done = false) : Unchanged .ctrFreeze s := by
  have hm : s.m.ctrFreeze = s.m := if_neg (by rw [hd]; exact Bool.false_ne_true)
  refine congrArg Host.Outcome.next ?_
  rw [hm, State.withMach_self, ite_self]

theorem ctrFreeze_launches {s : State} (hs : s.servedFullWrite = true) (hd : s.m.ctr.done = true) : Completes .ctrFreeze s fun t =>
    t.m.ctr = { s.m.ctr with done := false, freezes := satAdd 32 s.m.ctr.freezes 1, freezeTime := s.m.now }
      ∧ t = { s with m := { s.m with ctr := t.m.ctr } } := by
  have hm : s.m.ctrFreeze =
      { s.m with ctr := { s.m.ctr with done := false, freezes := satAdd 32 s.m.ctr.freezes 1, freezeTime := s.m.now } } := if_pos hd
  refine ⟨_, congrArg Host.Outcome.next (if_pos hs), ?_⟩
  rw [State.withMach_of_evr s s.m.ctrFreeze (by rw [hm]), hm]
  exact ⟨rfl, rfl⟩

theorem freezeDone_snapshots {s : State} (hd : s.m.ctr.done = false) : Completes .freezeDone s fun t =>
    t.m.ctr.done = true ∧ t.m.ctr.snap = s.m.ctr.live ∧ t.m.ctr.live = s.m.ctr.live
      ∧ t.m.evr.latched = (if s.m.evr.suspended then s.m.evr.latched else s.m.evr.counts)
      ∧ t = { s with m := { s.m with ctr := t.m.ctr, evr := t.m.evr } } := by
  refine ⟨_, congrArg Host.Outcome.next (if_pos hd), ?_⟩
  rw [State.withMach_of_latch (n := s.m.freezeDone) rfl]
  exact ⟨rfl, rfl, rfl, s.m.evr.latch_latched, rfl⟩

/-! ## Reads by a context (R671) -/

section
variable {s : State} {ctx : Fin 4096}

theorem exec_ctrUserValueRead {n : Mach} (hs : s.servedFull = true) (hst : (s.m.cx ctx.val).st ≠ .absent) (hn : s.m.userRead ctx.val = n)
    (he : n.evr = s.m.evr) : exec (.ctrUserValueRead ctx) s = .next { s with m := n } := by
  have hx : exec (.ctrUserValueRead ctx) s = .next (s.withMach (s.m.userRead ctx.val)) := congrArg Host.Outcome.next (if_pos ⟨hs, hst⟩)
  rw [hx, hn, State.withMach_of_evr s n he]

theorem ctrUserValueRead_granted (hs : s.servedFull = true) (hst : (s.m.cx ctx.val).st ≠ .absent)
    (hr : s.m.mayRead ctx.val (s.m.cx ctx.val).user.sel.toNat = true) : Completes (.ctrUserValueRead ctx) s fun t =>
      t.m.dmg.replies = [(4096, .value (BitVec.ofNat 64 (s.m.liveOf (s.m.cx ctx.val).user.sel.toNat)))]
        ∧ t = { s with m := { s.m with dmg := t.m.dmg } } :=
  ⟨_, exec_ctrUserValueRead hs hst (if_pos hr) rfl, rfl, rfl⟩

theorem ctrUserValueRead_denied (hs : s.servedFull = true) (hst : (s.m.cx ctx.val).st ≠ .absent)
    (hr : s.m.mayRead ctx.val (s.m.cx ctx.val).user.sel.toNat = false) : Completes (.ctrUserValueRead ctx) s fun t =>
      t.m.dmg.replies = [(4096, .value 0)] ∧ (t.m.cx ctx.val).user = { (s.m.cx ctx.val).user with denied := true }
        ∧ t = { s with m := { s.m with dmg := t.m.dmg, ctxs := t.m.ctxs } } := by
  refine ⟨_, exec_ctrUserValueRead hs hst (if_neg (by rw [hr]; exact Bool.false_ne_true)) rfl, rfl, ?_, rfl⟩
  exact congrArg Ctx.user (Mach.cx_modCx_same s.m ctx.val fun c => { c with user := { c.user with denied := true } })

end

/-! ## Samples (R673 to R675) -/

theorem leNat_leBytes_mod (n v : Nat) : leNat (leBytes n v) = v % 256 ^ n := by
  induction n generalizing v with
  | zero => rw [Nat.pow_zero, Nat.mod_one]; rfl
  | succ n ih => rw [leBytes, leNat, ih, BitVec.toNat_ofNat, Nat.pow_succ' (n := n), Nat.mod_mul]

/-- The first field of a record reads as it was written, modulo its width. -/
theorem fld_leBytes_append (n v : Nat) (l : List Byte) : fld (leBytes n v ++ l) 0 n = v % 256 ^ n := by
  have hlen := leBytes_length n v
  rw [fld, slice, List.drop_zero, List.take_append_of_le_length (Nat.le_of_eq hlen.symm), List.take_of_length_le (Nat.le_of_eq hlen), hlen,
    Nat.sub_self, List.replicate_zero, List.append_nil, leNat_leBytes_mod]

/-- A field behind the first field of a record is a field of what follows it. -/
theorem fld_leBytes_append_of_le {n o : Nat} (h : n ≤ o) (v : Nat) (r : List Byte) (k : Nat) : fld (leBytes n v ++ r) o k = fld r (o - n) k := by
  have hlen := leBytes_length n v
  rw [fld, fld, slice, slice, List.drop_append, List.drop_of_length_le (Nat.le_trans (Nat.le_of_eq hlen) h), List.nil_append, hlen]

/-- The 32 bytes of a sample record (R675). -/
def sampleBytes (id seq v now at_ unit slot : Nat) : List Byte :=
  leBytes 4 id ++ leBytes 4 seq ++ leBytes 8 v ++ leBytes 8 now ++ leBytes 4 at_ ++ leBytes 2 unit ++ leBytes 1 slot ++ leBytes 1 0

theorem sampleBytes_fields (id seq v now at_ unit : Nat) {slot : Nat} (hs : slot < 4) (b : List Byte) (hb : b = sampleBytes id seq v now at_ unit slot) :
    b.length = 32 ∧ fld b 0 4 = id % 2 ^ 32 ∧ fld b 4 4 = seq % 2 ^ 32 ∧ fld b 8 8 = v % 2 ^ 64 ∧ fld b 16 8 = now % 2 ^ 64
      ∧ fld b 24 4 = at_ % 2 ^ 32 ∧ fld b 28 2 = unit % 2 ^ 16 ∧ fld b 30 1 = slot := by
  have hslot : slot % 256 = slot := Nat.mod_eq_of_lt (by omega)
  simp only [hb, sampleBytes, List.append_assoc, List.length_append, leBytes_length, fld_leBytes_append, fld_leBytes_append_of_le, Nat.reduceLeDiff,
    Nat.reduceSub, Nat.reduceAdd, Nat.reducePow, hslot, and_self]

/-- The command that a sample of a counter names: that of the spar core or of the cluster (R674). -/
def Mach.sampleSeq (m : Mach) (id unit : Nat) : Nat :=
  if (ctrId id).1 = 3 then ((m.sparCmd (unit / 512) (unit % 512)).map (·.seq)).getD 0 else ((m.cl unit).cmd).getD 0

/-- A sampling slot has sampled up to multiple `n` of its period. -/
def Mach.noteSampled (m : Mach) (ctx slot n : Nat) : Mach :=
  m.modCx ctx fun c => { c with user := { c.user with sampled := Tab.put 0 c.user.sampled slot n } }

/-- A sample dropped is counted (R675). -/
def Mach.dropSample (m : Mach) (ctx : Nat) : Mach := m.modCx ctx fun c => { c with user := { c.user with drops := satAdd 16 c.user.drops 1 } }

theorem Mach.ReadOnly.of_ringIndex {m n : Mach} {ctx base : Nat} {x : Option (Nat × Nat)} (h : m.ringIndex ctx base = (x, n)) : m.ReadOnly n := by
  have hr := m.fetchVa_readOnly ctx base 16
  rw [Mach.ringIndex] at h
  split at h
  · next hf => cases h; simpa only [hf] using hr
  · next hf => cases h; simpa only [hf] using hr

theorem Mach.ringWrite_sameTables (m : Mach) (ctx base entries prod : Nat) (l : List (List Byte)) :
    m.SameTables (m.ringWrite ctx base entries prod l) :=
  .trans (foldl_keeps (P := m.SameTables) _ _ _ (.refl m) fun n _ h => h.trans (n.storeVa_sameTables ..)) (Mach.storeVa_sameTables ..)

theorem State.firmware_of_open (s : State) {m : Mach} (h : m.fwHeld = false) : s.firmware m = s.withMach m := by
  rw [State.firmware, h]; rfl

section
variable {m m1 : Mach} {ctx slot where_ unit u w id : Nat} {g : Grant} {ix : Nat × Nat}

/-- The sample of a slot that is due, where the ring's indices read: the record is written, or dropped for want of room. -/
theorem Mach.sample_of_due (hw : (Tab.get 0x400 (m.cx ctx).user.samples slot).toNat = w) (hid : bits w 59 40 = id)
    (hg : m.ctr.grants.find? (fun g => g.ctx == ctx && g.complete && g.ring != 0) = some g) (hon : bitAt w 63 = true) (hp : 1024 ≤ bits w 39 0)
    (hr : m.mayRead ctx id = true) (hu : sampleUnit id unit = some u) (hdue : Tab.get 0 (m.cx ctx).user.sampled slot < m.liveOf id / bits w 39 0)
    (hix : (m.noteSampled ctx slot (m.liveOf id / bits w 39 0)).ringIndex ctx g.ring = (some ix, m1)) :
    m.sample ctx slot where_ unit =
      if 0 < ringRoom g.entries ix then
        m1.ringWrite ctx g.ring g.entries ix.1 [sampleBytes id (m.sampleSeq id u) (m.liveOf id) m.now where_ u slot]
      else m1.dropSample ctx := by
  have hlive : ¬ (bitAt w 63 = false ∨ bits w 39 0 < 1024 ∨ m.mayRead ctx id = false ∨ m.liveOf id / bits w 39 0 ≤ Tab.get 0 (m.cx ctx).user.sampled slot) := by
    simp only [hon, hr, Nat.not_lt.mpr hp, Nat.not_le.mpr hdue, Bool.true_eq_false, or_self, not_false_eq_true]
  unfold Mach.noteSampled at hix
  simp only [Mach.sample, hw, hid, hg, hu, if_neg hlive, hix]
  rfl

end

section
variable {s : State} {ctx : Fin 4096} {slot : Fin 4} {where_ unit u w id n : Nat} {g : Grant} {ix : Nat × Nat} {m1 : Mach} {r : List Byte}

theorem sampleRecord_posts (hix : (s.m.noteSampled ctx.val slot.val n).ringIndex ctx.val g.ring = (some ix, m1))
    (hs : s.m.sample ctx.val slot.val where_ unit =
      if 0 < ringRoom g.entries ix then m1.ringWrite ctx.val g.ring g.entries ix.1 [r] else m1.dropSample ctx.val)
    (hf : (s.m.sample ctx.val slot.val where_ unit).fwHeld = false) (hroom : 0 < ringRoom g.entries ix) :
    Completes (.sampleRecord ctx slot where_ unit) s fun t =>
      t.m.mem = (m1.ringWrite ctx.val g.ring g.entries ix.1 [r]).mem ∧ t.m.ctxs = (s.m.noteSampled ctx.val slot.val n).ctxs ∧ CoreOnly s t := by
  refine ⟨_, congrArg Host.Outcome.next (s.firmware_of_open hf), ?_⟩
  rw [hs, if_pos hroom]
  exact ⟨rfl, (m1.ringWrite_sameTables ..).ctxs.trans (Mach.ReadOnly.of_ringIndex hix).ctxs, coreOnly_withMach ..⟩

theorem sampleRecord_drops (hix : (s.m.noteSampled ctx.val slot.val n).ringIndex ctx.val g.ring = (some ix, m1))
    (hs : s.m.sample ctx.val slot.val where_ unit =
      if 0 < ringRoom g.entries ix then m1.ringWrite ctx.val g.ring g.entries ix.1 [r] else m1.dropSample ctx.val)
    (hf : (s.m.sample ctx.val slot.val where_ unit).fwHeld = false) (hroom : ringRoom g.entries ix = 0) :
    Completes (.sampleRecord ctx slot where_ unit) s fun t =>
      (t.m.cx ctx.val).user.drops = satAdd 16 (s.m.cx ctx.val).user.drops 1 ∧ t.m.mem = s.m.mem ∧ CoreOnly s t := by
  have hread := Mach.ReadOnly.of_ringIndex hix
  have hdrops : (m1.cx ctx.val).user.drops = (s.m.cx ctx.val).user.drops := by
    rw [Mach.cx, hread.ctxs, ← Mach.cx, Mach.noteSampled, Mach.cx_modCx_same]
  refine ⟨_, congrArg Host.Outcome.next (s.firmware_of_open hf), ?_⟩
  rw [hs, if_neg (by rw [hroom]; exact Nat.lt_irrefl 0), Mach.dropSample]
  refine ⟨?_, hread.mem, coreOnly_withMach ..⟩
  rw [State.withMach_m, Mach.cx_modCx_same, hdrops]

end

/-! ## Contexts changed one after another -/

/-- A context that is not listed is left as it was. -/
theorem Mach.cx_foldl_modCx_of_not_mem (f : Nat → Ctx → Ctx) {l : Tab Ctx} {x : Nat} (hx : x ∉ l.map (·.1)) (m : Mach) :
    (l.foldl (fun (m : Mach) e => m.modCx e.1 (f e.1)) m).cx x = m.cx x := by
  induction l generalizing m with
  | nil => rfl
  | cons e l ih =>
    obtain ⟨hne, hl⟩ := not_or.mp (fun h => hx (List.mem_cons.mpr h))
    rw [List.foldl_cons, ih hl, Mach.cx_modCx, if_neg hne]

/-- A context that is listed is changed once, where it is listed once or a second change does nothing. -/
theorem Mach.cx_foldl_modCx_of_mem (f : Nat → Ctx → Ctx) {l : Tab Ctx} {x : Nat} (hx : x ∈ l.map (·.1))
    (hone : (l.map (·.1)).Nodup ∨ ∀ c, f x (f x c) = f x c) (m : Mach) :
    (l.foldl (fun (m : Mach) e => m.modCx e.1 (f e.1)) m).cx x = f x (m.cx x) := by
  induction l generalizing m with
  | nil => cases hx
  | cons e l ih =>
    have hrest : (l.map (·.1)).Nodup ∨ ∀ c, f x (f x c) = f x c := hone.imp_left fun h => (List.nodup_cons.mp h).2
    rw [List.foldl_cons]
    by_cases hl : x ∈ l.map (·.1)
    · rw [ih hl hrest, Mach.cx_modCx]
      by_cases he : x = e.1
      · obtain hdup | htwice := hone
        · have hmem : e.1 ∈ l.map (·.1) := he ▸ hl
          exact absurd hmem (List.nodup_cons.mp hdup).1
        · rw [if_pos he, ← he, htwice]
      · rw [if_neg he]
    · have he : x = e.1 := (List.mem_cons.mp hx).resolve_right hl
      rw [Mach.cx_foldl_modCx_of_not_mem f hl, Mach.cx_modCx, if_pos he, ← he]

/-- Contexts changed one after another: nothing else is. -/
theorem Mach.foldl_modCx_eq (f : Nat → Ctx → Ctx) (l : Tab Ctx) (m : Mach) :
    l.foldl (fun (m : Mach) e => m.modCx e.1 (f e.1)) m = { m with ctxs := (l.foldl (fun (m : Mach) e => m.modCx e.1 (f e.1)) m).ctxs } := by
  induction l generalizing m with
  | nil => rfl
  | cons e l ih => rw [List.foldl_cons, ih]; rfl

/-- A context of which a property holds, and not of one that is absent, is listed. -/
theorem Mach.cx_mem_filter {m : Mach} {x : Nat} (p : Ctx → Bool) (hp : p (m.cx x) = true) (h0 : p {} = false) :
    x ∈ (m.ctxs.filter fun e => p e.2).map (·.1) := by
  have hmem : ∀ t : Tab Ctx, p (Tab.get {} t x) = true → (x, Tab.get {} t x) ∈ t := by
    intro t
    induction t with
    | nil => intro h; rw [Tab.get_nil, h0] at h; cases h
    | cons e t ih =>
      obtain ⟨k, v⟩ := e
      intro h
      by_cases hk : x = k
      · subst hk
        rw [Tab.get, if_pos rfl]
        exact List.mem_cons_self
      · simp only [Tab.get, if_neg hk] at h ⊢
        exact List.mem_cons_of_mem _ (ih h)
  exact List.mem_map.mpr ⟨_, List.mem_filter.mpr ⟨hmem _ hp, hp⟩, rfl⟩

/-! ## Frame-milliseconds (R677) -/

theorem Meters.frameMs_add_masked (a b : Meters) {susp : BitVec 7} (h : susp.getLsbD 4 = false) :
    (a.add (b.masked susp)).frameMs = a.frameMs + b.frameMs := by
  simp only [Meters.add, Meters.masked, h, Bool.false_eq_true, if_false]

/-- A charge leaves the frames that a context holds as they were. -/
theorem Mach.heldFrames_chargeCtx (m : Mach) (i : Nat) (y : Meters) (x : Nat) : (m.chargeCtx i y).heldFrames x = m.heldFrames x := by
  have hcx : ∃ z, (m.chargeCtx i y).cx x = { m.cx x with meters := z } := by
    rw [Mach.chargeCtx, Mach.cx_modCx]
    by_cases h : x = i
    · rw [if_pos h, h]; exact ⟨_, rfl⟩
    · rw [if_neg h]; exact ⟨_, rfl⟩
  obtain ⟨z, hz⟩ := hcx
  unfold Mach.heldFrames
  rw [hz]
  rfl

/-- A context charged for the frames that it holds during 1 ms. -/
def Mach.chargeFrames (m : Mach) (x : Nat) (c : Ctx) : Ctx := { c with meters := c.meters.add (({ frameMs := m.heldFrames x } : Meters).masked c.suspended) }

/-- The charges of a tick are those of the frames that each context held before it. -/
theorem Mach.foldl_chargeFrames (l : Tab Ctx) (m : Mach) :
    l.foldl (fun (m : Mach) e => m.chargeCtx e.1 { frameMs := m.heldFrames e.1 }) m = l.foldl (fun (n : Mach) e => n.modCx e.1 (m.chargeFrames e.1)) m := by
  induction l generalizing m with
  | nil => rfl
  | cons e l ih =>
    rw [List.foldl_cons, List.foldl_cons, ih]
    unfold Mach.chargeFrames
    simp only [Mach.heldFrames_chargeCtx]
    rfl

/-- A tick but for the contexts' charges: the time, and the overhead account charged the frames of the Hyval rings. -/
def Mach.ticked (m : Mach) : Mach := ({ m with now := (m.now / 1000000 + 1) * 1000000 } : Mach).chargeOverhead { frameMs := m.ringFrames }

theorem Mach.frameMs_eq_foldl (m : Mach) :
    m.frameMs = (m.ctxs.filter fun e => e.2.st != .absent).foldl (fun (n : Mach) e => n.modCx e.1 (m.chargeFrames e.1)) m.ticked :=
  Mach.foldl_chargeFrames _ m.ticked

/-- A tick changes the time, the contexts, and the overhead account. -/
theorem Mach.frameMs_eq (m : Mach) : m.frameMs = { m.ticked with ctxs := m.frameMs.ctxs } := by
  rw [Mach.frameMs_eq_foldl]
  exact Mach.foldl_modCx_eq m.chargeFrames _ _

/-- A tick charges each context there is once. -/
theorem Mach.frameMs_cx {m : Mach} (hkeys : (m.ctxs.map (·.1)).Nodup) {x : Nat} (hst : (m.cx x).st ≠ .absent) :
    m.frameMs.cx x = m.chargeFrames x (m.cx x) := by
  have hmem := m.cx_mem_filter (fun c => c.st != .absent) (bne_iff_ne.mpr hst) rfl
  have hdup : ((m.ctxs.filter fun e => e.2.st != .absent).map (·.1)).Nodup := hkeys.sublist (List.filter_sublist.map _)
  rw [Mach.frameMs_eq_foldl, Mach.cx_foldl_modCx_of_mem m.chargeFrames hmem (.inl hdup)]
  rfl

theorem frameMsTick_charges {s : State} (hpow : s.aon.mode.powered = true) (hkeys : (s.m.ctxs.map (·.1)).Nodup) (x : Nat) :
    Completes .frameMsTick s fun t =>
      t.m.now = (s.m.now / 1000000 + 1) * 1000000
        ∧ (s.m.ctr.suspended.getLsbD 4 = false → t.m.ctr.overhead.frameMs = s.m.ctr.overhead.frameMs + s.m.ringFrames)
        ∧ ((s.m.cx x).st ≠ .absent → (s.m.cx x).suspended.getLsbD 4 = false → (t.m.cx x).meters.frameMs = (s.m.cx x).meters.frameMs + s.m.heldFrames x)
        ∧ t = { s with m := { s.m with now := t.m.now, ctxs := t.m.ctxs, ctr := { s.m.ctr with overhead := t.m.ctr.overhead } } } := by
  have hcx := Mach.frameMs_cx hkeys (x := x)
  have hm := s.m.frameMs_eq
  generalize hn : s.m.frameMs = n at hm hcx
  have hx : exec .frameMsTick s = .next { s with m := n } := by
    rw [← State.withMach_of_evr s n (by rw [hm]; rfl), ← hn]
    exact congrArg Host.Outcome.next (if_pos hpow)
  refine ⟨_, hx, by rw [hm]; rfl, fun hs => ?_, fun hst hs => ?_, by rw [hm]; rfl⟩
  · rw [hm]
    exact Meters.frameMs_add_masked _ _ hs
  · exact (congrArg (fun c : Ctx => c.meters.frameMs) (hcx hst)).trans (Meters.frameMs_add_masked _ _ hs)

/-! ## Accounting intervals (R681 to R683) -/

theorem Meters.masked_masked (a : Meters) (susp : BitVec 7) : (a.masked susp).masked susp = a.masked susp := by
  have hite : ∀ {α : Type} (b : Bool) (x y : α), (if b then x else if b then x else y) = if b then x else y := fun b _ _ => by cases b <;> rfl
  simp only [Meters.masked, hite]

theorem Meters.kept_kept (a : Meters) (susp : BitVec 7) : (a.kept susp).kept susp = a.kept susp := a.masked_masked _

theorem Mach.postAcct_cons (m : Mach) (r : Acct) (l : List Acct) : m.postAcct (r :: l) = (m.postAcct [r]).postAcct l := by
  simp only [Mach.postAcct, List.foldl_cons, List.foldl_nil]

theorem Mach.postAcct_one (m : Mach) (r : Acct) :
    ∃ c, m.postAcct [r] = { m with comp := c, ctr := { m.ctr with prod := (m.ctr.prod + 1) % 2 ^ 64, seq := m.ctr.seq + 1 } } := by
  simp only [Mach.postAcct, List.foldl_cons, List.foldl_nil]
  unfold Mach.writeComp
  exact ⟨_, rfl⟩

/-- Records posted are written to companion memory and numbered, and the producer index advances by one for each. -/
theorem Mach.postAcct_eq {l : List Acct} (hl : l ≠ []) (m : Mach) :
    ∃ c q, m.postAcct l = { m with comp := c, ctr := { m.ctr with prod := (m.ctr.prod + l.length) % 2 ^ 64, seq := q } } := by
  induction l generalizing m with
  | nil => exact absurd rfl hl
  | cons r l ih =>
    obtain ⟨c, hc⟩ := m.postAcct_one r
    rw [Mach.postAcct_cons, hc]
    cases l with
    | nil => exact ⟨c, _, rfl⟩
    | cons r' l =>
      obtain ⟨c', q, hq⟩ := ih (List.cons_ne_nil r' l) (m.postAcct [r])
      rw [hc] at hq
      have hprod : ((m.ctr.prod + 1) % 2 ^ 64 + (r' :: l).length) % 2 ^ 64 = (m.ctr.prod + (r :: r' :: l).length) % 2 ^ 64 := by
        rw [Nat.mod_add_mod, List.length_cons (a := r), Nat.add_assoc, Nat.add_comm 1]
      refine ⟨c', q, ?_⟩
      rw [hq, ← hprod]

/-- Close records that wait are all posted where the ring takes them. -/
theorem Mach.postCloses_eq {m : Mach} (h : m.ctr.room m.ctr.closes.length = true) :
    ∃ c p q z, m.postCloses = { m with comp := c, ctr := { m.ctr with prod := p, seq := q, closes := [], closedSum := z } }
      ∧ p % 2 ^ 64 = (m.ctr.prod + m.ctr.closes.length) % 2 ^ 64 := by
  by_cases hcl : m.ctr.closes = []
  · have hm : m.postCloses = m := if_pos (by rw [hcl]; rfl)
    refine ⟨m.comp, m.ctr.prod, m.ctr.seq, m.ctr.closedSum, ?_, by rw [hcl]; rfl⟩
    rw [hm, ← hcl]
  · obtain ⟨c, q, hq⟩ := m.postAcct_eq (l := m.ctr.closes.map fun r => (⟨1, (m.cx r.1).suspended.toNat, r.1, r.2.1, r.2.2.1, r.2.2.2.1, r.2.2.2.2⟩ : Acct))
      (mt List.map_eq_nil_iff.mp hcl)
    rw [List.length_map] at hq
    have hno : (m.ctr.closes.isEmpty || !m.ctr.room m.ctr.closes.length) = false := by rw [h, List.isEmpty_eq_false_iff.mpr hcl]; rfl
    refine ⟨c, _, q, m.ctr.closes.foldl (fun (a : Meters) r => a.add r.2.2.2.2) m.ctr.closedSum, ?_, Nat.mod_mod ..⟩
    unfold Mach.postCloses
    simp only [hno, Bool.false_eq_true, if_false, hq]

theorem Ctr.room_of_le {k : Ctr} {a b : Nat} (hab : a ≤ b) (h : k.room b = true) : k.room a = true := by
  simp only [Ctr.room, Bool.and_eq_true, decide_eq_true_eq] at h ⊢
  exact ⟨h.1, by omega⟩

/-- A context at the end of an interval: its meters start again but for suspended groups, and its session runs on from there (R681, R684). -/
def Ctx.endInterval (stop : Nat) (c : Ctx) : Ctx :=
  { c with meters := c.meters.kept c.suspended, sessionAt := stop, active := c.st == .enabled || c.st == .draining }

theorem Ctx.endInterval_twice (stop : Nat) (c : Ctx) : (c.endInterval stop).endInterval stop = c.endInterval stop := by
  simp only [Ctx.endInterval, Meters.kept_kept]

/-- The interval ends at `stop`, and nothing has been posted yet; `stop` is any time, so that no proof computes with `intervalEnd`. -/
def Mach.stopAt (m : Mach) (stop : Nat) : Mach := { m with now := stop, ctr := { m.ctr with endedAt := stop } }

/-- The contexts of which an interval posts a record (R681). -/
def Mach.accounts (m : Mach) : Tab Ctx := m.ctxs.filter fun e => e.2.active

/-- The next interval of the contexts posted, of the overhead account and of the module total starts at `stop`. -/
def Mach.restartAt (m : Mach) (l : Tab Ctx) (stop : Nat) : Mach :=
  let m := l.foldl (fun (m : Mach) e => m.modCx e.1 (Ctx.endInterval stop)) m
  { m with ctr := { m.ctr with overhead := m.ctr.overhead.kept m.ctr.suspended, closedSum := {}, intervalAt := stop } }

/-- The records that an interval posts: those of its contexts, the overhead record, the module total and the close records that wait. -/
def Mach.recordsDue (m : Mach) : Nat := m.accounts.length + m.ctr.closes.length + 2

section
variable (m : Mach) (stop : Nat)

theorem Mach.stopAt_room : (m.stopAt stop).ctr.room (m.stopAt stop).recordsDue = m.ctr.room m.recordsDue := rfl

theorem Mach.restartAt_eq (l : Tab Ctx) : ∃ n, m.restartAt l stop =
      { m with ctxs := n, ctr := { m.ctr with overhead := m.ctr.overhead.kept m.ctr.suspended, closedSum := {}, intervalAt := stop } }
    ∧ ∀ x ∈ l.map (·.1), Tab.get {} n x = (m.cx x).endInterval stop := by
  refine ⟨_, ?_, fun x hx => m.cx_foldl_modCx_of_mem (fun _ => Ctx.endInterval stop) hx (.inr (Ctx.endInterval_twice stop))⟩
  rw [Mach.restartAt, Mach.foldl_modCx_eq (fun _ => Ctx.endInterval stop)]

end

section
variable {m : Mach}

/-- An interval for which the ring has no room posts nothing but the event (R683). -/
theorem Mach.interval_of_full (h : m.ctr.room m.recordsDue = false) : ∃ stop, m.interval =
    if (m.stopAt stop).ctr.enable then
      ({ m.stopAt stop with ctr := { (m.stopAt stop).ctr with fullSeen := true } } : Mach).post .acctRingFull none uModule [BitVec.ofNat 64 (m.stopAt stop).ctr.prod]
    else m.stopAt stop := by
  refine ⟨m.intervalEnd, if_pos ?_⟩
  have hfull := (m.stopAt_room m.intervalEnd).trans h
  exact congrArg (!·) hfull

/-- The interval of a ring with room posts its close records and then one record of each account, which are those that the model lists. -/
theorem Mach.interval_of_room (h : m.ctr.room m.recordsDue = true) : ∃ l : List Acct, l.length = (m.stopAt m.intervalEnd).accounts.length + 2
    ∧ m.interval = ((m.stopAt m.intervalEnd).postCloses.postAcct l).restartAt (m.stopAt m.intervalEnd).accounts m.intervalEnd := by
  have hroom : (!(m.stopAt m.intervalEnd).ctr.room (m.stopAt m.intervalEnd).recordsDue) = false := by rw [m.stopAt_room, h]; rfl
  refine ⟨_, ?_, if_neg (hroom ▸ Bool.false_ne_true)⟩
  rw [List.length_append, List.length_map]
  rfl

/-- What the end of an interval leaves, once its records have been posted. -/
theorem Mach.restartAt_posted (stop : Nat) {l : List Acct} (h : m.ctr.room m.recordsDue = true) (hl : l.length = (m.stopAt stop).accounts.length + 2) :
    ∃ c q n, ((m.stopAt stop).postCloses.postAcct l).restartAt (m.stopAt stop).accounts stop =
        { m with now := stop, comp := c, ctxs := n,
                 ctr := { m.ctr with endedAt := stop, intervalAt := stop, prod := (m.ctr.prod + m.recordsDue) % 2 ^ 64, seq := q, closes := [],
                                     closedSum := {}, overhead := m.ctr.overhead.kept m.ctr.suspended } }
      ∧ ∀ x, (m.cx x).active = true → Tab.get {} n x = (m.cx x).endInterval stop := by
  obtain ⟨c, p, q, z, hclose, hp⟩ := Mach.postCloses_eq (m := m.stopAt stop)
    (Ctr.room_of_le (b := (m.stopAt stop).recordsDue) (by unfold Mach.recordsDue; omega) h)
  have hne : l ≠ [] := List.ne_nil_of_length_pos (by omega)
  obtain ⟨c', q', hpost⟩ := Mach.postAcct_eq hne (m.stopAt stop).postCloses
  obtain ⟨n, hn, hx⟩ := Mach.restartAt_eq ((m.stopAt stop).postCloses.postAcct l) stop (m.stopAt stop).accounts
  rw [hclose] at hpost
  have hprod : (p + l.length) % 2 ^ 64 = (m.ctr.prod + m.recordsDue) % 2 ^ 64 := by
    rw [Nat.add_mod, hp, ← Nat.add_mod, hl]
    unfold Mach.recordsDue
    congr 1
    show m.ctr.prod + m.ctr.closes.length + (m.accounts.length + 2) = _
    omega
  rw [← hprod]
  refine ⟨c', q', n, ?_, fun x hact => ?_⟩
  · rw [hn, hclose, hpost]
    rfl
  · rw [hx x (Mach.cx_mem_filter (·.active) hact rfl), hclose, hpost]
    rfl

end

section
variable {s : State} (hpow : s.aon.mode.powered = true) (hrun : s.m.running = true)
include hpow hrun

theorem accountingInterval_posts (h : s.m.ctr.room s.m.recordsDue = true) (x : Nat) : Completes .accountingInterval s fun t =>
    t.m.now = s.m.intervalEnd ∧ t.m.ctr.intervalAt = s.m.intervalEnd ∧ t.m.ctr.endedAt = s.m.intervalEnd
      ∧ t.m.ctr.prod = (s.m.ctr.prod + s.m.recordsDue) % 2 ^ 64
      ∧ t.m.ctr.overhead = s.m.ctr.overhead.kept s.m.ctr.suspended ∧ t.m.ctr.closes = []
      ∧ ((s.m.cx x).active = true → (t.m.cx x).meters = (s.m.cx x).meters.kept (s.m.cx x).suspended ∧ (t.m.cx x).sessionAt = s.m.intervalEnd)
      ∧ t = { s with m := { s.m with now := t.m.now, ctr := t.m.ctr, ctxs := t.m.ctxs, comp := t.m.comp } } := by
  have hx : exec .accountingInterval s = .next (s.withMach s.m.interval) := congrArg Host.Outcome.next (if_pos ⟨hpow, hrun⟩)
  obtain ⟨l, hl, hi⟩ := Mach.interval_of_room h
  obtain ⟨c, q, n, hend, hcx⟩ := Mach.restartAt_posted s.m.intervalEnd h hl
  rw [hend] at hi
  rw [State.withMach_of_evr s s.m.interval (by rw [hi]), hi] at hx
  generalize s.m.intervalEnd = stop at hx hcx
  refine ⟨_, hx, rfl, rfl, rfl, rfl, rfl, rfl, fun hact => ?_, rfl⟩
  have hc := hcx x hact
  exact ⟨congrArg Ctx.meters hc, congrArg Ctx.sessionAt hc⟩

theorem accountingInterval_full (h : s.m.ctr.room s.m.recordsDue = false) : Completes .accountingInterval s fun t =>
    t.m.ctr.prod = s.m.ctr.prod ∧ t.m.ctxs = s.m.ctxs ∧ t.m.ctr.overhead = s.m.ctr.overhead
      ∧ t.m.ctr.fullSeen = (s.m.ctr.fullSeen || s.m.ctr.enable) ∧ CoreOnly s t := by
  have hx : exec .accountingInterval s = .next (s.withMach s.m.interval) := congrArg Host.Outcome.next (if_pos ⟨hpow, hrun⟩)
  obtain ⟨stop, hi⟩ := Mach.interval_of_full h
  have hen : (s.m.stopAt stop).ctr.enable = s.m.ctr.enable := rfl
  rw [hi, hen] at hx
  refine ⟨_, hx, ?_⟩
  cases he : s.m.ctr.enable with
  | false => exact ⟨rfl, rfl, rfl, (Bool.or_false _).symm, coreOnly_withMach ..⟩
  | true => exact ⟨rfl, rfl, rfl, (Bool.or_true _).symm, coreOnly_withMach ..⟩

end

/-- Settles O52: each command runs what its own section says, and a sample of a slot that is due is the one of `Mach.sample_of_due`. -/
theorem countersAndAccounting : Obligations.CountersAndAccounting := by
  unfold Obligations.CountersAndAccounting
  intro s ctx slot where_ unit g ix m1 x u
  refine ⟨ctrFreeze_launches, ctrFreeze_ignored, freezeDone_snapshots, ?_, fun hs hst => ⟨ctrUserValueRead_granted hs hst, ctrUserValueRead_denied hs hst⟩,
    fun hpow hkeys => frameMsTick_charges hpow hkeys x, fun hpow hrun h => accountingInterval_posts hpow hrun h x, accountingInterval_full⟩
  intro hg hon hp hr hu hdue hix hf
  have hsample := Mach.sample_of_due (where_ := where_) rfl rfl hg hon hp hr hu hdue hix
  refine ⟨fun hroom => ?_, sampleRecord_drops hix hsample hf⟩
  obtain ⟨t, hx, hmem, hctxs, hcore⟩ := sampleRecord_posts hix hsample hf hroom
  obtain ⟨hlen, hid, hseq, hv, ht, hat, hunit, hslot⟩ := sampleBytes_fields _ _ _ _ _ _ slot.isLt _ rfl
  refine ⟨t, hx, _, hlen, hid, hv, ht, hat, hunit, hslot, fun hcls => ?_, hmem, hctxs, hcore⟩
  rw [hseq, Mach.sampleSeq, if_neg hcls]

end Sys2Proof.Machine
end
